-- ==== Sys2Proof/Word.lean ====
section
/-! DEFINITION. The numbers of the WS-218: bytes, tags, lines, masks, sequence numbers, moments. -/
namespace Sys2Proof

/-- One byte of the register window, of a frame or of the downstream bus. -/
abbrev Byte := BitVec 8
/-- A tag of the Request Table, 0 to 7 (R5). -/
abbrev Tag := Fin 8
/-- A generation, 0 to 15, wrapping (R7). -/
abbrev Gen := BitVec 4
/-- An entry of the Incoming Queue (R138). -/
abbrev Slot := Fin 8
/-- A line, L0 to L11. -/
abbrev LineNo := Fin 12
/-- A set of lines: line Ln is position n (00_scope.md, Numbers). -/
abbrev LineMask := BitVec 12
/-- A frame sequence number, 0 to 7 (R123). -/
abbrev Seq := BitVec 3
/-- A moment on the chip's clock, in microseconds. -/
abbrev Moment := Nat

end Sys2Proof
end

