-- ==== Sys2Proof/Syntax.lean ====
section
/-! DEFINITION. The commands of spec/opcode_table.json, one constructor a row, with their operands. -/
namespace Sys2Proof

/-- The header fields of a received frame that its receiver reads (the header layout under R111); `ret` is header byte 2. -/
structure FrameHeader where
  retrain   : Bool
  hostReady : Bool
  resend    : Bool
  seq       : Seq
  ack       : Seq
  ret       : Byte
  deriving DecidableEq, Repr

/-- The fourteen frame kinds (R116). -/
inductive FrameKind where
  | train | trainAck | hello | idle | req | rsp | cancel | lines | event | releaseAll
  | testEnter | testReady | testGo | testResult
  deriving DecidableEq, Repr

/-- A host-port write (R176): a write transaction begins at `address` and its first byte names an offset for the pointer, or a
further byte of the write transaction on the host bus follows. -/
inductive HostWrite where
  | pointer (address : BitVec 7) (offset : Byte)
  | data (byte : Byte)
  deriving DecidableEq, Repr

/-- What puts the chip into reset (R187): RSTN low for so many nanoseconds or longer, or VDD below the threshold. -/
inductive ResetCause where
  | rstn (nanoseconds : Nat)
  | supply
  deriving DecidableEq, Repr

/-- The strap pins at the release (R188): high is true. -/
structure Straps where
  role   : Bool
  addr1  : Bool
  addr0  : Bool
  spanEn : Bool
  deriving DecidableEq, Repr

/-- The release of SCL at which it stayed low (R55): its moment, in microseconds after the work or the recovery procedure began,
and the acknowledges the bytes of the transaction sent before it got, in order. -/
structure SclRelease where
  moment : Nat
  acks   : List Bool
  deriving DecidableEq, Repr

/-- What SDA shows to a recovery procedure (R62): at its start, after each pulse in turn, and after the STOP; high is true. -/
structure RecoverySamples where
  initial    : Bool
  afterPulse : List Bool
  afterStop  : Bool
  deriving DecidableEq, Repr

/-- The commands. A host-port row's `b` is the byte the local host writes. A read row is one byte read (R176): `start` is the
address byte of the read it is the first byte of, none for a further byte of the read transaction on the host bus; `pointer` is
the offset a write of the pointer alone, joined to that start, has set, if there was one. -/
inductive Instr where
  /-- WRITE: a SUBMIT of a staged WRITE (R11). -/
  | write (b : Byte)
  /-- READ: a SUBMIT of a staged READ (R11). -/
  | read (b : Byte)
  /-- BUS_RECOVER: a SUBMIT of a staged BUS_RECOVER (R11). -/
  | busRecover (b : Byte)
  /-- LEASE_TAKE: a SUBMIT of a staged LEASE_TAKE (R34). -/
  | leaseTake (b : Byte)
  /-- LEASE_DROP: a SUBMIT of a staged LEASE_DROP (R36). -/
  | leaseDrop (b : Byte)
  /-- LINE_SET: a SUBMIT of a staged LINE_SET (R80). -/
  | lineSet (b : Byte)
  /-- LINE_SAMPLE: a SUBMIT of a staged LINE_SAMPLE (R81). -/
  | lineSample (b : Byte)
  /-- LINE_CONFIG: a SUBMIT of a staged LINE_CONFIG (R78). -/
  | lineConfig (b : Byte)
  /-- LINE_CLAIM: a SUBMIT of a staged LINE_CLAIM (R76). -/
  | lineClaim (b : Byte)
  /-- LINE_RELEASE: a SUBMIT of a staged LINE_RELEASE (R77). -/
  | lineRelease (b : Byte)
  /-- PING: a SUBMIT of a staged PING (R10). -/
  | ping (b : Byte)
  /-- TEST_START: a SUBMIT of a staged TEST_START (R167). -/
  | testStart (b : Byte)
  /-- CANCEL: a write of a tag number to CANCEL (R23). -/
  | cancel (b : Byte)
  /-- COMPLETION_POP (R21). -/
  | completionPop (b : Byte)
  /-- EVENT_POP (R157). -/
  | eventPop (b : Byte)
  /-- SOFT_RESET (R185). -/
  | softReset (b : Byte)
  /-- TEST_STOP (R173). -/
  | testStop (b : Byte)
  /-- CRC_ERRORS_CLEAR (R115): a write at 0x0A, or at 0x0B when `low`. -/
  | crcErrorsClear (low : Bool) (b : Byte)
  /-- CRC_ERRORS_READ (R180): one byte read. -/
  | crcErrorsRead (start : Option (BitVec 7)) (pointer : Option Byte)
  /-- COMPLETION_HEAD_READ (R183): one byte read. -/
  | completionHeadRead (start : Option (BitVec 7)) (pointer : Option Byte)
  /-- EVENT_HEAD_READ (R184): one byte read. -/
  | eventHeadRead (start : Option (BitVec 7)) (pointer : Option Byte)
  /-- HOST_READY: a HOST_CTRL write (R108, R179). -/
  | hostReady (b : Byte)
  /-- ALERT_CQ: a HOST_CTRL write (R165, R179). -/
  | alertCq (b : Byte)
  /-- ALERT_EQ: a HOST_CTRL write (R165, R179). -/
  | alertEq (b : Byte)
  /-- SPAN_OFF: a HOST_CTRL write (R95, R179). -/
  | spanOff (b : Byte)
  /-- BUS_POLICY (R40). -/
  | busPolicy (b : Byte)
  /-- BUS_SPEED (R56). -/
  | busSpeed (b : Byte)
  /-- REMOTE_LINES: the write of 0x09 (R74, R180). -/
  | remoteLines (b : Byte)
  /-- FILTER: the write of the second byte of entry `n` (R43, R180). -/
  | filter (n : Fin 8) (b : Byte)
  /-- REGISTER_WRITE (R176, R177). -/
  | registerWrite (w : HostWrite)
  /-- RSTN_LOW (R190). -/
  | rstnLow (cause : ResetCause)
  /-- RSTN_RELEASE (R187): the straps and the line pins as they stand at the release. -/
  | rstnRelease (straps : Straps) (pins : LineMask)
  /-- HOST_PORT_START_UP (R189). -/
  | hostPortStartUp
  /-- PIN_CHANGE (R82): the pin of line `l` takes the value `v`. -/
  | pinChange (l : LineNo) (v : Bool)
  /-- DEBOUNCE_END (R82). -/
  | debounceEnd (l : LineNo)
  /-- TRANSACTION_END (R64): the acknowledges of the bytes sent, in order, and the bytes received. -/
  | transactionEnd (acks : List Bool) (rx : List Byte)
  /-- STUCK_AT_START (R61). -/
  | stuckAtStart
  /-- STRETCH_LIMIT (R55): SCL has not risen since this release; the bytes of the transaction received so far. -/
  | stretchLimit (release : SclRelease) (rx : List Byte)
  /-- RECOVERY_END (R63). -/
  | recoveryEnd (samples : RecoverySamples)
  /-- LEASE_EXPIRY (R35). -/
  | leaseExpiry
  /-- DEADLINE_EXPIRY of a tag (R17). -/
  | deadlineExpiry (t : Tag)
  /-- REMOTE_DEADLINE_EXPIRY of an Incoming Queue entry (R142). -/
  | remoteDeadlineExpiry (i : Slot)
  /-- TRAINING_INTERVAL (R96). -/
  | trainingInterval
  /-- HELLO_INTERVAL (R99). -/
  | helloInterval
  /-- HELLO_LIMIT (R99). -/
  | helloLimit
  /-- SILENCE_LIMIT (R102). -/
  | silenceLimit
  /-- RETRAIN_LIMIT (R103). -/
  | retrainLimit
  /-- HOLDOFF_END (R105). -/
  | holdoffEnd
  /-- TURN_OPEN (R119). -/
  | turnOpen
  /-- FOLLOWER_REPLY (R120). -/
  | followerReply
  /-- REPLY_WINDOW_END (R121). -/
  | replyWindowEnd
  /-- FRAME_SENT (R170). -/
  | frameSent
  /-- BAD_FRAME (R114): the bytes as they arrived. -/
  | badFrame (raw : List Byte)
  /-- TRAIN taken (R97). -/
  | train (h : FrameHeader) (payload : List Byte)
  /-- TRAIN_ACK taken (R96). -/
  | trainAck (h : FrameHeader) (payload : List Byte)
  /-- HELLO taken (R100). -/
  | hello (h : FrameHeader) (payload : List Byte)
  /-- IDLE taken (R129). -/
  | idle (h : FrameHeader) (payload : List Byte)
  /-- REQ taken (R140). -/
  | req (h : FrameHeader) (payload : List Byte)
  /-- RSP taken (R144). -/
  | rsp (h : FrameHeader) (payload : List Byte)
  /-- CANCEL frame taken (R146). -/
  | cancelFrame (h : FrameHeader) (payload : List Byte)
  /-- LINES taken (R86). -/
  | lines (h : FrameHeader) (payload : List Byte)
  /-- EVENT taken (R160). -/
  | event (h : FrameHeader) (payload : List Byte)
  /-- RELEASE_ALL taken (R148). -/
  | releaseAll (h : FrameHeader) (payload : List Byte)
  /-- TEST_ENTER taken (R168). -/
  | testEnter (h : FrameHeader) (payload : List Byte)
  /-- TEST_READY taken (R169). -/
  | testReady (h : FrameHeader) (payload : List Byte)
  /-- TEST_GO taken (R170). -/
  | testGo (h : FrameHeader) (payload : List Byte)
  /-- TEST_RESULT taken (R174). -/
  | testResult (h : FrameHeader) (payload : List Byte)
  /-- DRAIN_LIMIT (R169). -/
  | drainLimit
  /-- PATTERN_START (R171). -/
  | patternStart
  /-- PATTERN_SYMBOL (R172): the eight data bits, first sent in bit 0, and the stop bit. -/
  | patternSymbol (data : Byte) (stop : Bool)
  /-- TEST_DURATION (R173). -/
  | testDuration
  /-- CHECKER_DURATION (R173). -/
  | checkerDuration
  /-- PATTERN_LOST (R173). -/
  | patternLost
  /-- RESULT_LIMIT (R174). -/
  | resultLimit
  /-- TEST_FLAG_PULSE_END (R88). -/
  | testFlagPulseEnd
  deriving DecidableEq, Repr

end Sys2Proof
end

