-- ==== Sys2Proof/Decode.lean ====
section
/-! DEFINITION. The commands a word spells: none, since no row of spec/opcode_table.json gives bits. -/
namespace Sys2Proof

/-- The command that the word `w` of `nbits` bits spells by the table's bits. Every row's field list is empty. -/
def decodeTableWord (_nbits _w : Nat) : Option Instr := none

end Sys2Proof
end

