-- ==== Sys2Proof/Config.lean ====
section
/-! DEFINITION. What the WS-218 fixes as constants, and the one value its manual leaves open. -/
namespace Sys2Proof.Config

/-- CHIP_ID (R178). -/
def chipId : Byte := 0x3A#8
/-- REVISION of this silicon (R178). -/
def revision : Byte := 0x01#8
/-- Capacity of the Incoming Queue as HELLO gives it (R99). -/
def iqCapacity : Nat := 8
/-- Capacity of the Event Queue (R155). -/
def eqCapacity : Nat := 16
/-- Capacity of the Remote Outbox (R158). -/
def outboxCapacity : Nat := 8
/-- Most frames in the window (R122). -/
def windowSize : Nat := 4
/-- Most sends of one sequenced frame (R132). -/
def maxSends : Nat := 4

/-- Microseconds in a millisecond. -/
def ms : Nat := 1000
/-- Far grace (R17). -/
def farGrace : Nat := 8 * ms
/-- Clock-stretch limit (R55). -/
def stretchLimit : Nat := 25 * ms
/-- Training and HELLO interval (R96, R99). -/
def trainInterval : Nat := 1 * ms
/-- A retraining leader's wait before its first TRAIN (R103). -/
def retrainDelay : Nat := 2 * ms
/-- HELLO limit (R99). -/
def helloLimit : Nat := 10 * ms
/-- Follower silence limit (R102). -/
def silenceLimit : Nat := 2 * ms
/-- Retrain limit (R103). -/
def retrainLimit : Nat := 100 * ms
/-- HOLDOFF period after a role clash (R105). -/
def clashHoldoff : Nat := 100 * ms
/-- HOLDOFF period after any other cause (R105). -/
def holdoff : Nat := 10 * ms
/-- Good exchanges that lock (R96). -/
def lockCount : Nat := 16
/-- Good exchanges that end a retraining (R103). -/
def retrainCount : Nat := 4
/-- Missed turns that are a loss (R102). -/
def missedLimit : Nat := 16
/-- Reply window (R119). -/
def replyWindow : Nat := 20
/-- Least gap before a reply or the next turn (R119, R120). -/
def turnGap : Nat := 2
/-- Time between turns of an idle link (R119). -/
def turnPeriod : Nat := 100
/-- Drain limit (R167). -/
def drainLimit : Nat := 200 * ms
/-- Result limit (R174). -/
def resultLimit : Nat := 100 * ms
/-- Pattern-lost limit (R170). -/
def patternLost : Nat := 1 * ms
/-- From entry to TEST to the pattern's first symbol (R170). -/
def patternDelay : Nat := 20
/-- Start-up time of the host port (R189). -/
def startUp : Nat := 2 * ms

/-- R187: whether an RSTN pulse between 100 ns and 1 microsecond is taken. FREE: the manual says it may be taken or ignored
(log 8). Applied to a counter of State, so each such pulse has a value of its own. -/
opaque pulseTaken : Nat → Bool

end Sys2Proof.Config
end

