-- ==== Sys2Proof/Machine/State.lean ====
section
/-! DEFINITION. What one WS-218 holds, block by block (00_scope.md, Block diagram), and the chip right after reset. -/
namespace Sys2Proof.Machine

/-- Why a step stops. -/
inductive Fault where
  /-- Raised by REQ when the frame is delivered and no Incoming Queue entry is free. R127 and R138 say that never happens, so
  the spec gives it no effect. SAFE: the model stops where the hardware is not described (log 15). -/
  | reqWithoutRoom
  deriving DecidableEq, Repr

/-- Why a step has no meaning. -/
inductive Refusal where
  /-- Raised by exec's arm of a command that has no meaning yet; no arm is left so. SAFE. -/
  | notModelled (mnemonic : String)
  deriving DecidableEq, Repr

/-- A host, or the list, lease or ownership that is that host's (R27, R72): LOCAL or REMOTE. -/
inductive Origin where
  | localHost | remoteHost
  deriving DecidableEq, Repr

/-- Request kinds (R1, R182). -/
inductive ReqKind where
  | write | read | lineSet | lineSample | lineConfig | lineClaim | lineRelease
  | leaseTake | leaseDrop | busRecover | ping | testStart
  deriving DecidableEq, Repr

/-- The chip that carries a request out (section 1.1). -/
inductive Side where
  | near | far
  deriving DecidableEq, Repr

/-- A request record in the staging encodings (R182): the bytes 2 to 7 and the body its kind reads. -/
structure Request where
  kind     : ReqKind
  side     : Side
  target   : Byte
  offCount : Byte
  off0     : Byte
  off1     : Byte
  length   : Byte
  deadline : Byte
  body     : List Byte
  deriving DecidableEq, Repr

/-- What a FREE tag holds: nothing (R8). -/
def Request.empty : Request := ⟨.ping, .near, 0, 0, 0, 0, 0, 0, []⟩

/-- States of a tag (R8). -/
inductive TagState where
  | free | queued | executing | testing | waitCredit | inFlight | cancelSent | done
  deriving DecidableEq, Repr

/-- A tag's entry of the Request Table (R8); `due` is the moment its deadline passes. -/
structure TagEntry where
  state : TagState
  gen   : Gen
  req   : Request
  due   : Option Moment
  deriving DecidableEq, Repr

/-- Status codes (R22). -/
inductive Status where
  | ok | noAck | dataNack | busStuck | busFaulted | timeout | linkDown | cancelled
  | denied | notReady | owned | notOwner | wrongMode | notHolder | busy | drainTimeout
  deriving DecidableEq, Repr

/-- The outcome of a request: status, count, extra and data (R18, R138). -/
structure Answer where
  status : Status
  count  : Nat
  extra  : BitVec 16
  data   : List Byte
  deriving DecidableEq, Repr

/-- A completion record (R18). -/
structure Completion where
  tag    : Tag
  gen    : Gen
  kind   : ReqKind
  side   : Side
  answer : Answer
  deriving DecidableEq, Repr

/-- Request Table and Completion Queue (R8, R19). -/
structure RequestTable where
  tags  : Vector TagEntry 8
  order : List Tag
  cq    : List Completion
  deriving DecidableEq, Repr

/-- States of an Incoming Queue entry in use (R139). -/
inductive SlotState where
  | waiting (due : Moment)
  | executing
  | answered (a : Answer)
  | sent (a : Answer)
  | detached
  deriving DecidableEq, Repr

/-- An Incoming Queue entry in use (R138); tag and generation are as carried and not checked (R140). -/
structure SlotEntry where
  tag   : Byte
  gen   : Byte
  req   : Request
  state : SlotState
  deriving DecidableEq, Repr

/-- Incoming Queue (R138): a free entry is `none`. -/
structure IncomingQueue where
  slots       : Vector (Option SlotEntry) 8
  arrival     : List Slot
  answerOrder : List Slot
  deriving DecidableEq, Repr

/-- The lease record when a lease is held (R34): holder and the moment its remaining time reaches zero. -/
structure Lease where
  holder : Origin
  due    : Moment
  deriving DecidableEq, Repr

/-- BUS_POLICY (R40). -/
inductive BusPolicy where
  | closed | listed | opened
  deriving DecidableEq, Repr

/-- A filter entry (R43). -/
structure FilterEntry where
  valid   : Bool
  address : BitVec 7
  canRead : Bool
  canWrite : Bool
  deriving DecidableEq, Repr

/-- Downstream Arbiter (R51). -/
structure Arbiter where
  localList  : List Tag
  remoteList : List Slot
  turn       : Origin
  lease      : Option Lease
  policy     : BusPolicy
  filter     : Vector FilterEntry 8
  deriving DecidableEq, Repr

/-- Downstream bus speed (R56). -/
inductive BusSpeed where
  | khz100 | khz400
  deriving DecidableEq, Repr

/-- States of the bus controller (R52). -/
inductive BusState where
  | idle | active | recovering | faulted
  deriving DecidableEq, Repr

/-- Which line a stuck bus is held by (R61). -/
inductive StuckCause where
  | sdaLow | sclLow
  deriving DecidableEq, Repr

/-- The requester of a piece of bus work (R27): a tag and its generation, or an Incoming Queue entry. -/
inductive WorkRef where
  | tag (t : Tag) (gen : Gen)
  | slot (i : Slot)
  deriving DecidableEq, Repr

/-- The bus controller's current work and its progress so far (section 3.1). -/
structure Work where
  req   : Request
  ref   : WorkRef
  acked : Nat
  got   : List Byte
  deriving DecidableEq, Repr

/-- Downstream Bus Controller (section 3.1). `stretch`: the release of SCL the stretch timer last started from, at a step: the
one at which the work or the recovery procedure began, the later ones being inside the step that ends it (R55, log 26);
`fromFault`: the recovery running was begun in FAULTED (R65). -/
structure BusController where
  state     : BusState
  work      : Option Work
  clock     : BusSpeed
  stretch   : Option Moment
  cause     : Option StuckCause
  fromFault : Bool
  deriving DecidableEq, Repr

/-- Line modes (R70). -/
inductive LineMode where
  | input | outputPp | outputOd | mirrorSend | mirrorRecv | testFlag | parked
  deriving DecidableEq, Repr

/-- Where a line's changes are reported (R70). -/
inductive Report where
  | nobody | toLocal | toRemote | both
  deriving DecidableEq, Repr

/-- What a line does when let go of (R70, R73). -/
inductive Fallback where
  | hold | low | high | release
  deriving DecidableEq, Repr

/-- Flag styles (R70, R172). -/
inductive FlagStyle where
  | live | latched
  deriving DecidableEq, Repr

/-- A line record (R70), with the pin as last seen, its debounce timing (R82), and whether an error has been detected since
the line entered TEST_FLAG in the running test (R88). Debounce is in ms. -/
structure LineRecord where
  mode      : LineMode
  owner     : Option Origin
  out       : Bool
  level     : Bool
  debounce  : Nat
  report    : Report
  fallback  : Fallback
  partner   : LineNo
  style     : FlagStyle
  receiving : Bool
  pin       : Bool
  timing    : Option Moment
  flagErr   : Bool
  deriving DecidableEq, Repr

/-- Line Block (R70); `pulse`: when the LIVE low period of the newest error ends (R88). -/
structure LineBlock where
  lines         : Vector LineRecord 12
  mirrorPending : Bool
  remoteLines   : LineMask
  pulse         : Option Moment
  deriving DecidableEq, Repr

/-- Span roles (R93). -/
inductive Role where
  | leader | follower
  deriving DecidableEq, Repr

/-- Link states (R94). -/
inductive LinkState where
  | disabled | listen | hello | run | drain | test | retrain | holdoff
  deriving DecidableEq, Repr

/-- Reasons LINK_DETAIL shows (R104). -/
inductive HoldoffReason where
  | noReason | turnLoss | retryLimit | helloFail | retrainFail | localOff | roleConflict
  deriving DecidableEq, Repr

/-- Span Link Controller (R92). -/
structure LinkController where
  role       : Role
  spanEn     : Bool
  state      : LinkState
  good       : Nat
  missed     : Nat
  detail     : HoldoffReason
  peerRev    : Byte
  peerCap    : Nat
  peerReady  : Bool
  trainDue   : Option Moment
  helloDue   : Option Moment
  helloLimit : Option Moment
  silence    : Option Moment
  retrain    : Option Moment
  holdoff    : Option Moment
  deriving DecidableEq, Repr

/-- A frame of the window (R123, R128): `slot` is the entry an RSP answers. -/
structure WindowFrame where
  kind    : FrameKind
  seq     : Seq
  payload : List Byte
  sends   : Nat
  slot    : Option Slot
  deriving DecidableEq, Repr

/-- A frame as it is on the wire (R111, R112). -/
structure Frame where
  kind    : FrameKind
  header  : FrameHeader
  payload : List Byte
  deriving DecidableEq, Repr

/-- What a follower keeps of an accepted HELLO until its reply is sent (R100, R101). -/
structure HelloTaken where
  revision : Byte
  capacity : Nat
  ready    : Bool
  deriving DecidableEq, Repr

/-- Frame Engine (R135), with the turn it is in (R119 to R121) and the frame it is sending (R111). `replyHello`: the reply owed
at `replyDue` is a HELLO (R100, R120). -/
structure FrameEngine where
  txSeq      : Seq
  window     : List WindowFrame
  goBack     : List Seq
  stall      : Nat
  progress   : Bool
  expected   : Seq
  lastRet    : Nat
  resend     : Bool
  credits    : Nat
  retCount   : Nat
  cancelList : List (Tag × Gen)
  releaseAll : Bool
  runLines   : Bool
  crcErrors  : Nat
  sending    : Option Frame
  sendEnd    : Moment
  awaitReply : Option Moment
  replyDue   : Option Moment
  replyHello : Bool
  helloTaken : Option HelloTaken
  turnOpened : Moment
  earliest   : Moment
  hurry      : Bool
  deriving DecidableEq, Repr

/-- Event kinds (R153). -/
inductive EventKind where
  | lineChange | linkUp | linkDown | roleConflict | peerHostReady | peerHostGone | leaseExpired
  | leaseBroken | lineLost | mirrorMismatch | busFault | testDone | overflow
  deriving DecidableEq, Repr

/-- An event record (R153). -/
structure EventRecord where
  kind   : EventKind
  source : Origin
  detail : Byte
  arg    : Byte
  count  : Nat
  deriving DecidableEq, Repr

/-- Event Unit (R155, R158). -/
structure EventUnit where
  eventQueue : List EventRecord
  outbox     : List EventRecord
  deriving DecidableEq, Repr

/-- Phases of the Link Tester (R166). -/
inductive TestPhase where
  | idle | enterPending | draining | running | returning | awaitResult | resultOut
  deriving DecidableEq, Repr

/-- Test patterns (R171). -/
inductive TestPattern where
  | prbs | alternating
  deriving DecidableEq, Repr

/-- End reasons of a test (R166). -/
inductive EndReason where
  | noReason | duration | patternLost | stopped
  deriving DecidableEq, Repr

/-- TEST_STOP results (R173). -/
inductive StopResult where
  | noResult | stopped | notGenerator | noTest
  deriving DecidableEq, Repr

/-- Link Tester (R166), with what R170 to R172 make it keep: TEST_GO taken, the pattern driven since, the checker's register. -/
structure LinkTester where
  phase       : TestPhase
  owner       : Bool
  generator   : Bool
  duration    : Nat
  pattern     : TestPattern
  style       : FlagStyle
  ownerTag    : Option (Tag × Gen)
  readyTaken  : Bool
  readyBuilt  : Bool
  goTaken     : Bool
  drainDue    : Option Moment
  durationDue : Option Moment
  lostDue     : Option Moment
  resultDue   : Option Moment
  patternDue  : Option Moment
  durationDone : Bool
  bits        : Nat
  errors      : Nat
  firstError  : Bool
  endReason   : EndReason
  releaseOwed : Bool
  stopResult  : StopResult
  genStart    : Option Moment
  seeded      : Nat
  shift       : BitVec 15
  lastError   : Option Moment
  lastSymbol  : Option Moment
  deriving DecidableEq, Repr

/-- SUBMIT_RESULT (R181). -/
inductive SubmitResult where
  | noResult | tag (t : Tag) | badRequest | full
  deriving DecidableEq, Repr

/-- CANCEL_RESULT (R181). -/
inductive CancelResult where
  | noResult | accepted | noSuchTag | alreadyDone | tooLate
  deriving DecidableEq, Repr

/-- A holding byte with its written mark (R180). -/
structure Holding where
  byte    : Byte
  written : Bool
  deriving DecidableEq, Repr

/-- The direction of a host-port transaction (R176). -/
inductive PortDirection where
  | writing | reading
  deriving DecidableEq, Repr

/-- Host Port (R186). `taking`: the transaction on the host bus whose address byte this chip acknowledged (R176, R189), none when
the last one was addressed elsewhere or refused; the copies are those of the present read transaction (R180, R183, R184). -/
structure HostPort where
  up           : Bool
  startUp      : Option Moment
  addr         : BitVec 7
  taking       : Option PortDirection
  pointer      : Byte
  hostReady    : Bool
  alertCq      : Bool
  alertEq      : Bool
  spanOff      : Bool
  busSpeed     : BusSpeed
  submitResult : SubmitResult
  cancelResult : CancelResult
  remoteHold   : Holding
  filterHold   : Vector Holding 8
  staging      : Vector Byte 40
  cqCopy       : Option (List Byte)
  eqCopy       : Option (List Byte)
  crcCopy      : Option Nat
  sent         : Byte
  deriving DecidableEq, Repr

/-- One WS-218, the model's clock and counter, and the commands that wait. -/
structure State where
  inReset : Bool
  now     : Moment
  free    : Nat
  pending : List Instr
  hp      : HostPort
  rt      : RequestTable
  iq      : IncomingQueue
  da      : Arbiter
  dbc     : BusController
  lb      : LineBlock
  slc     : LinkController
  fe      : FrameEngine
  eu      : EventUnit
  lt      : LinkTester
  deriving DecidableEq, Repr

/-- R186: the host port after the release; its start-up runs. -/
def HostPort.reset (addr : BitVec 7) (startUp : Moment) : HostPort :=
  { up := false, startUp := some startUp, addr, taking := none, pointer := 0, hostReady := false, alertCq := false,
    alertEq := false, spanOff := false, busSpeed := .khz100, submitResult := .noResult, cancelResult := .noResult, remoteHold := ⟨0, false⟩,
    filterHold := Vector.replicate 8 ⟨0, false⟩, staging := Vector.replicate 40 0, cqCopy := none, eqCopy := none,
    crcCopy := none, sent := 0 }

/-- R26. -/
def RequestTable.reset : RequestTable :=
  { tags := Vector.replicate 8 ⟨.free, 0, Request.empty, none⟩, order := [], cq := [] }

/-- R138. -/
def IncomingQueue.reset : IncomingQueue := { slots := Vector.replicate 8 none, arrival := [], answerOrder := [] }

/-- R51. -/
def Arbiter.reset : Arbiter :=
  { localList := [], remoteList := [], turn := .localHost, lease := none, policy := .closed,
    filter := Vector.replicate 8 ⟨false, 0, false, false⟩ }

/-- R52. -/
def BusController.reset : BusController :=
  { state := .idle, work := none, clock := .khz100, stretch := none, cause := none, fromFault := false }

/-- R70: a line's record after the release, its level and pin as the pin shows. -/
def LineRecord.reset (l : LineNo) (pin : Bool) : LineRecord :=
  { mode := .input, owner := none, out := false, level := pin, debounce := 0, report := .nobody, fallback := .release,
    partner := l, style := .live, receiving := false, pin, timing := none, flagErr := false }

/-- R70. -/
def LineBlock.reset (pins : LineMask) : LineBlock :=
  { lines := ⟨⟨List.ofFn fun l => LineRecord.reset l (pins.getLsbD l.val)⟩, by simp⟩, mirrorPending := false,
    remoteLines := 0, pulse := none }

/-- R92, with the link not yet started. -/
def LinkController.reset (role : Role) (spanEn : Bool) : LinkController :=
  { role, spanEn, state := .disabled, good := 0, missed := 0, detail := .noReason, peerRev := 0, peerCap := 0,
    peerReady := false, trainDue := none, helloDue := none, helloLimit := none, silence := none, retrain := none,
    holdoff := none }

/-- R135: the Frame Engine after the release. -/
def FrameEngine.reset : FrameEngine :=
  { txSeq := 0, window := [], goBack := [], stall := 0, progress := false, expected := 0, lastRet := 0, resend := false,
    credits := 0, retCount := 0, cancelList := [], releaseAll := false, runLines := false, crcErrors := 0, sending := none,
    sendEnd := 0, awaitReply := none, replyDue := none, replyHello := false, helloTaken := none, turnOpened := 0, earliest := 0,
    hurry := false }

/-- R163. -/
def EventUnit.reset : EventUnit := { eventQueue := [], outbox := [] }

/-- R166, which gives IDLE, no test, counts 0, end reason NONE, the marks clear and the TEST_STOP result NONE. For the values it
does not give the model takes NON_OWNER and CHECKER, duration 0, PRBS, LIVE and first-error flag 0 (DESIGN CHOICE, log 27). -/
def LinkTester.reset : LinkTester :=
  { phase := .idle, owner := false, generator := false, duration := 0, pattern := .prbs, style := .live, ownerTag := none,
    readyTaken := false, readyBuilt := false, goTaken := false, drainDue := none, durationDue := none, lostDue := none,
    resultDue := none, patternDue := none, durationDone := false, bits := 0, errors := 0, firstError := false,
    endReason := .noReason, releaseOwed := false, stopResult := .noResult, genStart := none, seeded := 0, shift := 0,
    lastError := none, lastSymbol := none }

/-- Section 11.4: every block at its values after the release, with the link not yet started. -/
def State.cleared (role : Role) (spanEn : Bool) (addr : BitVec 7) (pins : LineMask) (now : Moment) : State :=
  { inReset := false, now, free := 0, pending := [], hp := HostPort.reset addr (now + Config.startUp),
    rt := RequestTable.reset, iq := IncomingQueue.reset, da := Arbiter.reset, dbc := BusController.reset,
    lb := LineBlock.reset pins, slc := LinkController.reset role spanEn, fe := FrameEngine.reset, eu := EventUnit.reset,
    lt := LinkTester.reset }

/-- The chip right after a release with no strap fitted: a follower at 0x2C with its span disabled (R188), the line pins low
(log 3), no command waiting. -/
def State.reset : State := State.cleared .follower false 0x2C#7 0 0

end Sys2Proof.Machine
end

