-- ==== Sys2Proof/Machine/Ops.lean ====
section
/-! DEFINITION. The shared operations: vectors and bit fields, the clock, events, completions, Incoming Queue answers. -/
namespace Sys2Proof.Machine

/-- A vector with one entry replaced. -/
def vput {α : Type} {n : Nat} (v : Vector α n) (i : Fin n) (x : α) : Vector α n := v.set i.val x i.isLt

/-- A vector given entry by entry. -/
def vtab {α : Type} {n : Nat} (f : Fin n → α) : Vector α n := ⟨⟨List.ofFn f⟩, by simp⟩

/-- A byte whose value is `n` modulo 256. -/
def toByte (n : Nat) : Byte := BitVec.ofNat 8 n

/-- A byte that is 1 for true and 0 for false. -/
def flagByte (b : Bool) : Byte := if b then 1 else 0

/-- Two bytes, most significant first (00_scope.md, Bytes on the wire), as a number. -/
def nat16 (hi lo : Byte) : Nat := hi.toNat * 256 + lo.toNat

/-- A number in two bytes, most significant first. -/
def bytes16 (n : Nat) : List Byte := [toByte (n / 256), toByte n]

/-- A number in five bytes, most significant first (R117, R183: bits checked). -/
def bytes40 (n : Nat) : List Byte :=
  [toByte (n / 4294967296), toByte (n / 16777216), toByte (n / 65536), toByte (n / 256), toByte n]

/-- Five bytes, most significant first, as a number. -/
def nat40 (p : List Byte) : Nat := (p.take 5).foldl (fun n b => n * 256 + b.toNat) 0

/-- A line mask from its two bytes: L11 to L8 in bits 3 to 0 of the first, L7 to L0 in the second (R182). -/
def lineMask (hi lo : Byte) : LineMask := hi.extractLsb' 0 4 ++ lo

/-- A line mask in two bytes (R182, R183). -/
def maskBytes (m : LineMask) : List Byte := [(m.extractLsb' 8 4).setWidth 8, m.extractLsb' 0 8]

/-- The mask of the lines that meet `p`. -/
def maskOf (p : LineNo → Bool) : LineMask :=
  BitVec.ofNat 12 ((List.finRange 12).foldl (fun n l => if p l then n + 2 ^ l.val else n) 0)

/-- The other host. -/
def Origin.other : Origin → Origin
  | .localHost => .remoteHost
  | .remoteHost => .localHost

/-- The clock moved on to `t`, if it has not passed it: the moment a command is by its meaning (log 2). -/
def State.reach (s : State) (t : Moment) : State := { s with now := max s.now t }

/-- An effect of a chip that is out of reset (R187). -/
def onChip (f : State → State) (s : State) : State := if s.inReset then s else f s

/-- R94: the link is up in RUN, DRAIN, TEST and RETRAIN. -/
def LinkState.isUp : LinkState → Bool
  | .run | .drain | .test | .retrain => true
  | _ => false

/-- RUN and DRAIN, where turns run (R119). -/
def LinkState.hasTurns : LinkState → Bool
  | .run | .drain => true
  | _ => false

/-! Events (chapter 8). -/

/-- Values of the event kinds (R153). -/
def EventKind.code : EventKind → Byte
  | .lineChange => 0x01#8 | .linkUp => 0x02#8 | .linkDown => 0x03#8 | .roleConflict => 0x04#8
  | .peerHostReady => 0x05#8 | .peerHostGone => 0x06#8 | .leaseExpired => 0x07#8 | .leaseBroken => 0x08#8
  | .lineLost => 0x09#8 | .mirrorMismatch => 0x0A#8 | .busFault => 0x0B#8 | .testDone => 0x0C#8 | .overflow => 0x0D#8

/-- The thirteen kinds. -/
def EventKind.all : List EventKind :=
  [.lineChange, .linkUp, .linkDown, .roleConflict, .peerHostReady, .peerHostGone, .leaseExpired, .leaseBroken,
    .lineLost, .mirrorMismatch, .busFault, .testDone, .overflow]

/-- The kind a byte names, if any (R160). -/
def EventKind.ofByte (b : Byte) : Option EventKind := EventKind.all.find? fun k => k.code == b

/-- Two records are the same when kind, source and detail are equal (R153). -/
def sameEvent (a b : EventRecord) : Bool :=
  decide (a.kind = b.kind) && decide (a.source = b.source) && decide (a.detail = b.detail)

/-- A record is an OVERFLOW. -/
def isOverflow (a : EventRecord) : Bool := decide (a.kind = .overflow)

/-- R155 step 1, R158, R160: the same record takes the new count, saturating, and the new argument. -/
def coalesce (q : List EventRecord) (r : EventRecord) : List EventRecord :=
  q.map fun x => if sameEvent x r then { x with count := min 255 (x.count + r.count), arg := r.arg } else x

/-- R155 step 2: the OVERFLOW record counts what cannot be placed. -/
def countOverflow (q : List EventRecord) (n : Nat) : List EventRecord :=
  q.map fun x => if isOverflow x then { x with count := min 255 (x.count + n) } else x

/-- The OVERFLOW record of R155 step 4 with its first count. -/
def overflowRecord (source : Origin) (n : Nat) : EventRecord := ⟨.overflow, source, 0, 0, min 255 n⟩

/-- R155 (capacity 16), R158 (capacity 8): insertion of an event. -/
def insertEvent (cap : Nat) (q : List EventRecord) (r : EventRecord) : List EventRecord :=
  if q.any (sameEvent · r) then coalesce q r
  else if q.any isOverflow then countOverflow q r.count
  else if q.length + 1 < cap then q ++ [r]
  else q ++ [overflowRecord .localHost r.count]

/-- R160: insertion of a record carried by an EVENT frame; `r` has source REMOTE and its carried count. -/
def insertCarried (q : List EventRecord) (r : EventRecord) : List EventRecord :=
  if r.kind = .overflow ∧ ¬ q.any (sameEvent · r) ∧ ¬ q.any isOverflow then q ++ [overflowRecord .remoteHost r.count]
  else insertEvent Config.eqCapacity q r

/-- R154: an event of this chip placed in its Event Queue. -/
def raiseLocal (k : EventKind) (detail arg : Byte) (s : State) : State :=
  { s with eu.eventQueue := insertEvent Config.eqCapacity s.eu.eventQueue ⟨k, .localHost, detail, arg, 1⟩ }

/-- R154: an event of this chip placed in its Remote Outbox, when the link is up. -/
def raiseRemote (k : EventKind) (detail arg : Byte) (s : State) : State :=
  if s.slc.state.isUp then
    { s with eu.outbox := insertEvent Config.outboxCapacity s.eu.outbox ⟨k, .localHost, detail, arg, 1⟩ }
  else s

/-- An event raised for one host: the Event Queue for LOCAL, the Remote Outbox for REMOTE (R35). -/
def raiseFor (o : Origin) (k : EventKind) (detail arg : Byte) (s : State) : State :=
  match o with
  | .localHost => raiseLocal k detail arg s
  | .remoteHost => raiseRemote k detail arg s

/-! Request Table (chapter 1). -/

/-- The first tag in number order that meets `p`. -/
def firstTag (p : Tag → Bool) : Option Tag := (List.finRange 8).find? p

/-- An entry of the Request Table written. -/
def setTag (t : Tag) (e : TagEntry) (s : State) : State := { s with rt.tags := vput s.rt.tags t e }

/-- R19: the request of tag `t` completes. Its record joins the tail of the Completion Queue, the tag goes to DONE, its timer
stops, and a CANCEL of it not yet built is withdrawn (R124). -/
def completeTag (t : Tag) (a : Answer) (s : State) : State :=
  let e := s.rt.tags[t]
  { s with
    rt.tags := vput s.rt.tags t { e with state := .done, due := none }
    rt.order := s.rt.order.filter (· ≠ t)
    rt.cq := s.rt.cq ++ [⟨t, e.gen, e.req.kind, e.req.side, a⟩]
    fe.cancelList := s.fe.cancelList.filter (·.1 ≠ t) }

/-- An answer of a status alone: count 0, extra 0, no data. -/
def bare (st : Status) : Answer := ⟨st, 0, 0, []⟩

/-- Several requests complete one after another with the same bare status. -/
def completeAll (ts : List Tag) (st : Status) (s : State) : State := ts.foldl (fun s t => completeTag t (bare st) s) s

/-! Incoming Queue (chapter 7). -/

/-- An entry of the Incoming Queue written. -/
def setSlot (i : Slot) (e : Option SlotEntry) (s : State) : State := { s with iq.slots := vput s.iq.slots i e }

/-- R138: the number of free entries. -/
def freeSlots (s : State) : Nat := ((List.finRange 8).filter fun i => s.iq.slots[i].isNone).length

/-- The free entry a REQ takes: the lowest (log 19). -/
def freeSlot (s : State) : Option Slot := (List.finRange 8).find? fun i => s.iq.slots[i].isNone

/-- R139: an answer reaching an entry in WAITING or EXECUTING takes it to ANSWERED, at the end of the answer order; one
reaching an entry in another state finds nothing to do. -/
def answerSlot (i : Slot) (a : Answer) (s : State) : State :=
  match s.iq.slots[i] with
  | some e =>
    match e.state with
    | .waiting _ | .executing =>
      { s with
        iq.slots := vput s.iq.slots i (some { e with state := .answered a })
        iq.answerOrder := s.iq.answerOrder ++ [i] }
    | .answered _ | .sent _ | .detached => s
  | none => s

/-- An entry of the Incoming Queue freed. -/
def dropSlot (i : Slot) (s : State) : State :=
  { s with
    iq.slots := vput s.iq.slots i none
    iq.arrival := s.iq.arrival.filter (· ≠ i)
    iq.answerOrder := s.iq.answerOrder.filter (· ≠ i) }

/-- R134: an entry freed with a credit returned. -/
def freeWithCredit (i : Slot) (s : State) : State :=
  let s := dropSlot i s
  { s with fe.retCount := (s.fe.retCount + 1) % 9 }

/-! The chip's own values that answers carry. -/

/-- R10, R141: what a PING reports: revision, HOST_READY and free Incoming Queue entries, and as extra the credits held. -/
def pingAnswer (s : State) : Answer :=
  ⟨.ok, 0, BitVec.ofNat 16 s.fe.credits, [Config.revision, flagByte s.hp.hostReady, toByte (freeSlots s)]⟩

end Sys2Proof.Machine
end

