-- ==== Sys2Proof/Machine/Operands.lean ====
section
/-! DEFINITION. The request encodings of the staging area and of a REQ, and the checks of R2 and R3 on them. -/
namespace Sys2Proof.Machine

/-- Kind values (R182). -/
def ReqKind.code : ReqKind → Byte
  | .write => 0x01#8 | .read => 0x02#8 | .lineSet => 0x03#8 | .lineSample => 0x04#8 | .lineConfig => 0x05#8
  | .lineClaim => 0x06#8 | .lineRelease => 0x07#8 | .leaseTake => 0x08#8 | .leaseDrop => 0x09#8
  | .busRecover => 0x0A#8 | .ping => 0x0B#8 | .testStart => 0x0C#8

/-- The twelve kinds. -/
def ReqKind.all : List ReqKind :=
  [.write, .read, .lineSet, .lineSample, .lineConfig, .lineClaim, .lineRelease, .leaseTake, .leaseDrop, .busRecover,
    .ping, .testStart]

/-- The kind a byte names, if any. -/
def ReqKind.ofByte (b : Byte) : Option ReqKind := ReqKind.all.find? fun k => k.code == b

/-- Side values (R182). -/
def Side.ofByte (b : Byte) : Option Side := if b = 0 then some .near else if b = 1 then some .far else none

/-- Side values (R183). -/
def Side.code : Side → Byte
  | .near => 0x00#8
  | .far => 0x01#8

/-- Requests for the downstream bus (R27): those a FAULTED bus refuses are the transfers. -/
def ReqKind.isTransfer : ReqKind → Bool
  | .write | .read => true
  | _ => false

/-- Kinds that wait in a ready list (R27). -/
def ReqKind.isQueued : ReqKind → Bool
  | .write | .read | .busRecover | .leaseTake => true
  | _ => false

/-- Kinds the Line Block carries out (R75). -/
def ReqKind.isLine : ReqKind → Bool
  | .lineSet | .lineSample | .lineConfig | .lineClaim | .lineRelease => true
  | _ => false

/-- Body bytes a staged record's kind reads (R182). -/
def ReqKind.stagedBody (k : ReqKind) (length : Byte) : Nat :=
  match k with
  | .write => length.toNat
  | .lineSet | .lineClaim | .lineRelease => 4
  | .lineConfig => 7
  | .leaseTake => 2
  | .testStart => 5
  | .read | .lineSample | .leaseDrop | .busRecover | .ping => 0

/-- Body bytes a REQ of this kind carries (R117); a REQ has no body for TEST_START. -/
def ReqKind.carriedBody (k : ReqKind) (length : Byte) : Nat :=
  match k with
  | .testStart => 0
  | k => k.stagedBody length

/-- Byte `n` of the body. -/
def Request.bodyByte (r : Request) (n : Nat) : Byte := r.body.getD n 0

/-- The lines a line request names (R182); positions above L11 are ignored (R3). -/
def Request.mask (r : Request) : LineMask := lineMask (r.bodyByte 0) (r.bodyByte 1)

/-- The levels a LINE_SET gives (R182). -/
def Request.values (r : Request) : LineMask := lineMask (r.bodyByte 2) (r.bodyByte 3)

/-- The duration of a LEASE_TAKE in ms (R182). -/
def Request.leaseMs (r : Request) : Nat := nat16 (r.bodyByte 0) (r.bodyByte 1)

/-- The offset bytes in use, in the order staged (R57, R182). -/
def Request.offsets (r : Request) : List Byte := [r.off0, r.off1].take r.offCount.toNat

/-- R16: the deadline in ms; a staged 0 means 50. -/
def Request.deadlineMs (r : Request) : Nat := if r.deadline = 0 then 50 else r.deadline.toNat

/-- A line number from its byte: 0 to 11 (R182). -/
def lineOfByte (b : Byte) : Option LineNo := if h : b.toNat < 12 then some ⟨b.toNat, h⟩ else none

/-- Modes a host can request (R182, R3): PARKED is not among them. -/
def LineMode.ofByte (b : Byte) : Option LineMode :=
  match b.toNat with
  | 0 => some .input
  | 1 => some .outputPp
  | 2 => some .outputOd
  | 3 => some .mirrorSend
  | 4 => some .mirrorRecv
  | 5 => some .testFlag
  | _ => none

/-- Fallback values (R182). -/
def Fallback.ofByte (b : Byte) : Option Fallback :=
  match b.toNat with
  | 0 => some .hold
  | 1 => some .low
  | 2 => some .high
  | 3 => some .release
  | _ => none

/-- Debounce values in ms (R182). -/
def debounceOfByte (b : Byte) : Option Nat :=
  match b.toNat with
  | 0 => some 0
  | 1 => some 1
  | 4 => some 4
  | 16 => some 16
  | _ => none

/-- Report values (R182). -/
def Report.ofByte (b : Byte) : Option Report :=
  match b.toNat with
  | 0 => some .nobody
  | 1 => some .toLocal
  | 2 => some .toRemote
  | 3 => some .both
  | _ => none

/-- Flag style values (R182). -/
def FlagStyle.ofByte (b : Byte) : Option FlagStyle :=
  match b.toNat with
  | 0 => some .live
  | 1 => some .latched
  | _ => none

/-- Flag style values, as a frame carries them. -/
def FlagStyle.code : FlagStyle → Byte
  | .live => 0
  | .latched => 1

/-- Pattern values (R182). -/
def TestPattern.ofByte (b : Byte) : Option TestPattern :=
  match b.toNat with
  | 0 => some .prbs
  | 1 => some .alternating
  | _ => none

/-- Pattern values, as a frame carries them. -/
def TestPattern.code : TestPattern → Byte
  | .prbs => 0
  | .alternating => 1

/-- The complete new setting a LINE_CONFIG gives one line (R78). -/
structure LineSettings where
  line     : LineNo
  mode     : LineMode
  fallback : Fallback
  debounce : Nat
  report   : Report
  partner  : LineNo
  style    : FlagStyle
  deriving DecidableEq, Repr

/-- The settings of a LINE_CONFIG's body (R182); none when R3 refuses one of them. -/
def Request.settings (r : Request) : Option LineSettings :=
  match lineOfByte (r.bodyByte 0), LineMode.ofByte (r.bodyByte 1), Fallback.ofByte (r.bodyByte 2),
      debounceOfByte (r.bodyByte 3), Report.ofByte (r.bodyByte 4), lineOfByte (r.bodyByte 5),
      FlagStyle.ofByte (r.bodyByte 6) with
  | some line, some mode, some fallback, some debounce, some report, some partner, some style =>
    some ⟨line, mode, fallback, debounce, report, partner, style⟩
  | _, _, _, _, _, _, _ => none

/-- Parameters of a test (R166); `near`: the generator side is NEAR as the sender gives it. -/
structure TestParams where
  duration : Nat
  pattern  : TestPattern
  near     : Bool
  style    : FlagStyle
  deriving DecidableEq, Repr

/-- Test parameters from the five body bytes of a TEST_START (R182) or the payload of a TEST_ENTER (R117); none when R3
or R168 refuses one of them. -/
def testParams (p : List Byte) : Option TestParams :=
  let d := nat16 (p.getD 0 0) (p.getD 1 0)
  match TestPattern.ofByte (p.getD 2 0), Side.ofByte (p.getD 3 0), FlagStyle.ofByte (p.getD 4 0) with
  | some pattern, some side, some style =>
    if 1 ≤ d ∧ d ≤ 60000 then some ⟨d, pattern, decide (side = .near), style⟩ else none
  | _, _, _ => none

/-- The field checks R2 and R3 make for a kind, at submit and again at the far chip (R140). -/
def Request.valid (r : Request) : Bool :=
  match r.kind with
  | .write | .read =>
    decide (r.target.toNat ≤ 127) && decide (r.offCount.toNat ≤ 2) && decide (1 ≤ r.length.toNat) &&
      decide (r.length.toNat ≤ 32)
  | .lineSet | .lineClaim | .lineRelease => decide (r.mask ≠ 0)
  | .lineConfig => r.settings.isSome
  | .leaseTake => decide (1 ≤ r.leaseMs) && decide (r.leaseMs ≤ 1000)
  | .testStart => (testParams r.body).isSome
  | .lineSample | .leaseDrop | .busRecover | .ping => true

/-- Byte `n` of the staging area. -/
def stagedByte (v : Vector Byte 40) (n : Nat) : Byte := v.toList.getD n 0

/-- R1, R5, R182: the record the staging area holds for a kind and side. -/
def stagedRecord (v : Vector Byte 40) (k : ReqKind) (side : Side) : Request :=
  { kind := k, side, target := stagedByte v 2, offCount := stagedByte v 3, off0 := stagedByte v 4, off1 := stagedByte v 5,
    length := stagedByte v 6, deadline := stagedByte v 7,
    body := (v.toList.drop 8).take (k.stagedBody (stagedByte v 6)) }

/-- R2, R3: the staged record, or none when it is refused with BAD_REQUEST. -/
def stagedRequest (v : Vector Byte 40) : Option Request :=
  match ReqKind.ofByte (stagedByte v 0), Side.ofByte (stagedByte v 1) with
  | some k, some side =>
    if k = .testStart ∧ side = .far then none
    else if (stagedRecord v k side).valid then some (stagedRecord v k side) else none
  | _, _ => none

/-- R117: the payload of the REQ of a request: tag, generation, kind, remaining deadline, bytes 2 to 6 and the body. -/
def reqPayload (t : Tag) (g : Gen) (remaining : Nat) (r : Request) : List Byte :=
  [toByte t.val, g.setWidth 8, r.kind.code, toByte remaining, r.target, r.offCount, r.off0, r.off1, r.length] ++ r.body

/-- R117: the request a REQ payload carries, its side FAR as its sender gave it; none when the kind is unknown. -/
def carriedRequest (p : List Byte) : Option Request :=
  match ReqKind.ofByte (p.getD 2 0) with
  | some k =>
    some { kind := k, side := .far, target := p.getD 4 0, offCount := p.getD 5 0, off0 := p.getD 6 0, off1 := p.getD 7 0,
           length := p.getD 8 0, deadline := p.getD 3 0, body := p.drop 9 }
  | none => none

end Sys2Proof.Machine
end

