-- ==== Sys2Proof/Machine/Flags.lean ====
section
/-! DEFINITION. What is read out of the state: code values, the heads of the queues, ALERT, the pins, the lines' drives. -/
namespace Sys2Proof.Machine

/-- Status values (R22). -/
def Status.code : Status → Byte
  | .ok => 0x00#8 | .noAck => 0x01#8 | .dataNack => 0x02#8 | .busStuck => 0x03#8 | .busFaulted => 0x04#8
  | .timeout => 0x05#8 | .linkDown => 0x06#8 | .cancelled => 0x07#8 | .denied => 0x08#8 | .notReady => 0x09#8
  | .owned => 0x0A#8 | .notOwner => 0x0B#8 | .wrongMode => 0x0C#8 | .notHolder => 0x0D#8 | .busy => 0x0E#8
  | .drainTimeout => 0x0F#8

/-- The sixteen status codes. -/
def Status.all : List Status :=
  [.ok, .noAck, .dataNack, .busStuck, .busFaulted, .timeout, .linkDown, .cancelled, .denied, .notReady, .owned, .notOwner,
    .wrongMode, .notHolder, .busy, .drainTimeout]

/-- The status a byte names, if any (R117: a status outside 0x00 to 0x0F fails the check). -/
def Status.ofByte (b : Byte) : Option Status := Status.all.find? fun st => st.code == b

/-- Link state values (R94). -/
def LinkState.code : LinkState → Byte
  | .disabled => 0 | .listen => 1 | .hello => 2 | .run => 3 | .drain => 4 | .test => 5 | .retrain => 6 | .holdoff => 7

/-- LINK_DETAIL values (R104). -/
def HoldoffReason.code : HoldoffReason → Byte
  | .noReason => 0 | .turnLoss => 1 | .retryLimit => 2 | .helloFail => 3 | .retrainFail => 4 | .localOff => 5
  | .roleConflict => 6

/-- End reason values (R154, R183). -/
def EndReason.code : EndReason → Byte
  | .noReason => 0 | .duration => 1 | .patternLost => 2 | .stopped => 3

/-- The end reason a byte names (R117: above 3 fails the check). -/
def EndReason.ofByte (b : Byte) : Option EndReason :=
  [EndReason.noReason, .duration, .patternLost, .stopped].find? fun r => r.code == b

/-- SUBMIT_RESULT values (R181). -/
def SubmitResult.code : SubmitResult → Byte
  | .noResult => 0xFF | .tag t => toByte t.val | .badRequest => 0xFE | .full => 0xFD

/-- CANCEL_RESULT values (R181). -/
def CancelResult.code : CancelResult → Byte
  | .noResult => 0xFF | .accepted => 0x01 | .noSuchTag => 0x02 | .alreadyDone => 0x03 | .tooLate => 0x04

/-- TEST_STOP result values (R181). -/
def StopResult.code : StopResult → Byte
  | .noResult => 0x00 | .stopped => 0x01 | .notGenerator => 0x02 | .noTest => 0x03

/-- BUS_POLICY values (R178). -/
def BusPolicy.code : BusPolicy → Byte
  | .closed => 0 | .listed => 1 | .opened => 2

/-- BUS_SPEED values (R178). -/
def BusSpeed.code : BusSpeed → Byte
  | .khz100 => 0 | .khz400 => 1

/-- Role values in TRAIN, TRAIN_ACK and HELLO (R117). -/
def Role.code : Role → Byte
  | .leader => 0 | .follower => 1

/-- HOST_CTRL as it reads (R178, R179). -/
def hostCtrl (s : State) : Byte :=
  flagByte s.hp.hostReady ||| (flagByte s.hp.alertCq <<< 1) ||| (flagByte s.hp.alertEq <<< 2) |||
    (flagByte s.hp.spanOff <<< 3)

/-- TAGS_IN_USE (R8, R178): bit n is set when tag n is not FREE. -/
def tagsInUse (s : State) : Byte :=
  toByte ((List.finRange 8).foldl (fun n t => if s.rt.tags[t].state = .free then n else n + 2 ^ t.val) 0)

/-- R183: the 40 bytes of a completion record; bytes beyond its data are 0. -/
def completionBytes (c : Completion) : List Byte :=
  let b := [toByte c.tag.val, c.gen.setWidth 8, c.kind.code, c.side.code, c.answer.status.code, toByte c.answer.count,
    c.answer.extra.extractLsb' 8 8, c.answer.extra.extractLsb' 0 8] ++ c.answer.data.take 32
  b ++ List.replicate (40 - b.length) 0

/-- COMPLETION_HEAD as it stands (R183); 0 throughout with the queue empty (R21). -/
def completionHead (s : State) : List Byte :=
  match s.rt.cq with
  | [] => List.replicate 40 0
  | c :: _ => completionBytes c

/-- Source values (R153). -/
def Origin.code : Origin → Byte
  | .localHost => 0 | .remoteHost => 1

/-- R184: the six bytes of an event record. -/
def eventBytes (r : EventRecord) : List Byte := [r.kind.code, r.source.code, r.detail, r.arg, toByte r.count, 0]

/-- EVENT_HEAD as it stands (R184); 0 throughout with the queue empty (R157). -/
def eventHead (s : State) : List Byte :=
  match s.eu.eventQueue with
  | [] => List.replicate 6 0
  | r :: _ => eventBytes r

/-- R164: ALERT is driven low (true), or released (false; R187 in reset). -/
def alertLow (s : State) : Bool :=
  !s.inReset && ((!s.eu.eventQueue.isEmpty && s.hp.alertEq) || (!s.rt.cq.isEmpty && s.hp.alertCq))

/-- R176, R189: whether the host port acknowledges an address byte. -/
def acknowledges (s : State) (address : BitVec 7) : Bool := !s.inReset && s.hp.up && decide (address = s.hp.addr)

/-- The chip is the checker of a running test (R88, R172). -/
def checking (s : State) : Bool :=
  decide (s.slc.state = .test) && decide (s.lt.phase = .running) && !s.lt.generator

/-- The chip is the generator of a running test (R171). -/
def generating (s : State) : Bool :=
  decide (s.slc.state = .test) && decide (s.lt.phase = .running) && s.lt.generator

/-- R88: whether a TEST_FLAG line is driven low. -/
def flagLow (s : State) (r : LineRecord) : Bool :=
  checking s && r.flagErr && (decide (r.style = .latched) || s.lb.pulse.isSome)

/-- R71: the level the chip drives on a line's pin, or none where the pin is released. -/
def lineDrive (s : State) (r : LineRecord) : Option Bool :=
  match r.mode with
  | .input | .mirrorSend => none
  | .outputPp | .parked => some r.out
  | .outputOd => if r.out then none else some false
  | .mirrorRecv => if r.receiving then some r.out else none
  | .testFlag => some (!flagLow s r)

/-- R53, R56: the clock on the downstream bus: the one taken with the work, or 100 kHz in a recovery procedure. -/
def busClock (s : State) : BusSpeed := if s.dbc.state = .recovering then .khz100 else s.dbc.clock

/-- R66, R69, R187: the chip pulls neither DSCL nor DSDA low: in reset, and in IDLE and FAULTED, where it starts nothing on its
own. In ACTIVE and RECOVERING the lines make the items of the work, inside the step that ends it (log 23). -/
def busReleased (s : State) : Bool := s.inReset || decide (s.dbc.state = .idle) || decide (s.dbc.state = .faulted)

/-- R191: SPAN_DE is high exactly while the chip drives the pair: sending a frame, or the pattern. -/
def spanDe (s : State) : Bool := !s.inReset && (s.fe.sending.isSome || s.lt.genStart.isSome)

end Sys2Proof.Machine
end

