-- ==== Sys2Proof/Machine/Lines.lean ====
section
/-! DEFINITION. The Line Block (chapter 4): ownership, line requests, levels and debounce, mirroring, TEST_FLAG lines. -/
namespace Sys2Proof.Machine

/-- Every line record rewritten from its number and itself. -/
def mapLines (f : LineNo → LineRecord → LineRecord) (s : State) : State :=
  { s with lb.lines := vtab fun l => f l s.lb.lines[l] }

/-- One line record written. -/
def setLine (l : LineNo) (r : LineRecord) (s : State) : State := { s with lb.lines := vput s.lb.lines l r }

/-- R73: the held level: what the chip drives on the pin, or the line's level where it drives nothing. -/
def heldLevel (s : State) (r : LineRecord) : Bool := (lineDrive s r).getD r.level

/-- R73: a record after its release, given the held level. -/
def releasedRecord (held : Bool) (r : LineRecord) : LineRecord :=
  match r.fallback with
  | .release => { r with owner := none, report := .nobody, mode := .input }
  | .hold => { r with owner := none, report := .nobody, mode := .parked, out := held }
  | .low => { r with owner := none, report := .nobody, mode := .parked, out := false }
  | .high => { r with owner := none, report := .nobody, mode := .parked, out := true }

/-- R73: every line of `m` that host `o` owns is released. -/
def releaseOwned (o : Origin) (m : LineMask) (s : State) : State :=
  mapLines (fun l r =>
    if m.getLsbD l.val ∧ r.owner = some o then releasedRecord (heldLevel s r) r else r) s

/-- All twelve lines. -/
def allLines : LineMask := 0xFFF#12

/-- Some line of `m` meets `p`. -/
def anyNamed (m : LineMask) (p : LineNo → Bool) : Bool := (List.finRange 12).any fun l => m.getLsbD l.val && p l

/-- R76: LINE_CLAIM of the lines of `m` by host `o`. -/
def lineClaim (o : Origin) (m : LineMask) (s : State) : Status × State :=
  if anyNamed m (fun l => decide (s.lb.lines[l].owner = some o.other)) then (.owned, s)
  else if decide (o = .remoteHost) && anyNamed m (fun l => !s.lb.remoteLines.getLsbD l.val) then (.notOwner, s)
  else (.ok, mapLines (fun l r =>
    if m.getLsbD l.val ∧ r.owner ≠ some o then
      { r with owner := some o, mode := if r.mode = .parked then .input else r.mode }
    else r) s)

/-- R77: LINE_RELEASE of the lines of `m` by host `o`. -/
def lineRelease (o : Origin) (m : LineMask) (s : State) : Status × State := (.ok, releaseOwned o m s)

/-- R80: LINE_SET of the lines of `m` to `v` by host `o`. -/
def lineSet (o : Origin) (m v : LineMask) (s : State) : Status × State :=
  if anyNamed m (fun l => decide (s.lb.lines[l].owner ≠ some o)) then (.notOwner, s)
  else if anyNamed m (fun l => decide (s.lb.lines[l].mode ≠ .outputPp) && decide (s.lb.lines[l].mode ≠ .outputOd)) then
    (.wrongMode, s)
  else (.ok, mapLines (fun l r => if m.getLsbD l.val then { r with out := v.getLsbD l.val } else r) s)

/-- R81, R183: the sample of all twelve lines: levels, lines owned LOCAL, lines owned REMOTE. -/
def lineSample (s : State) : List Byte :=
  maskBytes (maskOf fun l => s.lb.lines[l].level) ++
    maskBytes (maskOf fun l => decide (s.lb.lines[l].owner = some .localHost)) ++
    maskBytes (maskOf fun l => decide (s.lb.lines[l].owner = some .remoteHost))

/-- R84: a LINE_CHANGE goes where the line's report field sends it. -/
def reportChange (r : Report) (l : LineNo) (v : Bool) (s : State) : State :=
  match r with
  | .nobody => s
  | .toLocal => raiseLocal .lineChange (toByte l.val) (flagByte v) s
  | .toRemote => raiseRemote .lineChange (toByte l.val) (flagByte v) s
  | .both => raiseRemote .lineChange (toByte l.val) (flagByte v) (raiseLocal .lineChange (toByte l.val) (flagByte v) s)

/-- R82, R84: the level of line `l` takes the value `v`; its timing ends, and a change is reported and marks the mirror. -/
def takeLevel (l : LineNo) (v : Bool) (s : State) : State :=
  let r := s.lb.lines[l]
  let s1 := setLine l { r with level := v, timing := none } s
  if r.level = v then s1
  else
    let s2 := reportChange r.report l v s1
    if r.mode = .mirrorSend then { s2 with lb.mirrorPending := true } else s2

/-- R82: the pin of line `l` shows the value `v`. -/
def pinChange (l : LineNo) (v : Bool) (s : State) : State :=
  let r := s.lb.lines[l]
  if r.pin = v then s
  else
    let s1 := setLine l { r with pin := v } s
    if v = r.level then setLine l { r with pin := v, timing := none } s
    else if r.debounce = 0 then takeLevel l v s1
    else setLine l { r with pin := v, timing := some (s.now + r.debounce * Config.ms) } s

/-- R82: the debounce time of line `l` passes with its pin steady. -/
def debounceEnd (l : LineNo) (s : State) : State :=
  match s.lb.lines[l].timing with
  | none => s
  | some due => takeLevel l s.lb.lines[l].pin (s.reach due)

/-- R83: a new debounce time on a line that is being timed; with 0 the level takes the pin's value at once. -/
def retime (l : LineNo) (old : Nat) (s : State) : State :=
  let r := s.lb.lines[l]
  if r.timing.isNone ∨ r.debounce = old then s
  else if r.debounce = 0 then takeLevel l r.pin s
  else setLine l { r with timing := some (s.now + r.debounce * Config.ms) } s

/-- An output mode (R79). -/
def LineMode.isOutput : LineMode → Bool
  | .outputPp | .outputOd => true
  | _ => false

/-- R79: what entering the new mode does to the record, `old` being the mode before. -/
def enterMode (old : LineMode) (r : LineRecord) : LineRecord :=
  match r.mode with
  | .outputPp | .outputOd => if old.isOutput then r else { r with out := r.level }
  | .mirrorRecv => if old = .mirrorRecv then r else { r with receiving := false }
  | .testFlag => if old = .testFlag then r else { r with flagErr := false }
  | .input | .mirrorSend | .parked => r

/-- R78, R79, R83: LINE_CONFIG by host `o`: the six settings are written, the debounce timing follows, then the mode's effects. -/
def lineConfig (o : Origin) (c : LineSettings) (s : State) : Status × State :=
  let r := s.lb.lines[c.line]
  if r.owner ≠ some o then (.notOwner, s)
  else
    let s1 := setLine c.line { r with mode := c.mode, debounce := c.debounce, report := c.report, fallback := c.fallback,
                                      partner := c.partner, style := c.style } s
    let s2 := retime c.line r.debounce s1
    let s3 := setLine c.line (enterMode r.mode s2.lb.lines[c.line]) s2
    (.ok, if c.mode = .mirrorSend then { s3 with lb.mirrorPending := true } else s3)

/-- R75: a line request carried out for host `o`: its answer, and the chip after it. -/
def runLine (o : Origin) (r : Request) (s : State) : Answer × State :=
  match r.kind with
  | .lineClaim => let x := lineClaim o r.mask s; (bare x.1, x.2)
  | .lineRelease => let x := lineRelease o r.mask s; (bare x.1, x.2)
  | .lineSet => let x := lineSet o r.mask r.values s; (bare x.1, x.2)
  | .lineConfig =>
    match r.settings with
    | some c => let x := lineConfig o c s; (bare x.1, x.2)
    | none => (bare .denied, s)
  | _ => (⟨.ok, 0, 0, lineSample s⟩, s)

/-- R85: the pairs of a LINES frame: partner in bits 3 to 0 and level in bit 4, from L0 to L11 (R117). -/
def mirrorPairs (s : State) : List Byte :=
  ((List.finRange 12).filter fun l => decide (s.lb.lines[l].mode = .mirrorSend)).map fun l =>
    toByte (s.lb.lines[l].partner.val + if s.lb.lines[l].level then 16 else 0)

/-- R86, R117: one pair of a delivered LINES frame. Its bits 7 to 5 are not read (DEDUCED, log 22). -/
def applyPair (s : State) (b : Byte) : State :=
  match lineOfByte ((b.extractLsb' 0 4).setWidth 8) with
  | none => s
  | some l =>
    let r := s.lb.lines[l]
    if r.mode = .mirrorRecv then setLine l { r with out := b.getLsbD 4, receiving := true } s
    else raiseLocal .mirrorMismatch (toByte l.val) (flagByte (b.getLsbD 4)) s

/-- R86: a delivered LINES frame. -/
def applyPairs (p : List Byte) (s : State) : State := p.foldl applyPair s

/-- R87: a MIRROR_RECV line at a link loss. -/
def mirrorFallback (r : LineRecord) : LineRecord :=
  if r.mode = .mirrorRecv then
    match r.fallback with
    | .hold => r
    | .low => { r with out := false, receiving := true }
    | .high => { r with out := true, receiving := true }
    | .release => { r with receiving := false }
  else r

/-- R90: the Line Block's part of a link loss. -/
def linesAtLoss (s : State) : State :=
  mapLines (fun _ r => mirrorFallback r) (releaseOwned .remoteHost allLines s)

/-- R74: a new REMOTE_LINES mask: REMOTE-owned lines whose bit is cleared are released, each with a LINE_LOST. -/
def setRemoteLines (m : LineMask) (s : State) : State :=
  let lost := (List.finRange 12).filter fun l =>
    s.lb.remoteLines.getLsbD l.val && !m.getLsbD l.val && decide (s.lb.lines[l].owner = some .remoteHost)
  let s1 := releaseOwned .remoteHost (s.lb.remoteLines &&& ~~~m) s
  let s2 : State := { s1 with lb.remoteLines := m }
  lost.foldl (fun s l => raiseRemote .lineLost (toByte l.val) 0 s) s2

/-- R88: the TEST_FLAG marks and the LIVE pulse cleared, at both ends of a test. -/
def clearFlags (s : State) : State :=
  let s1 := mapLines (fun _ r => { r with flagErr := false }) s
  { s1 with lb.pulse := none }

/-- R88: an error the checker detects reaches the TEST_FLAG lines. -/
def flagError (s : State) : State :=
  let s1 := mapLines (fun _ r => if r.mode = .testFlag then { r with flagErr := true } else r) s
  { s1 with lb.pulse := some (s.now + 1) }

/-- PIN_CHANGE. -/
def execPinChange (l : LineNo) (v : Bool) (s : State) : Host.Outcome State Fault Refusal :=
  .next (onChip (pinChange l v) s)

/-- DEBOUNCE_END. -/
def execDebounceEnd (l : LineNo) (s : State) : Host.Outcome State Fault Refusal := .next (onChip (debounceEnd l) s)

/-- TEST_FLAG_PULSE_END (R88): 1 microsecond after the newest error a LIVE line returns high. -/
def testFlagPulseEnd (s : State) : State :=
  match s.lb.pulse with
  | none => s
  | some due => { s.reach due with lb.pulse := none }

/-- TEST_FLAG_PULSE_END. -/
def execTestFlagPulseEnd (s : State) : Host.Outcome State Fault Refusal := .next (onChip testFlagPulseEnd s)

end Sys2Proof.Machine
end

