-- ==== Sys2Proof/Machine/Arbiter.lean ====
section
/-! DEFINITION. The Downstream Arbiter (chapter 2): policy, leases, selection, hand-over and the routing of results. -/
namespace Sys2Proof.Machine

/-- R42: some valid filter entry for the target grants the right `k` needs. -/
def filterAllows (f : Vector FilterEntry 8) (k : ReqKind) (target : Byte) : Bool :=
  f.toList.any fun e =>
    e.valid && decide (e.address.setWidth 8 = target) && (if k = .write then e.canWrite else e.canRead)

/-- R41, R42: whether the policy lets a remote request of a bus or lease kind through. -/
def policyAllows (a : Arbiter) (r : Request) : Bool :=
  match a.policy with
  | .closed => false
  | .opened => true
  | .listed =>
    match r.kind with
    | .write | .read => filterAllows a.filter r.kind r.target
    | .busRecover => false
    | _ => true

/-- R29: the bus controller can accept work in IDLE and FAULTED. -/
def BusState.accepts : BusState → Bool
  | .idle | .faulted => true
  | _ => false

/-- R53, R31: work handed to the bus controller: the request, its requester and the clock are taken, and it enters ACTIVE, or
RECOVERING for a BUS_RECOVER. The stuck cause is left as it stands: a BUS_RECOVER begun in FAULTED keeps the old one until its
procedure ends (R67; section 3.1 lists a cause while RECOVERING only after a stuck transaction: DESIGN CHOICE, log 42). -/
def handOver (ref : WorkRef) (r : Request) (s : State) : State :=
  { s with dbc := { s.dbc with
      state := if r.kind = .busRecover then .recovering else .active
      work := some ⟨r, ref, 0, []⟩
      clock := s.hp.busSpeed
      stretch := some s.now
      fromFault := decide (s.dbc.state = .faulted) } }

/-- R34: a served LEASE_TAKE grants the lease or sets the remaining time of the one its own host holds. -/
def grantLease (o : Origin) (r : Request) (s : State) : State :=
  { s with da.lease := some ⟨o, s.now + r.leaseMs * Config.ms⟩ }

/-- R31: the entry of tag `t`, gone from the LOCAL list, is served. -/
def serveLocal (t : Tag) (s : State) : State :=
  let e := s.rt.tags[t]
  if e.req.kind = .leaseTake then completeTag t (bare .ok) (grantLease .localHost e.req s)
  else if e.req.kind.isTransfer ∧ s.dbc.state = .faulted then completeTag t (bare .busFaulted) s
  else handOver (.tag t e.gen) e.req (setTag t { e with state := .executing, due := none } s)

/-- R31, R32: the entry of slot `i`, gone from the REMOTE list, is checked against the policy again and served. -/
def serveRemote (i : Slot) (s : State) : State :=
  match s.iq.slots[i] with
  | none => s
  | some e =>
    if ¬ policyAllows s.da e.req then answerSlot i (bare .denied) s
    else if e.req.kind = .leaseTake then answerSlot i (bare .ok) (grantLease .remoteHost e.req s)
    else if e.req.kind.isTransfer ∧ s.dbc.state = .faulted then answerSlot i (bare .busFaulted) s
    else handOver (.slot i) e.req (setSlot i (some { e with state := .executing }) s)

/-- R29, R30: the list whose head selection serves next, if any. -/
def nextOrigin (a : Arbiter) : Option Origin :=
  match a.lease with
  | some l =>
    match l.holder with
    | .localHost => if a.localList.isEmpty then none else some .localHost
    | .remoteHost => if a.remoteList.isEmpty then none else some .remoteHost
  | none =>
    if a.localList.isEmpty then (if a.remoteList.isEmpty then none else some .remoteHost)
    else if a.remoteList.isEmpty then some .localHost
    else some a.turn

/-- R28, R29: the turn pointer after an entry of `o` is served: it moves to the other list, but not while a lease is held. -/
def turnAfter (o : Origin) (a : Arbiter) : Origin := if a.lease.isSome then a.turn else o.other

/-- One selection: the head of the list of `o` leaves it and is served. -/
def serveHead (o : Origin) (s : State) : State :=
  match o with
  | .localHost =>
    match s.da.localList with
    | [] => s
    | t :: rest => serveLocal t { s with da.localList := rest, da.turn := turnAfter .localHost s.da }
  | .remoteHost =>
    match s.da.remoteList with
    | [] => s
    | i :: rest => serveRemote i { s with da.remoteList := rest, da.turn := turnAfter .remoteHost s.da }

/-- R29: selection repeats until work is on the bus or nothing is left to serve; every turn of it shortens a list. -/
def selectLoop : Nat → State → State
  | 0, s => s
  | n + 1, s =>
    if s.dbc.state.accepts then
      match nextOrigin s.da with
      | none => s
      | some o => selectLoop n (serveHead o s)
    else s

/-- R29: the arbiter makes a selection. -/
def select (s : State) : State := selectLoop (s.da.localList.length + s.da.remoteList.length) s

/-- R36: LEASE_DROP by host `o`: its status, and the lease record after it. The selection it causes is made by the caller. -/
def leaseDrop (o : Origin) (s : State) : Status × State :=
  match s.da.lease with
  | none => (.ok, s)
  | some l => if l.holder = o then (.ok, { s with da.lease := none }) else (.notHolder, s)

/-- A lease held by `o` ends with no event (R48, R50). -/
def endLease (o : Origin) (s : State) : State :=
  match s.da.lease with
  | some l => if l.holder = o then { s with da.lease := none } else s
  | none => s

/-- R35: the lease expires; LEASE_EXPIRED goes to the host that held it. -/
def leaseExpiry (s : State) : State :=
  match s.da.lease with
  | none => s
  | some l => select (raiseFor l.holder .leaseExpired 0 0 { s.reach l.due with da.lease := none })

/-- R40, R45: a written policy; CLOSED revokes a REMOTE lease. -/
def setPolicy (p : BusPolicy) (s : State) : State :=
  let s1 : State := { s with da.policy := p }
  if p = .closed ∧ s.da.policy ≠ .closed then
    match s.da.lease with
    | some ⟨.remoteHost, _⟩ => select (raiseRemote .leaseExpired 0 0 { s1 with da.lease := none })
    | _ => s1
  else s1

/-- R20, R33, R142, R151: a result of the bus reaches the requester named in the hand-over, if it still waits for it. -/
def routeResult (ref : WorkRef) (a : Answer) (s : State) : State :=
  match ref with
  | .tag t g => if s.rt.tags[t].state = .executing ∧ s.rt.tags[t].gen = g then completeTag t a s else s
  | .slot i =>
    match s.iq.slots[i] with
    | none => s
    | some e =>
      match e.state with
      | .executing => answerSlot i a s
      | .detached => dropSlot i s
      | .waiting _ | .answered _ | .sent _ => s

/-- A LOCAL entry is a WRITE or READ. -/
def localTransfer (s : State) (t : Tag) : Bool := s.rt.tags[t].req.kind.isTransfer

/-- A REMOTE entry is a WRITE or READ. -/
def remoteTransfer (s : State) (i : Slot) : Bool :=
  match s.iq.slots[i] with
  | some e => e.req.kind.isTransfer
  | none => false

/-- R46: on entry to FAULTED every waiting WRITE and READ of both lists is answered BUS_FAULTED, in list order. -/
def faultPurge (s : State) : State :=
  let ts := s.da.localList.filter (localTransfer s)
  let is := s.da.remoteList.filter (remoteTransfer s)
  let s1 : State := { s with
    da.localList := s.da.localList.filter fun t => !localTransfer s t
    da.remoteList := s.da.remoteList.filter fun i => !remoteTransfer s i }
  is.foldl (fun s i => answerSlot i (bare .busFaulted) s) (completeAll ts .busFaulted s1)

/-- BUS_FAULT's detail (R65). -/
def StuckCause.code : StuckCause → Byte
  | .sdaLow => 1
  | .sclLow => 2

/-- R33, R63, R64, R67: the bus work ends: its result is returned, then the controller enters IDLE (no cause) or FAULTED (with
its cause); an entry to FAULTED raises BUS_FAULT (R65) and purges the lists (R46); then a selection is made. -/
def endWork (a : Answer) (cause : Option StuckCause) (s : State) : State :=
  let s1 := match s.dbc.work with
    | some w => routeResult w.ref a s
    | none => s
  let s2 : State := { s1 with dbc := { s1.dbc with
    state := if cause.isSome then .faulted else .idle
    work := none, stretch := none, cause := cause, fromFault := false } }
  match cause with
  | none => select s2
  | some c =>
    if s.dbc.fromFault then select s2
    else select (faultPurge (raiseRemote .busFault c.code 0 (raiseLocal .busFault c.code 0 s2)))

/-- LEASE_EXPIRY. -/
def execLeaseExpiry (s : State) : Host.Outcome State Fault Refusal := .next (onChip leaseExpiry s)

end Sys2Proof.Machine
end

