-- ==== Sys2Proof/Machine/BusController.lean ====
section
/-! DEFINITION. The Downstream Bus Controller (chapter 3): how a transfer and a recovery procedure end. -/
namespace Sys2Proof.Machine

/-! What the controller puts on the bus (sections 3.2 to 3.4). -/

/-- The address byte (section 3.2): the 7-bit target followed by the direction bit, 1 for read. -/
def addressByte (target : Byte) (read : Bool) : Byte := (target <<< 1) ||| flagByte read

/-- R57: the data bytes of a WRITE, in the order they were staged. -/
def Request.dataBytes (r : Request) : List Byte := (List.range r.length.toNat).map r.bodyByte

/-- What the controller makes on the bus: a START or repeated START, a byte sent, a byte received and acknowledged or not, a
recovery pulse of SCL, a STOP. -/
inductive BusItem where
  | start
  | byte (b : Byte)
  | receive (acknowledged : Bool)
  | pulse
  | stop
  deriving DecidableEq, Repr

/-- R59: the bytes a READ receives, each acknowledged but the last. -/
def receiveItems (n : Nat) : List BusItem := List.replicate (n - 1) (.receive true) ++ [.receive false]

/-- R57, R59: a WRITE or READ whose every byte sent is acknowledged, on the bus. -/
def Request.transfer (r : Request) : List BusItem :=
  if r.kind = .write then
    [.start, .byte (addressByte r.target false)] ++ (r.offsets ++ r.dataBytes).map .byte ++ [.stop]
  else if r.offsets = [] then
    [.start, .byte (addressByte r.target true)] ++ receiveItems r.length.toNat ++ [.stop]
  else
    [.start, .byte (addressByte r.target false)] ++ r.offsets.map .byte ++ [.start, .byte (addressByte r.target true)] ++
      receiveItems r.length.toNat ++ [.stop]

/-- The byte sent by an item, if it sends one. -/
def BusItem.sent : BusItem → Option Byte
  | .byte b => some b
  | .start | .receive _ | .pulse | .stop => none

/-- R57, R59: the bytes the controller sends in a WRITE or READ, each of which the target acknowledges or refuses. -/
def Request.sentBytes (r : Request) : List Byte := r.transfer.filterMap BusItem.sent

/-- R58, R60: items on the bus when `n` bytes are acknowledged and the next is refused: a STOP follows the refused byte at once. -/
def refusedAfter : Nat → List BusItem → List BusItem
  | _, [] => []
  | 0, .byte b :: _ => [.byte b, .stop]
  | n + 1, .byte b :: rest => .byte b :: refusedAfter n rest
  | n, x :: rest => x :: refusedAfter n rest

/-- The acknowledged bytes that open a list of acknowledges. -/
def leadingAcks (acks : List Bool) : Nat := (acks.takeWhile id).length

/-- R57 to R60: a WRITE or READ on the bus, from the acknowledges of its bytes. -/
def Request.busItems (r : Request) (acks : List Bool) : List BusItem := refusedAfter (leadingAcks acks) r.transfer

/-- What the controller does to SCL and SDA: each released (true) or pulled low (false). -/
structure BusDrive where
  scl : Bool
  sda : Bool
  deriving DecidableEq, Repr

/-- R55: one clock pulse with SDA driven so: SCL low, released, low; SDA changes while SCL is low (PRESUMED, log 41). -/
def clockDrives (sda : Bool) : List BusDrive := [⟨false, sda⟩, ⟨true, sda⟩, ⟨false, sda⟩]

/-- Section 3.2, R54, R59, R62: an item on the two lines, in order. A START pulls SDA low while SCL is released and high, then SCL
low. A byte sent is eight clocks, the most significant bit first, and a ninth with SDA released for the acknowledge; a byte
received is eight clocks with SDA released, and a ninth with SDA low to acknowledge it. A recovery pulse is SCL low and released,
SDA left released. A STOP pulls SDA low while SCL is low, releases SCL, then SDA. That SCL is pulled low before a STOP and that both
lines are released before a START is the model's reading (DEDUCED, log 41). -/
def BusItem.drives : BusItem → List BusDrive
  | .start => [⟨true, true⟩, ⟨true, false⟩, ⟨false, false⟩]
  | .byte b => ([7, 6, 5, 4, 3, 2, 1, 0].flatMap fun i => clockDrives (b.getLsbD i)) ++ clockDrives true
  | .receive acknowledged => (List.replicate 8 (clockDrives true)).flatten ++ clockDrives (!acknowledged)
  | .pulse => [⟨false, true⟩, ⟨true, true⟩]
  | .stop => [⟨false, true⟩, ⟨false, false⟩, ⟨true, false⟩, ⟨true, true⟩]

/-- What items do to the two lines, in order. -/
def busDrives (items : List BusItem) : List BusDrive := items.flatMap BusItem.drives

/-- R54, R57 to R60: what a WRITE or READ does to SCL and SDA, from the acknowledges of its bytes. -/
def Request.transferDrives (r : Request) (acks : List Bool) : List BusDrive := busDrives (r.busItems acks)

/-! How a transfer ends. -/

/-- The offset bytes a transfer sends. -/
def Request.offsetsSent (r : Request) : Nat := r.offsets.length

/-- The number of bytes the controller sends in a WRITE or READ. -/
def Request.bytesSent (r : Request) : Nat := r.sentBytes.length

/-- R58: a WRITE's data bytes among `n` acknowledged bytes. -/
def Request.dataAcked (r : Request) (n : Nat) : Nat := min r.length.toNat (n - 1 - r.offsetsSent)

/-- R59: the bytes a READ takes; a target that has stopped driving gives 0xFF (R60). -/
def Request.received (r : Request) (rx : List Byte) : List Byte :=
  (rx ++ List.replicate r.length.toNat 0xFF#8).take r.length.toNat

/-- R57, R58: how a WRITE ends, from the acknowledges of its bytes; a missing one is a line left high, no acknowledge. -/
def writeResult (r : Request) (acks : List Bool) : Answer :=
  let n := leadingAcks acks
  if r.bytesSent ≤ n then ⟨.ok, r.length.toNat, 0, []⟩
  else if n = 0 then bare .noAck
  else if n ≤ r.offsetsSent then bare .dataNack
  else ⟨.dataNack, n - 1 - r.offsetsSent, 0, []⟩

/-- R59, R60: how a READ ends, from the acknowledges of the bytes sent and the bytes received. -/
def readResult (r : Request) (acks : List Bool) (rx : List Byte) : Answer :=
  let n := leadingAcks acks
  if r.bytesSent ≤ n then ⟨.ok, r.length.toNat, 0, r.received rx⟩
  else if n = 0 then bare .noAck
  else if n ≤ r.offsetsSent then bare .dataNack
  else bare .noAck

/-- R64: a WRITE or READ ends. -/
def transactionEnd (acks : List Bool) (rx : List Byte) (s : State) : State :=
  match s.dbc.state, s.dbc.work with
  | .active, some w =>
    endWork (if w.req.kind = .write then writeResult w.req acks else readResult w.req acks rx) none s
  | _, _ => s

/-- R61: the transfer stops where it stands with its progress kept, and recovery begins. -/
def startRecovery (cause : StuckCause) (w : Work) (s : State) : State :=
  { s with dbc := { s.dbc with
      state := .recovering, work := some w, cause := some cause, stretch := some s.now, fromFault := false } }

/-- R61: SDA is low when a START or repeated START is due: no data byte has been acknowledged or received. -/
def stuckAtStart (s : State) : State :=
  match s.dbc.state, s.dbc.work with
  | .active, some w => startRecovery .sdaLow { w with acked := 0, got := [] } s
  | _, _ => s

/-- R63: the result of work whose recovery procedure ended. -/
def recoveredAnswer (w : Work) (freed : Bool) : Answer :=
  match w.req.kind with
  | .busRecover => bare (if freed then .ok else .busStuck)
  | .write => ⟨.busStuck, w.acked, 0, []⟩
  | _ => ⟨.busStuck, w.got.length, 0, w.got⟩

/-- R63, R67: a recovery procedure ends, freed (no cause) or with the line that stayed low. -/
def endRecovery (cause : Option StuckCause) (s : State) : State :=
  match s.dbc.work with
  | some w => endWork (recoveredAnswer w cause.isNone) cause s
  | none => s

/-- R55: SCL stays low 25 ms after its release, whose moment counts from the start of the work or procedure: the stretch timer
started from zero at that release (log 26). In a transfer the bus is stuck (R61), the progress being what its acknowledges and
bytes say; in a recovery procedure the procedure ends unfreed (R62). -/
def stretchLimit (release : SclRelease) (rx : List Byte) (s : State) : State :=
  match s.dbc.state, s.dbc.work, s.dbc.stretch with
  | .active, some w, some began =>
    let n := leadingAcks release.acks
    let s1 := s.reach (began + release.moment + Config.stretchLimit)
    if w.req.kind = .write then startRecovery .sclLow { w with acked := w.req.dataAcked n, got := [] } s1
    else startRecovery .sclLow
      { w with acked := 0, got := if w.req.bytesSent ≤ n then rx.take w.req.length.toNat else [] } s1
  | .recovering, some _, some began => endRecovery (some .sclLow) (s.reach (began + release.moment + Config.stretchLimit))
  | _, _, _ => s

/-- R62: the pulses a recovery procedure uses, none to nine, or `none` when SDA is still low after the ninth. Fewer than nine
samples, all low, stand for a line that stays low to the ninth pulse (DESIGN CHOICE, log 23). -/
def recoveryPulses (x : RecoverySamples) : Option Nat :=
  if x.initial then some 0
  else
    match (x.afterPulse.take 9).findIdx? id with
    | some n => some (n + 1)
    | none => none

/-- R62: a recovery procedure on the bus: its pulses, and the STOP unless SDA stayed low. -/
def recoveryItems (x : RecoverySamples) : List BusItem :=
  match recoveryPulses x with
  | some n => List.replicate n .pulse ++ [.stop]
  | none => List.replicate 9 .pulse

/-- R62: what a recovery procedure does to SCL and SDA: SDA is released first, then the pulses and the STOP. -/
def recoveryDrives (x : RecoverySamples) : List BusDrive := ⟨true, true⟩ :: busDrives (recoveryItems x)

/-- R62: the line a recovery procedure leaves low, or none when the bus is freed. -/
def recoveryCause (x : RecoverySamples) : Option StuckCause :=
  match recoveryPulses x with
  | none => some .sdaLow
  | some _ => if x.afterStop then none else some .sdaLow

/-- R63: the recovery procedure ends. -/
def recoveryEnd (x : RecoverySamples) (s : State) : State :=
  match s.dbc.state with
  | .recovering => endRecovery (recoveryCause x) s
  | _ => s

/-- TRANSACTION_END. -/
def execTransactionEnd (acks : List Bool) (rx : List Byte) (s : State) : Host.Outcome State Fault Refusal :=
  .next (onChip (transactionEnd acks rx) s)

/-- STUCK_AT_START. -/
def execStuckAtStart (s : State) : Host.Outcome State Fault Refusal := .next (onChip stuckAtStart s)

/-- STRETCH_LIMIT. -/
def execStretchLimit (release : SclRelease) (rx : List Byte) (s : State) : Host.Outcome State Fault Refusal :=
  .next (onChip (stretchLimit release rx) s)

/-- RECOVERY_END. -/
def execRecoveryEnd (samples : RecoverySamples) (s : State) : Host.Outcome State Fault Refusal :=
  .next (onChip (recoveryEnd samples) s)

end Sys2Proof.Machine
end

