-- ==== Sys2Proof/Machine/LinkTester.lean ====
section
/-! DEFINITION. The Link Tester (chapter 9): the handshake, the pattern and its check, the end of a test and its results. -/
namespace Sys2Proof.Machine

/-- R20: the owner tag's completion, if the tag is still TESTING with the same generation. -/
def completeOwner (a : Answer) (s : State) : State :=
  match s.lt.ownerTag with
  | some (t, g) => if s.rt.tags[t].state = .testing ∧ s.rt.tags[t].gen = g then completeTag t a s else s
  | none => s

/-- The Link Tester goes to IDLE: its timers stop and it holds no owner tag; its results stay as they are. -/
def endTest (s : State) : State :=
  { s with lt := { s.lt with
      phase := .idle, ownerTag := none, goTaken := false, drainDue := none, durationDue := none, lostDue := none,
      resultDue := none, patternDue := none, genStart := none } }

/-- R183: the data of a test's completion. -/
def testData (bits errors : Nat) (r : EndReason) (first : Bool) : List Byte :=
  bytes40 bits ++ bytes16 errors ++ [r.code, flagByte first]

/-- R12, R174: a test's OK completion from the results held. -/
def testAnswer (t : LinkTester) : Answer :=
  ⟨.ok, 0, BitVec.ofNat 16 t.errors, testData t.bits t.errors t.endReason t.firstError⟩

/-- R174: TEST_DONE with an end reason and an error count saturated to 255. -/
def raiseTestDone (r : EndReason) (errors : Nat) (s : State) : State :=
  raiseLocal .testDone r.code (toByte (min 255 errors)) s

/-- R167: a TEST_START accepted as tag `t`. -/
def startTest (t : Tag) (s : State) : State :=
  let e := s.rt.tags[t]
  match s.slc.state with
  | .run =>
    match s.lt.phase, testParams e.req.body with
    | .idle, some p =>
      let s1 := setTag t { e with state := .testing, due := none } s
      { s1 with lt := { s1.lt with
          phase := .enterPending, owner := true, generator := p.near, duration := p.duration, pattern := p.pattern,
          style := p.style, ownerTag := some (t, e.gen), readyTaken := false, readyBuilt := false, goTaken := false } }
    | _, _ => completeTag t (bare .busy) s
  | .drain | .test | .retrain => completeTag t (bare .busy) s
  | .disabled | .listen | .hello | .holdoff => completeTag t (bare .linkDown) s

/-- R169: the chip is drained. -/
def drained (s : State) : Bool :=
  ((List.finRange 8).all fun t => decide (s.rt.tags[t].state ≠ .inFlight) && decide (s.rt.tags[t].state ≠ .cancelSent)) &&
    decide (freeSlots s = 8) && s.fe.window.isEmpty

/-- R169: the return from DRAIN to RUN at the drain limit; the Frame Engine is kept and the release-owed mark cleared (R175). -/
def returnToRun (s : State) : State :=
  let s1 := endTest s
  { s1 with slc.state := .run, lt.releaseOwed := false }

/-- R169: the drain limit passes. -/
def drainLimit (s : State) : State :=
  match s.lt.drainDue with
  | none => s
  | some due =>
    let s1 := s.reach due
    returnToRun (if s.lt.owner then completeOwner (bare .drainTimeout) s1 else s1)

/-- R168: the chip becomes the non-owner of a test the peer owns, in DRAIN, its drain limit started. -/
def becomeNonOwner (p : TestParams) (s : State) : State :=
  { s with
    slc.state := .drain
    lt := { s.lt with
      phase := .draining, owner := false, generator := !p.near, duration := p.duration, pattern := p.pattern,
      style := p.style, ownerTag := none, readyTaken := false, readyBuilt := false, goTaken := false,
      drainDue := some (s.now + Config.drainLimit) } }

/-- R168: a delivered TEST_ENTER. -/
def takeTestEnter (p : List Byte) (s : State) : State :=
  match testParams p, s.lt.phase with
  | none, _ => s
  | some q, .idle => becomeNonOwner q s
  | some q, .enterPending | some q, .draining =>
    if s.lt.owner ∧ s.slc.role = .follower then becomeNonOwner q (completeOwner (bare .busy) s) else s
  | some _, .running | some _, .returning | some _, .awaitResult | some _, .resultOut => s

/-- R169: a delivered TEST_READY. -/
def takeTestReady (s : State) : State :=
  if s.lt.phase = .draining ∧ s.lt.owner then { s with lt.readyTaken := true } else s

/-- R169, R170: a delivered TEST_GO; the non-owner enters TEST with the next frame it sends. -/
def takeTestGo (s : State) : State :=
  if s.lt.phase = .draining ∧ ¬ s.lt.owner then { s with lt.drainDue := none, lt.goTaken := true } else s

/-- R170, R173: entering TEST. A checker's duration timer runs 2 % short. -/
def enterTest (s : State) : State :=
  let s1 := clearFlags s
  { s1 with
    slc.state := .test
    slc.silence := none
    fe.awaitReply := none
    fe.replyDue := none
    lt := { s1.lt with
      phase := .running, goTaken := false, drainDue := none, bits := 0, errors := 0, firstError := false,
      endReason := .noReason, durationDone := false, seeded := 0, shift := 0, lastError := none, lastSymbol := none,
      durationDue := some (s.now + if s.lt.generator then s.lt.duration * 1000 else s.lt.duration * 980)
      patternDue := if s.lt.generator then some (s.now + Config.patternDelay) else none
      lostDue := if s.lt.generator then none else some (s.now + Config.patternLost) } }

/-- R170: TEST_GO has left the owner's window. With requests in its Incoming Queue the owner does not enter TEST. -/
def goAcknowledged (s : State) : State :=
  if s.lt.phase = .draining ∧ s.lt.owner then
    if freeSlots s = 8 then enterTest s else returnToRun (completeOwner (bare .drainTimeout) s)
  else s

/-! The pattern (R171, R172). -/

/-- R171: the next bit of the PRBS register. -/
def prbsBit (r : BitVec 15) : Bool := r.getLsbD 14 ^^ r.getLsbD 13

/-- R171: a bit shifted in at the low end. -/
def shiftIn (r : BitVec 15) (b : Bool) : BitVec 15 := (r <<< 1) ||| (if b then 1 else 0)

/-- R171: the register after one bit of the sequence. -/
def prbsStep (r : BitVec 15) : BitVec 15 := shiftIn r (prbsBit r)

/-- The register after `n` bits of the sequence. -/
def prbsAdvance : Nat → BitVec 15 → BitVec 15
  | 0, r => r
  | n + 1, r => prbsAdvance n (prbsStep r)

/-- R171: the eight data bits of the next symbol, the first sent in bit 0. -/
def prbsByte (r : BitVec 15) : Byte :=
  toByte ([0, 1, 2, 3, 4, 5, 6, 7].foldl (fun n i => if prbsBit (prbsAdvance i r) then n + 2 ^ i else n) 0)

/-- The generator's register before its `k`-th symbol: all ones at the start of the pattern (R171). -/
def generatorRegister (k : Nat) : BitVec 15 := prbsAdvance (8 * k) 0x7FFF#15

/-- R171: the data of the `k`-th symbol of a pattern. -/
def patternByte (p : TestPattern) (k : Nat) : Byte :=
  match p with
  | .alternating => 0x55#8
  | .prbs => prbsByte (generatorRegister k)

/-- R171, R191: the symbol the generator drives at this microsecond. -/
def drivenSymbol (s : State) : Option Byte := s.lt.genStart.map fun t => patternByte s.lt.pattern (s.now - t)

/-- R172: the first `n` data bits of a symbol shifted into the checker's register, in the order they came. -/
def seedBits (n : Nat) (r : BitVec 15) (d : Byte) : BitVec 15 :=
  ([0, 1, 2, 3, 4, 5, 6, 7].take n).foldl (fun r i => shiftIn r (d.getLsbD i)) r

/-- R172: how many of a symbol's nine bits differ from the data expected and a high stop bit. -/
def wrongBits (expected d : Byte) (stop : Bool) : Nat :=
  ([0, 1, 2, 3, 4, 5, 6, 7].filter fun i => expected.getLsbD i ^^ d.getLsbD i).length + if stop then 0 else 1

/-- R172: a checked symbol with `n` wrong bits is counted, at the moment `now`. LIVE counts an error in the last symbol
itself and one exactly 1 ms before it (DESIGN CHOICE, log 24). -/
def countSymbol (n : Nat) (now : Moment) (t : LinkTester) : LinkTester :=
  let lastError := if n = 0 then t.lastError else some now
  { t with
    bits := min 1099511627775 (t.bits + 9)
    errors := min 65535 (t.errors + n)
    lastError := lastError
    firstError := match t.style with
      | .latched => t.firstError || decide (n ≠ 0)
      | .live => match lastError with
        | some e => decide (now ≤ e + Config.ms)
        | none => false }

/-- R172: the checker takes a symbol, one microsecond or more after the last. -/
def takeSymbol (d : Byte) (stop : Bool) (s0 : State) : State :=
  if ¬ checking s0 then s0
  else
    let s := match s0.lt.lastSymbol with
      | some t => s0.reach (t + 1)
      | none => s0
    let seen : LinkTester := { s.lt with lastSymbol := some s.now, lostDue := some (s.now + Config.patternLost) }
    match s.lt.pattern with
    | .alternating =>
      let n := wrongBits 0x55#8 d stop
      let s1 : State := { s with lt := countSymbol n s.now seen }
      if n = 0 then s1 else flagError s1
    | .prbs =>
      if s.lt.seeded = 0 then { s with lt := { seen with seeded := 1, shift := seedBits 8 s.lt.shift d } }
      else if s.lt.seeded = 1 then { s with lt := { seen with seeded := 2, shift := prbsStep (seedBits 7 s.lt.shift d) } }
      else
        let n := wrongBits (prbsByte s.lt.shift) d stop
        let s1 : State := { s with lt := { countSymbol n s.now seen with shift := prbsAdvance 8 s.lt.shift } }
        if n = 0 then s1 else flagError s1

/-! The end of a test (R173 to R175). -/

/-- R173, R103: a chip leaves TEST: phase RETURNING, link state RETRAIN with its limit started and its count at 0, TEST_FLAG
lines high. -/
def leaveTest (r : EndReason) (s : State) : State :=
  let s1 := clearFlags s
  { s1 with
    slc.state := .retrain
    slc.good := 0
    slc.retrain := some (s.now + Config.retrainLimit)
    slc.trainDue := if s.slc.role = .leader then some (s.now + Config.retrainDelay) else none
    lt := { s1.lt with
      phase := .returning, endReason := r, durationDue := none, lostDue := none, patternDue := none, genStart := none } }

/-- R173: the generator's duration timer runs out. -/
def testDuration (s : State) : State :=
  match s.lt.durationDue with
  | some due => if generating s then leaveTest .duration (s.reach due) else s
  | none => s

/-- R173: the checker's duration timer runs out; the test goes on. -/
def checkerDuration (s : State) : State :=
  match s.lt.durationDue with
  | some due =>
    if checking s then { s.reach due with lt.durationDone := true, lt.durationDue := none } else s
  | none => s

/-- R173: whether a checker's duration timer has run out by `t`. -/
def durationOver (lt : LinkTester) (t : Moment) : Bool :=
  lt.durationDone || (match lt.durationDue with | some due => decide (due ≤ t) | none => false)

/-- R173: the checker's pattern-lost limit passes. -/
def patternLost (s : State) : State :=
  match s.lt.lostDue with
  | some due =>
    if checking s then
      let s1 := s.reach due
      leaveTest (if durationOver s.lt s1.now then .duration else .patternLost) s1
    else s
  | none => s

/-- R173: a write to TEST_STOP. -/
def testStop (s : State) : State :=
  if generating s then
    let s1 := leaveTest .stopped s
    { s1 with lt.stopResult := .stopped }
  else if checking s then { s with lt.stopResult := .notGenerator }
  else { s with lt.stopResult := .noTest }

/-- R170, R171: the generator starts driving the pattern. -/
def patternStart (s : State) : State :=
  match s.lt.patternDue with
  | some due =>
    if generating s then
      let s1 := s.reach due
      { s1 with lt.genStart := some s1.now, lt.patternDue := none }
    else s
  | none => s

/-- R174: the Link Tester settles the test at the entry to RUN from RETRAIN; a release owed is applied first (R175). -/
def settleTest (s0 : State) : State :=
  let s : State := if s0.lt.releaseOwed then { s0 with fe.releaseAll := true, lt.releaseOwed := false } else s0
  if s.lt.phase ≠ .returning then s
  else
    match s.lt.owner, s.lt.generator with
    | true, false => endTest (raiseTestDone s.lt.endReason s.lt.errors (completeOwner (testAnswer s.lt) s))
    | false, false =>
      let s1 := raiseTestDone s.lt.endReason s.lt.errors s
      { s1 with lt.phase := .resultOut }
    | true, true => { s with lt.phase := .awaitResult, lt.resultDue := some (s.now + Config.resultLimit) }
    | false, true => endTest (raiseTestDone s.lt.endReason 0 s)

/-- R117: the payload of a TEST_RESULT. -/
def resultPayload (t : LinkTester) : List Byte :=
  bytes40 t.bits ++ bytes16 t.errors ++ [flagByte t.firstError, t.endReason.code]

/-- R174: the end reason an owner generator reports, from its own and the checker's carried one. -/
def reportedReason (own carried : EndReason) : EndReason := if own = .stopped then .stopped else carried

/-- R174: a delivered TEST_RESULT. -/
def takeTestResult (p : List Byte) (s : State) : State :=
  if s.lt.phase ≠ .awaitResult then s
  else
    let r := reportedReason s.lt.endReason ((EndReason.ofByte (p.getD 8 0)).getD .noReason)
    let t : LinkTester := { s.lt with
      bits := nat40 p, errors := nat16 (p.getD 5 0) (p.getD 6 0), firstError := decide (p.getD 7 0 = 1), endReason := r,
      resultDue := none }
    let s1 : State := { s with lt := t }
    endTest (raiseTestDone r t.errors (completeOwner (testAnswer t) s1))

/-- R174: the owner's result limit passes. -/
def resultLimit (s : State) : State :=
  match s.lt.resultDue with
  | some due => endTest (completeOwner (bare .linkDown) (s.reach due))
  | none => s

/-- R175: the Link Tester's part of a loss. -/
def testAtLoss (s : State) : State :=
  let done : State → State := fun s => { endTest s with lt.releaseOwed := false }
  match s.lt.phase with
  | .idle => s
  | .enterPending | .draining => done (if s.lt.owner then completeOwner (bare .linkDown) s else s)
  | .running | .returning =>
    if s.lt.generator then done (if s.lt.owner then completeOwner (bare .linkDown) s else s)
    else
      let s1 : State := if s.lt.phase = .running then { s with lt.endReason := .stopped } else s
      let s2 := raiseTestDone s1.lt.endReason s1.lt.errors s1
      done (if s2.lt.owner then completeOwner (testAnswer s2.lt) s2 else s2)
  | .awaitResult => done (completeOwner (bare .linkDown) s)
  | .resultOut => done s

/-- R173, R175: the Link Tester's part of a soft reset. -/
def testAtSoftReset (s : State) : State :=
  let s1 := if s.lt.phase = .enterPending then endTest s else s
  let owed := match s.slc.state with
    | .drain | .test | .retrain => true
    | _ => s1.lt.releaseOwed
  { s1 with lt.releaseOwed := owed, lt.stopResult := .noResult }

/-- DRAIN_LIMIT. -/
def execDrainLimit (s : State) : Host.Outcome State Fault Refusal := .next (onChip drainLimit s)
/-- PATTERN_START. -/
def execPatternStart (s : State) : Host.Outcome State Fault Refusal := .next (onChip patternStart s)
/-- PATTERN_SYMBOL. -/
def execPatternSymbol (data : Byte) (stop : Bool) (s : State) : Host.Outcome State Fault Refusal :=
  .next (onChip (takeSymbol data stop) s)
/-- TEST_DURATION. -/
def execTestDuration (s : State) : Host.Outcome State Fault Refusal := .next (onChip testDuration s)
/-- CHECKER_DURATION. -/
def execCheckerDuration (s : State) : Host.Outcome State Fault Refusal := .next (onChip checkerDuration s)
/-- PATTERN_LOST. -/
def execPatternLost (s : State) : Host.Outcome State Fault Refusal := .next (onChip patternLost s)
/-- RESULT_LIMIT. -/
def execResultLimit (s : State) : Host.Outcome State Fault Refusal := .next (onChip resultLimit s)

end Sys2Proof.Machine
end

