-- ==== Sys2Proof/Machine/Wire.lean ====
section
/-! DEFINITION. The frame on the wire (section 6.1) and the check of a received one (R113, R114, R117). -/
namespace Sys2Proof

/-- Frame kind values (R116). -/
def FrameKind.code : FrameKind → Nat
  | .train => 1 | .trainAck => 2 | .hello => 3 | .idle => 4 | .req => 5 | .rsp => 6 | .cancel => 7 | .lines => 8
  | .event => 9 | .releaseAll => 10 | .testEnter => 11 | .testReady => 12 | .testGo => 13 | .testResult => 14

/-- The frame kind a value names, if any (R114). -/
def FrameKind.ofCode : Nat → Option FrameKind
  | 1 => some .train | 2 => some .trainAck | 3 => some .hello | 4 => some .idle | 5 => some .req | 6 => some .rsp
  | 7 => some .cancel | 8 => some .lines | 9 => some .event | 10 => some .releaseAll | 11 => some .testEnter
  | 12 => some .testReady | 13 => some .testGo | 14 => some .testResult | _ => none

/-- Sequenced kinds (R116). -/
def FrameKind.sequenced : FrameKind → Bool
  | .train | .trainAck | .hello | .idle => false
  | _ => true

/-- TRAIN, TRAIN_ACK and HELLO, the frames of the link controller (R118). -/
def FrameKind.isLink : FrameKind → Bool
  | .train | .trainAck | .hello => true
  | _ => false

/-- The kinds that carry the RETRAIN mark (header byte 0 bit 2). -/
def FrameKind.hasMark : FrameKind → Bool
  | .train | .trainAck => true
  | _ => false

end Sys2Proof

namespace Sys2Proof.Machine

/-- R113: one bit into the CRC register. -/
def crcBit (reg : BitVec 16) (d : Bool) : BitVec 16 :=
  if reg.getLsbD 0 = d then reg >>> 1 else (reg >>> 1) ^^^ 0x8408#16

/-- R113: one byte into the CRC register, least significant bit first. -/
def crcByte (reg : BitVec 16) (b : Byte) : BitVec 16 :=
  [0, 1, 2, 3, 4, 5, 6, 7].foldl (fun r i => crcBit r (b.getLsbD i)) reg

/-- R113: the CRC of a frame's header and payload bytes. -/
def crc16 (bytes : List Byte) : BitVec 16 := bytes.foldl crcByte 0xFFFF#16

/-- The four header bytes (R111). -/
def headerBytes (f : Frame) : List Byte :=
  [toByte (f.kind.code * 16) ||| (flagByte (f.kind.hasMark && f.header.retrain) <<< 2) |||
      (flagByte f.header.hostReady <<< 1) ||| flagByte f.header.resend,
    (f.header.seq.setWidth 8 <<< 4) ||| f.header.ack.setWidth 8, f.header.ret, toByte f.payload.length]

/-- R111: the bytes of a frame in the order they are sent. -/
def wireBytes (f : Frame) : List Byte :=
  let body := headerBytes f ++ f.payload
  [0x55#8, 0x55#8, 0x55#8, 0x55#8, 0xD7#8] ++ body ++ [(crc16 body).extractLsb' 0 8, (crc16 body).extractLsb' 8 8]

/-- R111: how long a frame with so many payload bytes occupies the pair, in microseconds. -/
def frameTime (payload : Nat) : Nat := 11 + payload

/-- R117: the payload lengths and values a kind allows. A REQ is held to the 41 bytes of R116 too, so the REQ of a WRITE whose
length byte is 33 to 39 with as many body bytes fails its check (DESIGN CHOICE, log 38). -/
def payloadGood (k : FrameKind) (p : List Byte) : Bool :=
  match k with
  | .train | .trainAck => decide (p.length = 1) && decide ((p.getD 0 0).toNat ≤ 1)
  | .hello => decide (p.length = 3) && decide ((p.getD 2 0).toNat ≤ 1)
  | .idle | .releaseAll | .testReady | .testGo => decide (p.length = 0)
  | .req =>
    match carriedRequest p with
    | some r => decide (p.length = 9 + r.kind.carriedBody r.length) && decide (p.length ≤ 41)
    | none => false
  | .rsp =>
    decide (6 ≤ p.length) && decide (p.length ≤ 38) && (Status.ofByte (p.getD 2 0)).isSome &&
      decide ((p.getD 3 0).toNat ≤ 32)
  | .cancel => decide (p.length = 2)
  | .lines => decide (p.length ≤ 12) && p.all fun b => decide ((b.extractLsb' 0 4).toNat ≤ 11)
  | .event => decide (p.length = 6)
  | .testEnter => decide (p.length = 5)
  | .testResult =>
    decide (p.length = 9) && decide ((p.getD 7 0).toNat ≤ 1) && decide ((p.getD 8 0).toNat ≤ 3)

/-- R114: the return count and the payload of a received frame are ones its kind allows. -/
def frameGood (k : FrameKind) (h : FrameHeader) (p : List Byte) : Bool :=
  decide (h.ret.toNat ≤ 8) && decide (p.length ≤ 48) && payloadGood k p

/-- R111: the bytes after a delimiter that follows directly on at least two preamble bytes; `n` preamble bytes came last. -/
def afterStart : Nat → List Byte → Option (List Byte)
  | _, [] => none
  | n, b :: rest =>
    if b = 0x55#8 then afterStart (n + 1) rest
    else if b = 0xD7#8 ∧ 2 ≤ n then some rest
    else afterStart 0 rest

/-- R111, R113, R114: the frame in the bytes after a delimiter, when it passes its check. -/
def checkFrame (bytes : List Byte) : Option Frame :=
  match bytes with
  | b0 :: b1 :: b2 :: b3 :: rest =>
    let p := rest.take b3.toNat
    match FrameKind.ofCode (b0.toNat / 16), rest.drop b3.toNat with
    | some k, c0 :: c1 :: _ =>
      let h : FrameHeader := ⟨k.hasMark && b0.getLsbD 2, b0.getLsbD 1, b0.getLsbD 0, b1.extractLsb' 4 3,
        b1.extractLsb' 0 3, b2⟩
      if p.length = b3.toNat ∧ crc16 (b0 :: b1 :: b2 :: b3 :: p) = c1 ++ c0 ∧ frameGood k h p then some ⟨k, h, p⟩
      else none
    | _, _ => none
  | _ => none

/-- The command a good frame is. -/
def frameCommand (f : Frame) : Instr :=
  match f.kind with
  | .train => .train f.header f.payload
  | .trainAck => .trainAck f.header f.payload
  | .hello => .hello f.header f.payload
  | .idle => .idle f.header f.payload
  | .req => .req f.header f.payload
  | .rsp => .rsp f.header f.payload
  | .cancel => .cancelFrame f.header f.payload
  | .lines => .lines f.header f.payload
  | .event => .event f.header f.payload
  | .releaseAll => .releaseAll f.header f.payload
  | .testEnter => .testEnter f.header f.payload
  | .testReady => .testReady f.header f.payload
  | .testGo => .testGo f.header f.payload
  | .testResult => .testResult f.header f.payload

/-- R111, R114: the command that bytes arriving on the pair are: nothing without a start, a good frame's row, or BAD_FRAME. -/
def receiveWire (bytes : List Byte) : Option Instr :=
  match afterStart 0 bytes with
  | none => none
  | some rest =>
    match checkFrame rest with
    | some f => some (frameCommand f)
    | none => some (.badFrame bytes)

end Sys2Proof.Machine
end

