-- ==== Sys2Proof/Machine/Link.lean ====
section
/-! DEFINITION. The Span Link Controller (chapter 5): its frames, LISTEN to RUN, loss and HOLDOFF, SPAN_OFF and its timers. -/
namespace Sys2Proof.Machine

/-- R111, R191: the chip starts sending a frame; what it waited to receive or to send before is over. -/
def startFrame (f : Frame) (s : State) : State :=
  { s with
    fe.sending := some f, fe.sendEnd := s.now + frameTime f.payload.length, fe.awaitReply := none, fe.replyDue := none }

/-- R118, R103, R108: the header of a frame of the link controller. -/
def linkHeader (k : FrameKind) (s : State) : FrameHeader :=
  ⟨k.hasMark && decide (s.slc.state = .retrain), s.hp.hostReady, false, 0, 0, 0⟩

/-- R96: a TRAIN with this chip's role. -/
def sendTrain (s : State) : State := startFrame ⟨.train, linkHeader .train s, [s.slc.role.code]⟩ s

/-- R97: a TRAIN_ACK with this chip's role. -/
def sendTrainAck (s : State) : State := startFrame ⟨.trainAck, linkHeader .trainAck s, [s.slc.role.code]⟩ s

/-- R99: this chip's HELLO. -/
def sendHello (s : State) : State :=
  startFrame ⟨.hello, linkHeader .hello s, [Config.revision, toByte Config.iqCapacity, s.slc.role.code]⟩ s

/-- R95, R96: entry to LISTEN; a leader sends its first TRAIN at once. -/
def enterListen (s : State) : State :=
  let s1 : State := { s with slc.state := .listen, slc.good := 0 }
  if s.slc.role = .leader then sendTrain { s1 with slc.trainDue := some (s.now + Config.trainInterval) } else s1

/-- R95, R105: the pair is released and nothing of the link is timed, counted or owed. -/
def quiet (s : State) : State :=
  { s with
    slc := { s.slc with
      good := 0, missed := 0, trainDue := none, helloDue := none, helloLimit := none, silence := none, retrain := none,
      holdoff := none }
    fe := { s.fe with sending := none, awaitReply := none, replyDue := none, helloTaken := none } }

/-- R105: entry to HOLDOFF. -/
def enterHoldoff (r : HoldoffReason) (period : Nat) (s : State) : State :=
  let s1 := quiet s
  { s1 with slc.state := .holdoff, slc.detail := r, slc.holdoff := some (s.now + period) }

/-- R94, R104: a failed bring-up. -/
def failBringUp (r : HoldoffReason) (s : State) : State := enterHoldoff r Config.holdoff s

/-- R98: a role clash at a leader. -/
def roleClash (s : State) : State :=
  enterHoldoff .roleConflict Config.clashHoldoff (raiseLocal .roleConflict 0 0 s)

/-! The teardown of R106. -/

/-- R15: a far request's state between submit and completion. -/
def TagState.isFar : TagState → Bool
  | .waitCredit | .inFlight | .cancelSent => true
  | _ => false

/-- R15: the far requests complete LINK_DOWN in submission order. -/
def requestsAtLoss (s : State) : State :=
  completeAll (s.rt.order.filter fun t => s.rt.tags[t].state.isFar) .linkDown s

/-- R150: an Incoming Queue entry at a loss. -/
def slotAtLoss (e : SlotEntry) : Option SlotEntry :=
  match e.state with
  | .executing | .detached => some { e with state := .detached }
  | .waiting _ | .answered _ | .sent _ => none

/-- R49, R150: the Incoming Queue's part of a loss, and the REMOTE list's. -/
def incomingAtLoss (s : State) : State :=
  { s with
    iq := { slots := vtab fun i => s.iq.slots[i].bind slotAtLoss
            arrival := s.iq.arrival.filter fun i => (s.iq.slots[i].bind slotAtLoss).isSome
            answerOrder := [] }
    da.remoteList := [] }

/-- R162: the Event Unit's part of a loss. -/
def eventsAtLoss (r : HoldoffReason) (s : State) : State :=
  raiseLocal .linkDown r.code 0 { s with eu.outbox := [] }

/-- R49: a REMOTE lease breaks. -/
def leaseAtLoss (s : State) : State :=
  match s.da.lease with
  | some ⟨.remoteHost, _⟩ => raiseLocal .leaseBroken 0 0 { s with da.lease := none }
  | _ => s

/-- R135: the Frame Engine's part of a loss, and the peer host-ready copy (R106). -/
def engineAtLoss (s : State) : State :=
  { s with fe := { FrameEngine.reset with crcErrors := s.fe.crcErrors }, slc.peerReady := false }

/-- R104, R106: a loss of the link. The parts are made in the order in which their records are queued; the arbiter's selection
comes last, so that a completion it makes is queued after those of the far tags and of a test (DESIGN CHOICE, log 19). -/
def loss (r : HoldoffReason) (s : State) : State :=
  let s1 := leaseAtLoss (eventsAtLoss r (incomingAtLoss (requestsAtLoss s)))
  let s2 := clearFlags (testAtLoss (linesAtLoss s1))
  select (enterHoldoff r Config.holdoff (engineAtLoss s2))

/-! The entries to HELLO and RUN. -/

/-- R96, R97, R99, R100: lock. A leader's first HELLO is 1 ms after the taking of the sixteenth TRAIN_ACK, and no TRAIN follows
(DESIGN CHOICE, log 40). -/
def lock (s : State) : State :=
  { s with slc := { s.slc with
      state := .hello, trainDue := none, helloLimit := some (s.now + Config.helloLimit)
      helloDue := if s.slc.role = .leader then some (s.now + Config.trainInterval) else none } }

/-- R135: the Frame Engine at an entry to RUN from HELLO or RETRAIN; the leader's first turn opens at once (R119). -/
def engineAtRun (credits : Nat) (now : Moment) (fe : FrameEngine) : FrameEngine :=
  { FrameEngine.reset with
    credits, crcErrors := fe.crcErrors, runLines := true, turnOpened := now, earliest := now, hurry := true }

/-- R101, R103: what both entries to RUN do to the link controller and the Frame Engine. -/
def startRun (credits : Nat) (s : State) : State :=
  { s with
    slc := { s.slc with
      state := .run, missed := 0, trainDue := none, helloDue := none, helloLimit := none, retrain := none
      silence := if s.slc.role = .follower then some (s.now + Config.silenceLimit) else none }
    fe := engineAtRun credits s.now s.fe }

/-- R151: DETACHED entries are freed. -/
def freeDetached (s : State) : State :=
  let keep : SlotEntry → Option SlotEntry := fun e => if e.state = .detached then none else some e
  { s with
    iq.slots := vtab fun i => s.iq.slots[i].bind keep
    iq.arrival := s.iq.arrival.filter fun i => (s.iq.slots[i].bind keep).isSome }

/-- R101: entry to RUN from HELLO. -/
def enterRunFromHello (h : HelloTaken) (s : State) : State :=
  let s1 := startRun h.capacity (freeDetached s)
  let s2 : State := { s1 with slc.peerRev := h.revision, slc.peerCap := h.capacity, slc.peerReady := h.ready }
  let s3 := raiseLocal .linkUp 0 h.revision s2
  if h.ready then raiseLocal .peerHostReady 0 0 s3 else s3

/-- R103, R174: entry to RUN from RETRAIN. -/
def enterRunFromRetrain (s : State) : State := settleTest (startRun s.slc.peerCap s)

/-! SPAN_OFF and the timers. -/

/-- R95: a write that changes SPAN_OFF. -/
def setSpanOff (v : Bool) (s : State) : State :=
  if s.hp.spanOff = v then s
  else
    let s1 : State := { s with hp.spanOff := v }
    match v, s.slc.state with
    | true, .disabled | true, .holdoff => s1
    | true, .listen =>
      let s2 := quiet s1
      { s2 with slc.state := .disabled }
    | true, .hello => failBringUp .localOff s1
    | true, .run | true, .drain | true, .test | true, .retrain => loss .localOff s1
    | false, .disabled => if s.slc.spanEn then enterListen s1 else s1
    | false, .listen | false, .hello | false, .run | false, .drain | false, .test | false, .retrain
    | false, .holdoff => s1

/-- R96, R103: the training interval comes due. -/
def trainingInterval (s : State) : State :=
  match s.slc.trainDue with
  | none => s
  | some due => sendTrain { s.reach due with slc.trainDue := some (due + Config.trainInterval) }

/-- R99: the HELLO interval comes due. -/
def helloInterval (s : State) : State :=
  match s.slc.helloDue with
  | none => s
  | some due => sendHello { s.reach due with slc.helloDue := some (due + Config.trainInterval) }

/-- R99, R100: the HELLO limit passes. -/
def helloLimit (s : State) : State :=
  match s.slc.helloLimit with
  | none => s
  | some due => failBringUp .helloFail (s.reach due)

/-- R102: the follower silence limit passes. -/
def silenceLimit (s : State) : State :=
  match s.slc.silence with
  | none => s
  | some due => loss .turnLoss (s.reach due)

/-- R103: the retrain limit passes. -/
def retrainLimit (s : State) : State :=
  match s.slc.retrain with
  | none => s
  | some due => loss .retrainFail (s.reach due)

/-- R105: the HOLDOFF period ends. -/
def holdoffEnd (s : State) : State :=
  match s.slc.holdoff with
  | none => s
  | some due =>
    let s1 : State := { s.reach due with slc.holdoff := none }
    if s.hp.spanOff then { s1 with slc.state := .disabled } else enterListen s1

/-- TRAINING_INTERVAL. -/
def execTrainingInterval (s : State) : Host.Outcome State Fault Refusal := .next (onChip trainingInterval s)
/-- HELLO_INTERVAL. -/
def execHelloInterval (s : State) : Host.Outcome State Fault Refusal := .next (onChip helloInterval s)
/-- HELLO_LIMIT. -/
def execHelloLimit (s : State) : Host.Outcome State Fault Refusal := .next (onChip helloLimit s)
/-- SILENCE_LIMIT. -/
def execSilenceLimit (s : State) : Host.Outcome State Fault Refusal := .next (onChip silenceLimit s)
/-- RETRAIN_LIMIT. -/
def execRetrainLimit (s : State) : Host.Outcome State Fault Refusal := .next (onChip retrainLimit s)
/-- HOLDOFF_END. -/
def execHoldoffEnd (s : State) : Host.Outcome State Fault Refusal := .next (onChip holdoffEnd s)

end Sys2Proof.Machine
end

