-- ==== Sys2Proof/Machine/FarRequests.lean ====
section
/-! DEFINITION. What a delivered frame does at the block it is delivered to (chapter 7, R160), and a far chip's deadlines. -/
namespace Sys2Proof.Machine

/-- Kinds whose REQ is checked against the policy (R140 step 2). -/
def ReqKind.checked : ReqKind → Bool
  | .write | .read | .busRecover | .leaseTake | .leaseDrop => true
  | _ => false

/-- The lease is held by `o`, so a LEASE_DROP of `o` ends it and a selection follows (R36). -/
def holdsLease (o : Origin) (s : State) : Bool :=
  match s.da.lease with
  | some l => decide (l.holder = o)
  | none => false

/-- R36 with its selection: the lease drop of `o`, `answer` recording the status where the requester finds it. -/
def dropLease (o : Origin) (answer : Status → State → State) (s : State) : State :=
  let x := leaseDrop o s
  let s1 := answer x.1 x.2
  if holdsLease o s then select s1 else s1

/-- R141: a request of a kind that does not wait, carried out for the REMOTE host in entry `i`. -/
def runRemote (i : Slot) (r : Request) (s : State) : State :=
  match r.kind with
  | .lineSet | .lineSample | .lineConfig | .lineClaim | .lineRelease =>
    let x := runLine .remoteHost r s
    answerSlot i x.1 x.2
  | .leaseDrop => dropLease .remoteHost (fun st => answerSlot i (bare st)) s
  | .ping => answerSlot i (pingAnswer s) s
  | .write | .read | .busRecover | .leaseTake | .testStart => s

/-- R140: the checks and the dispatch of a request in its new entry `i`. -/
def handleReq (i : Slot) (r : Request) (s : State) : State :=
  if r.kind ≠ .ping ∧ s.hp.hostReady = false then answerSlot i (bare .notReady) s
  else if r.kind.checked ∧ policyAllows s.da r = false then answerSlot i (bare .denied) s
  else if r.kind = .testStart ∨ r.valid = false then answerSlot i (bare .denied) s
  else if r.kind.isQueued then select { s with da.remoteList := s.da.remoteList ++ [i] }
  else runRemote i r s

/-- R138, R140, R142: the moment the carried remaining deadline runs out; a carried 0 is taken as 1 ms. -/
def carriedDue (now : Moment) (r : Request) : Moment := now + max 1 r.deadline.toNat * Config.ms

/-- R140: a delivered REQ. -/
def takeReq (p : List Byte) (s : State) : Host.Outcome State Fault Refusal :=
  match freeSlot s, carriedRequest p with
  | none, _ => .fault .reqWithoutRoom
  | some _, none => .next s
  | some i, some r =>
    let e : SlotEntry := ⟨p.getD 0 0, p.getD 1 0, r, .waiting (carriedDue s.now r)⟩
    let s1 := setSlot i (some e) s
    .next (handleReq i r { s1 with iq.arrival := s1.iq.arrival ++ [i] })

/-- R117: the answer an RSP carries. -/
def carriedAnswer (p : List Byte) : Answer :=
  ⟨(Status.ofByte (p.getD 2 0)).getD .ok, (p.getD 3 0).toNat, p.getD 4 0 ++ p.getD 5 0, p.drop 6⟩

/-- The tag a byte names, if any. -/
def tagOfByte (b : Byte) : Option Tag := if h : b.toNat < 8 then some ⟨b.toNat, h⟩ else none

/-- R144: the tag awaits an answer under this generation. -/
def awaits (e : TagEntry) (gen : Byte) : Bool :=
  (decide (e.state = .inFlight) || decide (e.state = .cancelSent)) && decide (e.gen.setWidth 8 = gen)

/-- R144: a delivered RSP. -/
def takeRsp (p : List Byte) (s : State) : State :=
  match tagOfByte (p.getD 0 0) with
  | some t => if awaits s.rt.tags[t] (p.getD 1 0) then completeTag t (carriedAnswer p) s else s
  | none => s

/-- R146: the entry a CANCEL names: the one that arrived last. -/
def cancelTarget (tag gen : Byte) (s : State) : Option Slot :=
  s.iq.arrival.reverse.find? fun i =>
    match s.iq.slots[i] with
    | some e => decide (e.tag = tag) && decide (e.gen = gen)
    | none => false

/-- R142: a WAITING entry leaves the REMOTE list with an answer. -/
def withdrawSlot (i : Slot) (st : Status) (s : State) : State :=
  answerSlot i (bare st) { s with da.remoteList := s.da.remoteList.filter (· ≠ i) }

/-- The moment the deadline of a WAITING entry passes. -/
def slotDue (s : State) (i : Slot) : Option Moment :=
  match s.iq.slots[i] with
  | some ⟨_, _, _, .waiting due⟩ => some due
  | _ => none

/-- R146: a delivered CANCEL. -/
def takeCancel (p : List Byte) (s : State) : State :=
  match cancelTarget (p.getD 0 0) (p.getD 1 0) s with
  | some i => if (slotDue s i).isSome then withdrawSlot i .cancelled s else s
  | none => s

/-- R148: the WAITING entries are freed with their credits. -/
def dropWaiting (s : State) : State :=
  ((List.finRange 8).filter fun i => (slotDue s i).isSome).foldl (fun s i => freeWithCredit i s) { s with da.remoteList := [] }

/-- R148, R50, R91: a delivered RELEASE_ALL. -/
def takeReleaseAll (s : State) : State :=
  select (releaseOwned .remoteHost allLines (endLease .remoteHost (dropWaiting s)))

/-- R160: a delivered EVENT. -/
def takeEvent (p : List Byte) (s : State) : State :=
  match EventKind.ofByte (p.getD 0 0) with
  | none => s
  | some k =>
    { s with eu.eventQueue :=
        insertCarried s.eu.eventQueue ⟨k, .remoteHost, p.getD 2 0, p.getD 3 0, max 1 (p.getD 4 0).toNat⟩ }

/-- R39, R142: the deadline of a WAITING entry passes. -/
def remoteDeadlineExpiry (i : Slot) (s : State) : State :=
  match slotDue s i with
  | none => s
  | some due => withdrawSlot i .timeout (s.reach due)

/-- REMOTE_DEADLINE_EXPIRY. -/
def execRemoteDeadlineExpiry (i : Slot) (s : State) : Host.Outcome State Fault Refusal :=
  .next (onChip (remoteDeadlineExpiry i) s)

end Sys2Proof.Machine
end

