-- ==== Sys2Proof/Machine/Frames.lean ====
section
/-! DEFINITION. The Frame Engine (chapter 6): the transmit selector, resending, the taking of frames, turns; and the link
controller's handling of frames outside turns (chapter 5). -/
namespace Sys2Proof.Machine

/-! Sending (R111, R119 to R126, R130 to R132). -/

/-- R112: the header a chip sends in a turn. -/
def turnHeader (seq : Seq) (s : State) : FrameHeader :=
  ⟨false, s.hp.hostReady, s.fe.resend, seq, s.fe.expected - 1, toByte s.fe.retCount⟩

/-- R131: resending becomes due. -/
def goBack (s : State) : State := { s with fe.stall := 0, fe.goBack := s.fe.window.map (·.seq) }

/-- R130: the stall count after a frame is sent; `held`: the window held a frame before this one was added. -/
def noteSend (held : Bool) (s : State) : State :=
  let n := if held ∧ s.fe.progress = false then s.fe.stall + 1 else s.fe.stall
  let s1 : State := { s with fe.stall := n, fe.progress := false }
  if n ≥ 3 then goBack s1 else s1

/-- The window holds a frame. -/
def windowHeld (s : State) : Bool := !s.fe.window.isEmpty

/-- R123: a new sequenced frame is built and its sending starts. -/
def pushFrame (k : FrameKind) (p : List Byte) (slot : Option Slot) (s : State) : State :=
  let s1 := startFrame ⟨k, turnHeader s.fe.txSeq s, p⟩ s
  noteSend (windowHeld s)
    { s1 with fe.window := s1.fe.window ++ [⟨k, s1.fe.txSeq, p, 1, slot⟩], fe.txSeq := s1.fe.txSeq + 1 }

/-- R122: the oldest WAIT_CREDIT tag in submission order. -/
def nextReq (s : State) : Option Tag := s.rt.order.find? fun t => decide (s.rt.tags[t].state = .waitCredit)

/-- R122 candidate 7, R167, R169: the handshake frame the Link Tester has to send. -/
def handshake (s : State) : Option FrameKind :=
  match s.slc.state, s.lt.phase with
  | .run, .enterPending => some .testEnter
  | .drain, .draining =>
    if s.lt.owner then
      if drained s ∧ s.lt.readyTaken ∧ s.lt.drainDue.isSome then some .testGo else none
    else if drained s ∧ s.lt.readyBuilt = false then some .testReady else none
  | _, _ => none

/-- R122: the kind of the candidate the selector takes, of candidates 2 to 10. -/
def nextKind (s : State) : FrameKind :=
  let run := decide (s.slc.state = .run)
  if Config.windowSize ≤ s.fe.window.length then .idle
  else if s.fe.releaseAll then .releaseAll
  else if ¬ s.fe.cancelList.isEmpty then .cancel
  else if run ∧ s.lt.phase = .resultOut then .testResult
  else if run ∧ (s.fe.runLines ∨ s.lb.mirrorPending) then .lines
  else if ¬ s.iq.answerOrder.isEmpty then .rsp
  else
    match handshake s with
    | some k => k
    | none =>
      if run ∧ (nextReq s).isSome ∧ 1 ≤ s.fe.credits then .req
      else if run ∧ ¬ s.eu.outbox.isEmpty then .event
      else .idle

/-- R137: the whole milliseconds left before `due`, at least 1. -/
def remainingMs (now : Moment) (due : Option Moment) : Nat := max 1 ((due.getD now - now) / Config.ms)

/-- R13, R123, R137: a REQ is built for tag `t`. -/
def buildReq (t : Tag) (s : State) : State :=
  let e := s.rt.tags[t]
  let s1 := setTag t { e with state := .inFlight, due := e.due.map (· + Config.farGrace) } s
  pushFrame .req (reqPayload t e.gen (remainingMs s.now e.due) e.req) none { s1 with fe.credits := s1.fe.credits - 1 }

/-- R117: the payload of an RSP. -/
def rspPayload (e : SlotEntry) (a : Answer) : List Byte :=
  [e.tag, e.gen, a.status.code, toByte a.count, a.extra.extractLsb' 8 8, a.extra.extractLsb' 0 8] ++ a.data

/-- R143: the RSP of entry `i` is built; the entry goes to SENT. -/
def buildRsp (i : Slot) (s : State) : State :=
  match s.iq.slots[i] with
  | some e =>
    match e.state with
    | .answered a =>
      let s1 := setSlot i (some { e with state := .sent a }) s
      pushFrame .rsp (rspPayload e a) (some i) { s1 with iq.answerOrder := s1.iq.answerOrder.filter (· ≠ i) }
    | .waiting _ | .executing | .sent _ | .detached => s
  | none => s

/-- R117: the payload of a TEST_ENTER, its generator side as the owner's request gave it. -/
def enterPayload (t : LinkTester) : List Byte :=
  bytes16 t.duration ++ [t.pattern.code, (if t.generator then Side.near else Side.far).code, t.style.code]

/-- R117: the payload of an EVENT; the source is sent as LOCAL. -/
def eventPayload (r : EventRecord) : List Byte := eventBytes { r with source := .localHost }

/-- R122: the IDLE frame. -/
def buildIdle (s : State) : State := noteSend (windowHeld s) (startFrame ⟨.idle, turnHeader 0 s, []⟩ s)

/-- R123: the frame of the candidate chosen is built, with its effect on the block that supplies it. -/
def buildFrame (k : FrameKind) (s : State) : State :=
  match k with
  | .releaseAll => pushFrame .releaseAll [] none { s with fe.releaseAll := false }
  | .cancel =>
    match s.fe.cancelList with
    | (t, g) :: rest => pushFrame .cancel [toByte t.val, g.setWidth 8] none { s with fe.cancelList := rest }
    | [] => s
  | .testResult => pushFrame .testResult (resultPayload s.lt) none (endTest s)
  | .lines =>
    pushFrame .lines (mirrorPairs s) none { s with lb.mirrorPending := false, fe.runLines := false }
  | .rsp =>
    match s.iq.answerOrder with
    | i :: _ => buildRsp i s
    | [] => s
  | .testEnter =>
    pushFrame .testEnter (enterPayload s.lt) none
      { s with slc.state := .drain, lt.phase := .draining, lt.drainDue := some (s.now + Config.drainLimit) }
  | .testReady => pushFrame .testReady [] none { s with lt.readyBuilt := true }
  | .testGo => pushFrame .testGo [] none { s with lt.drainDue := none }
  | .req =>
    match nextReq s with
    | some t => buildReq t s
    | none => s
  | .event =>
    match s.eu.outbox with
    | r :: rest => pushFrame .event (eventPayload r) none { s with eu.outbox := rest }
    | [] => s
  | .idle | .train | .trainAck | .hello => buildIdle s

/-- R112, R131: a frame of the window is sent again. -/
def resendFrame (f : WindowFrame) (rest : List Seq) (s : State) : State :=
  let again : WindowFrame → WindowFrame := fun g => if g.seq = f.seq then { g with sends := g.sends + 1 } else g
  let s1 := startFrame ⟨f.kind, turnHeader f.seq s, f.payload⟩ s
  noteSend true { s1 with fe.window := s1.fe.window.map again, fe.goBack := rest }

/-- R122: the chip sends the frame its transmit selector chooses; a frame's fifth send is a loss instead (R132). -/
def sendSelected (s : State) : State :=
  match s.fe.goBack with
  | [] => buildFrame (nextKind s) s
  | q :: rest =>
    match s.fe.window.find? (fun f => decide (f.seq = q)) with
    | none => s
    | some f => if Config.maxSends ≤ f.sends then loss .retryLimit s else resendFrame f rest s

/-- R119: the selector has something to send other than IDLE. -/
def hasTraffic (s : State) : Bool := !s.fe.goBack.isEmpty || decide (nextKind s ≠ .idle)

/-- R119: the moment at which the leader opens its next turn. -/
def nextTurn (s : State) : Moment :=
  if s.fe.hurry ∨ hasTraffic s then s.fe.earliest else max (s.fe.turnOpened + Config.turnPeriod) s.fe.earliest

/-- R119: the leader opens a turn. -/
def turnOpen (s : State) : State :=
  if s.slc.role = .leader ∧ s.slc.state.hasTurns ∧ s.fe.sending = none ∧ s.fe.awaitReply = none then
    let s1 := s.reach (nextTurn s)
    sendSelected { s1 with fe.turnOpened := s1.now, fe.hurry := false }
  else s

/-- R100, R120, R130: the follower sends its HELLO in reply to a HELLO taken in RUN. -/
def sendHelloReply (s : State) : State := noteSend (windowHeld s) (sendHello s)

/-- R120: the follower starts its reply: the frame its selector chooses, or the HELLO it owes. -/
def followerReply (s : State) : State :=
  match s.fe.replyDue with
  | none => s
  | some due =>
    if s.slc.role = .follower ∧ s.slc.state.hasTurns ∧ s.fe.sending = none then
      let s1 : State := { s.reach due with fe.replyDue := none }
      if s.fe.replyHello then sendHelloReply s1 else sendSelected s1
    else s

/-- R170: a non-owner with TEST_GO taken, whose next frame has left, enters TEST. A resent frame counts as that frame: it carries
the acknowledgement too (DESIGN CHOICE, log 37). -/
def afterSend (s : State) : State := if s.lt.goTaken ∧ s.slc.state = .drain then enterTest s else s

/-- R119, R126, R100, R170: the last bit of a frame is sent. The RESEND flag is cleared by the frame that carried it: a TRAIN, a
TRAIN_ACK or a HELLO, sent with RESEND 0 (R118), leaves it for the next (DESIGN CHOICE, log 39). -/
def frameSent (s : State) : State :=
  match s.fe.sending with
  | none => s
  | some f =>
    let s0 := s.reach s.fe.sendEnd
    let s1 : State := { s0 with fe.sending := none, fe.resend := s0.fe.resend && f.kind.isLink }
    match s1.slc.role, s1.fe.helloTaken with
    | .leader, _ => afterSend { s1 with fe.awaitReply := some (s1.now + Config.replyWindow) }
    | .follower, some h => enterRunFromHello h { s1 with fe.helloTaken := none }
    | .follower, none => afterSend s1

/-! Missed turns and failed frames. -/

/-- R102: a turn is missed; the next one opens at the earliest moment, `gap` after this one (R119). -/
def missTurn (gap : Nat) (s : State) : State :=
  let s1 : State := { s with
    fe.awaitReply := none, fe.earliest := s.now + gap, fe.hurry := true, slc.missed := s.slc.missed + 1 }
  if Config.missedLimit ≤ s1.slc.missed then loss .turnLoss s1 else s1

/-- R96, R103: a training exchange fails. -/
def missExchange (s : State) : State := { s with slc.good := 0, fe.awaitReply := none }

/-- R121, R96, R99, R103: the reply window closes with no reply. -/
def replyWindowEnd (s : State) : State :=
  match s.fe.awaitReply with
  | none => s
  | some due =>
    let s1 := s.reach due
    match s.slc.state with
    | .run | .drain => missTurn 0 s1
    | .listen | .retrain => missExchange s1
    | .hello | .disabled | .test | .holdoff => { s1 with fe.awaitReply := none }

/-- R115: a failed frame is counted. -/
def countBad (s : State) : State := { s with fe.crcErrors := min 65535 (s.fe.crcErrors + 1) }

/-- R114 to R116: a received frame that fails its check, in a state in which frames are taken. At a leader in RUN or DRAIN with no
reply window open it is counted and sets RESEND all the same (DESIGN CHOICE, log 29). -/
def badFrame (s : State) : State :=
  let s1 := countBad s
  match s.slc.state, s.slc.role with
  | .run, .leader | .drain, .leader =>
    let s2 : State := { s1 with fe.resend := true }
    if s.fe.awaitReply.isSome then missTurn Config.turnGap s2 else s2
  | .run, .follower | .drain, .follower => { s1 with fe.resend := true, fe.replyDue := none }
  | .listen, .leader | .retrain, .leader => if s.fe.awaitReply.isSome then missExchange s1 else s1
  | .listen, .follower | .retrain, .follower => { s1 with slc.good := 0 }
  | .hello, .leader => { s1 with fe.awaitReply := none }
  | .hello, .follower => s1
  | .disabled, _ | .holdoff, _ | .test, _ => s

/-! The taking of a frame in RUN and DRAIN (R127 to R129). -/

/-- R128: the frames an ack releases leave the window, and an RSP's entry is freed with its credit. -/
def takeAck (ack : Seq) (s : State) : State :=
  match s.fe.window.findIdx? (fun f => decide (f.seq = ack)) with
  | none => s
  | some n =>
    let rest := s.fe.window.drop (n + 1)
    let s1 : State := { s with
      fe.window := rest
      fe.goBack := s.fe.goBack.filter fun q => rest.any fun f => decide (f.seq = q)
      fe.progress := true
      fe.stall := 0 }
    ((s.fe.window.take (n + 1)).filterMap (·.slot)).foldl (fun s i => freeWithCredit i s) s1

/-- R133: the credits a return count gives back, counted forward modulo 9. -/
def creditsBack (last now : Nat) : Nat := (now + 9 - last) % 9

/-- R133: the return count of a frame is taken. -/
def takeReturn (ret : Byte) (s : State) : State :=
  { s with
    fe.credits := min s.slc.peerCap (s.fe.credits + creditsBack s.fe.lastRet ret.toNat), fe.lastRet := ret.toNat }

/-- R109: the HOST_READY flag of a frame is compared with the copy. -/
def takeReady (ready : Bool) (s : State) : State :=
  if s.slc.peerReady = ready then s
  else raiseLocal (if ready then .peerHostReady else .peerHostGone) 0 0 { s with slc.peerReady := ready }

/-- The block a sequenced frame is delivered to does its part (R116). -/
def deliver (k : FrameKind) (p : List Byte) (s : State) : Host.Outcome State Fault Refusal :=
  match k with
  | .req => takeReq p s
  | .rsp => .next (takeRsp p s)
  | .cancel => .next (takeCancel p s)
  | .lines => .next (applyPairs p s)
  | .event => .next (takeEvent p s)
  | .releaseAll => .next (takeReleaseAll s)
  | .testEnter => .next (takeTestEnter p s)
  | .testReady => .next (takeTestReady s)
  | .testGo => .next (takeTestGo s)
  | .testResult => .next (takeTestResult p s)
  | .train | .trainAck | .hello | .idle => .next s

/-- R127: a sequenced frame is delivered when expected, discarded with RESEND when ahead, discarded when behind. -/
def takeSequenced (k : FrameKind) (seq : Seq) (p : List Byte) (s : State) : Host.Outcome State Fault Refusal :=
  match (seq - s.fe.expected).toNat with
  | 0 => deliver k p { s with fe.expected := s.fe.expected + 1 }
  | 1 | 2 | 3 => .next { s with fe.resend := true }
  | _ => .next s

/-- R129 steps 1 to 4. -/
def takeHeader (h : FrameHeader) (s : State) : State :=
  let s1 := takeReady h.hostReady (takeReturn h.ret (takeAck h.ack s))
  if h.resend then goBack s1 else s1

/-- A TEST_GO stands in the window. -/
def goInWindow (s : State) : Bool := s.fe.window.any fun f => decide (f.kind = .testGo)

/-- A step that follows a next state; a fault or refusal stands. -/
def thenDo (f : State → State) (o : Host.Outcome State Fault Refusal) : Host.Outcome State Fault Refusal :=
  match o with
  | .next s => .next (f s)
  | .fault e => .fault e
  | .refused r => .refused r

/-- R129, R118: a good frame is taken in RUN or DRAIN. When TEST_GO left the window with its ack, the owner's entry to TEST is
decided once the rest is done (R170). -/
def takeFrame (k : FrameKind) (h : FrameHeader) (p : List Byte) (s : State) : Host.Outcome State Fault Refusal :=
  if k.isLink then .next (takeReady h.hostReady s)
  else
    let s1 := takeHeader h s
    let left := goInWindow s && !goInWindow s1
    thenDo (fun t => if left then goAcknowledged t else t)
      (if k.sequenced then takeSequenced k h.seq p s1 else .next s1)

/-! Frames by role and link state (chapter 5). -/

/-- R117: the role a frame of the link controller carries. -/
def frameRole (k : FrameKind) (p : List Byte) : Option Role :=
  let b := match k with
    | .hello => p.getD 2 0
    | _ => p.getD 0 0
  if k.isLink then some (if b = 0 then .leader else .follower) else none

/-- R99: an accepted HELLO's content; none when its capacity makes it bad. -/
def helloContent (h : FrameHeader) (p : List Byte) : Option HelloTaken :=
  let cap := (p.getD 1 0).toNat
  if 1 ≤ cap ∧ cap ≤ 8 then some ⟨p.getD 0 0, cap, h.hostReady⟩ else none

/-- R96, R103: a leader takes a TRAIN_ACK in its reply window in LISTEN or RETRAIN. -/
def takeTrainAck (h : FrameHeader) (s : State) : State :=
  let s1 : State := { s with slc.good := min Config.lockCount (s.slc.good + 1), fe.awaitReply := none }
  match s.slc.state with
  | .listen => if Config.lockCount ≤ s1.slc.good then lock s1 else s1
  | .retrain =>
    if h.retrain then (if Config.retrainCount ≤ s1.slc.good then enterRunFromRetrain s1 else s1)
    else { s1 with slc.good := 0 }
  | _ => s

/-- R99: a leader in HELLO takes a HELLO marked FOLLOWER in its reply window. -/
def leaderHello (h : FrameHeader) (p : List Byte) (s : State) : State :=
  match helloContent h p with
  | some c => enterRunFromHello c { s with fe.awaitReply := none }
  | none => failBringUp .helloFail s

/-- R119, R121: a good reply is taken: the turn is answered, and the next may open 2 microseconds after it. -/
def turnAnswered (k : FrameKind) (h : FrameHeader) (s : State) : State :=
  { s with
    slc.missed := 0, fe.awaitReply := none, fe.earliest := s.now + Config.turnGap
    fe.hurry := decide (k ≠ .idle) || h.resend }

/-- A good frame at a leader. In RETRAIN the HOST_READY of a follower's frame is taken whether or not the frame is counted, outside
the reply window too (R109; DESIGN CHOICE, log 29), and before the exchange is counted, so that a changed flag's event is queued
before the TEST_DONE of the entry to RUN (DESIGN CHOICE, log 19). -/
def leaderTakes (k : FrameKind) (h : FrameHeader) (p : List Byte) (s : State) : Host.Outcome State Fault Refusal :=
  let role := frameRole k p
  let open_ := s.fe.awaitReply.isSome
  match s.slc.state with
  | .listen =>
    if k = .train ∧ role = some .leader then .next (roleClash s)
    else if k = .trainAck ∧ role = some .follower ∧ open_ then .next (takeTrainAck h s)
    else .next s
  | .hello =>
    if (k = .train ∨ k = .hello) ∧ role = some .leader then .next (roleClash s)
    else if k = .hello ∧ open_ then .next (leaderHello h p s)
    else .next s
  | .retrain =>
    if role = some .leader then .next s
    else if k = .trainAck ∧ open_ then .next (takeTrainAck h (takeReady h.hostReady s))
    else .next (takeReady h.hostReady s)
  | .run | .drain =>
    if role = some .leader ∨ open_ = false then .next s else takeFrame k h p (turnAnswered k h s)
  | .disabled | .test | .holdoff => .next s

/-- R97, R100: a follower answers a TRAIN. -/
def answerTrain (s : State) : State := sendTrainAck { s with slc.good := min Config.lockCount (s.slc.good + 1) }

/-- R100: a follower in HELLO takes a HELLO marked LEADER. -/
def followerHello (h : FrameHeader) (p : List Byte) (s : State) : State :=
  match helloContent h p with
  | some c => sendHello { s with slc.helloLimit := none, fe.helloTaken := some c }
  | none => failBringUp .helloFail s

/-- R102: the follower silence limit restarts. -/
def restartSilence (s : State) : State := { s with slc.silence := some (s.now + Config.silenceLimit) }

/-- R120: a reply is owed to a leader frame, 2 microseconds after its end: a HELLO to a HELLO taken in RUN (R100). -/
def oweReply (k : FrameKind) (s : State) : State :=
  { s with
    fe.replyDue := some (s.now + Config.turnGap), fe.replyHello := decide (k = .hello) && decide (s.slc.state = .run) }

/-- A good frame at a follower in RUN or DRAIN, not marked FOLLOWER (R100, R102, R120). -/
def followerTurn (k : FrameKind) (h : FrameHeader) (p : List Byte) (s : State) : Host.Outcome State Fault Refusal :=
  match k with
  | .train => takeFrame .train h p s
  | .trainAck => takeFrame .trainAck h p (restartSilence s)
  | k => takeFrame k h p (oweReply k (restartSilence s))

/-- A good frame at a follower. In LISTEN its sixteenth TRAIN, or a HELLO whatever its count, locks it at once (R97), also within
the 2 ms after the release, in which R189 says that a follower cannot lock (DESIGN CHOICE, log 43). -/
def followerTakes (k : FrameKind) (h : FrameHeader) (p : List Byte) (s : State) : Host.Outcome State Fault Refusal :=
  let role := frameRole k p
  if role = some .follower then .next s
  else
    match s.slc.state with
    | .listen =>
      if k = .train ∧ h.retrain = false then
        let s1 := answerTrain s
        .next (if Config.lockCount ≤ s1.slc.good then lock s1 else s1)
      else if k = .hello then .next (followerHello h p (lock s))
      else .next s
    | .hello =>
      if k = .train ∧ h.retrain = false then
        .next (sendTrainAck { s with slc.helloLimit := some (s.now + Config.helloLimit) })
      else if k = .hello then .next (followerHello h p s)
      else .next s
    | .retrain =>
      if k = .train ∧ h.retrain then .next (answerTrain (takeReady h.hostReady s))
      else if k = .train ∨ k = .hello then .next (loss .retrainFail (takeReady h.hostReady s))
      else followerTurn k h p (enterRunFromRetrain s)
    | .run | .drain => followerTurn k h p s
    | .disabled | .test | .holdoff => .next s

/-! Reception (R111, R114). -/

/-- R172: bytes arriving at a checker in TEST are symbols. -/
def takeSymbols (bytes : List Byte) (s : State) : State := bytes.foldl (fun s b => takeSymbol b true s) s

/-- R111: a chip does not receive in reset or while it is sending. -/
def deaf (s : State) : Bool := s.inReset || s.fe.sending.isSome

/-- A frame arrives whole; one that R114 does not pass is a failed frame (log 11). -/
def receive (k : FrameKind) (h : FrameHeader) (p : List Byte) (s : State) : Host.Outcome State Fault Refusal :=
  if deaf s then .next s
  else if s.slc.state = .test then .next (takeSymbols (wireBytes ⟨k, h, p⟩) s)
  else if frameGood k h p = false then .next (badFrame s)
  else
    match s.slc.role with
    | .leader => leaderTakes k h p s
    | .follower => followerTakes k h p s

/-- BAD_FRAME: bytes that fail their check arrive. -/
def receiveBad (raw : List Byte) (s : State) : State :=
  if deaf s then s
  else if s.slc.state = .test then takeSymbols raw s
  else badFrame s

/-! The span's pins (R191). -/

/-- R111, R171: the byte or symbol on the pair in this microsecond: of the frame being sent, or of the generator's pattern. -/
def drivenByte (s : State) : Option Byte :=
  if s.inReset then none
  else
    match s.fe.sending with
    | some f => (wireBytes f)[s.now + frameTime f.payload.length - s.fe.sendEnd]?
    | none => drivenSymbol s

/-- R111: bit `n` of the ten that make a byte on the pair: a start bit, eight data bits, a stop bit. -/
def symbolBit (b : Byte) (n : Nat) : Bool := if n = 0 then false else if n ≤ 8 then b.getLsbD (n - 1) else true

/-- R187, R191: SPAN_TX at bit `n` of this microsecond: the bits being sent, and high in every other case. -/
def spanTx (n : Nat) (s : State) : Bool :=
  match drivenByte s with
  | some b => symbolBit b n
  | none => true

/-- TURN_OPEN. -/
def execTurnOpen (s : State) : Host.Outcome State Fault Refusal := .next (onChip turnOpen s)
/-- FOLLOWER_REPLY. -/
def execFollowerReply (s : State) : Host.Outcome State Fault Refusal := .next (onChip followerReply s)
/-- REPLY_WINDOW_END. -/
def execReplyWindowEnd (s : State) : Host.Outcome State Fault Refusal := .next (onChip replyWindowEnd s)
/-- FRAME_SENT. -/
def execFrameSent (s : State) : Host.Outcome State Fault Refusal := .next (onChip frameSent s)
/-- BAD_FRAME. -/
def execBadFrame (raw : List Byte) (s : State) : Host.Outcome State Fault Refusal := .next (receiveBad raw s)
/-- TRAIN. -/
def execTrain (h : FrameHeader) (payload : List Byte) (s : State) : Host.Outcome State Fault Refusal :=
  receive .train h payload s
/-- TRAIN_ACK. -/
def execTrainAck (h : FrameHeader) (payload : List Byte) (s : State) : Host.Outcome State Fault Refusal :=
  receive .trainAck h payload s
/-- HELLO. -/
def execHello (h : FrameHeader) (payload : List Byte) (s : State) : Host.Outcome State Fault Refusal :=
  receive .hello h payload s
/-- IDLE. -/
def execIdle (h : FrameHeader) (payload : List Byte) (s : State) : Host.Outcome State Fault Refusal :=
  receive .idle h payload s
/-- REQ. -/
def execReq (h : FrameHeader) (payload : List Byte) (s : State) : Host.Outcome State Fault Refusal :=
  receive .req h payload s
/-- RSP. -/
def execRsp (h : FrameHeader) (payload : List Byte) (s : State) : Host.Outcome State Fault Refusal :=
  receive .rsp h payload s
/-- CANCEL_FRAME. -/
def execCancelFrame (h : FrameHeader) (payload : List Byte) (s : State) : Host.Outcome State Fault Refusal :=
  receive .cancel h payload s
/-- LINES. -/
def execLines (h : FrameHeader) (payload : List Byte) (s : State) : Host.Outcome State Fault Refusal :=
  receive .lines h payload s
/-- EVENT. -/
def execEvent (h : FrameHeader) (payload : List Byte) (s : State) : Host.Outcome State Fault Refusal :=
  receive .event h payload s
/-- RELEASE_ALL. -/
def execReleaseAll (h : FrameHeader) (payload : List Byte) (s : State) : Host.Outcome State Fault Refusal :=
  receive .releaseAll h payload s
/-- TEST_ENTER. -/
def execTestEnter (h : FrameHeader) (payload : List Byte) (s : State) : Host.Outcome State Fault Refusal :=
  receive .testEnter h payload s
/-- TEST_READY. -/
def execTestReady (h : FrameHeader) (payload : List Byte) (s : State) : Host.Outcome State Fault Refusal :=
  receive .testReady h payload s
/-- TEST_GO. -/
def execTestGo (h : FrameHeader) (payload : List Byte) (s : State) : Host.Outcome State Fault Refusal :=
  receive .testGo h payload s
/-- TEST_RESULT. -/
def execTestResult (h : FrameHeader) (payload : List Byte) (s : State) : Host.Outcome State Fault Refusal :=
  receive .testResult h payload s

end Sys2Proof.Machine
end

