-- ==== Sys2Proof/Machine/Requests.lean ====
section
/-! DEFINITION. The Request Table's operations (chapter 1): submit, cancel, deadlines, the pops, and the soft reset (R185). -/
namespace Sys2Proof.Machine

/-- R4, R5: the lowest-numbered FREE tag. -/
def freeTag (s : State) : Option Tag := firstTag fun t => decide (s.rt.tags[t].state = .free)

/-- R16: the moment the deadline of a request accepted now passes; a TEST_START has no timer. -/
def acceptDue (now : Moment) (r : Request) : Option Moment :=
  if r.kind = .testStart then none else some (now + r.deadlineMs * Config.ms)

/-- R5: what accepting a request does to its tag, in whichever first state R6 gives. -/
def acceptTag (t : Tag) (r : Request) (st : TagState) (s : State) : State :=
  { s with
    rt.tags := vput s.rt.tags t ⟨st, s.rt.tags[t].gen + 1, r, acceptDue s.now r⟩
    rt.order := s.rt.order ++ [t]
    hp.submitResult := .tag t }

/-- R13: the link states in which an accepted far request waits for a credit. -/
def LinkState.acceptsFar : LinkState → Bool
  | .run | .drain | .test => true
  | _ => false

/-- R6, R13, R14: a far request accepted as tag `t`. -/
def submitFar (t : Tag) (r : Request) (s : State) : State :=
  let s1 := acceptTag t r .waitCredit s
  if s.slc.state.acceptsFar then s1 else completeTag t (bare .linkDown) s1

/-- R6, R9 to R12: a near request accepted as tag `t`. -/
def submitNear (t : Tag) (r : Request) (s : State) : State :=
  let s1 := acceptTag t r .queued s
  match r.kind with
  | .write | .read | .busRecover | .leaseTake => select { s1 with da.localList := s1.da.localList ++ [t] }
  | .lineSet | .lineSample | .lineConfig | .lineClaim | .lineRelease =>
    let x := runLine .localHost r s1
    completeTag t x.1 x.2
  | .leaseDrop => dropLease .localHost (fun st => completeTag t (bare st)) s1
  | .ping => completeTag t (pingAnswer s1) s1
  | .testStart => startTest t s1

/-- R2 to R6: a SUBMIT of the staged record. -/
def submit (s : State) : State :=
  match stagedRequest s.hp.staging with
  | none => { s with hp.submitResult := .badRequest }
  | some r =>
    match freeTag s with
    | none => { s with hp.submitResult := .full }
    | some t => if r.side = .far then submitFar t r s else submitNear t r s

/-- CANCEL_RESULT written. -/
def cancelResult (x : CancelResult) (s : State) : State := { s with hp.cancelResult := x }

/-- R23, R24: the cancel of a tag. -/
def cancelTag (t : Tag) (s : State) : State :=
  let e := s.rt.tags[t]
  match e.state with
  | .free => cancelResult .noSuchTag s
  | .done => cancelResult .alreadyDone s
  | .executing | .testing => cancelResult .tooLate s
  | .queued =>
    cancelResult .accepted (completeTag t (bare .cancelled) { s with da.localList := s.da.localList.filter (· ≠ t) })
  | .waitCredit => cancelResult .accepted (completeTag t (bare .cancelled) s)
  | .inFlight =>
    let s1 := setTag t { e with state := .cancelSent } s
    cancelResult .accepted { s1 with fe.cancelList := s1.fe.cancelList ++ [(t, e.gen)] }
  | .cancelSent => cancelResult .accepted s

/-- R23: a write to CANCEL. -/
def cancel (b : Byte) (s : State) : State :=
  match tagOfByte b with
  | some t => cancelTag t s
  | none => cancelResult .noSuchTag s

/-- R17, R39: the deadline of a tag, with its grace once the REQ is sent, passes. -/
def deadlineExpiry (t : Tag) (s : State) : State :=
  match s.rt.tags[t].due with
  | none => s
  | some due =>
    let s1 := s.reach due
    match s.rt.tags[t].state with
    | .queued => completeTag t (bare .timeout) { s1 with da.localList := s1.da.localList.filter (· ≠ t) }
    | .waitCredit | .inFlight | .cancelSent => completeTag t (bare .timeout) s1
    | .free | .executing | .testing | .done => s

/-- R21: a write to COMPLETION_POP. -/
def completionPop (s : State) : State :=
  match s.rt.cq with
  | [] => s
  | c :: rest =>
    { s with
      rt.cq := rest
      rt.tags := vput s.rt.tags c.tag { s.rt.tags[c.tag] with state := .free, req := Request.empty } }

/-- R157: a write to EVENT_POP. -/
def eventPop (s : State) : State := { s with eu.eventQueue := s.eu.eventQueue.tail }

/-- R25: the Request Table's part of a soft reset, and the CANCEL list's (R124). -/
def requestsAtSoftReset (s : State) : State :=
  { s with
    rt := { tags := vtab fun t => ⟨.free, s.rt.tags[t].gen + 1, Request.empty, none⟩, order := [], cq := [] }
    hp.submitResult := .noResult
    hp.cancelResult := .noResult
    fe.cancelList := [] }

/-- R179, R161, R125: HOST_CTRL's part of a soft reset, the Event Unit's and the RELEASE_ALL flag. -/
def restAtSoftReset (s : State) : State :=
  { s with
    hp.hostReady := false
    hp.alertCq := false
    hp.alertEq := false
    eu.eventQueue := []
    fe.releaseAll := s.fe.releaseAll || s.slc.state.hasTurns }

/-- R48: the arbiter's part of a soft reset but for its selection. -/
def arbiterAtSoftReset (s : State) : State := endLease .localHost { s with da.localList := [] }

/-- R185: a write to SOFT_RESET; its parts form one event, the arbiter's selection last. -/
def softReset (b : Byte) (s : State) : State :=
  if b = 1 then
    select (arbiterAtSoftReset (restAtSoftReset (testAtSoftReset
      (releaseOwned .localHost allLines (requestsAtSoftReset s)))))
  else s

/-- DEADLINE_EXPIRY. -/
def execDeadlineExpiry (t : Tag) (s : State) : Host.Outcome State Fault Refusal := .next (onChip (deadlineExpiry t) s)

end Sys2Proof.Machine
end

