-- ==== Sys2Proof/Machine/HostPort.lean ====
section
/-! DEFINITION. The Host Port (chapter 10): the register map, writes and reads of one byte, and the rows they are. -/
namespace Sys2Proof.Machine

/-! Writes. -/

/-- R95, R179: a write to HOST_CTRL sets its four fields at once. -/
def writeHostCtrl (b : Byte) (s : State) : State :=
  setSpanOff (b.getLsbD 3)
    { s with hp.hostReady := b.getLsbD 0, hp.alertCq := b.getLsbD 1, hp.alertEq := b.getLsbD 2 }

/-- BUS_POLICY values (R178). -/
def BusPolicy.ofByte (b : Byte) : Option BusPolicy :=
  if b = 0 then some .closed else if b = 1 then some .listed else if b = 2 then some .opened else none

/-- R180: a write to BUS_POLICY. -/
def writePolicy (b : Byte) (s : State) : State :=
  match BusPolicy.ofByte b with
  | some p => setPolicy p s
  | none => s

/-- BUS_SPEED values (R178). -/
def BusSpeed.ofByte (b : Byte) : Option BusSpeed :=
  if b = 0 then some .khz100 else if b = 1 then some .khz400 else none

/-- R56, R180: a write to BUS_SPEED. -/
def writeSpeed (b : Byte) (s : State) : State :=
  match BusSpeed.ofByte b with
  | some v => { s with hp.busSpeed := v }
  | none => s

/-- R180: a write of the upper byte of REMOTE_LINES is only held. -/
def writeRemoteHold (b : Byte) (s : State) : State := { s with hp.remoteHold := ⟨b, true⟩ }

/-- R74, R180: a write of the lower byte of REMOTE_LINES takes the new mask as one value. -/
def writeRemoteLines (b : Byte) (s : State) : State :=
  let upper := if s.hp.remoteHold.written then s.hp.remoteHold.byte else (maskBytes s.lb.remoteLines).getD 0 0
  let s1 := setRemoteLines (lineMask upper b) s
  { s1 with hp.remoteHold := { s1.hp.remoteHold with written := false } }

/-- R178: the first byte of a filter entry. -/
def FilterEntry.first (e : FilterEntry) : Byte := (flagByte e.valid <<< 7) ||| e.address.setWidth 8

/-- R178: the second byte of a filter entry. -/
def FilterEntry.second (e : FilterEntry) : Byte := flagByte e.canRead ||| (flagByte e.canWrite <<< 1)

/-- R178: a filter entry from its two bytes. -/
def FilterEntry.ofBytes (a b : Byte) : FilterEntry := ⟨a.getLsbD 7, a.extractLsb' 0 7, b.getLsbD 0, b.getLsbD 1⟩

/-- R180: a write of the first byte of a filter entry is only held. -/
def writeFilterHold (n : Fin 8) (b : Byte) (s : State) : State :=
  { s with hp.filterHold := vput s.hp.filterHold n ⟨b, true⟩ }

/-- R43, R180: a write of the second byte of a filter entry changes the entry in one step. -/
def writeFilter (n : Fin 8) (b : Byte) (s : State) : State :=
  let h := s.hp.filterHold[n]
  let a := if h.written then h.byte else s.da.filter[n].first
  { s with
    da.filter := vput s.da.filter n (FilterEntry.ofBytes a b)
    hp.filterHold := vput s.hp.filterHold n { h with written := false } }

/-- R115: a write to CRC_ERRORS. -/
def clearCrcErrors (s : State) : State := { s with fe.crcErrors := 0 }

/-- R182: a write to the staging area. -/
def writeStaging (n : Nat) (b : Byte) (s : State) : State :=
  if h : n < 40 then { s with hp.staging := vput s.hp.staging ⟨n, h⟩ b } else s

/-- The filter entry an offset of 0x10 to 0x1F is of. -/
def filterNumber (off : Byte) : Fin 8 := (off.extractLsb' 1 3).toFin

/-- R177, R178: what a byte written at an offset does, but for the pointer. -/
def writeAt (off b : Byte) (s : State) : State :=
  match off.toNat with
  | 0x04 => writeHostCtrl b s
  | 0x05 => softReset b s
  | 0x06 => writePolicy b s
  | 0x07 => writeSpeed b s
  | 0x08 => writeRemoteHold b s
  | 0x09 => writeRemoteLines b s
  | 0x0A | 0x0B => clearCrcErrors s
  | 0x20 => submit s
  | 0x22 => cancel b s
  | 0x24 => completionPop s
  | 0x25 => eventPop s
  | 0x26 => testStop s
  | n =>
    if 0x10 ≤ n ∧ n ≤ 0x1F then
      if off.getLsbD 0 then writeFilter (filterNumber off) b s else writeFilterHold (filterNumber off) b s
    else if 0x40 ≤ n then writeStaging (n - 0x40) b s
    else s

/-- R176: a START on the host bus: the transaction before it is over with its copies (R180, R183, R184), and the new one is this
chip's, in a direction, or not. -/
def beginTransaction (d : Option PortDirection) (s : State) : State :=
  { s with hp.taking := d, hp.cqCopy := none, hp.eqCopy := none, hp.crcCopy := none }

/-- R176: a write transaction of this chip begins. -/
def beginWrite (s : State) : State := beginTransaction (some .writing) s

/-- R176: a read transaction of this chip begins. -/
def beginRead (s : State) : State := beginTransaction (some .reading) s

/-- R176: a transaction addressed elsewhere begins, in which this chip takes no part. -/
def standBy (s : State) : State := beginTransaction none s

/-- The register pointer moved. -/
def setPointer (off : Byte) (s : State) : State := { s with hp.pointer := off }

/-- R176, R177: a byte written at an offset in a write transaction of this chip, and the pointer's advance. -/
def portWrite (off b : Byte) (s : State) : State := setPointer (off + 1) (writeAt off b (beginWrite s))

/-- R187, R189: the host port answers only out of reset, once it has started up. -/
def onPort (f : State → State) (s : State) : State := if s.inReset ∨ s.hp.up = false then s else f s

/-! Reads. -/

/-- R178: the byte an offset reads, where no copy is involved. -/
def readAt (off : Byte) (s : State) : Byte :=
  match off.toNat with
  | 0x00 => Config.chipId
  | 0x01 => Config.revision
  | 0x02 => s.slc.state.code
  | 0x03 => s.slc.detail.code
  | 0x04 => hostCtrl s
  | 0x06 => s.da.policy.code
  | 0x07 => s.hp.busSpeed.code
  | 0x08 => (maskBytes s.lb.remoteLines).getD 0 0
  | 0x09 => (maskBytes s.lb.remoteLines).getD 1 0
  | 0x0C => toByte s.rt.cq.length
  | 0x0D => toByte s.eu.eventQueue.length
  | 0x0E => tagsInUse s
  | 0x21 => s.hp.submitResult.code
  | 0x23 => s.hp.cancelResult.code
  | 0x26 => s.lt.stopResult.code
  | n =>
    if 0x10 ≤ n ∧ n ≤ 0x1F then
      if off.getLsbD 0 then s.da.filter[filterNumber off].second else s.da.filter[filterNumber off].first
    else if 0x40 ≤ n ∧ n ≤ 0x67 then stagedByte s.hp.staging (n - 0x40)
    else 0

/-- R180: a read of CRC_ERRORS: the byte at 0x0A takes the whole count, and 0x0B reads from it in the same transaction. -/
def readCrc (off : Byte) (s : State) : State :=
  if off = 0x0A#8 then { s with hp.crcCopy := some s.fe.crcErrors, hp.sent := toByte (s.fe.crcErrors / 256) }
  else { s with hp.sent := toByte (s.hp.crcCopy.getD s.fe.crcErrors) }

/-- R183: a read within COMPLETION_HEAD, from the transaction's copy. -/
def readCompletion (off : Byte) (s : State) : State :=
  let copy := s.hp.cqCopy.getD (completionHead s)
  { s with hp.cqCopy := some copy, hp.sent := copy.getD (off.toNat - 0x80) 0 }

/-- R184: a read within EVENT_HEAD, from the transaction's copy. -/
def readEvent (off : Byte) (s : State) : State :=
  let copy := s.hp.eqCopy.getD (eventHead s)
  { s with hp.eqCopy := some copy, hp.sent := copy.getD (off.toNat - 0xB0) 0 }

/-- R176, R177: the byte at the offset the pointer names is sent, and the pointer advances. -/
def sendByte (s : State) : State :=
  let off := s.hp.pointer
  let n := off.toNat
  setPointer (off + 1)
    (if n = 0x0A ∨ n = 0x0B then readCrc off s
     else if 0x80 ≤ n ∧ n ≤ 0xA7 then readCompletion off s
     else if 0xB0 ≤ n ∧ n ≤ 0xB5 then readEvent off s
     else { s with hp.sent := readAt off s })

/-- R176: a byte read: after a write of the pointer alone, at the pointer as it stands, or in the read transaction in progress; in
a transaction that is not this chip's it sends nothing. -/
def portRead (start : Option (BitVec 7)) (pointer : Option Byte) (s : State) : State :=
  match start with
  | some address =>
    if address = s.hp.addr then sendByte (setPointer (pointer.getD s.hp.pointer) (beginRead s)) else standBy s
  | none => if s.hp.taking = some .reading then sendByte s else s

/-- R176, R177: REGISTER_WRITE: the pointer byte of a write transaction at this chip's address, or a further byte of one, at the
pointer; of a transaction that is not this chip's it takes nothing. -/
def registerWrite (w : HostWrite) (s : State) : State :=
  match w with
  | .pointer address offset => if address = s.hp.addr then setPointer offset (beginWrite s) else standBy s
  | .data byte => if s.hp.taking = some .writing then portWrite s.hp.pointer byte s else s

/-- A submit row (R181): a byte written to SUBMIT. -/
def submitRow (b : Byte) (s : State) : Host.Outcome State Fault Refusal := .next (onPort (portWrite 0x20#8 b) s)

/-- WRITE. -/
def execWrite (b : Byte) (s : State) : Host.Outcome State Fault Refusal := submitRow b s
/-- READ. -/
def execRead (b : Byte) (s : State) : Host.Outcome State Fault Refusal := submitRow b s
/-- BUS_RECOVER. -/
def execBusRecover (b : Byte) (s : State) : Host.Outcome State Fault Refusal := submitRow b s
/-- LEASE_TAKE. -/
def execLeaseTake (b : Byte) (s : State) : Host.Outcome State Fault Refusal := submitRow b s
/-- LEASE_DROP. -/
def execLeaseDrop (b : Byte) (s : State) : Host.Outcome State Fault Refusal := submitRow b s
/-- LINE_SET. -/
def execLineSet (b : Byte) (s : State) : Host.Outcome State Fault Refusal := submitRow b s
/-- LINE_SAMPLE. -/
def execLineSample (b : Byte) (s : State) : Host.Outcome State Fault Refusal := submitRow b s
/-- LINE_CONFIG. -/
def execLineConfig (b : Byte) (s : State) : Host.Outcome State Fault Refusal := submitRow b s
/-- LINE_CLAIM. -/
def execLineClaim (b : Byte) (s : State) : Host.Outcome State Fault Refusal := submitRow b s
/-- LINE_RELEASE. -/
def execLineRelease (b : Byte) (s : State) : Host.Outcome State Fault Refusal := submitRow b s
/-- PING. -/
def execPing (b : Byte) (s : State) : Host.Outcome State Fault Refusal := submitRow b s
/-- TEST_START. -/
def execTestStart (b : Byte) (s : State) : Host.Outcome State Fault Refusal := submitRow b s
/-- CANCEL. -/
def execCancel (b : Byte) (s : State) : Host.Outcome State Fault Refusal := .next (onPort (portWrite 0x22#8 b) s)
/-- COMPLETION_POP. -/
def execCompletionPop (b : Byte) (s : State) : Host.Outcome State Fault Refusal := .next (onPort (portWrite 0x24#8 b) s)
/-- EVENT_POP. -/
def execEventPop (b : Byte) (s : State) : Host.Outcome State Fault Refusal := .next (onPort (portWrite 0x25#8 b) s)
/-- SOFT_RESET. -/
def execSoftReset (b : Byte) (s : State) : Host.Outcome State Fault Refusal := .next (onPort (portWrite 0x05#8 b) s)
/-- TEST_STOP. -/
def execTestStop (b : Byte) (s : State) : Host.Outcome State Fault Refusal := .next (onPort (portWrite 0x26#8 b) s)
/-- CRC_ERRORS_CLEAR. -/
def execCrcErrorsClear (low : Bool) (b : Byte) (s : State) : Host.Outcome State Fault Refusal :=
  .next (onPort (portWrite (if low then 0x0B#8 else 0x0A#8) b) s)
/-- CRC_ERRORS_READ. -/
def execCrcErrorsRead (start : Option (BitVec 7)) (pointer : Option Byte) (s : State) :
    Host.Outcome State Fault Refusal := .next (onPort (portRead start pointer) s)
/-- COMPLETION_HEAD_READ. -/
def execCompletionHeadRead (start : Option (BitVec 7)) (pointer : Option Byte) (s : State) :
    Host.Outcome State Fault Refusal := .next (onPort (portRead start pointer) s)
/-- EVENT_HEAD_READ. -/
def execEventHeadRead (start : Option (BitVec 7)) (pointer : Option Byte) (s : State) :
    Host.Outcome State Fault Refusal := .next (onPort (portRead start pointer) s)
/-- HOST_READY. -/
def execHostReady (b : Byte) (s : State) : Host.Outcome State Fault Refusal := .next (onPort (portWrite 0x04#8 b) s)
/-- ALERT_CQ. -/
def execAlertCq (b : Byte) (s : State) : Host.Outcome State Fault Refusal := .next (onPort (portWrite 0x04#8 b) s)
/-- ALERT_EQ. -/
def execAlertEq (b : Byte) (s : State) : Host.Outcome State Fault Refusal := .next (onPort (portWrite 0x04#8 b) s)
/-- SPAN_OFF. -/
def execSpanOff (b : Byte) (s : State) : Host.Outcome State Fault Refusal := .next (onPort (portWrite 0x04#8 b) s)
/-- BUS_POLICY. -/
def execBusPolicy (b : Byte) (s : State) : Host.Outcome State Fault Refusal := .next (onPort (portWrite 0x06#8 b) s)
/-- BUS_SPEED. -/
def execBusSpeed (b : Byte) (s : State) : Host.Outcome State Fault Refusal := .next (onPort (portWrite 0x07#8 b) s)
/-- REMOTE_LINES. -/
def execRemoteLines (b : Byte) (s : State) : Host.Outcome State Fault Refusal := .next (onPort (portWrite 0x09#8 b) s)
/-- The offset of the second byte of filter entry `n` (R178). -/
def filterOffset (n : Fin 8) : Byte := toByte (0x11 + 2 * n.val)
/-- FILTER. -/
def execFilter (n : Fin 8) (b : Byte) (s : State) : Host.Outcome State Fault Refusal :=
  .next (onPort (portWrite (filterOffset n) b) s)
/-- REGISTER_WRITE. -/
def execRegisterWrite (w : HostWrite) (s : State) : Host.Outcome State Fault Refusal := .next (onPort (registerWrite w) s)

end Sys2Proof.Machine
end

