-- ==== Sys2Proof/Machine/Start.lean ====
section
/-! DEFINITION. Reset, its release and start-up (chapter 11). -/
namespace Sys2Proof.Machine

/-- R187: whether a cause of reset is taken; between 100 ns and 1 microsecond on RSTN that is a free value (log 8). -/
def resetTaken (cause : ResetCause) (free : Nat) : Bool :=
  match cause with
  | .supply => true
  | .rstn ns => if ns < 100 then false else if 1000 ≤ ns then true else Config.pulseTaken free

/-- R187: the cause is one of those that may be taken or ignored, so a free value is used. -/
def resetOpen (cause : ResetCause) : Bool :=
  match cause with
  | .supply => false
  | .rstn ns => decide (100 ≤ ns) && decide (ns < 1000)

/-- R187, R190: the chip held in reset: everything it holds is lost (log 9). -/
def heldInReset (s : State) : State :=
  { State.cleared .follower false 0x2C#7 0 s.now with
    inReset := true, free := s.free, pending := s.pending, hp := { HostPort.reset 0x2C#7 0 with startUp := none } }

/-- R187, R190: RSTN or the supply goes low. -/
def rstnLow (cause : ResetCause) (s : State) : State :=
  let s1 : State := { s with free := if resetOpen cause then s.free + 1 else s.free }
  if resetTaken cause s.free then heldInReset s1 else s1

/-- R176, R188: the host-port address the straps give. -/
def strapAddress (x : Straps) : BitVec 7 :=
  0x2C#7 + (if x.addr1 then 2 else 0) + (if x.addr0 then 1 else 0)

/-- R93, R188: the role the strap gives. -/
def strapRole (x : Straps) : Role := if x.role then .leader else .follower

/-- R187 to R189, section 11.4: the release: reset values, straps sampled, the link in LISTEN or DISABLED. -/
def rstnRelease (straps : Straps) (pins : LineMask) (s : State) : State :=
  if s.inReset then
    let s1 : State := { State.cleared (strapRole straps) straps.spanEn (strapAddress straps) pins s.now with
      free := s.free, pending := s.pending }
    if straps.spanEn then enterListen s1 else s1
  else s

/-- R189: the host port starts to answer. -/
def hostPortStartUp (s : State) : State :=
  match s.hp.startUp with
  | none => s
  | some due => { s.reach due with hp.up := true, hp.startUp := none }

/-- RSTN_LOW. -/
def execRstnLow (cause : ResetCause) (s : State) : Host.Outcome State Fault Refusal := .next (rstnLow cause s)
/-- RSTN_RELEASE. -/
def execRstnRelease (straps : Straps) (pins : LineMask) (s : State) : Host.Outcome State Fault Refusal :=
  .next (rstnRelease straps pins s)
/-- HOST_PORT_START_UP. -/
def execHostPortStartUp (s : State) : Host.Outcome State Fault Refusal := .next (onChip hostPortStartUp s)

end Sys2Proof.Machine
end

