-- ==== Sys2Proof/Machine/Dispatch.lean ====
section
/-! DEFINITION. One arm a command: its meaning. -/
namespace Sys2Proof.Machine

def exec (i : Instr) (s : State) : Host.Outcome State Fault Refusal :=
  match i with
  | .write b => Sys2Proof.Machine.execWrite b s
  | .read b => Sys2Proof.Machine.execRead b s
  | .busRecover b => Sys2Proof.Machine.execBusRecover b s
  | .leaseTake b => Sys2Proof.Machine.execLeaseTake b s
  | .leaseDrop b => Sys2Proof.Machine.execLeaseDrop b s
  | .lineSet b => Sys2Proof.Machine.execLineSet b s
  | .lineSample b => Sys2Proof.Machine.execLineSample b s
  | .lineConfig b => Sys2Proof.Machine.execLineConfig b s
  | .lineClaim b => Sys2Proof.Machine.execLineClaim b s
  | .lineRelease b => Sys2Proof.Machine.execLineRelease b s
  | .ping b => Sys2Proof.Machine.execPing b s
  | .testStart b => Sys2Proof.Machine.execTestStart b s
  | .cancel b => Sys2Proof.Machine.execCancel b s
  | .completionPop b => Sys2Proof.Machine.execCompletionPop b s
  | .eventPop b => Sys2Proof.Machine.execEventPop b s
  | .softReset b => Sys2Proof.Machine.execSoftReset b s
  | .testStop b => Sys2Proof.Machine.execTestStop b s
  | .crcErrorsClear low b => Sys2Proof.Machine.execCrcErrorsClear low b s
  | .crcErrorsRead start pointer => Sys2Proof.Machine.execCrcErrorsRead start pointer s
  | .completionHeadRead start pointer => Sys2Proof.Machine.execCompletionHeadRead start pointer s
  | .eventHeadRead start pointer => Sys2Proof.Machine.execEventHeadRead start pointer s
  | .hostReady b => Sys2Proof.Machine.execHostReady b s
  | .alertCq b => Sys2Proof.Machine.execAlertCq b s
  | .alertEq b => Sys2Proof.Machine.execAlertEq b s
  | .spanOff b => Sys2Proof.Machine.execSpanOff b s
  | .busPolicy b => Sys2Proof.Machine.execBusPolicy b s
  | .busSpeed b => Sys2Proof.Machine.execBusSpeed b s
  | .remoteLines b => Sys2Proof.Machine.execRemoteLines b s
  | .filter n b => Sys2Proof.Machine.execFilter n b s
  | .registerWrite w => Sys2Proof.Machine.execRegisterWrite w s
  | .rstnLow cause => Sys2Proof.Machine.execRstnLow cause s
  | .rstnRelease straps pins => Sys2Proof.Machine.execRstnRelease straps pins s
  | .hostPortStartUp => Sys2Proof.Machine.execHostPortStartUp s
  | .pinChange l v => Sys2Proof.Machine.execPinChange l v s
  | .debounceEnd l => Sys2Proof.Machine.execDebounceEnd l s
  | .transactionEnd acks rx => Sys2Proof.Machine.execTransactionEnd acks rx s
  | .stuckAtStart => Sys2Proof.Machine.execStuckAtStart s
  | .stretchLimit release rx => Sys2Proof.Machine.execStretchLimit release rx s
  | .recoveryEnd samples => Sys2Proof.Machine.execRecoveryEnd samples s
  | .leaseExpiry => Sys2Proof.Machine.execLeaseExpiry s
  | .deadlineExpiry t => Sys2Proof.Machine.execDeadlineExpiry t s
  | .remoteDeadlineExpiry slot => Sys2Proof.Machine.execRemoteDeadlineExpiry slot s
  | .trainingInterval => Sys2Proof.Machine.execTrainingInterval s
  | .helloInterval => Sys2Proof.Machine.execHelloInterval s
  | .helloLimit => Sys2Proof.Machine.execHelloLimit s
  | .silenceLimit => Sys2Proof.Machine.execSilenceLimit s
  | .retrainLimit => Sys2Proof.Machine.execRetrainLimit s
  | .holdoffEnd => Sys2Proof.Machine.execHoldoffEnd s
  | .turnOpen => Sys2Proof.Machine.execTurnOpen s
  | .followerReply => Sys2Proof.Machine.execFollowerReply s
  | .replyWindowEnd => Sys2Proof.Machine.execReplyWindowEnd s
  | .frameSent => Sys2Proof.Machine.execFrameSent s
  | .badFrame raw => Sys2Proof.Machine.execBadFrame raw s
  | .train h p => Sys2Proof.Machine.execTrain h p s
  | .trainAck h p => Sys2Proof.Machine.execTrainAck h p s
  | .hello h p => Sys2Proof.Machine.execHello h p s
  | .idle h p => Sys2Proof.Machine.execIdle h p s
  | .req h p => Sys2Proof.Machine.execReq h p s
  | .rsp h p => Sys2Proof.Machine.execRsp h p s
  | .cancelFrame h p => Sys2Proof.Machine.execCancelFrame h p s
  | .lines h p => Sys2Proof.Machine.execLines h p s
  | .event h p => Sys2Proof.Machine.execEvent h p s
  | .releaseAll h p => Sys2Proof.Machine.execReleaseAll h p s
  | .testEnter h p => Sys2Proof.Machine.execTestEnter h p s
  | .testReady h p => Sys2Proof.Machine.execTestReady h p s
  | .testGo h p => Sys2Proof.Machine.execTestGo h p s
  | .testResult h p => Sys2Proof.Machine.execTestResult h p s
  | .drainLimit => Sys2Proof.Machine.execDrainLimit s
  | .patternStart => Sys2Proof.Machine.execPatternStart s
  | .patternSymbol d stop => Sys2Proof.Machine.execPatternSymbol d stop s
  | .testDuration => Sys2Proof.Machine.execTestDuration s
  | .checkerDuration => Sys2Proof.Machine.execCheckerDuration s
  | .patternLost => Sys2Proof.Machine.execPatternLost s
  | .resultLimit => Sys2Proof.Machine.execResultLimit s
  | .testFlagPulseEnd => Sys2Proof.Machine.execTestFlagPulseEnd s

end Sys2Proof.Machine
end

