-- ==== Sys2Proof/Machine/Step.lean ====
section
/-! DEFINITION. The block's step: the command at the front of the queue, or a microsecond of waiting. -/
namespace Sys2Proof.Machine

/-- With no command waiting, one microsecond passes (log 1). -/
def tick (s : State) : State := { s with now := s.now + 1 }

/-- One step: the front command is taken from the queue and carried out with the queue's rest. -/
def step (s : State) : Host.Outcome State Fault Refusal :=
  match s.pending with
  | [] => .next (tick s)
  | c :: rest => exec c { s with pending := rest }

/-- The command a word spells put at the front of the queue; unchanged where the word spells none. -/
def State.withFetchWord (s : State) (nbits w : Nat) : State :=
  match decodeTableWord nbits w with
  | some c => { s with pending := c :: s.pending }
  | none => s

end Sys2Proof.Machine
end

