-- ==== Sys2Proof/Safety.lean ====
section
/-! DEFINITION. What every step keeps: the invariants of the machine, each from the rules it cites. -/
namespace Sys2Proof.Machine

/-- The host port answers: the chip is out of reset and has started up (R187, R189). -/
def portReady (s : State) : Prop := s.inReset = false ∧ s.hp.up = true

/-! The commands that are one occasion under several rows, and what a statement says of the bytes it meets. -/

/-- The row that a SUBMIT is when the record staged is of kind `k` (R6); its operand is the byte written. -/
def submitCommand (k : ReqKind) (b : Byte) : Instr :=
  match k with
  | .write => .write b
  | .read => .read b
  | .lineSet => .lineSet b
  | .lineSample => .lineSample b
  | .lineConfig => .lineConfig b
  | .lineClaim => .lineClaim b
  | .lineRelease => .lineRelease b
  | .leaseTake => .leaseTake b
  | .leaseDrop => .leaseDrop b
  | .busRecover => .busRecover b
  | .ping => .ping b
  | .testStart => .testStart b

/-- The four rows that are a write to HOST_CTRL (R179): HOST_READY, ALERT_CQ, ALERT_EQ, SPAN_OFF. -/
def hostCtrlCommands (b : Byte) : List Instr := [.hostReady b, .alertCq b, .alertEq b, .spanOff b]

/-- R2, R3, R182: the staged bytes are ones a SUBMIT refuses with BAD_REQUEST. -/
def malformed (v : Vector Byte 40) : Prop :=
  let b : Nat → Nat := fun n => (stagedByte v n).toNat
  ¬ (1 ≤ b 0 ∧ b 0 ≤ 12) ∨ 2 ≤ b 1 ∨ (b 0 = 12 ∧ b 1 = 1) ∨
  ((b 0 = 1 ∨ b 0 = 2) ∧ (128 ≤ b 2 ∨ 3 ≤ b 3 ∨ b 6 = 0 ∨ 33 ≤ b 6)) ∨
  ((b 0 = 3 ∨ b 0 = 6 ∨ b 0 = 7) ∧ b 8 % 16 = 0 ∧ b 9 = 0) ∨
  (b 0 = 5 ∧ (12 ≤ b 8 ∨ 6 ≤ b 9 ∨ 4 ≤ b 10 ∨ (b 11 ≠ 0 ∧ b 11 ≠ 1 ∧ b 11 ≠ 4 ∧ b 11 ≠ 16) ∨ 4 ≤ b 12 ∨ 12 ≤ b 13 ∨
    2 ≤ b 14)) ∨
  (b 0 = 8 ∧ (b 8 * 256 + b 9 = 0 ∨ 1001 ≤ b 8 * 256 + b 9)) ∨
  (b 0 = 12 ∧ (b 8 * 256 + b 9 = 0 ∨ 60001 ≤ b 8 * 256 + b 9 ∨ 2 ≤ b 10 ∨ 2 ≤ b 11 ∨ 2 ≤ b 12))

/-- R119, R120, R121, R127, R129: the sequenced frame of kind `k` is taken in turn in state `s` and delivered in state `s1`:
a chip in RUN or DRAIN that is not sending, the leader in its reply window, takes a good frame with the expected seq. `s1` is
`s` with the turn answered, or the silence limit started again and a reply owed, the header taken and the expected sequence
number advanced. No TEST_GO stands in the window (R170 has more to say of that). -/
def DeliveredAt (k : FrameKind) (h : FrameHeader) (p : List Byte) (s s1 : State) : Prop :=
  s.inReset = false ∧ s.fe.sending = none ∧ (s.slc.state = .run ∨ s.slc.state = .drain) ∧ k.sequenced = true ∧
  frameGood k h p = true ∧ h.seq = s.fe.expected ∧ (∀ f ∈ s.fe.window, f.kind ≠ .testGo) ∧
  ∃ s0, ((s.slc.role = .leader ∧ s.fe.awaitReply.isSome = true ∧ s0 = { s with
        slc.missed := 0, fe.awaitReply := none, fe.earliest := s.now + 2, fe.hurry := true }) ∨
      (s.slc.role = .follower ∧ s0 = { s with
        slc.silence := some (s.now + 2000), fe.replyDue := some (s.now + 2), fe.replyHello := false })) ∧
    s1 = { takeHeader h s0 with fe.expected := s.fe.expected + 1 }

/-- R101, R106, R119, R135, R151: `t` is `s` after the entry to RUN from HELLO with the accepted HELLO `x`: the peer's values are
stored, a follower's silence limit of 2 ms starts, the Frame Engine starts anew with the peer's capacity as credits, the RUN
entry's LINES frame is owed and a leader's first turn is due at once, DETACHED Incoming Queue entries are freed, and LINK_UP and
then, with HOST_READY set, PEER_HOST_READY are queued. Nothing else changes. -/
def EntersRun (x : HelloTaken) (s t : State) : Prop :=
  t.slc = { s.slc with
    state := .run, missed := 0, trainDue := none, helloDue := none, helloLimit := none, retrain := none
    silence := if s.slc.role = .follower then some (s.now + 2000) else none
    peerRev := x.revision, peerCap := x.capacity, peerReady := x.ready } ∧
  t.fe = { FrameEngine.reset with
    credits := x.capacity, crcErrors := s.fe.crcErrors, runLines := true, turnOpened := s.now, earliest := s.now,
    hurry := true } ∧
  (∀ i : Slot, t.iq.slots[i] = match s.iq.slots[i] with
    | some e => if e.state = .detached then none else some e
    | none => none) ∧
  t.iq.arrival = s.iq.arrival.filter (fun i => (t.iq.slots[i]).isSome) ∧ t.iq.answerOrder = s.iq.answerOrder ∧
  (let up := insertEvent 16 s.eu.eventQueue ⟨.linkUp, .localHost, 0, x.revision, 1⟩
   t.eu = { s.eu with
     eventQueue := if x.ready then insertEvent 16 up ⟨.peerHostReady, .localHost, 0, 0, 1⟩ else up }) ∧
  t.hp = s.hp ∧ t.rt = s.rt ∧ t.da = s.da ∧ t.dbc = s.dbc ∧ t.lb = s.lb ∧ t.lt = s.lt ∧ t.now = s.now ∧
  t.inReset = s.inReset ∧ t.free = s.free ∧ t.pending = s.pending

/-- R117, R166, R182: the five bytes of a test's parameters, from the first of `p` on: the duration in two bytes, high byte first
and from 1 to 60 000 ms, the pattern, the generator side and the flag style. -/
def TestBytes (p : List Byte) (q : TestParams) : Prop :=
  q.duration = 256 * (p.getD 0 0).toNat + (p.getD 1 0).toNat ∧ 1 ≤ q.duration ∧ q.duration ≤ 60000 ∧
  (p.getD 2 0).toNat = (if q.pattern = .prbs then 0 else 1) ∧ (p.getD 3 0).toNat = (if q.near then 0 else 1) ∧
  (p.getD 4 0).toNat = (if q.style = .live then 0 else 1)

/-! The link controller and the Link Tester. -/

/-- R92: each timer runs only in the states that use it, and on the side that uses it. -/
def timersFit (c : LinkController) : Prop :=
  (c.trainDue.isSome → (c.state = .listen ∨ c.state = .retrain) ∧ c.role = .leader) ∧
  (c.helloDue.isSome → c.state = .hello ∧ c.role = .leader) ∧
  (c.helloLimit.isSome → c.state = .hello) ∧
  (c.silence.isSome → (c.state = .run ∨ c.state = .drain) ∧ c.role = .follower) ∧
  (c.retrain.isSome → c.state = .retrain) ∧
  (c.holdoff.isSome → c.state = .holdoff)

/-- R166: the link state of each phase. -/
def phaseFits (st : LinkState) : TestPhase → Prop
  | .idle => st ≠ .drain ∧ st ≠ .test ∧ st ≠ .retrain
  | .enterPending | .awaitResult | .resultOut => st = .run
  | .draining => st = .drain
  | .running => st = .test
  | .returning => st = .retrain

/-- R166: each timer of the Link Tester runs only in its phase, the pattern is driven only by a generator in RUNNING, and
TEST_GO is held only in DRAINING. -/
def testTimersFit (t : LinkTester) : Prop :=
  (t.drainDue.isSome → t.phase = .draining) ∧
  (t.goTaken → t.phase = .draining) ∧
  (t.durationDue.isSome → t.phase = .running) ∧
  (t.lostDue.isSome → t.phase = .running ∧ t.generator = false) ∧
  (t.patternDue.isSome → t.phase = .running ∧ t.generator = true) ∧
  (t.genStart.isSome → t.phase = .running ∧ t.generator = true) ∧
  (t.resultDue.isSome → t.phase = .awaitResult)

/-- R92, R100, R166: the link controller, the Link Tester and an accepted HELLO fit the link state; the counts are in range. -/
def LinkInv (s : State) : Prop :=
  timersFit s.slc ∧ phaseFits s.slc.state s.lt.phase ∧ testTimersFit s.lt ∧
  (s.fe.helloTaken.isSome → s.slc.state = .hello ∧ s.slc.role = .follower) ∧
  s.slc.good ≤ 16 ∧ s.slc.missed < 16

/-! The Request Table. -/

/-- A tag's timer runs exactly in the states that have one (R8, R16, R17). -/
def TagState.timed : TagState → Bool
  | .queued | .waitCredit | .inFlight | .cancelSent => true
  | .free | .executing | .testing | .done => false

/-- The pending states of a tag (R8). -/
def TagState.isPending : TagState → Bool
  | .free | .done => false
  | .queued | .executing | .testing | .waitCredit | .inFlight | .cancelSent => true

/-- R8, R11, R19, R20, R27, R124: each tag is in exactly one of free, pending or the Completion Queue; the LOCAL list holds
the QUEUED tags, all of kinds that wait there; the CANCEL list holds tags in CANCEL_SENT under their generation; and a
TESTING tag is the owner tag of a test that is not over. -/
def RequestInv (s : State) : Prop :=
  (s.rt.cq.map (·.tag)).Nodup ∧
  (∀ t : Tag, s.rt.tags[t].state = .done ↔ t ∈ s.rt.cq.map (·.tag)) ∧
  (∀ c ∈ s.rt.cq, c.gen = s.rt.tags[c.tag].gen) ∧
  s.rt.order.Nodup ∧
  (∀ t : Tag, s.rt.tags[t].state.isPending = true ↔ t ∈ s.rt.order) ∧
  (∀ t : Tag, s.rt.tags[t].due.isSome = s.rt.tags[t].state.timed) ∧
  s.da.localList.Nodup ∧
  (∀ t : Tag, s.rt.tags[t].state = .queued ↔ t ∈ s.da.localList) ∧
  (∀ t : Tag, s.rt.tags[t].state = .queued → s.rt.tags[t].req.kind.isQueued = true) ∧
  (s.fe.cancelList.map (·.1)).Nodup ∧
  (∀ x ∈ s.fe.cancelList, s.rt.tags[x.1].state = .cancelSent ∧ s.rt.tags[x.1].gen = x.2) ∧
  (∀ t : Tag, s.rt.tags[t].state = .testing →
    s.lt.owner = true ∧ s.lt.ownerTag = some (t, s.rt.tags[t].gen) ∧ s.lt.phase ≠ .idle ∧ s.lt.phase ≠ .resultOut)

/-! The Incoming Queue and the arbiter's work. -/

/-- R27, R138, R139, R143: the entries in use are those of the arrival order; the REMOTE list holds the WAITING ones, all of
kinds that wait there, and the answer order the ANSWERED ones; and the RSPs of the window are of different SENT entries. -/
def IncomingInv (s : State) : Prop :=
  s.iq.arrival.Nodup ∧
  (∀ i : Slot, s.iq.slots[i].isSome = true ↔ i ∈ s.iq.arrival) ∧
  s.da.remoteList.Nodup ∧
  (∀ i : Slot, (∃ e due, s.iq.slots[i] = some e ∧ e.state = .waiting due) ↔ i ∈ s.da.remoteList) ∧
  (∀ (i : Slot) (e : SlotEntry), i ∈ s.da.remoteList → s.iq.slots[i] = some e → e.req.kind.isQueued = true) ∧
  s.iq.answerOrder.Nodup ∧
  (∀ i : Slot, (∃ e a, s.iq.slots[i] = some e ∧ e.state = .answered a) ↔ i ∈ s.iq.answerOrder) ∧
  (s.fe.window.filterMap (·.slot)).Nodup ∧
  (∀ i ∈ s.fe.window.filterMap (·.slot), ∃ e a, s.iq.slots[i] = some e ∧ e.state = .sent a)

/-- R52, R53, R55, R61, R65: the bus controller holds work, and times the clock, exactly in ACTIVE and RECOVERING; ACTIVE is
for a WRITE or READ; a cause is held in FAULTED and never in IDLE or ACTIVE; and the tag or entry that is EXECUTING, or
DETACHED, is the one its work names. -/
def BusInv (s : State) : Prop :=
  (s.dbc.work.isSome = true ↔ s.dbc.state = .active ∨ s.dbc.state = .recovering) ∧
  s.dbc.stretch.isSome = s.dbc.work.isSome ∧
  (s.dbc.state = .active → ∀ w, s.dbc.work = some w → w.req.kind.isTransfer = true) ∧
  (s.dbc.state = .recovering → ∀ w, s.dbc.work = some w → w.req.kind.isTransfer = true ∨ w.req.kind = .busRecover) ∧
  (s.dbc.state = .faulted → s.dbc.cause.isSome = true) ∧
  (s.dbc.state = .idle ∨ s.dbc.state = .active → s.dbc.cause = none) ∧
  (s.dbc.fromFault = true → s.dbc.state = .recovering) ∧
  (∀ t : Tag, s.rt.tags[t].state = .executing →
    ∃ w, s.dbc.work = some w ∧ w.ref = .tag t s.rt.tags[t].gen) ∧
  (∀ (i : Slot) (e : SlotEntry), s.iq.slots[i] = some e → (e.state = .executing ∨ e.state = .detached) →
    ∃ w, s.dbc.work = some w ∧ w.ref = .slot i)

/-- R29, R30: while the bus controller can take work, no list that may be served holds any. -/
def SelectedInv (s : State) : Prop :=
  (s.dbc.state = .idle ∨ s.dbc.state = .faulted) →
    (s.da.lease = none → s.da.localList = [] ∧ s.da.remoteList = []) ∧
    (∀ due, s.da.lease = some ⟨.localHost, due⟩ → s.da.localList = []) ∧
    (∀ due, s.da.lease = some ⟨.remoteHost, due⟩ → s.da.remoteList = [])

/-! The event queues. -/

/-- R155, R158: the form of an event queue of a capacity: no two records are the same, an OVERFLOW record is the newest one, so
there is at most one, the last place is only OVERFLOW's, and counts are 1 to 255. -/
def queueForm (cap : Nat) (q : List EventRecord) : Prop :=
  q.length ≤ cap ∧
  (q.length = cap → q.any isOverflow = true) ∧
  q.Pairwise (fun a b => sameEvent a b = false) ∧
  q.Pairwise (fun older _ => isOverflow older = false) ∧
  (∀ r ∈ q, 1 ≤ r.count ∧ r.count ≤ 255)

/-- R155, R158: both queues have their form, and the Remote Outbox's records are this chip's. -/
def EventInv (s : State) : Prop :=
  queueForm 16 s.eu.eventQueue ∧ queueForm 8 s.eu.outbox ∧ (∀ r ∈ s.eu.outbox, r.source = .localHost)

/-! The Frame Engine. -/

/-- R123, R128: the sequence numbers of a window of `n` frames, oldest first: they run up to the transmit sequence number. -/
def windowSeqs (txSeq : Seq) (n : Nat) : List Seq :=
  (List.range n).map fun k => txSeq - BitVec.ofNat 3 n + BitVec.ofNat 3 k

/-- R122, R123, R130 to R134, R115: the window holds at most four consecutive frames, each sent one to four times; a go-back
is of frames in the window; the counts are in range. -/
def WindowInv (s : State) : Prop :=
  s.fe.window.length ≤ 4 ∧
  s.fe.window.map (·.seq) = windowSeqs s.fe.txSeq s.fe.window.length ∧
  (∀ f ∈ s.fe.window, 1 ≤ f.sends ∧ f.sends ≤ 4) ∧
  (∀ q ∈ s.fe.goBack, q ∈ s.fe.window.map (·.seq)) ∧
  s.fe.stall ≤ 2 ∧
  s.fe.credits ≤ s.slc.peerCap ∧ s.slc.peerCap ≤ 8 ∧
  (∀ h, s.fe.helloTaken = some h → h.capacity ≤ 8) ∧
  s.fe.lastRet ≤ 8 ∧ s.fe.retCount ≤ 8 ∧ s.fe.crcErrors ≤ 65535

/-! The link that is down. -/

/-- R94, R106, R135, R150, R151: with the link down nothing is held for the other side, but transactions that still run. -/
def QuietInv (s : State) : Prop :=
  s.slc.state.isUp = false →
    (s.fe.window = [] ∧ s.fe.goBack = [] ∧ s.fe.credits = 0 ∧ s.fe.retCount = 0 ∧ s.fe.cancelList = [] ∧
      s.fe.releaseAll = false ∧ s.fe.runLines = false ∧ s.slc.peerReady = false) ∧
    (∀ t : Tag, s.rt.tags[t].state.isFar = false) ∧
    (∀ i : Slot, ∀ e, s.iq.slots[i] = some e → e.state = .detached) ∧
    s.iq.answerOrder = [] ∧ s.da.remoteList = [] ∧
    (∀ l, s.da.lease = some l → l.holder = .localHost) ∧
    (∀ l : LineNo, s.lb.lines[l].owner ≠ some .remoteHost) ∧
    s.eu.outbox = []

end Sys2Proof.Machine
end

