-- ==== Sys2Proof/Certificates/Slice0/Obligations.lean ====
section
/-! DEFINITION. The statements for the provers: what every command does, and what every step keeps. -/
open Sys2Proof Sys2Proof.Machine

/-! The block: one queue of commands. -/

/-- A command at the front of the queue is what the next step carries out, with the queue's rest. With nothing waiting, a step
is one microsecond of the clock: the model's choice (log 1). -/
def Obligations.StepTakesTheFrontCommand : Prop :=
  (∀ (c : Instr) (rest : List Instr) (s : State),
     step { s with pending := c :: rest } = exec c { s with pending := rest }) ∧
  (∀ s : State, s.pending = [] → step s = .next { s with now := s.now + 1 })

/-! Chapter 1: submit, cancel, deadlines, pops, soft reset. -/

/-- R2, R3, R4: a SUBMIT, under any kind's row and with any byte, is refused with BAD_REQUEST exactly when the staged bytes are
malformed; with sound bytes and no tag FREE it is refused with FULL. A refusal changes only SUBMIT_RESULT, beside the port's
pointer, transaction and copies. -/
def Obligations.SubmitIsRefusedWhenMalformedOrFull : Prop :=
  (∀ (k : ReqKind) (b : Byte) (s : State), portReady s →
     (malformed s.hp.staging →
       exec (submitCommand k b) s = .next (setPointer 0x21#8 { beginWrite s with hp.submitResult := .badRequest })) ∧
     (¬ malformed s.hp.staging →
       ∃ t, exec (submitCommand k b) s = .next t ∧ t.hp.submitResult ≠ .badRequest)) ∧
  (∀ (k : ReqKind) (b : Byte) (s : State), portReady s → ¬ malformed s.hp.staging →
     (∀ t : Tag, s.rt.tags[t].state ≠ .free) →
     exec (submitCommand k b) s = .next (setPointer 0x21#8 { beginWrite s with hp.submitResult := .full }))

/-- R1, R5, R7, R16, R18, R19, R124, R182: an accepted request takes the lowest FREE tag with its next generation and a copy of
the record, SUBMIT_RESULT takes the number, and the staging area and the other tags' generations and records stay. What
accepting a request writes, its timer being the staged deadline or 50 ms and a TEST_START having none; and what completing one
writes. The record copied is the staged bytes: kind, side, bytes 2 to 7 whatever the kind (log 20), and the body bytes its kind
reads. -/
def Obligations.AcceptedRequestsTakeATagAndComplete : Prop :=
  ((∀ (k : ReqKind) (b : Byte) (s : State) (r : Request) (t : Tag), portReady s → stagedRequest s.hp.staging = some r →
     s.rt.tags[t].state = .free → (∀ u : Tag, u < t → s.rt.tags[u].state ≠ .free) →
     ∃ s', exec (submitCommand k b) s = .next s' ∧ s'.hp.submitResult = .tag t ∧ s'.rt.tags[t].state ≠ .free ∧
       s'.rt.tags[t].gen = s.rt.tags[t].gen + 1 ∧ s'.rt.tags[t].req = r ∧ s'.hp.staging = s.hp.staging ∧
       ∀ u : Tag, u ≠ t → s'.rt.tags[u].gen = s.rt.tags[u].gen ∧ s'.rt.tags[u].req = s.rt.tags[u].req) ∧
  ((∀ (t : Tag) (r : Request) (st : TagState) (s : State),
     acceptTag t r st s = { s with
       rt := { tags := vput s.rt.tags t ⟨st, s.rt.tags[t].gen + 1, r,
                 if r.kind = .testStart then none
                 else some (s.now + (if r.deadline = 0 then 50 else r.deadline.toNat) * 1000)⟩
               order := s.rt.order ++ [t]
               cq := s.rt.cq }
       hp.submitResult := .tag t }) ∧
   (∀ (t : Tag) (a : Answer) (s : State),
     completeTag t a s = { s with
       rt := { tags := vput s.rt.tags t { s.rt.tags[t] with state := .done, due := none }
               order := s.rt.order.filter (· ≠ t)
               cq := s.rt.cq ++ [⟨t, s.rt.tags[t].gen, s.rt.tags[t].req.kind, s.rt.tags[t].req.side, a⟩] }
       fe.cancelList := s.fe.cancelList.filter (·.1 ≠ t) }))) ∧
  (∀ (v : Vector Byte 40) (r : Request), stagedRequest v = some r →
    v[0].toNat = (match r.kind with
      | .write => 1 | .read => 2 | .lineSet => 3 | .lineSample => 4 | .lineConfig => 5 | .lineClaim => 6 | .lineRelease => 7
      | .leaseTake => 8 | .leaseDrop => 9 | .busRecover => 10 | .ping => 11 | .testStart => 12) ∧
    v[1] = (match r.side with | .near => 0 | .far => 1) ∧
    r.target = v[2] ∧ r.offCount = v[3] ∧ r.off0 = v[4] ∧ r.off1 = v[5] ∧ r.length = v[6] ∧ r.deadline = v[7] ∧
    r.body = (v.toList.drop 8).take (match r.kind with
      | .write => v[6].toNat
      | .lineSet | .lineClaim | .lineRelease => 4
      | .lineConfig => 7
      | .leaseTake => 2
      | .testStart => 5
      | .read | .lineSample | .leaseDrop | .busRecover | .ping => 0))

/-- R13, R14: a far request accepted in RUN, DRAIN or TEST waits for a credit; in any other link state it completes
LINK_DOWN at the SUBMIT write, with a record of count 0, extra 0 and no data. -/
def Obligations.FarSubmitWaitsOrCompletesLinkDown : Prop :=
  ∀ (k : ReqKind) (b : Byte) (s : State) (r : Request) (t : Tag), portReady s → stagedRequest s.hp.staging = some r →
    r.side = .far → freeTag s = some t →
    ((s.slc.state = .run ∨ s.slc.state = .drain ∨ s.slc.state = .test) →
      exec (submitCommand k b) s = .next (setPointer 0x21#8 (acceptTag t r .waitCredit (beginWrite s)))) ∧
    ((s.slc.state = .disabled ∨ s.slc.state = .listen ∨ s.slc.state = .hello ∨ s.slc.state = .retrain ∨
        s.slc.state = .holdoff) →
      exec (submitCommand k b) s =
        .next (setPointer 0x21#8 (completeTag t ⟨.linkDown, 0, 0, []⟩ (acceptTag t r .waitCredit (beginWrite s)))))

/-- R6, R9, R10, R11, R36: a near WRITE, READ, BUS_RECOVER or LEASE_TAKE joins the tail of the LOCAL list in QUEUED, and a
selection follows (R29). A near line request is carried out for LOCAL and completes with the Line Block's answer. A near
LEASE_DROP ends a LOCAL lease and a selection follows, is NOT_HOLDER against a REMOTE one, and OK with none. A near PING
reports the credits held, the revision, HOST_READY and the free Incoming Queue entries. The LEASE_DROP's own record is placed
before those of the selection it causes: the model's choice (log 19). -/
def Obligations.NearRequestsAreQueuedOrCompleteAtOnce : Prop :=
  (∀ (k : ReqKind) (b : Byte) (s : State) (r : Request) (t : Tag), portReady s → stagedRequest s.hp.staging = some r →
     r.side = .near → (r.kind = .write ∨ r.kind = .read ∨ r.kind = .busRecover ∨ r.kind = .leaseTake) →
     freeTag s = some t →
     exec (submitCommand k b) s = .next (setPointer 0x21#8
       (select { acceptTag t r .queued (beginWrite s) with da.localList := s.da.localList ++ [t] }))) ∧
  (∀ (k : ReqKind) (b : Byte) (s : State) (r : Request) (t : Tag), portReady s → stagedRequest s.hp.staging = some r →
     r.side = .near →
     (r.kind = .lineSet ∨ r.kind = .lineSample ∨ r.kind = .lineConfig ∨ r.kind = .lineClaim ∨ r.kind = .lineRelease) →
     freeTag s = some t →
     let done := runLine .localHost r (acceptTag t r .queued (beginWrite s))
     exec (submitCommand k b) s = .next (setPointer 0x21#8 (completeTag t done.1 done.2))) ∧
  (∀ (k : ReqKind) (b : Byte) (s : State) (r : Request) (t : Tag), portReady s → stagedRequest s.hp.staging = some r →
     r.side = .near → freeTag s = some t →
     (r.kind = .leaseDrop →
       (s.da.lease = none → exec (submitCommand k b) s =
         .next (setPointer 0x21#8 (completeTag t ⟨.ok, 0, 0, []⟩ (acceptTag t r .queued (beginWrite s))))) ∧
       (∀ due, s.da.lease = some ⟨.remoteHost, due⟩ → exec (submitCommand k b) s =
         .next (setPointer 0x21#8 (completeTag t ⟨.notHolder, 0, 0, []⟩ (acceptTag t r .queued (beginWrite s))))) ∧
       (∀ due, s.da.lease = some ⟨.localHost, due⟩ → exec (submitCommand k b) s =
         .next (setPointer 0x21#8 (select (completeTag t ⟨.ok, 0, 0, []⟩
           { acceptTag t r .queued (beginWrite s) with da.lease := none }))))) ∧
     (r.kind = .ping → exec (submitCommand k b) s =
       .next (setPointer 0x21#8 (completeTag t
         ⟨.ok, 0, BitVec.ofNat 16 s.fe.credits, [0x01#8, if s.hp.hostReady then 1 else 0, BitVec.ofNat 8 (freeSlots s)]⟩
         (acceptTag t r .queued (beginWrite s))))))

/-- R23, R24: the whole of the CANCEL table. -/
def Obligations.CancelActsByTheTagsState : Prop :=
  ∀ (b : Byte) (s : State), portReady s →
    (8 ≤ b.toNat →
      exec (.cancel b) s = .next (setPointer 0x23#8 { beginWrite s with hp.cancelResult := .noSuchTag })) ∧
    ∀ t : Tag, b.toNat = t.val →
      (s.rt.tags[t].state = .free →
        exec (.cancel b) s = .next (setPointer 0x23#8 { beginWrite s with hp.cancelResult := .noSuchTag })) ∧
      (s.rt.tags[t].state = .done →
        exec (.cancel b) s = .next (setPointer 0x23#8 { beginWrite s with hp.cancelResult := .alreadyDone })) ∧
      (s.rt.tags[t].state = .executing ∨ s.rt.tags[t].state = .testing →
        exec (.cancel b) s = .next (setPointer 0x23#8 { beginWrite s with hp.cancelResult := .tooLate })) ∧
      (s.rt.tags[t].state = .queued →
        exec (.cancel b) s = .next (setPointer 0x23#8
          { completeTag t ⟨.cancelled, 0, 0, []⟩ { beginWrite s with da.localList := s.da.localList.filter (· ≠ t) } with
            hp := { (beginWrite s).hp with cancelResult := .accepted } })) ∧
      (s.rt.tags[t].state = .waitCredit →
        exec (.cancel b) s = .next (setPointer 0x23#8
          { completeTag t ⟨.cancelled, 0, 0, []⟩ (beginWrite s) with
            hp := { (beginWrite s).hp with cancelResult := .accepted } })) ∧
      (s.rt.tags[t].state = .inFlight →
        exec (.cancel b) s = .next (setPointer 0x23#8 { beginWrite s with
          rt.tags := vput s.rt.tags t { s.rt.tags[t] with state := .cancelSent }
          fe.cancelList := s.fe.cancelList ++ [(t, s.rt.tags[t].gen)]
          hp := { (beginWrite s).hp with cancelResult := .accepted } })) ∧
      (s.rt.tags[t].state = .cancelSent →
        exec (.cancel b) s = .next (setPointer 0x23#8 { beginWrite s with hp.cancelResult := .accepted }))

/-- R17: when a tag's timer runs out, a QUEUED entry leaves the LOCAL list and the request completes TIMEOUT; one waiting for
a credit, in flight or cancelled in flight completes TIMEOUT; a tag with no timer is not reached. -/
def Obligations.DeadlineCompletesTimeout : Prop :=
  ∀ (t : Tag) (s : State), s.inReset = false →
    (s.rt.tags[t].due = none → exec (.deadlineExpiry t) s = .next s) ∧
    ∀ due, s.rt.tags[t].due = some due →
      (s.rt.tags[t].state = .queued → exec (.deadlineExpiry t) s =
        .next (completeTag t ⟨.timeout, 0, 0, []⟩
          { s.reach due with da.localList := s.da.localList.filter (· ≠ t) })) ∧
      (s.rt.tags[t].state = .waitCredit ∨ s.rt.tags[t].state = .inFlight ∨ s.rt.tags[t].state = .cancelSent →
        exec (.deadlineExpiry t) s = .next (completeTag t ⟨.timeout, 0, 0, []⟩ (s.reach due)))

/-- R21, R157: a write to COMPLETION_POP or EVENT_POP, whatever the byte, removes the head of its queue, the tag of a popped
completion going FREE with its generation kept; on an empty queue it changes nothing but the port. -/
def Obligations.PopsRemoveTheHead : Prop :=
  ∀ (b : Byte) (s : State), portReady s →
    (s.rt.cq = [] → exec (.completionPop b) s = .next (setPointer 0x25#8 (beginWrite s))) ∧
    (∀ c rest, s.rt.cq = c :: rest →
      exec (.completionPop b) s = .next (setPointer 0x25#8 { beginWrite s with
        rt := { tags := vput s.rt.tags c.tag { s.rt.tags[c.tag] with state := .free, req := Request.empty }
                order := s.rt.order
                cq := rest } })) ∧
    (s.eu.eventQueue = [] → exec (.eventPop b) s = .next (setPointer 0x26#8 (beginWrite s))) ∧
    (∀ r rest, s.eu.eventQueue = r :: rest →
      exec (.eventPop b) s = .next (setPointer 0x26#8 { beginWrite s with eu.eventQueue := rest }))

/-- R25, R48, R89, R124, R125, R161, R173, R175, R179, R185: a write of 1 to SOFT_RESET frees every tag with its next
generation, empties the Completion Queue, the Event Queue, the LOCAL list and the CANCEL list, ends a LOCAL lease, releases the
LOCAL lines, withdraws a test in ENTER_PENDING, owes a RELEASE_ALL at once in RUN or DRAIN and after the test in DRAIN, TEST or
RETRAIN, clears the results and three HOST_CTRL bits, and keeps everything else: the REMOTE list, a REMOTE lease, the turn
pointer, the policy, the filter, the Incoming Queue, the work in progress, the link. Then the selection of R48 is made. Another
value does nothing but the port's own part. -/
def Obligations.SoftResetClearsThisHostsSide : Prop :=
  ∀ (b : Byte) (s : State), portReady s →
    (b ≠ 1 → exec (.softReset b) s = .next (setPointer 0x06#8 (beginWrite s))) ∧
    (b = 1 →
      let tester : LinkTester :=
        if s.lt.phase = .enterPending then { s.lt with
          phase := .idle, ownerTag := none, goTaken := false, drainDue := none, durationDue := none, lostDue := none,
          resultDue := none, patternDue := none, genStart := none }
        else s.lt
      exec (.softReset b) s = .next (setPointer 0x06#8 (select { beginWrite s with
        rt := { tags := vtab fun t => ⟨.free, s.rt.tags[t].gen + 1, Request.empty, none⟩, order := [], cq := [] }
        hp := { (beginWrite s).hp with
          submitResult := .noResult, cancelResult := .noResult, hostReady := false, alertCq := false, alertEq := false }
        da := { s.da with
          localList := []
          lease := match s.da.lease with
            | some ⟨.localHost, _⟩ => none
            | other => other }
        lb := (releaseOwned .localHost allLines s).lb
        fe := { s.fe with
          cancelList := []
          releaseAll := s.fe.releaseAll || decide (s.slc.state = .run) || decide (s.slc.state = .drain) }
        eu := { s.eu with eventQueue := [] }
        lt := { tester with
          stopResult := .noResult
          releaseOwed := s.lt.releaseOwed || decide (s.slc.state = .drain) || decide (s.slc.state = .test) ||
            decide (s.slc.state = .retrain) } })))

/-! Chapter 2: the arbiter. -/

/-- R28, R29, R30: no selection is made while the bus controller works. Otherwise the head of the list that is due is served
and selection goes on: with no lease the turn pointer's list when both hold entries, else the one that does, and the pointer
moves to the other list; under a lease the holder's list alone, the pointer kept; and nothing when that list is empty. -/
def Obligations.SelectionServesTheListThatIsDue : Prop :=
  ∀ s : State,
    ((s.dbc.state = .active ∨ s.dbc.state = .recovering) → select s = s) ∧
    ((s.dbc.state = .idle ∨ s.dbc.state = .faulted) →
      (s.da.lease = none → s.da.localList = [] → s.da.remoteList = [] → select s = s) ∧
      (∀ t rest, s.da.lease = none → s.da.localList = t :: rest → (s.da.remoteList = [] ∨ s.da.turn = .localHost) →
        select s = select (serveLocal t { s with da.localList := rest, da.turn := .remoteHost })) ∧
      (∀ i rest, s.da.lease = none → s.da.remoteList = i :: rest → (s.da.localList = [] ∨ s.da.turn = .remoteHost) →
        select s = select (serveRemote i { s with da.remoteList := rest, da.turn := .localHost })) ∧
      (∀ due, s.da.lease = some ⟨.localHost, due⟩ →
        (s.da.localList = [] → select s = s) ∧
        (∀ t rest, s.da.localList = t :: rest → select s = select (serveLocal t { s with da.localList := rest }))) ∧
      (∀ due, s.da.lease = some ⟨.remoteHost, due⟩ →
        (s.da.remoteList = [] → select s = s) ∧
        (∀ i rest, s.da.remoteList = i :: rest → select s = select (serveRemote i { s with da.remoteList := rest }))))

/-- R11, R31, R32, R34, R53: an entry served. A REMOTE one is first checked against the policy as it stands, and answered DENIED
when refused. A LEASE_TAKE grants the lease for its duration from now and is OK; a WRITE or READ is answered BUS_FAULTED in
FAULTED; else the tag or entry goes to EXECUTING with its timer stopped, and the controller takes the work and the clock and
enters ACTIVE, or RECOVERING for a BUS_RECOVER. That the stuck cause stays as it is in RECOVERING, for a BUS_RECOVER begun in
FAULTED, is the model's choice (log 42). -/
def Obligations.ServedEntriesRunOrAreAnswered : Prop :=
  (∀ (t : Tag) (s : State) (e : TagEntry), s.rt.tags[t] = e →
     (e.req.kind = .leaseTake →
       serveLocal t s = completeTag t ⟨.ok, 0, 0, []⟩ { s with da.lease := some ⟨.localHost, s.now + e.req.leaseMs * 1000⟩ }) ∧
     ((e.req.kind = .write ∨ e.req.kind = .read) → s.dbc.state = .faulted →
       serveLocal t s = completeTag t ⟨.busFaulted, 0, 0, []⟩ s) ∧
     ((e.req.kind = .write ∨ e.req.kind = .read) → s.dbc.state = .idle →
       serveLocal t s = { s with
         rt.tags := vput s.rt.tags t { e with state := .executing, due := none }
         dbc := ⟨.active, some ⟨e.req, .tag t e.gen, 0, []⟩, s.hp.busSpeed, some s.now, s.dbc.cause, false⟩ }) ∧
     (e.req.kind = .busRecover →
       serveLocal t s = { s with
         rt.tags := vput s.rt.tags t { e with state := .executing, due := none }
         dbc := ⟨.recovering, some ⟨e.req, .tag t e.gen, 0, []⟩, s.hp.busSpeed, some s.now, s.dbc.cause,
           decide (s.dbc.state = .faulted)⟩ })) ∧
  (∀ (i : Slot) (s : State) (e : SlotEntry), s.iq.slots[i] = some e →
     (policyAllows s.da e.req = false → serveRemote i s = answerSlot i ⟨.denied, 0, 0, []⟩ s) ∧
     (policyAllows s.da e.req = true →
       (e.req.kind = .leaseTake →
         serveRemote i s = answerSlot i ⟨.ok, 0, 0, []⟩
           { s with da.lease := some ⟨.remoteHost, s.now + e.req.leaseMs * 1000⟩ }) ∧
       ((e.req.kind = .write ∨ e.req.kind = .read) → s.dbc.state = .faulted →
         serveRemote i s = answerSlot i ⟨.busFaulted, 0, 0, []⟩ s) ∧
       ((e.req.kind = .write ∨ e.req.kind = .read) → s.dbc.state = .idle →
         serveRemote i s = { s with
           iq.slots := vput s.iq.slots i (some { e with state := .executing })
           dbc := ⟨.active, some ⟨e.req, .slot i, 0, []⟩, s.hp.busSpeed, some s.now, s.dbc.cause, false⟩ }) ∧
       (e.req.kind = .busRecover →
         serveRemote i s = { s with
           iq.slots := vput s.iq.slots i (some { e with state := .executing })
           dbc := ⟨.recovering, some ⟨e.req, .slot i, 0, []⟩, s.hp.busSpeed, some s.now, s.dbc.cause,
             decide (s.dbc.state = .faulted)⟩ })))

/-- R41, R42: CLOSED refuses every remote bus and lease request, OPEN none; LISTED allows the lease kinds, refuses
BUS_RECOVER, and allows a WRITE or READ exactly when a valid filter entry of its target grants W or R. -/
def Obligations.PolicyDecidesRemoteRequests : Prop :=
  ∀ (a : Arbiter) (r : Request),
    (a.policy = .closed → policyAllows a r = false) ∧
    (a.policy = .opened → policyAllows a r = true) ∧
    (a.policy = .listed →
      ((r.kind = .leaseTake ∨ r.kind = .leaseDrop) → policyAllows a r = true) ∧
      (r.kind = .busRecover → policyAllows a r = false) ∧
      (r.kind = .write → (policyAllows a r = true ↔
        ∃ n : Fin 8, a.filter[n].valid = true ∧ a.filter[n].address.toNat = r.target.toNat ∧ a.filter[n].canWrite = true)) ∧
      (r.kind = .read → (policyAllows a r = true ↔
        ∃ n : Fin 8, a.filter[n].valid = true ∧ a.filter[n].address.toNat = r.target.toNat ∧ a.filter[n].canRead = true)))

/-- R35, R40, R45: a write of 0, 1 or 2 to BUS_POLICY sets CLOSED, LISTED or OPEN and any other byte is ignored. CLOSED, written
over another policy while REMOTE holds the lease, ends it, sends LEASE_EXPIRED to the Remote Outbox and is followed by a
selection; no other write touches the lease. When the remaining time reaches zero the lease ends, LEASE_EXPIRED goes to the
host that held it, and a selection is made; with no lease the command is no occasion. -/
def Obligations.LeasesEndByPolicyAndExpiry : Prop :=
  (∀ (b : Byte) (s : State), portReady s →
     (3 ≤ b.toNat → exec (.busPolicy b) s = .next (setPointer 0x07#8 (beginWrite s))) ∧
     (b = 1 → exec (.busPolicy b) s = .next (setPointer 0x07#8 { beginWrite s with da.policy := .listed })) ∧
     (b = 2 → exec (.busPolicy b) s = .next (setPointer 0x07#8 { beginWrite s with da.policy := .opened })) ∧
     (b = 0 →
       ((s.da.policy = .closed ∨ s.da.lease = none ∨ ∃ due, s.da.lease = some ⟨.localHost, due⟩) →
         exec (.busPolicy b) s = .next (setPointer 0x07#8 { beginWrite s with da.policy := .closed })) ∧
       (∀ due, s.da.policy ≠ .closed → s.da.lease = some ⟨.remoteHost, due⟩ →
         exec (.busPolicy b) s = .next (setPointer 0x07#8
           (select (raiseRemote .leaseExpired 0 0 { beginWrite s with da.policy := .closed, da.lease := none })))))) ∧
  (∀ s : State, s.inReset = false →
     (s.da.lease = none → exec .leaseExpiry s = .next s) ∧
     (∀ due, s.da.lease = some ⟨.localHost, due⟩ →
       exec .leaseExpiry s = .next (select (raiseLocal .leaseExpired 0 0 { s.reach due with da.lease := none }))) ∧
     (∀ due, s.da.lease = some ⟨.remoteHost, due⟩ →
       exec .leaseExpiry s = .next (select (raiseRemote .leaseExpired 0 0 { s.reach due with da.lease := none }))))

/-! Chapter 3: the bus controller. -/

/-- R57, R58: a WRITE whose bytes are all acknowledged ends OK with count its length; one refused ends at once: NO_ACK at the
address byte, DATA_NACK with count 0 at an offset byte, DATA_NACK with the count of data bytes acknowledged before it at a
data byte. `n` bytes were acknowledged before the refusal. On the bus it is a START, the address byte with direction bit 0, the
offset bytes, the data bytes and a STOP; a refused byte is followed by the STOP at once. On the two lines (R54, section 3.2;
SCL and SDA, true for released) a START is SDA pulled low with SCL high, then SCL; a byte is eight clocks from the most significant
bit and one with SDA released; a STOP is SDA pulled low with SCL low, SCL released, SDA released. The settings between these, each
bit set while SCL is low among them, are the model's reading (log 41). -/
def Obligations.WriteEndsByItsAcknowledges : Prop :=
  (∀ (n : Nat) (more : List Bool) (rx : List Byte) (s : State) (w : Work), s.inReset = false → s.dbc.state = .active →
    s.dbc.work = some w → w.req.kind = .write → w.req.offCount.toNat ≤ 2 →
    (1 + w.req.offCount.toNat + w.req.length.toNat ≤ n →
      exec (.transactionEnd (List.replicate n true ++ more) rx) s =
        .next (endWork ⟨.ok, w.req.length.toNat, 0, []⟩ none s)) ∧
    (n = 0 → exec (.transactionEnd (List.replicate n true ++ false :: more) rx) s =
        .next (endWork ⟨.noAck, 0, 0, []⟩ none s)) ∧
    (1 ≤ n → n < 1 + w.req.offCount.toNat → exec (.transactionEnd (List.replicate n true ++ false :: more) rx) s =
        .next (endWork ⟨.dataNack, 0, 0, []⟩ none s)) ∧
    (1 + w.req.offCount.toNat ≤ n → n < 1 + w.req.offCount.toNat + w.req.length.toNat →
      exec (.transactionEnd (List.replicate n true ++ false :: more) rx) s =
        .next (endWork ⟨.dataNack, n - (1 + w.req.offCount.toNat), 0, []⟩ none s))) ∧
  (∀ (r : Request) (n : Nat) (more : List Bool), r.kind = .write → r.offCount.toNat ≤ 2 →
    let bytes := (r.target <<< 1) :: (if r.offCount = 0 then [] else if r.offCount = 1 then [r.off0] else [r.off0, r.off1]) ++
      (List.range r.length.toNat).map fun k => r.body.getD k 0
    (bytes.length ≤ n → r.busItems (List.replicate n true ++ more) = [.start] ++ bytes.map .byte ++ [.stop]) ∧
    (n < bytes.length →
      r.busItems (List.replicate n true ++ false :: more) = [.start] ++ (bytes.take (n + 1)).map .byte ++ [.stop])) ∧
  (∀ (r : Request) (acks : List Bool), r.transferDrives acks = (r.busItems acks).flatMap BusItem.drives) ∧
  BusItem.start.drives = [⟨true, true⟩, ⟨true, false⟩, ⟨false, false⟩] ∧
  BusItem.stop.drives = [⟨false, true⟩, ⟨false, false⟩, ⟨true, false⟩, ⟨true, true⟩] ∧
  (∀ b : Byte, (BusItem.byte b).drives.length = 27 ∧
    (∀ k : Nat, k < 9 → ∀ m : Nat, m < 3 → (BusItem.byte b).drives[3 * k + m]? =
      some ⟨decide (m = 1), if k < 8 then b.getLsbD (7 - k) else true⟩))

/-- R59, R60: a READ whose sent bytes are all acknowledged ends OK with its length of bytes as they came, 0xFF standing for
those a target no longer drives; one refused carries no data: NO_ACK at either address byte, DATA_NACK at an offset byte. On the
bus it is a START, the address byte with direction bit 0 and the offset bytes, a repeated START, the address byte with direction
bit 1, its length of bytes each acknowledged but the last, and a STOP; with no offset bytes the first address byte has direction
bit 1 and nothing comes between; a refused byte is followed by the STOP at once. On the two lines a byte received is eight clocks
with SDA released and one with SDA low when it is acknowledged, released when it is not (R54, section 3.2, log 41). -/
def Obligations.ReadEndsByItsAcknowledges : Prop :=
  (∀ (n : Nat) (more : List Bool) (rx : List Byte) (s : State) (w : Work), s.inReset = false → s.dbc.state = .active →
    s.dbc.work = some w → w.req.kind = .read → w.req.offCount.toNat ≤ 2 →
    let sent := if w.req.offCount.toNat = 0 then 1 else w.req.offCount.toNat + 2
    (sent ≤ n → exec (.transactionEnd (List.replicate n true ++ more) rx) s =
        .next (endWork ⟨.ok, w.req.length.toNat, 0,
          (rx ++ List.replicate w.req.length.toNat 0xFF#8).take w.req.length.toNat⟩ none s)) ∧
    (n = 0 → exec (.transactionEnd (List.replicate n true ++ false :: more) rx) s =
        .next (endWork ⟨.noAck, 0, 0, []⟩ none s)) ∧
    (1 ≤ n → n < 1 + w.req.offCount.toNat → exec (.transactionEnd (List.replicate n true ++ false :: more) rx) s =
        .next (endWork ⟨.dataNack, 0, 0, []⟩ none s)) ∧
    (1 + w.req.offCount.toNat ≤ n → n < sent → exec (.transactionEnd (List.replicate n true ++ false :: more) rx) s =
        .next (endWork ⟨.noAck, 0, 0, []⟩ none s))) ∧
  (∀ (r : Request) (n : Nat) (more : List Bool), r.kind = .read → r.offCount.toNat ≤ 2 →
    let opening := (r.target <<< 1) :: (if r.offCount = 1 then [r.off0] else [r.off0, r.off1])
    let readAddress := (r.target <<< 1) ||| 1
    let taken : List BusItem := List.replicate (r.length.toNat - 1) (.receive true) ++ [.receive false, .stop]
    (r.offCount = 0 →
      (1 ≤ n → r.busItems (List.replicate n true ++ more) = [.start, .byte readAddress] ++ taken) ∧
      (n = 0 → r.busItems (List.replicate n true ++ false :: more) = [.start, .byte readAddress, .stop])) ∧
    (r.offCount ≠ 0 →
      (opening.length + 1 ≤ n → r.busItems (List.replicate n true ++ more) =
        [.start] ++ opening.map .byte ++ [.start, .byte readAddress] ++ taken) ∧
      (n = opening.length → r.busItems (List.replicate n true ++ false :: more) =
        [.start] ++ opening.map .byte ++ [.start, .byte readAddress, .stop]) ∧
      (n < opening.length → r.busItems (List.replicate n true ++ false :: more) =
        [.start] ++ (opening.take (n + 1)).map .byte ++ [.stop]))) ∧
  (∀ acknowledged : Bool, (BusItem.receive acknowledged).drives.length = 27 ∧
    (∀ k : Nat, k < 9 → ∀ m : Nat, m < 3 → (BusItem.receive acknowledged).drives[3 * k + m]? =
      some ⟨decide (m = 1), decide (k < 8) || !acknowledged⟩))

/-- R55, R61, R62, R63, R67: a stuck bus stops the transfer with its progress and cause kept and starts recovery; SCL held low
in a recovery procedure ends it unfreed. SCL is stuck 25 ms after the release at which it stayed low; the command gives the
moment of that release, counted from the start of the work or procedure, since the releases of SCL inside one are no steps: the
model's choice (log 26). The procedure frees the bus exactly when SDA reads high at its start or after one of its first nine
pulses, and again after the STOP; samples the command leaves out read low (log 23, the model's choice). The work then ends: a
BUS_RECOVER OK or BUS_STUCK, a WRITE BUS_STUCK with its count of acknowledged bytes, a READ BUS_STUCK with the bytes it
received. On the two lines the procedure releases SDA, then pulses SCL, low and released, until SDA reads high after a pulse, and
sends the STOP of R54; with SDA high at its start it sends the STOP alone, and with SDA low after the ninth pulse no STOP. The
settings of the lines are the model's reading (log 41). -/
def Obligations.StuckBusIsRecoveredOrFaulted : Prop :=
  (∀ (release : SclRelease) (rx : List Byte) (s : State) (w : Work), s.inReset = false → s.dbc.work = some w →
     (s.dbc.state = .active →
       exec .stuckAtStart s = .next { s with
         dbc := ⟨.recovering, some { w with acked := 0, got := [] }, s.dbc.clock, some s.now, some .sdaLow, false⟩ }) ∧
     (∀ began, s.dbc.state = .active → s.dbc.stretch = some began →
       (w.req.kind = .write → exec (.stretchLimit release rx) s = .next { s.reach (began + release.moment + 25000) with
         dbc := ⟨.recovering, some { w with acked := w.req.dataAcked (leadingAcks release.acks), got := [] }, s.dbc.clock,
           some (max s.now (began + release.moment + 25000)), some .sclLow, false⟩ }) ∧
       (w.req.kind ≠ .write → exec (.stretchLimit release rx) s = .next { s.reach (began + release.moment + 25000) with
         dbc := ⟨.recovering, some { w with
             acked := 0
             got := if w.req.bytesSent ≤ leadingAcks release.acks then rx.take w.req.length.toNat else [] }, s.dbc.clock,
           some (max s.now (began + release.moment + 25000)), some .sclLow, false⟩ })) ∧
     (∀ began, s.dbc.state = .recovering → s.dbc.stretch = some began →
       exec (.stretchLimit release rx) s =
         .next (endWork (recoveredAnswer w false) (some .sclLow) (s.reach (began + release.moment + 25000))))) ∧
  (∀ (x : RecoverySamples) (s : State) (w : Work), s.inReset = false → s.dbc.state = .recovering → s.dbc.work = some w →
     let freed := (x.initial = true ∨ true ∈ x.afterPulse.take 9) ∧ x.afterStop = true
     (freed →
       (w.req.kind = .busRecover → exec (.recoveryEnd x) s = .next (endWork ⟨.ok, 0, 0, []⟩ none s)) ∧
       (w.req.kind = .write → exec (.recoveryEnd x) s = .next (endWork ⟨.busStuck, w.acked, 0, []⟩ none s)) ∧
       (w.req.kind = .read → exec (.recoveryEnd x) s = .next (endWork ⟨.busStuck, w.got.length, 0, w.got⟩ none s))) ∧
     (¬ freed →
       (w.req.kind = .busRecover → exec (.recoveryEnd x) s = .next (endWork ⟨.busStuck, 0, 0, []⟩ (some .sdaLow) s)) ∧
       (w.req.kind = .write → exec (.recoveryEnd x) s = .next (endWork ⟨.busStuck, w.acked, 0, []⟩ (some .sdaLow) s)) ∧
       (w.req.kind = .read →
         exec (.recoveryEnd x) s = .next (endWork ⟨.busStuck, w.got.length, 0, w.got⟩ (some .sdaLow) s)))) ∧
  (∀ x : RecoverySamples,
     let pulses := fun n : Nat => (List.replicate n [⟨false, true⟩, ⟨true, true⟩]).flatten
     let stop : List BusDrive := [⟨false, true⟩, ⟨false, false⟩, ⟨true, false⟩, ⟨true, true⟩]
     (x.initial = true → recoveryDrives x = ⟨true, true⟩ :: stop) ∧
     (∀ n : Nat, n < 9 → x.initial = false → x.afterPulse[n]? = some true → (∀ k, k < n → x.afterPulse[k]? = some false) →
       recoveryDrives x = ⟨true, true⟩ :: (pulses (n + 1) ++ stop)) ∧
     (x.initial = false → true ∉ x.afterPulse.take 9 → recoveryDrives x = ⟨true, true⟩ :: pulses 9))

/-- R20, R33, R46, R47, R64, R65, R151: the end of bus work. The result goes to its requester; the controller lets go of the
work and enters IDLE or FAULTED with its cause; an entry to FAULTED from another state raises BUS_FAULT for both hosts and
answers the waiting WRITEs and READs of both lists; a selection is made. A result for a tag is applied only in EXECUTING under
the same generation; one for an Incoming Queue entry answers an EXECUTING entry and frees a DETACHED one. At the entry to
FAULTED the answers BUS_FAULTED are given in list order, both lists keep their other entries in order, and nothing else is
touched. -/
def Obligations.EndOfBusWorkReturnsTheResult : Prop :=
  (∀ (a : Answer) (c : StuckCause) (s : State) (w : Work), s.dbc.work = some w →
     let after := fun (st : BusState) (cause : Option StuckCause) =>
       { routeResult w.ref a s with dbc := ⟨st, none, s.dbc.clock, none, cause, false⟩ }
     endWork a none s = select (after .idle none) ∧
     (s.dbc.fromFault = true → endWork a (some c) s = select (after .faulted (some c))) ∧
     (s.dbc.fromFault = false → endWork a (some c) s =
       select (faultPurge (raiseRemote .busFault c.code 0 (raiseLocal .busFault c.code 0 (after .faulted (some c)))))) ∧
     StuckCause.code .sdaLow = 1 ∧ StuckCause.code .sclLow = 2) ∧
  (∀ (a : Answer) (s : State),
     (∀ (t : Tag) (g : Gen), s.rt.tags[t].state = .executing → s.rt.tags[t].gen = g →
       routeResult (.tag t g) a s = completeTag t a s) ∧
     (∀ (t : Tag) (g : Gen), (s.rt.tags[t].state ≠ .executing ∨ s.rt.tags[t].gen ≠ g) → routeResult (.tag t g) a s = s) ∧
     (∀ (i : Slot) (e : SlotEntry), s.iq.slots[i] = some e →
       (e.state = .executing → routeResult (.slot i) a s = { s with
         iq.slots := vput s.iq.slots i (some { e with state := .answered a })
         iq.answerOrder := s.iq.answerOrder ++ [i] }) ∧
       (e.state = .detached → routeResult (.slot i) a s = { s with
         iq := { slots := vput s.iq.slots i none
                 arrival := s.iq.arrival.filter (· ≠ i)
                 answerOrder := s.iq.answerOrder.filter (· ≠ i) } }))) ∧
  (∀ s : State, RequestInv s → IncomingInv s →
     let gone := s.da.localList.filter fun t => s.rt.tags[t].req.kind.isTransfer
     let away := s.da.remoteList.filter fun i => (s.iq.slots[i].map (·.req.kind.isTransfer)).getD false
     let u := faultPurge s
     u.da = { s.da with
       localList := s.da.localList.filter fun t => !s.rt.tags[t].req.kind.isTransfer
       remoteList := s.da.remoteList.filter fun i => !(s.iq.slots[i].map (·.req.kind.isTransfer)).getD false } ∧
     u.rt.order = s.rt.order.filter (fun t => decide (t ∉ gone)) ∧
     u.iq.arrival = s.iq.arrival ∧ u.fe = s.fe ∧ u.inReset = s.inReset ∧ u.free = s.free ∧ u.pending = s.pending ∧
     u.rt.cq = s.rt.cq ++ gone.map (fun t =>
       ⟨t, s.rt.tags[t].gen, s.rt.tags[t].req.kind, s.rt.tags[t].req.side, ⟨.busFaulted, 0, 0, []⟩⟩) ∧
     (∀ t ∈ gone, u.rt.tags[t] = { s.rt.tags[t] with state := .done, due := none }) ∧
     (∀ t : Tag, t ∉ gone → u.rt.tags[t] = s.rt.tags[t]) ∧
     u.iq.answerOrder = s.iq.answerOrder ++ away ∧
     (∀ i ∈ away, ∃ e, s.iq.slots[i] = some e ∧
       u.iq.slots[i] = some { e with state := .answered ⟨.busFaulted, 0, 0, []⟩ }) ∧
     (∀ i : Slot, i ∉ away → u.iq.slots[i] = s.iq.slots[i]) ∧
     u.dbc = s.dbc ∧ u.lb = s.lb ∧ u.slc = s.slc ∧ u.eu = s.eu ∧ u.lt = s.lt ∧ u.hp = s.hp ∧ u.now = s.now)

/-! Chapter 4: the lines. -/

/-- R76, R182: a LINE_CLAIM is OWNED when the other host owns a named line, else NOT_OWNER when REMOTE asks for a line that
REMOTE_LINES does not list, with no line changed; else OK, every named line gets the requester as owner, one already its own
keeping its record and one PARKED becoming INPUT. The request names the lines of the mask in the first two bytes of its body,
and its answer is the status alone. -/
def Obligations.ClaimIsAllOrNothing : Prop :=
  (∀ (o : Origin) (m : LineMask) (s : State),
    ((∃ l : LineNo, m.getLsbD l.val = true ∧ s.lb.lines[l].owner = some o.other) → lineClaim o m s = (.owned, s)) ∧
    ((∀ l : LineNo, m.getLsbD l.val = true → s.lb.lines[l].owner ≠ some o.other) →
      ((o = .remoteHost ∧ ∃ l : LineNo, m.getLsbD l.val = true ∧ s.lb.remoteLines.getLsbD l.val = false) →
        lineClaim o m s = (.notOwner, s)) ∧
      ((o = .remoteHost → ∀ l : LineNo, m.getLsbD l.val = true → s.lb.remoteLines.getLsbD l.val = true) →
        ∃ lines : Vector LineRecord 12, lineClaim o m s = (.ok, { s with lb.lines := lines }) ∧
          ∀ l : LineNo, lines[l] =
            if m.getLsbD l.val = true ∧ s.lb.lines[l].owner ≠ some o then
              { s.lb.lines[l] with
                owner := some o
                mode := if s.lb.lines[l].mode = .parked then .input else s.lb.lines[l].mode }
            else s.lb.lines[l]))) ∧
  (∀ (o : Origin) (r : Request) (s : State), r.kind = .lineClaim →
    runLine o r s = (⟨(lineClaim o r.mask s).1, 0, 0, []⟩, (lineClaim o r.mask s).2)) ∧
  (∀ (r : Request) (l : LineNo), r.mask.getLsbD l.val =
    if l.val < 8 then (r.body.getD 1 0).getLsbD l.val else (r.body.getD 0 0).getLsbD (l.val - 8))

/-- R73, R77: a LINE_RELEASE completes OK and releases exactly the named lines the requester owns. A released line has no owner
and reports to nobody, and its fallback decides: RELEASE gives INPUT with out kept, the others PARKED, with out the held level,
0 or 1; debounce, fallback, partner and flag style stay. Every other release of a host's lines is the same operation,
releaseOwned. The request names the lines of the mask of its body, as a LINE_CLAIM does. -/
def Obligations.ReleaseFollowsTheFallback : Prop :=
  (∀ (o : Origin) (m : LineMask) (s : State),
    ∃ lines : Vector LineRecord 12, lineRelease o m s = (.ok, { s with lb.lines := lines }) ∧
      ∀ l : LineNo,
        let r := s.lb.lines[l]
        (¬ (m.getLsbD l.val = true ∧ r.owner = some o) → lines[l] = r) ∧
        (m.getLsbD l.val = true → r.owner = some o →
          (r.fallback = .release → lines[l] = { r with owner := none, report := .nobody, mode := .input }) ∧
          (r.fallback = .hold → lines[l] = { r with
            owner := none
            report := .nobody
            mode := .parked
            out := match lineDrive s r with
              | some driven => driven
              | none => r.level }) ∧
          (r.fallback = .low → lines[l] = { r with owner := none, report := .nobody, mode := .parked, out := false }) ∧
          (r.fallback = .high → lines[l] = { r with owner := none, report := .nobody, mode := .parked, out := true }))) ∧
  (∀ (o : Origin) (m : LineMask) (s : State), lineRelease o m s = (.ok, releaseOwned o m s)) ∧
  (∀ (o : Origin) (r : Request) (s : State), r.kind = .lineRelease →
    runLine o r s = (⟨.ok, 0, 0, []⟩, (lineRelease o r.mask s).2))

/-- R80, R182: a LINE_SET is NOT_OWNER when a named line is not the requester's, else WRONG_MODE when one is in a mode other
than OUTPUT_PP or OUTPUT_OD, with nothing changed; else OK, out of every named line set to its value. The request names the
lines of the mask of its body, as a LINE_CLAIM does, and gives the values in the third and fourth byte. -/
def Obligations.LineSetIsAllOrNothing : Prop :=
  (∀ (o : Origin) (m v : LineMask) (s : State),
    ((∃ l : LineNo, m.getLsbD l.val = true ∧ s.lb.lines[l].owner ≠ some o) → lineSet o m v s = (.notOwner, s)) ∧
    ((∀ l : LineNo, m.getLsbD l.val = true → s.lb.lines[l].owner = some o) →
      ((∃ l : LineNo, m.getLsbD l.val = true ∧ s.lb.lines[l].mode ≠ .outputPp ∧ s.lb.lines[l].mode ≠ .outputOd) →
        lineSet o m v s = (.wrongMode, s)) ∧
      ((∀ l : LineNo, m.getLsbD l.val = true → s.lb.lines[l].mode = .outputPp ∨ s.lb.lines[l].mode = .outputOd) →
        ∃ lines : Vector LineRecord 12, lineSet o m v s = (.ok, { s with lb.lines := lines }) ∧
          ∀ l : LineNo, lines[l] =
            if m.getLsbD l.val = true then { s.lb.lines[l] with out := v.getLsbD l.val } else s.lb.lines[l]))) ∧
  (∀ (o : Origin) (r : Request) (s : State), r.kind = .lineSet →
    runLine o r s = (⟨(lineSet o r.mask r.values s).1, 0, 0, []⟩, (lineSet o r.mask r.values s).2)) ∧
  (∀ (r : Request) (l : LineNo), r.values.getLsbD l.val =
    if l.val < 8 then (r.body.getD 3 0).getLsbD l.val else (r.body.getD 2 0).getLsbD (l.val - 8))

/-- R78, R79, R82, R83, R182: a LINE_CONFIG of a line the requester does not own is NOT_OWNER and changes nothing. Otherwise it
is OK and writes the six settings of that line alone, as its body gives them. A line being timed whose debounce changes is timed
anew from now, or, with 0, takes the pin's level at once, reported as any level change. Then the mode is entered: into an output
mode from another out becomes the level, into MIRROR_RECV the line stops receiving, into TEST_FLAG no error is marked, and a
line left in MIRROR_SEND sets the mirror update pending flag. That the settings come first, the timing next and the mode last is
the model's order (log 18). -/
def Obligations.LineConfigWritesTheWholeSetting : Prop :=
  (∀ (o : Origin) (c : LineSettings) (s : State),
    let r := s.lb.lines[c.line]
    let written : LineRecord := { r with
      mode := c.mode, debounce := c.debounce, report := c.report, fallback := c.fallback, partner := c.partner,
      style := c.style }
    (r.owner ≠ some o → lineConfig o c s = (.notOwner, s)) ∧
    (r.owner = some o → ∃ (settled after : LineRecord) (u : State),
      lineConfig o c s = (.ok, { u with
        lb.lines := vput u.lb.lines c.line after
        lb.mirrorPending := u.lb.mirrorPending || decide (c.mode = .mirrorSend) }) ∧
      ((r.timing = none ∨ c.debounce = r.debounce) → settled = written ∧ u = s) ∧
      (r.timing ≠ none → c.debounce ≠ r.debounce →
        (c.debounce ≠ 0 → settled = { written with timing := some (s.now + c.debounce * 1000) } ∧ u = s) ∧
        (c.debounce = 0 → settled = { written with level := r.pin, timing := none } ∧
          u = takeLevel c.line r.pin { s with lb.lines := vput s.lb.lines c.line written })) ∧
      ((c.mode = .outputPp ∨ c.mode = .outputOd) → r.mode ≠ .outputPp → r.mode ≠ .outputOd →
        after = { settled with out := settled.level }) ∧
      ((c.mode = .outputPp ∨ c.mode = .outputOd) → (r.mode = .outputPp ∨ r.mode = .outputOd) → after = settled) ∧
      (c.mode = .mirrorRecv → r.mode ≠ .mirrorRecv → after = { settled with receiving := false }) ∧
      (c.mode = .testFlag → r.mode ≠ .testFlag → after = { settled with flagErr := false }) ∧
      ((c.mode = .mirrorRecv ∨ c.mode = .testFlag) → r.mode = c.mode → after = settled) ∧
      ((c.mode = .input ∨ c.mode = .mirrorSend ∨ c.mode = .parked) → after = settled))) ∧
  (∀ (o : Origin) (r : Request) (c : LineSettings) (s : State), r.kind = .lineConfig → r.settings = some c →
    runLine o r s = (⟨(lineConfig o c s).1, 0, 0, []⟩, (lineConfig o c s).2)) ∧
  (∀ (r : Request) (c : LineSettings), r.settings = some c →
    let b : Nat → Nat := fun n => (r.body.getD n 0).toNat
    b 0 = c.line.val ∧
    b 1 = (match c.mode with
      | .input => 0 | .outputPp => 1 | .outputOd => 2 | .mirrorSend => 3 | .mirrorRecv => 4 | .testFlag => 5 | .parked => 6) ∧
    c.mode ≠ .parked ∧
    b 2 = (match c.fallback with | .hold => 0 | .low => 1 | .high => 2 | .release => 3) ∧
    b 3 = c.debounce ∧ (c.debounce = 0 ∨ c.debounce = 1 ∨ c.debounce = 4 ∨ c.debounce = 16) ∧
    b 4 = (match c.report with | .nobody => 0 | .toLocal => 1 | .toRemote => 2 | .both => 3) ∧
    b 5 = c.partner.val ∧
    b 6 = (match c.style with | .live => 0 | .latched => 1))

/-- R81, R183: a LINE_SAMPLE completes OK, changes nothing, and its six bytes are the levels, the lines owned LOCAL and the
lines owned REMOTE, each pair a mask of the staging layout. -/
def Obligations.SampleShowsLevelsAndOwners : Prop :=
  ∀ (o : Origin) (r : Request) (s : State), r.kind = .lineSample →
    ∃ b0 b1 b2 b3 b4 b5 : Byte, runLine o r s = (⟨.ok, 0, 0, [b0, b1, b2, b3, b4, b5]⟩, s) ∧
      ∀ l : LineNo,
        (lineMask b0 b1).getLsbD l.val = s.lb.lines[l].level ∧
        (lineMask b2 b3).getLsbD l.val = decide (s.lb.lines[l].owner = some .localHost) ∧
        (lineMask b4 b5).getLsbD l.val = decide (s.lb.lines[l].owner = some .remoteHost)

/-- R82, R84: a pin that shows its old value is no change; one that returns to the level ends the line's timing; one that leaves
the level is taken at once with debounce 0 and timed for the debounce otherwise; when the time is up the level takes the pin's
value, and a line that is not timed is not reached. A level taken ends the timing; when it changes, LINE_CHANGE goes where the
report sends it, to the Remote Outbox only with the link up, and a MIRROR_SEND line sets the mirror update pending flag. -/
def Obligations.PinChangesAreDebouncedAndReported : Prop :=
  (∀ (l : LineNo) (v : Bool) (s : State), s.inReset = false →
     let r := s.lb.lines[l]
     (v = r.pin → exec (.pinChange l v) s = .next s) ∧
     (v ≠ r.pin → v = r.level →
       exec (.pinChange l v) s = .next { s with lb.lines := vput s.lb.lines l { r with pin := v, timing := none } }) ∧
     (v ≠ r.pin → v ≠ r.level → r.debounce = 0 →
       exec (.pinChange l v) s = .next (takeLevel l v { s with lb.lines := vput s.lb.lines l { r with pin := v } })) ∧
     (v ≠ r.pin → v ≠ r.level → r.debounce ≠ 0 →
       exec (.pinChange l v) s = .next { s with
         lb.lines := vput s.lb.lines l { r with pin := v, timing := some (s.now + r.debounce * 1000) } }) ∧
     (r.timing = none → exec (.debounceEnd l) s = .next s) ∧
     (∀ due, r.timing = some due → exec (.debounceEnd l) s = .next (takeLevel l r.pin (s.reach due)))) ∧
  (∀ (l : LineNo) (v : Bool) (s : State),
     let r := s.lb.lines[l]
     let s1 : State := { s with lb.lines := vput s.lb.lines l { r with level := v, timing := none } }
     let arg : Byte := if v then 1 else 0
     (r.level = v → takeLevel l v s = s1) ∧
     (r.level ≠ v →
       (takeLevel l v s).lb =
         { s1.lb with mirrorPending := s.lb.mirrorPending || decide (r.mode = .mirrorSend) } ∧
       (takeLevel l v s).eu.eventQueue =
         (if r.report = .toLocal ∨ r.report = .both then
           insertEvent 16 s.eu.eventQueue ⟨.lineChange, .localHost, BitVec.ofNat 8 l.val, arg, 1⟩
         else s.eu.eventQueue) ∧
       (takeLevel l v s).eu.outbox =
         (if (r.report = .toRemote ∨ r.report = .both) ∧ s.slc.state.isUp = true then
           insertEvent 8 s.eu.outbox ⟨.lineChange, .localHost, BitVec.ofNat 8 l.val, arg, 1⟩
         else s.eu.outbox) ∧
       takeLevel l v s = { s1 with lb := (takeLevel l v s).lb, eu := (takeLevel l v s).eu }))

/-- R74, R158, R180: the write of 0x09 takes the new mask as one value, L11 to L8 from the holding byte if 0x08 was written
since the last one and from the mask otherwise, and clears the written mark. Every REMOTE-owned line whose bit goes from 1 to 0
is released, and with the link up each puts a LINE_LOST into the Remote Outbox, by the rules of an insertion, in ascending line
order (the model's choice, log 19); no other line changes, and nothing else does. -/
def Obligations.RemoteLinesWriteTakesTheMask : Prop :=
  ∀ (b : Byte) (s : State), portReady s →
    ∃ (m : LineMask) (t : State), exec (.remoteLines b) s = .next t ∧ t.lb.remoteLines = m ∧
      (∀ l : LineNo, m.getLsbD l.val =
        if l.val < 8 then b.getLsbD l.val
        else if s.hp.remoteHold.written then s.hp.remoteHold.byte.getLsbD (l.val - 8)
        else s.lb.remoteLines.getLsbD l.val) ∧
      t.hp = { (beginWrite s).hp with pointer := 0x0A#8, remoteHold := { s.hp.remoteHold with written := false } } ∧
      (∀ l : LineNo, t.lb.lines[l] =
        if s.lb.remoteLines.getLsbD l.val = true ∧ m.getLsbD l.val = false ∧ s.lb.lines[l].owner = some .remoteHost then
          releasedRecord (heldLevel s s.lb.lines[l]) s.lb.lines[l]
        else s.lb.lines[l]) ∧
      t.eu.eventQueue = s.eu.eventQueue ∧
      t.eu.outbox =
        (if s.slc.state = .run ∨ s.slc.state = .drain ∨ s.slc.state = .test ∨ s.slc.state = .retrain then
          ((List.finRange 12).filter fun l => decide (s.lb.remoteLines.getLsbD l.val = true ∧ m.getLsbD l.val = false ∧
              s.lb.lines[l].owner = some .remoteHost)).foldl
            (fun q l => insertEvent 8 q ⟨.lineLost, .localHost, BitVec.ofNat 8 l.val, 0, 1⟩) s.eu.outbox
        else s.eu.outbox) ∧
      t = { s with lb := { s.lb with lines := t.lb.lines, remoteLines := m }, eu := t.eu, hp := t.hp }

/-- R71, R85 to R88, R117: what a line's mode drives: INPUT and MIRROR_SEND nothing, OUTPUT_PP and PARKED out, OUTPUT_OD out where it
is low, MIRROR_RECV out while receiving. A TEST_FLAG line is driven high, except on the checker of a running test once an error
has been marked on it: LATCHED then low until the test is left, LIVE low while the newest error's microsecond runs, whose end
clears it. A LINES frame carries partner and level of each MIRROR_SEND line, one pair a line, from L0 to L11; a delivered pair
sets a MIRROR_RECV line and otherwise raises MIRROR_MISMATCH; at a loss a MIRROR_RECV line goes to its fallback; and a delivered
LINES frame applies its pairs in order. A pair's byte is R117's: the partner in bits 3 to 0, the level in bit 4, bits 7 to 5 sent
as 0; that they are not read in a pair that arrives is the model's reading (log 22). -/
def Obligations.TestFlagAndMirroredLinesFollowTheirSource : Prop :=
  (∀ (s : State) (r : LineRecord),
     ((r.mode = .input ∨ r.mode = .mirrorSend) → lineDrive s r = none) ∧
     ((r.mode = .outputPp ∨ r.mode = .parked) → lineDrive s r = some r.out) ∧
     (r.mode = .outputOd → lineDrive s r = if r.out then none else some false) ∧
     (r.mode = .mirrorRecv → lineDrive s r = if r.receiving then some r.out else none)) ∧
  ((∀ (s : State) (r : LineRecord), r.mode = .testFlag →
     lineDrive s r = some (!(decide (s.slc.state = .test ∧ s.lt.phase = .running ∧ s.lt.generator = false) && r.flagErr &&
       (decide (r.style = .latched) || s.lb.pulse.isSome)))) ∧
   (∀ (s : State) (l : LineNo), s.lb.lines[l].mode = .testFlag →
     (flagError s).lb.lines[l] = { s.lb.lines[l] with flagErr := true } ∧ (flagError s).lb.pulse = some (s.now + 1)) ∧
   (∀ s : State, s.inReset = false →
     (s.lb.pulse = none → exec .testFlagPulseEnd s = .next s) ∧
     (∀ due, s.lb.pulse = some due → exec .testFlagPulseEnd s = .next { s.reach due with lb.pulse := none }))) ∧
  ((∀ s : State, mirrorPairs s = (List.finRange 12).flatMap fun l : LineNo =>
     if s.lb.lines[l].mode = .mirrorSend then
       [BitVec.ofNat 8 (s.lb.lines[l].partner.val + if s.lb.lines[l].level then 16 else 0)]
     else []) ∧
   (∀ (s : State) (b : Byte) (l : LineNo), b.toNat % 16 = l.val →
     (s.lb.lines[l].mode = .mirrorRecv → applyPair s b =
       { s with lb.lines := vput s.lb.lines l { s.lb.lines[l] with out := b.getLsbD 4, receiving := true } }) ∧
     (s.lb.lines[l].mode ≠ .mirrorRecv → applyPair s b =
       raiseLocal .mirrorMismatch (BitVec.ofNat 8 l.val) (if b.getLsbD 4 then 1 else 0) s)) ∧
   (∀ (s : State) (l : LineNo), s.lb.lines[l].mode = .mirrorRecv → s.lb.lines[l].owner ≠ some .remoteHost →
     (linesAtLoss s).lb.lines[l] =
       match s.lb.lines[l].fallback with
       | .hold => s.lb.lines[l]
       | .low => { s.lb.lines[l] with out := false, receiving := true }
       | .high => { s.lb.lines[l] with out := true, receiving := true }
       | .release => { s.lb.lines[l] with receiving := false }) ∧
   (∀ (h : FrameHeader) (p : List Byte) (s s1 : State), DeliveredAt .lines h p s s1 →
     exec (.lines h p) s = .next (p.foldl applyPair s1)))

/-! Chapter 5: the link. -/

/-- R96, R99, R100, R102, R103, R105, R111: when its interval comes due a chip starts a TRAIN, marked in RETRAIN, or a HELLO,
with its role and HOST_READY, and the interval is due again a millisecond later. The HELLO limit fails the bring-up, the silence
and retrain limits are losses, and the end of HOLDOFF leads to DISABLED with SPAN_OFF set, else to LISTEN, where a leader starts
training at once. An entry to HOLDOFF records its reason, starts its period, stops the other timers and the counts, and sends
nothing. With its timer stopped each does nothing. -/
def Obligations.LinkTimersActWhenDue : Prop :=
  (∀ s : State, s.inReset = false →
     let role : Byte := if s.slc.role = .leader then 0 else 1
     (s.slc.trainDue = none → exec .trainingInterval s = .next s) ∧
     (∀ due, s.slc.trainDue = some due → exec .trainingInterval s = .next { s.reach due with
       slc.trainDue := some (due + 1000)
       fe := { s.fe with
         sending := some ⟨.train, ⟨decide (s.slc.state = .retrain), s.hp.hostReady, false, 0, 0, 0⟩, [role]⟩
         sendEnd := max s.now due + 12
         awaitReply := none
         replyDue := none } }) ∧
     (s.slc.helloDue = none → exec .helloInterval s = .next s) ∧
     (∀ due, s.slc.helloDue = some due → exec .helloInterval s = .next { s.reach due with
       slc.helloDue := some (due + 1000)
       fe := { s.fe with
         sending := some ⟨.hello, ⟨false, s.hp.hostReady, false, 0, 0, 0⟩, [0x01#8, 0x08#8, role]⟩
         sendEnd := max s.now due + 14
         awaitReply := none
         replyDue := none } })) ∧
  ((∀ s : State, s.inReset = false →
     (s.slc.helloLimit = none → exec .helloLimit s = .next s) ∧
     (∀ due, s.slc.helloLimit = some due → exec .helloLimit s = .next (enterHoldoff .helloFail 10000 (s.reach due))) ∧
     (s.slc.silence = none → exec .silenceLimit s = .next s) ∧
     (∀ due, s.slc.silence = some due → exec .silenceLimit s = .next (loss .turnLoss (s.reach due))) ∧
     (s.slc.retrain = none → exec .retrainLimit s = .next s) ∧
     (∀ due, s.slc.retrain = some due → exec .retrainLimit s = .next (loss .retrainFail (s.reach due))) ∧
     (s.slc.holdoff = none → exec .holdoffEnd s = .next s) ∧
     (∀ due, s.slc.holdoff = some due →
       (s.hp.spanOff = true → exec .holdoffEnd s = .next { s.reach due with slc.state := .disabled, slc.holdoff := none }) ∧
       (s.hp.spanOff = false → s.slc.role = .follower → exec .holdoffEnd s =
         .next { s.reach due with slc.state := .listen, slc.good := 0, slc.holdoff := none }) ∧
       (s.hp.spanOff = false → s.slc.role = .leader → exec .holdoffEnd s = .next { s.reach due with
         slc := { s.slc with state := .listen, good := 0, holdoff := none, trainDue := some (max s.now due + 1000) }
         fe := { s.fe with
           sending := some ⟨.train, ⟨false, s.hp.hostReady, false, 0, 0, 0⟩, [0x00#8]⟩
           sendEnd := max s.now due + 12
           awaitReply := none
           replyDue := none } }))) ∧
   (∀ (r : HoldoffReason) (period : Nat) (s : State), enterHoldoff r period s = { s with
     slc := { s.slc with
       state := .holdoff, detail := r, good := 0, missed := 0, trainDue := none, helloDue := none, helloLimit := none
       silence := none, retrain := none, holdoff := some (s.now + period) }
     fe := { s.fe with sending := none, awaitReply := none, replyDue := none, helloTaken := none } }))

/-- R106 and the rules it names (R15, R20, R49, R68, R73, R90, R104, R105, R135, R150, R162, R175): a loss records its reason
and enters HOLDOFF for 10 ms; the far requests complete LINK_DOWN in submission order, and after them the owner of a test that
is not over, OK with its results as a checker in TEST or RETURNING (its end reason STOPPED in TEST), LINK_DOWN otherwise; the
Incoming Queue keeps only the running entry, detached; the REMOTE list and the Remote Outbox are emptied and a REMOTE lease
ends; REMOTE's lines are released and the MIRROR_RECV ones go to their fallbacks, no test error marked; the Frame Engine is
cleared but for its CRC count; LINK_DOWN, then LEASE_BROKEN, then a checker's TEST_DONE are queued; the Link Tester is IDLE, the
owed release cleared; the bus controller's work is kept. Then a selection is made (R49), whose completions are queued after the
others: the model's choice (log 19). -/
def Obligations.LossTearsTheLinkDown : Prop :=
  ∀ (r : HoldoffReason) (s : State), RequestInv s →
    let far := s.rt.order.filter fun n => s.rt.tags[n].state.isFar
    let record := fun (n : Tag) (a : Answer) =>
      (⟨n, s.rt.tags[n].gen, s.rt.tags[n].req.kind, s.rt.tags[n].req.side, a⟩ : Completion)
    let checker := (s.lt.phase = .running ∨ s.lt.phase = .returning) ∧ s.lt.generator = false
    let why := if s.lt.phase = .running ∧ s.lt.generator = false then .stopped else s.lt.endReason
    let result : Answer := ⟨.ok, 0, BitVec.ofNat 16 s.lt.errors, bytes40 s.lt.bits ++ bytes16 s.lt.errors ++
      [why.code, if s.lt.firstError then 1 else 0]⟩
    let waits := fun (n : Tag) (g : Gen) => s.lt.ownerTag = some (n, g) ∧ s.rt.tags[n].state = .testing ∧
      s.rt.tags[n].gen = g ∧ s.lt.phase ≠ .idle ∧ s.lt.phase ≠ .resultOut ∧
      (s.lt.phase = .awaitResult ∨ s.lt.owner = true)
    ∃ u, loss r s = select u ∧
      u.rt.order = s.rt.order.filter (fun n => !s.rt.tags[n].state.isFar && decide (¬ ∃ g, waits n g)) ∧
      (∀ n : Tag, u.rt.tags[n] =
        if s.rt.tags[n].state.isFar = true ∨ ∃ g, waits n g then { s.rt.tags[n] with state := .done, due := none }
        else s.rt.tags[n]) ∧
      (∀ n g, waits n g → u.rt.cq = s.rt.cq ++ (far.map fun k => record k ⟨.linkDown, 0, 0, []⟩) ++
        [record n (if checker then result else ⟨.linkDown, 0, 0, []⟩)]) ∧
      ((∀ n g, ¬ waits n g) → u.rt.cq = s.rt.cq ++ far.map fun k => record k ⟨.linkDown, 0, 0, []⟩) ∧
      (∀ i : Slot, u.iq.slots[i] = match s.iq.slots[i] with
        | some e => if e.state = .executing ∨ e.state = .detached then some { e with state := .detached } else none
        | none => none) ∧
      u.iq.arrival = s.iq.arrival.filter (fun i => (u.iq.slots[i]).isSome) ∧ u.iq.answerOrder = [] ∧
      u.da = { s.da with
        remoteList := []
        lease := match s.da.lease with
          | some ⟨.remoteHost, _⟩ => none
          | other => other } ∧
      u.dbc = s.dbc ∧
      (∀ l : LineNo,
        let line := s.lb.lines[l]
        u.lb.lines[l] =
          if line.owner = some .remoteHost then { releasedRecord (heldLevel s line) line with flagErr := false }
          else if line.mode = .mirrorRecv then
            match line.fallback with
            | .hold => { line with flagErr := false }
            | .low => { line with out := false, receiving := true, flagErr := false }
            | .high => { line with out := true, receiving := true, flagErr := false }
            | .release => { line with receiving := false, flagErr := false }
          else { line with flagErr := false }) ∧
      u.lb = { s.lb with lines := u.lb.lines, pulse := none } ∧
      u.slc = { s.slc with
        state := .holdoff, detail := r, good := 0, missed := 0, peerReady := false, trainDue := none, helloDue := none,
        helloLimit := none, silence := none, retrain := none, holdoff := some (s.now + 10000) } ∧
      u.fe = { FrameEngine.reset with crcErrors := s.fe.crcErrors } ∧
      u.eu.outbox = [] ∧
      (let down := insertEvent 16 s.eu.eventQueue ⟨.linkDown, .localHost, r.code, 0, 1⟩
        let broken := match s.da.lease with
          | some ⟨.remoteHost, _⟩ => insertEvent 16 down ⟨.leaseBroken, .localHost, 0, 0, 1⟩
          | _ => down
        u.eu.eventQueue =
          if checker then
            insertEvent 16 broken ⟨.testDone, .localHost, why.code, BitVec.ofNat 8 (min 255 s.lt.errors), 1⟩
          else broken) ∧
      (s.lt.phase = .idle → u.lt = s.lt) ∧
      (s.lt.phase ≠ .idle → u.lt = { s.lt with
        phase := .idle, ownerTag := none, goTaken := false, drainDue := none, durationDue := none, lostDue := none,
        resultDue := none, patternDue := none, genStart := none, releaseOwed := false, endReason := why }) ∧
      u.hp = s.hp ∧ u.now = s.now ∧ u.inReset = s.inReset ∧ u.free = s.free ∧ u.pending = s.pending

/-- R96 to R101, R106, R111, R117, R118: the bring-up by its frames. A follower in LISTEN counts and answers an unmarked TRAIN
of a leader, and locks at the sixteenth, its count then standing at 16 (log 33); in HELLO it answers one and restarts its HELLO
limit; an accepted HELLO locks it in LISTEN and is answered in LISTEN, HELLO and RUN; a bad HELLO fails the bring-up; it takes
no notice of a marked TRAIN or of a TRAIN or HELLO of a follower. A leader in LISTEN counts a follower's TRAIN_ACK in its
window, and locks at the sixteenth; in HELLO an accepted HELLO in its window takes it to RUN as `EntersRun` says, a bad one
fails the bring-up, and a HELLO or TRAIN of a leader, or that TRAIN in LISTEN, is a clash. A TRAIN_ACK carries the sender's
role, marked in RETRAIN, a HELLO its revision, capacity and role, and both its HOST_READY. Replies start in the step that takes
the frame (log 14), but for the HELLO owed in RUN, a leader's first HELLO is 1 ms after its lock (log 40), and a follower locks
also within the 2 ms after the release (log 43): the model's choices. -/
def Obligations.TrainingFramesBringTheLinkUp : Prop :=
  ∀ (h : FrameHeader) (s : State), s.inReset = false → s.fe.sending = none → h.ret.toNat ≤ 8 →
    (s.slc.role = .follower → s.slc.state = .listen → h.retrain = false →
      (s.slc.good < 15 → exec (.train h [0]) s = .next (sendTrainAck { s with slc.good := s.slc.good + 1 })) ∧
      (s.slc.good = 15 → ∃ t, exec (.train h [0]) s = .next t ∧ t.slc.state = .hello ∧ t.slc.good = 16 ∧
        t.slc.helloLimit = some (s.now + 10000) ∧ t.fe.sending = (sendTrainAck s).fe.sending)) ∧
    (s.slc.role = .leader → s.slc.state = .listen →
      exec (.train h [0]) s =
        .next (enterHoldoff .roleConflict 100000 (raiseLocal .roleConflict 0 0 s)) ∧
      (s.fe.awaitReply.isSome = true → s.slc.good < 15 → exec (.trainAck h [1]) s =
        .next { s with slc.good := s.slc.good + 1, fe.awaitReply := none }) ∧
      (s.fe.awaitReply.isSome = true → s.slc.good = 15 → exec (.trainAck h [1]) s = .next { s with
        slc := { s.slc with
          state := .hello, good := 16, trainDue := none, helloDue := some (s.now + 1000)
          helloLimit := some (s.now + 10000) }
        fe.awaitReply := none })) ∧
    (s.slc.role = .follower → s.slc.state = .listen ∨ s.slc.state = .hello →
      (h.retrain = true → exec (.train h [0]) s = .next s) ∧ exec (.train h [1]) s = .next s ∧
      (∀ rev cap : Byte, exec (.hello h [rev, cap, 1]) s = .next s ∧
        (cap.toNat = 0 ∨ 8 < cap.toNat → exec (.hello h [rev, cap, 0]) s = .next (enterHoldoff .helloFail 10000 s)))) ∧
    (s.slc.role = .follower → s.slc.state = .hello → h.retrain = false → exec (.train h [0]) s =
      .next (sendTrainAck { s with slc.helloLimit := some (s.now + 10000) })) ∧
    (s.slc.role = .leader → s.slc.state = .hello →
      exec (.train h [0]) s = .next (enterHoldoff .roleConflict 100000 (raiseLocal .roleConflict 0 0 s)) ∧
      (∀ rev cap : Byte,
        exec (.hello h [rev, cap, 0]) s = .next (enterHoldoff .roleConflict 100000 (raiseLocal .roleConflict 0 0 s)) ∧
        (s.fe.awaitReply.isSome = true → cap.toNat = 0 ∨ 8 < cap.toNat →
          exec (.hello h [rev, cap, 1]) s = .next (enterHoldoff .helloFail 10000 s)))) ∧
    (∀ (rev cap : Byte), 1 ≤ cap.toNat → cap.toNat ≤ 8 → s.slc.role = .follower → s.slc.state = .listen →
      exec (.hello h [rev, cap, 0]) s = .next (sendHello { s with
        slc := { s.slc with state := .hello, trainDue := none, helloDue := none, helloLimit := none }
        fe.helloTaken := some ⟨rev, cap.toNat, h.hostReady⟩ })) ∧
    (∀ (rev cap : Byte), s.slc.role = .follower → s.slc.state = .run →
      exec (.hello h [rev, cap, 0]) s = .next (takeReady h.hostReady { s with
        slc.silence := some (s.now + 2000), fe.replyDue := some (s.now + 2), fe.replyHello := true })) ∧
    (∀ (rev cap : Byte), 1 ≤ cap.toNat → cap.toNat ≤ 8 → s.slc.state = .hello →
      (s.slc.role = .follower → exec (.hello h [rev, cap, 0]) s = .next (sendHello { s with
        slc.helloLimit := none, fe.helloTaken := some ⟨rev, cap.toNat, h.hostReady⟩ })) ∧
      (s.slc.role = .leader → s.fe.awaitReply.isSome = true → ∃ t, exec (.hello h [rev, cap, 1]) s = .next t ∧
        EntersRun ⟨rev, cap.toNat, h.hostReady⟩ { s with fe.awaitReply := none } t)) ∧
    (let role : Byte := if s.slc.role = .leader then 0 else 1
     sendTrainAck s = { s with fe := { s.fe with
        sending := some ⟨.trainAck, ⟨decide (s.slc.state = .retrain), s.hp.hostReady, false, 0, 0, 0⟩, [role]⟩
        sendEnd := s.now + 12
        awaitReply := none
        replyDue := none } } ∧
     sendHello s = { s with fe := { s.fe with
        sending := some ⟨.hello, ⟨false, s.hp.hostReady, false, 0, 0, 0⟩, [0x01#8, 0x08#8, role]⟩
        sendEnd := s.now + 14
        awaitReply := none
        replyDue := none } })

/-- R95, R179: each of the four rows writes HOST_READY, ALERT_CQ, ALERT_EQ and SPAN_OFF from bits 0 to 3 of the byte. SPAN_OFF
acts when it changes: set, it takes LISTEN to DISABLED, fails a bring-up in HELLO, and is a loss with the link up; cleared in
DISABLED with the SPAN_EN strap high, it takes the chip to LISTEN. -/
def Obligations.HostControlWritesItsFourFields : Prop :=
  ∀ (b : Byte) (c : Instr) (s : State), c ∈ hostCtrlCommands b → portReady s →
    let s1 : State := { beginWrite s with hp := { (beginWrite s).hp with
      hostReady := b.getLsbD 0, alertCq := b.getLsbD 1, alertEq := b.getLsbD 2, spanOff := b.getLsbD 3 } }
    (b.getLsbD 3 = s.hp.spanOff → exec c s = .next (setPointer 0x05#8 s1)) ∧
    (b.getLsbD 3 = true → s.hp.spanOff = false →
      ((s.slc.state = .disabled ∨ s.slc.state = .holdoff) → exec c s = .next (setPointer 0x05#8 s1)) ∧
      (s.slc.state = .listen → ∃ t, exec c s = .next t ∧ t.slc.state = .disabled ∧ t.slc.good = 0 ∧
        t.slc.detail = s.slc.detail ∧ t.slc.trainDue = none ∧ t.fe.sending = none ∧ t.eu = s.eu ∧ t.rt = s.rt ∧
        t.hp = { s1.hp with pointer := 0x05#8 }) ∧
      (s.slc.state = .hello → exec c s = .next (setPointer 0x05#8 (enterHoldoff .localOff 10000 s1))) ∧
      ((s.slc.state = .run ∨ s.slc.state = .drain ∨ s.slc.state = .test ∨ s.slc.state = .retrain) →
        exec c s = .next (setPointer 0x05#8 (loss .localOff s1)))) ∧
    (b.getLsbD 3 = false → s.hp.spanOff = true →
      ((s.slc.state ≠ .disabled ∨ s.slc.spanEn = false) → exec c s = .next (setPointer 0x05#8 s1)) ∧
      (s.slc.state = .disabled → s.slc.spanEn = true → ∃ t, exec c s = .next t ∧ t.slc.state = .listen ∧ t.slc.good = 0 ∧
        (s.slc.role = .leader → t.slc.trainDue = some (s.now + 1000) ∧ t.fe.sending = (sendTrain s1).fe.sending) ∧
        (s.slc.role = .follower → t.fe = s.fe) ∧ t.eu = s.eu ∧ t.rt = s.rt))

/-! Chapter 6: frames, turns, recovery. -/

/-- R100, R112, R119, R120, R122, R131, R132: the leader opens a turn at the earliest moment when it has traffic or the last
turn asks for it, else at the later of 100 microseconds after the last turn opened and that moment; the follower's reply starts
when it is due, at the earliest moment R120 allows (the model's choice, log 30). Each sends the frame the transmit selector
chooses, or, in reply to a HELLO taken in RUN, the follower's own HELLO; a chip that has no turn to open or no reply to give
does nothing. With no go-back the frame of the chosen kind is built; in a go-back the next frame of it is sent again with its
payload and seq under a fresh header and one send more, and its fifth send is a loss instead. -/
def Obligations.TurnsSendTheSelectedFrame : Prop :=
  (∀ s : State, s.inReset = false →
     let due := if s.fe.hurry = true ∨ s.fe.goBack ≠ [] ∨ nextKind s ≠ .idle then s.fe.earliest
       else max (s.fe.turnOpened + 100) s.fe.earliest
     ((s.slc.role = .leader ∧ (s.slc.state = .run ∨ s.slc.state = .drain) ∧ s.fe.sending = none ∧ s.fe.awaitReply = none) →
       exec .turnOpen s = .next (sendSelected { s with
         now := max s.now due, fe.turnOpened := max s.now due, fe.hurry := false })) ∧
     (¬ (s.slc.role = .leader ∧ (s.slc.state = .run ∨ s.slc.state = .drain) ∧ s.fe.sending = none ∧
         s.fe.awaitReply = none) → exec .turnOpen s = .next s) ∧
     (s.fe.replyDue = none → exec .followerReply s = .next s) ∧
     (¬ (s.slc.role = .follower ∧ (s.slc.state = .run ∨ s.slc.state = .drain) ∧ s.fe.sending = none) →
       exec .followerReply s = .next s) ∧
     (∀ reply, s.fe.replyDue = some reply → s.slc.role = .follower → (s.slc.state = .run ∨ s.slc.state = .drain) →
       s.fe.sending = none →
       (s.fe.replyHello = false →
         exec .followerReply s = .next (sendSelected { s with now := max s.now reply, fe.replyDue := none })) ∧
       (s.fe.replyHello = true → exec .followerReply s = .next (noteSend (!s.fe.window.isEmpty) { s with
         now := max s.now reply
         fe := { s.fe with
           sending := some ⟨.hello, ⟨false, s.hp.hostReady, false, 0, 0, 0⟩, [0x01#8, 0x08#8, 0x01#8]⟩
           sendEnd := max s.now reply + 14
           awaitReply := none
           replyDue := none } })))) ∧
  (∀ s : State,
     (s.fe.goBack = [] → sendSelected s = buildFrame (nextKind s) s) ∧
     (∀ q rest f, s.fe.goBack = q :: rest → s.fe.window.find? (fun g => decide (g.seq = q)) = some f →
       (4 ≤ f.sends → sendSelected s = loss .retryLimit s) ∧
       (f.sends < 4 → sendSelected s = noteSend true { s with
         fe := { s.fe with
           window := s.fe.window.map fun g => if g.seq = q then { g with sends := g.sends + 1 } else g
           goBack := rest
           sending := some ⟨f.kind, ⟨false, s.hp.hostReady, s.fe.resend, q, s.fe.expected - 1,
             BitVec.ofNat 8 s.fe.retCount⟩, f.payload⟩
           sendEnd := s.now + (11 + f.payload.length)
           awaitReply := none
           replyDue := none } })))

/-- R122: the order of the transmit selector's candidates 2 to 10, each but IDLE only with fewer than four frames in the
window, TEST_RESULT, LINES, REQ and EVENT only in RUN, and a REQ only under a credit. -/
def Obligations.SelectorTakesTheFirstCandidate : Prop :=
  ∀ s : State,
    let run := s.slc.state = .run
    (4 ≤ s.fe.window.length → nextKind s = .idle) ∧
    (s.fe.window.length < 4 →
      (s.fe.releaseAll = true → nextKind s = .releaseAll) ∧
      (s.fe.releaseAll = false →
        (s.fe.cancelList ≠ [] → nextKind s = .cancel) ∧
        (s.fe.cancelList = [] →
          (run → s.lt.phase = .resultOut → nextKind s = .testResult) ∧
          (¬ (run ∧ s.lt.phase = .resultOut) →
            (run → (s.fe.runLines = true ∨ s.lb.mirrorPending = true) → nextKind s = .lines) ∧
            (¬ (run ∧ (s.fe.runLines = true ∨ s.lb.mirrorPending = true)) →
              (s.iq.answerOrder ≠ [] → nextKind s = .rsp) ∧
              (s.iq.answerOrder = [] →
                (∀ k, handshake s = some k → nextKind s = k) ∧
                (handshake s = none →
                  (run → (∃ t ∈ s.rt.order, s.rt.tags[t].state = .waitCredit) → 1 ≤ s.fe.credits → nextKind s = .req) ∧
                  (¬ (run ∧ (∃ t ∈ s.rt.order, s.rt.tags[t].state = .waitCredit) ∧ 1 ≤ s.fe.credits) →
                    (run → s.eu.outbox ≠ [] → nextKind s = .event) ∧
                    (¬ (run ∧ s.eu.outbox ≠ []) → nextKind s = .idle)))))))))

/-- R13, R85, R112, R117, R118, R122 to R125, R130, R137, R143, R159: building a sequenced frame starts its sending with the
transmit sequence number, which advances, and appends it to the window with a send count of 1. A send counts as a stall when the
window held a frame before it and no acknowledgement progress came since the last send, and the third starts a go-back of the
whole window, the frame just sent among it (as the model reads R130 and R131, log 32). A REQ is for the oldest WAIT_CREDIT tag
in submission order; it, whose payload is the nine bytes and the body of R117, takes one credit, its tag going IN_FLIGHT with 8
ms of grace; an RSP its entry's place in the answer order, the entry going to SENT; a CANCEL, an EVENT and a RELEASE_ALL the
head or flag they come from; a LINES frame both its flags. An IDLE frame, with no payload and seq 0, enters no window. -/
def Obligations.BuildingAFrameTakesItsWork : Prop :=
  ((∀ (k : FrameKind) (p : List Byte) (slot : Option Slot) (s : State),
     pushFrame k p slot s = noteSend (!s.fe.window.isEmpty) { s with
       fe := { s.fe with
         txSeq := s.fe.txSeq + 1
         window := s.fe.window ++ [⟨k, s.fe.txSeq, p, 1, slot⟩]
         sending := some ⟨k, ⟨false, s.hp.hostReady, s.fe.resend, s.fe.txSeq, s.fe.expected - 1,
           BitVec.ofNat 8 s.fe.retCount⟩, p⟩
         sendEnd := s.now + (11 + p.length)
         awaitReply := none
         replyDue := none } }) ∧
   (∀ (held : Bool) (s : State),
     let n := if held = true ∧ s.fe.progress = false then s.fe.stall + 1 else s.fe.stall
     (n < 3 → noteSend held s = { s with fe.stall := n, fe.progress := false }) ∧
     (3 ≤ n → noteSend held s = { s with
       fe.stall := 0, fe.progress := false, fe.goBack := s.fe.window.map (·.seq) }))) ∧
  (∀ s : State,
     ((nextReq s = none ↔ ∀ t ∈ s.rt.order, s.rt.tags[t].state ≠ .waitCredit) ∧
       (∀ t, nextReq s = some t ↔ s.rt.tags[t].state = .waitCredit ∧
         ∃ older newer, s.rt.order = older ++ t :: newer ∧ ∀ u ∈ older, s.rt.tags[u].state ≠ .waitCredit)) ∧
     (∀ t, nextReq s = some t → buildFrame .req s = pushFrame .req
       ([BitVec.ofNat 8 t.val, s.rt.tags[t].gen.setWidth 8, s.rt.tags[t].req.kind.code,
         BitVec.ofNat 8 (max 1 ((s.rt.tags[t].due.getD s.now - s.now) / 1000)), s.rt.tags[t].req.target,
         s.rt.tags[t].req.offCount, s.rt.tags[t].req.off0, s.rt.tags[t].req.off1, s.rt.tags[t].req.length] ++
         s.rt.tags[t].req.body) none
       { s with
         rt.tags := vput s.rt.tags t { s.rt.tags[t] with state := .inFlight, due := s.rt.tags[t].due.map (· + 8000) }
         fe.credits := s.fe.credits - 1 }) ∧
     (∀ i rest e a, s.iq.answerOrder = i :: rest → s.iq.slots[i] = some e → e.state = .answered a →
       buildFrame .rsp s = pushFrame .rsp
         ([e.tag, e.gen, a.status.code, BitVec.ofNat 8 a.count, a.extra.extractLsb' 8 8, a.extra.extractLsb' 0 8] ++ a.data)
         (some i) { s with
           iq.slots := vput s.iq.slots i (some { e with state := .sent a })
           iq.answerOrder := s.iq.answerOrder.filter (· ≠ i) }) ∧
     (∀ t g rest, s.fe.cancelList = (t, g) :: rest → buildFrame .cancel s =
       pushFrame .cancel [BitVec.ofNat 8 t.val, g.setWidth 8] none { s with fe.cancelList := rest }) ∧
     (∀ r rest, s.eu.outbox = r :: rest → buildFrame .event s =
       pushFrame .event [r.kind.code, 0, r.detail, r.arg, BitVec.ofNat 8 r.count, 0] none { s with eu.outbox := rest }) ∧
     (buildFrame .releaseAll s = pushFrame .releaseAll [] none { s with fe.releaseAll := false }) ∧
     (buildFrame .lines s = pushFrame .lines (mirrorPairs s) none
       { s with lb.mirrorPending := false, fe.runLines := false }) ∧
     (buildFrame .idle s = noteSend (!s.fe.window.isEmpty) { s with
       fe := { s.fe with
         sending := some ⟨.idle, ⟨false, s.hp.hostReady, s.fe.resend, 0, s.fe.expected - 1,
           BitVec.ofNat 8 s.fe.retCount⟩, []⟩
         sendEnd := s.now + 11
         awaitReply := none
         replyDue := none } }))

/-- R96, R99, R100, R102, R103, R111, R119, R121, R126, R170: when the last bit of a frame is sent the RESEND flag it carried is
cleared, while a TRAIN, TRAIN_ACK or HELLO leaves the flag to the next frame (the model's choice, log 39), and a leader's reply
window opens for 20 microseconds; a follower whose HELLO reply this was enters RUN, as `EntersRun` says; a non-owner that took
TEST_GO, leader or follower, enters TEST, whether the frame was built or sent again (the model's choice, log 37). A
reply window that closes with no reply is a missed turn in RUN or DRAIN, the sixteenth in a row a loss with TURN_LOSS; in LISTEN
or RETRAIN it ends the row of good exchanges; elsewhere it only closes. -/
def Obligations.ReplyWindowsOpenAndClose : Prop :=
  (∀ s : State, s.inReset = false →
     (s.fe.sending = none → exec .frameSent s = .next s) ∧
     (∀ f, s.fe.sending = some f →
       let after : State := { s with
         now := max s.now s.fe.sendEnd
         fe.sending := none
         fe.resend := s.fe.resend && decide (f.kind = .train ∨ f.kind = .trainAck ∨ f.kind = .hello) }
       (s.slc.role = .leader →
         ((s.lt.goTaken = false ∨ s.slc.state ≠ .drain) → exec .frameSent s =
           .next { after with fe.awaitReply := some (max s.now s.fe.sendEnd + 20) }) ∧
         (s.lt.goTaken = true → s.slc.state = .drain → exec .frameSent s = .next (enterTest after))) ∧
       (s.slc.role = .follower → s.fe.helloTaken = none → (s.lt.goTaken = false ∨ s.slc.state ≠ .drain) →
         exec .frameSent s = .next after) ∧
       (∀ h, s.slc.role = .follower → s.fe.helloTaken = some h → ∃ t, exec .frameSent s = .next t ∧
         EntersRun h { after with fe.helloTaken := none } t) ∧
       (s.slc.role = .follower → s.fe.helloTaken = none → s.lt.goTaken = true → s.slc.state = .drain →
         exec .frameSent s = .next (enterTest after)))) ∧
  (∀ s : State, s.inReset = false →
     (s.fe.awaitReply = none → exec .replyWindowEnd s = .next s) ∧
     (∀ due, s.fe.awaitReply = some due →
       let missed : State := { s.reach due with
         fe.awaitReply := none, fe.earliest := max s.now due, fe.hurry := true, slc.missed := s.slc.missed + 1 }
       ((s.slc.state = .run ∨ s.slc.state = .drain) →
         (s.slc.missed + 1 < 16 → exec .replyWindowEnd s = .next missed) ∧
         (16 ≤ s.slc.missed + 1 → exec .replyWindowEnd s = .next (loss .turnLoss missed))) ∧
       ((s.slc.state = .listen ∨ s.slc.state = .retrain) →
         exec .replyWindowEnd s = .next { s.reach due with slc.good := 0, fe.awaitReply := none }) ∧
       ((s.slc.state = .hello ∨ s.slc.state = .disabled ∨ s.slc.state = .test ∨ s.slc.state = .holdoff) →
         exec .replyWindowEnd s = .next { s.reach due with fe.awaitReply := none })))

/-- R115: the CRC error count goes up by one, to 65 535 at most, for each failed frame a chip receives in LISTEN, HELLO, RUN,
DRAIN or RETRAIN, and for none in TEST, DISABLED or HOLDOFF. That it counts one at a leader in RUN or DRAIN with no reply window
open too, where R121 takes no frame, is the model's choice (log 29), a clause of its own. A write to CRC_ERRORS clears it; it is
0 after the release of RSTN, and a soft reset and a loss leave it. -/
def Obligations.CrcErrorsCountFailedFrames : Prop :=
  (∀ (raw : List Byte) (s : State), s.inReset = false → s.fe.sending = none →
    let counted := ∃ t, exec (.badFrame raw) s = .next t ∧ t.fe.crcErrors = min 65535 (s.fe.crcErrors + 1)
    ((s.slc.state = .listen ∨ s.slc.state = .hello ∨ s.slc.state = .retrain) → counted) ∧
    ((s.slc.state = .run ∨ s.slc.state = .drain) → (s.slc.role = .follower ∨ s.fe.awaitReply.isSome = true) → counted) ∧
    ((s.slc.state = .run ∨ s.slc.state = .drain) → s.slc.role = .leader → s.fe.awaitReply = none → counted) ∧
    ((s.slc.state = .disabled ∨ s.slc.state = .holdoff) → exec (.badFrame raw) s = .next s) ∧
    (s.slc.state = .test → ∃ t, exec (.badFrame raw) s = .next t ∧ t.fe.crcErrors = s.fe.crcErrors)) ∧
  (∀ (low : Bool) (b : Byte) (s : State), portReady s →
    exec (.crcErrorsClear low b) s = .next (setPointer (if low then 0x0C#8 else 0x0B#8) { beginWrite s with fe.crcErrors := 0 })) ∧
  (∀ (straps : Straps) (pins : LineMask) (s : State), s.inReset = true →
    ∃ t, exec (.rstnRelease straps pins) s = .next t ∧ t.fe.crcErrors = 0) ∧
  (∀ (b : Byte) (s : State), portReady s →
    ∃ t, exec (.softReset b) s = .next t ∧ t.fe.crcErrors = s.fe.crcErrors) ∧
  (∀ (r : HoldoffReason) (s : State), (loss r s).fe.crcErrors = s.fe.crcErrors)

/-- R96, R97, R99, R100, R102, R103, R114, R121, R172: what a failed frame does: in RUN or DRAIN the RESEND flag to send is set,
a follower sends no reply, and a leader waiting for a reply has missed its turn at once (as the model reads R121, log 28), the
sixteenth in a row a loss with TURN_LOSS; a leader not waiting counts it and sets the flag all the same (the model's choice, log
29). In LISTEN or RETRAIN a follower's good exchanges, and a waiting leader's, start again; in HELLO it is counted, and a
leader's window closes; in DISABLED or HOLDOFF it does nothing, and in TEST its bytes are symbols. A frame row that fails the
check of R114 is such a frame (log 11), a REQ of more than 41 payload bytes among them (the model's choice, log 38). -/
def Obligations.FailedFrameAsksForAResend : Prop :=
  ((∀ (k : FrameKind) (h : FrameHeader) (p : List Byte) (s : State), (frameGood k h p = false ∨ s.slc.state = .test) →
     exec (frameCommand ⟨k, h, p⟩) s = exec (.badFrame (wireBytes ⟨k, h, p⟩)) s) ∧
   (∀ (h : FrameHeader) (p : List Byte), 41 < p.length → frameGood .req h p = false)) ∧
  ∀ (raw : List Byte) (s : State), s.inReset = false → s.fe.sending = none →
    let bad : FrameEngine := { s.fe with crcErrors := min 65535 (s.fe.crcErrors + 1) }
    ((s.slc.state = .run ∨ s.slc.state = .drain) → s.slc.role = .follower →
      exec (.badFrame raw) s = .next { s with fe := { bad with resend := true, replyDue := none } }) ∧
    ((s.slc.state = .run ∨ s.slc.state = .drain) → s.slc.role = .leader → s.fe.awaitReply = none →
      exec (.badFrame raw) s = .next { s with fe := { bad with resend := true } }) ∧
    ((s.slc.state = .run ∨ s.slc.state = .drain) → s.slc.role = .leader → s.fe.awaitReply.isSome = true →
      let missed : State := { s with
        slc.missed := s.slc.missed + 1
        fe := { bad with resend := true, awaitReply := none, earliest := s.now + 2, hurry := true } }
      (s.slc.missed < 15 → exec (.badFrame raw) s = .next missed) ∧
      (15 ≤ s.slc.missed → exec (.badFrame raw) s = .next (loss .turnLoss missed))) ∧
    ((s.slc.state = .listen ∨ s.slc.state = .retrain) → s.slc.role = .follower →
      exec (.badFrame raw) s = .next { s with slc.good := 0, fe := bad }) ∧
    ((s.slc.state = .listen ∨ s.slc.state = .retrain) → s.slc.role = .leader → s.fe.awaitReply.isSome = true →
      exec (.badFrame raw) s = .next { s with slc.good := 0, fe := { bad with awaitReply := none } }) ∧
    ((s.slc.state = .listen ∨ s.slc.state = .retrain) → s.slc.role = .leader → s.fe.awaitReply = none →
      exec (.badFrame raw) s = .next { s with fe := bad }) ∧
    (s.slc.state = .hello →
      (s.slc.role = .leader → exec (.badFrame raw) s = .next { s with fe := { bad with awaitReply := none } }) ∧
      (s.slc.role = .follower → exec (.badFrame raw) s = .next { s with fe := bad })) ∧
    ((s.slc.state = .disabled ∨ s.slc.state = .holdoff) → exec (.badFrame raw) s = .next s) ∧
    (s.slc.state = .test → exec (.badFrame raw) s = .next (raw.foldl (fun u b => takeSymbol b true u) s))

/-- R128, R133, R134, R109, R129: what taking the header of a good frame does. An ack of a frame in the window takes that
frame and the older ones out, is progress, and frees the entries of the RSPs among them with a credit each; another takes
none. The return count's advance modulo 9 is added to the credits, to the peer's capacity at most. A changed HOST_READY is
copied and told to the local host. RESEND starts a go-back of what is left. -/
def Obligations.HeaderOfAGoodFrameIsTaken : Prop :=
  (∀ (h : FrameHeader) (s : State),
    let s1 := takeReady h.hostReady (takeReturn h.ret (takeAck h.ack s))
    (h.resend = false → takeHeader h s = s1) ∧
    (h.resend = true → takeHeader h s = { s1 with fe.stall := 0, fe.goBack := s1.fe.window.map (·.seq) })) ∧
  (∀ (ack : Seq) (s : State), (∀ f ∈ s.fe.window, f.seq ≠ ack) → takeAck ack s = s) ∧
  (∀ (s : State) (older newer : List WindowFrame) (f : WindowFrame), s.fe.window = older ++ f :: newer →
    (∀ g ∈ older, g.seq ≠ f.seq) →
    let t := takeAck f.seq s
    t.fe.window = newer ∧ t.fe.progress = true ∧ t.fe.stall = 0 ∧
    t.fe.goBack = s.fe.goBack.filter (fun q => newer.any fun g => decide (g.seq = q)) ∧
    t.fe.retCount = ((older ++ [f]).filterMap (·.slot)).foldl (fun n _ => (n + 1) % 9) s.fe.retCount ∧
    (∀ i : Slot, i ∈ (older ++ [f]).filterMap (·.slot) → t.iq.slots[i] = none) ∧
    (∀ i : Slot, i ∉ (older ++ [f]).filterMap (·.slot) → t.iq.slots[i] = s.iq.slots[i]) ∧
    t.rt = s.rt ∧ t.da = s.da ∧ t.slc = s.slc ∧ t.lb = s.lb ∧ t.eu = s.eu ∧ t.lt = s.lt) ∧
  (∀ (ret : Byte) (s : State), takeReturn ret s = { s with
    fe.credits := min s.slc.peerCap (s.fe.credits + (ret.toNat + 9 - s.fe.lastRet) % 9), fe.lastRet := ret.toNat }) ∧
  (∀ s : State, takeReady s.slc.peerReady s = s ∧
    (s.slc.peerReady = false → takeReady true s = raiseLocal .peerHostReady 0 0 { s with slc.peerReady := true }) ∧
    (s.slc.peerReady = true → takeReady false s = raiseLocal .peerHostGone 0 0 { s with slc.peerReady := false }))

/-- R98, R100, R102, R109, R118 to R121, R127, R129: a good frame that is not the link controller's, taken in RUN or DRAIN by a
leader in its reply window or by a follower: the turn is answered, or the silence limit starts again and a reply is owed; the
header is taken; an IDLE does no more. A sequenced frame is delivered when its seq is the expected one, which advances, asks for
a resend when one to three ahead, and is dropped when behind. (With no TEST_GO leaving the window, R170.) Of a TRAIN, TRAIN_ACK
or HELLO only HOST_READY is taken: to a leader in its window it answers the turn; at a follower a TRAIN does no more, a
TRAIN_ACK starts the silence limit again, and a HELLO asks for a reply too, a HELLO in RUN. One marked with the taker's own
role, and any frame outside a leader's window, has no effect at all (the last as the model reads R121, log 29). -/
def Obligations.GoodFramesAreTakenInOrder : Prop :=
  (∀ (h : FrameHeader) (rev cap : Byte) (s : State), s.inReset = false → s.fe.sending = none → h.ret.toNat ≤ 8 →
    (s.slc.state = .run ∨ s.slc.state = .drain) →
    (s.slc.role = .follower →
      exec (.train h [0]) s = .next (takeReady h.hostReady s) ∧
      exec (.trainAck h [0]) s = .next (takeReady h.hostReady { s with slc.silence := some (s.now + 2000) }) ∧
      exec (.hello h [rev, cap, 0]) s = .next (takeReady h.hostReady { s with
        slc.silence := some (s.now + 2000), fe.replyDue := some (s.now + 2)
        fe.replyHello := decide (s.slc.state = .run) }) ∧
      (∀ c ∈ ([.train h [1], .trainAck h [1], .hello h [rev, cap, 1]] : List Instr), exec c s = .next s)) ∧
    (s.slc.role = .leader →
      (s.fe.awaitReply.isSome = true →
        ∀ c ∈ ([.train h [1], .trainAck h [1], .hello h [rev, cap, 1]] : List Instr),
          exec c s = .next (takeReady h.hostReady { s with
            slc.missed := 0, fe.awaitReply := none, fe.earliest := s.now + 2, fe.hurry := true })) ∧
      (∀ c ∈ ([.train h [0], .trainAck h [0], .hello h [rev, cap, 0]] : List Instr), exec c s = .next s) ∧
      (∀ (k : FrameKind) (p : List Byte), s.fe.awaitReply = none → frameGood k h p = true →
        exec (frameCommand ⟨k, h, p⟩) s = .next s))) ∧
  ∀ (k : FrameKind) (h : FrameHeader) (p : List Byte) (s s0 : State), s.inReset = false → s.fe.sending = none →
    (s.slc.state = .run ∨ s.slc.state = .drain) → frameGood k h p = true →
    k ≠ .train → k ≠ .trainAck → k ≠ .hello → (∀ f ∈ s.fe.window, f.kind ≠ .testGo) →
    ((s.slc.role = .leader ∧ s.fe.awaitReply.isSome = true ∧ s0 = { s with
        slc.missed := 0, fe.awaitReply := none, fe.earliest := s.now + 2
        fe.hurry := decide (k ≠ .idle) || h.resend }) ∨
      (s.slc.role = .follower ∧ s0 = { s with
        slc.silence := some (s.now + 2000), fe.replyDue := some (s.now + 2), fe.replyHello := false })) →
    let taken := takeHeader h s0
    let ahead := (h.seq - s.fe.expected).toNat
    (k = .idle → exec (frameCommand ⟨k, h, p⟩) s = .next taken) ∧
    (k ≠ .idle → ahead = 0 → exec (frameCommand ⟨k, h, p⟩) s =
      deliver k p { taken with fe.expected := s.fe.expected + 1 }) ∧
    (k ≠ .idle → 1 ≤ ahead → ahead ≤ 3 → exec (frameCommand ⟨k, h, p⟩) s = .next { taken with fe.resend := true }) ∧
    (k ≠ .idle → 4 ≤ ahead → exec (frameCommand ⟨k, h, p⟩) s = .next taken)

/-- R111 to R114, R116, R117: the bytes a good frame is sent as are received as that frame: preamble, delimiter, header, payload
and CRC of every kind, for every header and every payload the kind allows. -/
def Obligations.SentFramesAreReceivedAsTheyAre : Prop :=
  ∀ f : Frame, frameGood f.kind f.header f.payload = true → (f.header.retrain = true → f.kind.hasMark = true) →
    receiveWire (wireBytes f) = some (frameCommand f)

/-! Chapter 7: far requests at the far chip. -/

/-- R138, R140, R141: a delivered REQ takes the lowest free entry (log 19) in WAITING with its carried deadline, 0 standing for
1 ms, and is answered NOT_READY, DENIED by the policy, DENIED by the field checks, queued for a selection, or carried out for
REMOTE and answered at once. With no entry free, which R138 rules out, the model faults (log 15). The request is read from the
payload's bytes as R117 lays them out, and an unknown kind is none. -/
def Obligations.DeliveredReqIsCheckedAndDispatched : Prop :=
  (∀ (i : Slot) (a : Answer) (s : State) (e : SlotEntry) (due : Moment), s.iq.slots[i] = some e → e.state = .waiting due →
    answerSlot i a s = { s with
      iq.slots := vput s.iq.slots i (some { e with state := .answered a })
      iq.answerOrder := s.iq.answerOrder ++ [i] }) ∧
  (∀ p : List Byte,
    (carriedRequest p = none ↔ ∀ k : ReqKind, k.code ≠ p.getD 2 0) ∧
    (∀ k : ReqKind, k.code = p.getD 2 0 → carriedRequest p =
      some ⟨k, .far, p.getD 4 0, p.getD 5 0, p.getD 6 0, p.getD 7 0, p.getD 8 0, p.getD 3 0, p.drop 9⟩)) ∧
  ∀ (h : FrameHeader) (p : List Byte) (s s1 : State) (r : Request), DeliveredAt .req h p s s1 → carriedRequest p = some r →
    ((∀ i : Slot, s1.iq.slots[i].isSome = true) → exec (.req h p) s = .fault .reqWithoutRoom) ∧
    ∀ i : Slot, s1.iq.slots[i] = none → (∀ j : Slot, j < i → s1.iq.slots[j].isSome = true) →
      let t : State := { s1 with
        iq.slots := vput s1.iq.slots i
          (some ⟨p.getD 0 0, p.getD 1 0, r, .waiting (s1.now + max 1 r.deadline.toNat * 1000)⟩)
        iq.arrival := s1.iq.arrival ++ [i] }
      let checked := r.kind = .write ∨ r.kind = .read ∨ r.kind = .busRecover ∨ r.kind = .leaseTake ∨ r.kind = .leaseDrop
      (r.kind ≠ .ping → s.hp.hostReady = false → exec (.req h p) s = .next (answerSlot i ⟨.notReady, 0, 0, []⟩ t)) ∧
      (r.kind = .ping → exec (.req h p) s = .next (answerSlot i
        ⟨.ok, 0, BitVec.ofNat 16 s1.fe.credits,
          [0x01#8, if s.hp.hostReady then 1 else 0, BitVec.ofNat 8 (freeSlots t)]⟩ t)) ∧
      (s.hp.hostReady = true →
        (checked → policyAllows s.da r = false → exec (.req h p) s = .next (answerSlot i ⟨.denied, 0, 0, []⟩ t)) ∧
        ((checked → policyAllows s.da r = true) →
          ((r.kind = .testStart ∨ r.valid = false) → r.kind ≠ .ping →
            exec (.req h p) s = .next (answerSlot i ⟨.denied, 0, 0, []⟩ t)) ∧
          (r.valid = true →
            ((r.kind = .write ∨ r.kind = .read ∨ r.kind = .busRecover ∨ r.kind = .leaseTake) →
              exec (.req h p) s = .next (select { t with da.remoteList := s.da.remoteList ++ [i] })) ∧
            ((r.kind = .lineSet ∨ r.kind = .lineSample ∨ r.kind = .lineConfig ∨ r.kind = .lineClaim ∨
                r.kind = .lineRelease) →
              exec (.req h p) s = .next (answerSlot i (runLine .remoteHost r t).1 (runLine .remoteHost r t).2)) ∧
            (r.kind = .leaseDrop →
              (s.da.lease = none → exec (.req h p) s = .next (answerSlot i ⟨.ok, 0, 0, []⟩ t)) ∧
              (∀ due, s.da.lease = some ⟨.localHost, due⟩ →
                exec (.req h p) s = .next (answerSlot i ⟨.notHolder, 0, 0, []⟩ t)) ∧
              (∀ due, s.da.lease = some ⟨.remoteHost, due⟩ →
                exec (.req h p) s = .next (select (answerSlot i ⟨.ok, 0, 0, []⟩ { t with da.lease := none })))))))

/-- R50, R91, R142, R144, R146, R148: a delivered RSP completes the tag it names with the carried answer when that tag awaits it
under the carried generation, and does nothing otherwise. A delivered CANCEL takes the newest entry with its tag and
generation: one in WAITING leaves the REMOTE list and is answered CANCELLED, any other is left. A WAITING entry whose deadline
passes leaves the REMOTE list and is answered TIMEOUT. A delivered RELEASE_ALL frees every WAITING entry with a credit each and
no answer, keeps the others, empties the REMOTE list, ends a REMOTE lease with no event and releases REMOTE's lines; then a
selection is made. -/
def Obligations.AnswersCancelsAndReleasesActOnTheirEntry : Prop :=
  ((∀ (h : FrameHeader) (p : List Byte) (s s1 : State), DeliveredAt .rsp h p s s1 →
     (∀ (t : Tag) (st : Status), (p.getD 0 0).toNat = t.val →
       (s1.rt.tags[t].state = .inFlight ∨ s1.rt.tags[t].state = .cancelSent) →
       s1.rt.tags[t].gen.toNat = (p.getD 1 0).toNat → st.code = p.getD 2 0 →
       exec (.rsp h p) s = .next (completeTag t ⟨st, (p.getD 3 0).toNat, p.getD 4 0 ++ p.getD 5 0, p.drop 6⟩ s1)) ∧
     ((∀ t : Tag, ¬ ((p.getD 0 0).toNat = t.val ∧ (s1.rt.tags[t].state = .inFlight ∨ s1.rt.tags[t].state = .cancelSent) ∧
         s1.rt.tags[t].gen.toNat = (p.getD 1 0).toNat)) →
       exec (.rsp h p) s = .next s1)) ∧
   (∀ (h : FrameHeader) (p : List Byte) (s s1 : State), DeliveredAt .cancel h p s s1 →
     let named := fun i : Slot => ∃ e, s1.iq.slots[i] = some e ∧ e.tag = p.getD 0 0 ∧ e.gen = p.getD 1 0
     ((∀ i ∈ s1.iq.arrival, ¬ named i) → exec (.cancelFrame h p) s = .next s1) ∧
     (∀ (i : Slot) (older newer : List Slot) (e : SlotEntry), s1.iq.arrival = older ++ i :: newer →
       (∀ j ∈ newer, ¬ named j) → named i → s1.iq.slots[i] = some e →
       (∀ due, e.state = .waiting due → exec (.cancelFrame h p) s = .next { s1 with
         da.remoteList := s1.da.remoteList.filter (· ≠ i)
         iq.slots := vput s1.iq.slots i (some { e with state := .answered ⟨.cancelled, 0, 0, []⟩ })
         iq.answerOrder := s1.iq.answerOrder ++ [i] }) ∧
       ((∀ due, e.state ≠ .waiting due) → exec (.cancelFrame h p) s = .next s1))) ∧
   (∀ (i : Slot) (s : State), s.inReset = false →
     (∀ (e : SlotEntry) (due : Moment), s.iq.slots[i] = some e → e.state = .waiting due →
       exec (.remoteDeadlineExpiry i) s = .next { s.reach due with
         da.remoteList := s.da.remoteList.filter (· ≠ i)
         iq.slots := vput s.iq.slots i (some { e with state := .answered ⟨.timeout, 0, 0, []⟩ })
         iq.answerOrder := s.iq.answerOrder ++ [i] }) ∧
     ((∀ (e : SlotEntry) (due : Moment), s.iq.slots[i] = some e → e.state ≠ .waiting due) →
       exec (.remoteDeadlineExpiry i) s = .next s))) ∧
  (∀ (h : FrameHeader) (p : List Byte) (s s1 : State), DeliveredAt .releaseAll h p s s1 →
     ∃ t, exec (.releaseAll h p) s = .next (select t) ∧
       (∀ i : Slot, t.iq.slots[i] = match s1.iq.slots[i] with
         | some ⟨_, _, _, .waiting _⟩ => none
         | other => other) ∧
       t.fe = { s1.fe with retCount := t.fe.retCount } ∧
       t.fe.retCount = ((List.finRange 8).filter fun i => (slotDue s1 i).isSome).foldl (fun n _ => (n + 1) % 9) s1.fe.retCount ∧
       t.da = { s1.da with
         remoteList := []
         lease := match s1.da.lease with
           | some ⟨.remoteHost, _⟩ => none
           | other => other } ∧
       t.lb = (releaseOwned .remoteHost allLines s1).lb ∧
       t.rt = s1.rt ∧ t.dbc = s1.dbc ∧ t.eu = s1.eu ∧ t.slc = s1.slc ∧ t.lt = s1.lt ∧ t.hp = s1.hp ∧ t.now = s1.now)

/-! Chapter 8: events. -/

/-- R153 to R155, R158, R160, R164: the order of an insertion's steps, for the Event Queue of 16 and the Remote Outbox of 8:
a same record takes the count and the new argument; else an OVERFLOW record takes the count; else with room the record joins
the tail; else an OVERFLOW record does. An event for the remote host is placed only with the link up. A delivered EVENT goes in
with source REMOTE and its carried count, 0 standing for 1, a carried OVERFLOW making one of source REMOTE; one of an unknown
kind is dropped. ALERT is low exactly while an enabled queue holds a record. -/
def Obligations.EventsAreQueuedAndAlerted : Prop :=
  (∀ (cap : Nat) (q : List EventRecord) (r : EventRecord),
    let same := fun x : EventRecord => x.kind = r.kind ∧ x.source = r.source ∧ x.detail = r.detail
    ((∃ x ∈ q, same x) → insertEvent cap q r =
      q.map fun x => if same x then { x with count := min 255 (x.count + r.count), arg := r.arg } else x) ∧
    ((∀ x ∈ q, ¬ same x) →
      ((∃ x ∈ q, x.kind = .overflow) → insertEvent cap q r =
        q.map fun x => if x.kind = .overflow then { x with count := min 255 (x.count + r.count) } else x) ∧
      ((∀ x ∈ q, x.kind ≠ .overflow) →
        (q.length + 1 < cap → insertEvent cap q r = q ++ [r]) ∧
        (cap ≤ q.length + 1 → insertEvent cap q r = q ++ [⟨.overflow, .localHost, 0, 0, min 255 r.count⟩])))) ∧
  (∀ (k : EventKind) (detail arg : Byte) (s : State),
    raiseLocal k detail arg s =
      { s with eu.eventQueue := insertEvent 16 s.eu.eventQueue ⟨k, .localHost, detail, arg, 1⟩ } ∧
    ((s.slc.state = .run ∨ s.slc.state = .drain ∨ s.slc.state = .test ∨ s.slc.state = .retrain) →
      raiseRemote k detail arg s = { s with eu.outbox := insertEvent 8 s.eu.outbox ⟨k, .localHost, detail, arg, 1⟩ }) ∧
    ((s.slc.state = .disabled ∨ s.slc.state = .listen ∨ s.slc.state = .hello ∨ s.slc.state = .holdoff) →
      raiseRemote k detail arg s = s)) ∧
  (∀ (h : FrameHeader) (p : List Byte) (s s1 : State), DeliveredAt .event h p s s1 →
    ((∀ k : EventKind, k.code ≠ p.getD 0 0) → exec (.event h p) s = .next s1) ∧
    (∀ k : EventKind, k.code = p.getD 0 0 →
      let n := max 1 (p.getD 4 0).toNat
      let r : EventRecord := ⟨k, .remoteHost, p.getD 2 0, p.getD 3 0, n⟩
      ((k ≠ .overflow ∨ ∃ x ∈ s1.eu.eventQueue, x.kind = .overflow) →
        exec (.event h p) s = .next { s1 with eu.eventQueue := insertEvent 16 s1.eu.eventQueue r }) ∧
      (k = .overflow → (∀ x ∈ s1.eu.eventQueue, x.kind ≠ .overflow) →
        exec (.event h p) s = .next { s1 with
          eu.eventQueue := s1.eu.eventQueue ++ [⟨.overflow, .remoteHost, 0, 0, n⟩] }))) ∧
  (∀ s : State, alertLow s = true ↔ s.inReset = false ∧
    ((s.eu.eventQueue ≠ [] ∧ s.hp.alertEq = true) ∨ (s.rt.cq ≠ [] ∧ s.hp.alertCq = true)))

/-! Chapter 9: the link test. -/

/-- R12, R167, R5: a near TEST_START accepted at SUBMIT is taken in RUN with no test in hand: its tag goes to TESTING with no
timer, and the Link Tester to ENTER_PENDING as owner with the staged parameters, generator when the side is NEAR. Otherwise it
completes at once, BUSY with the link up, LINK_DOWN with the link down, and the Link Tester is left as it was. The parameters
are the five body bytes, as `TestBytes` says. -/
def Obligations.TestStartIsTakenOrRefused : Prop :=
  (∀ (p : List Byte) (q : TestParams), testParams p = some q ↔ TestBytes p q) ∧
  ∀ (b : Byte) (s : State) (r : Request) (q : TestParams) (t : Tag), portReady s → stagedRequest s.hp.staging = some r →
    r.kind = .testStart → testParams r.body = some q → freeTag s = some t →
    let s1 := acceptTag t r .queued (beginWrite s)
    (s.slc.state = .run → s.lt.phase = .idle → exec (.testStart b) s = .next (setPointer 0x21#8 { s1 with
      rt := { s1.rt with tags := vput s.rt.tags t ⟨.testing, s.rt.tags[t].gen + 1, r, none⟩ }
      lt := { s.lt with
        phase := .enterPending, owner := true, generator := q.near, duration := q.duration, pattern := q.pattern,
        style := q.style, ownerTag := some (t, s.rt.tags[t].gen + 1), readyTaken := false, readyBuilt := false,
        goTaken := false } })) ∧
    (((s.slc.state = .run ∧ s.lt.phase ≠ .idle) ∨ s.slc.state = .drain ∨ s.slc.state = .test ∨ s.slc.state = .retrain) →
      exec (.testStart b) s = .next (setPointer 0x21#8 (completeTag t ⟨.busy, 0, 0, []⟩ s1))) ∧
    ((s.slc.state = .disabled ∨ s.slc.state = .listen ∨ s.slc.state = .hello ∨ s.slc.state = .holdoff) →
      exec (.testStart b) s = .next (setPointer 0x21#8 (completeTag t ⟨.linkDown, 0, 0, []⟩ s1)))

/-- R122, R166 to R169: the handshake frames and their taking. TEST_ENTER is built in ENTER_PENDING, which enters DRAIN and
starts the drain limit of 200 ms; TEST_READY once by a drained non-owner; TEST_GO by a drained owner that has taken TEST_READY,
whose drain limit then no longer applies. The parameters of a TEST_ENTER are its five bytes, as `TestBytes` says. A chip is
drained with no tag IN_FLIGHT or CANCEL_SENT, no Incoming Queue entry and no window. A delivered TEST_ENTER with good parameters
makes a chip with no test the non-owner, in DRAIN with its drain limit started; a leader that owns a test before TEST ignores
it, and a follower that does completes its own BUSY and becomes the non-owner; with bad parameters, or in a later phase (log
17), it is ignored. A delivered TEST_READY is recorded by a draining owner, a delivered TEST_GO stops the drain limit of a
draining non-owner, and each is ignored elsewhere. The drain limit ends the test: the link is in RUN again, and an owner's
TEST_START completes DRAIN_TIMEOUT. -/
def Obligations.HandshakeDrainsTheLink : Prop :=
  (∀ (p : List Byte) (q : TestParams), testParams p = some q ↔ TestBytes p q) ∧
  (∀ s : State,
     (drained s = true ↔ (∀ t : Tag, s.rt.tags[t].state ≠ .inFlight ∧ s.rt.tags[t].state ≠ .cancelSent) ∧
       (∀ i : Slot, s.iq.slots[i] = none) ∧ s.fe.window = []) ∧
     (handshake s = some .testEnter ↔ s.slc.state = .run ∧ s.lt.phase = .enterPending) ∧
     (handshake s = some .testReady ↔ s.slc.state = .drain ∧ s.lt.phase = .draining ∧ s.lt.owner = false ∧
       drained s = true ∧ s.lt.readyBuilt = false) ∧
     (handshake s = some .testGo ↔ s.slc.state = .drain ∧ s.lt.phase = .draining ∧ s.lt.owner = true ∧
       drained s = true ∧ s.lt.readyTaken = true ∧ s.lt.drainDue.isSome = true) ∧
     (buildFrame .testEnter s = pushFrame .testEnter
       [BitVec.ofNat 8 (s.lt.duration / 256), BitVec.ofNat 8 s.lt.duration, if s.lt.pattern = .prbs then 0 else 1,
         if s.lt.generator then 0 else 1, if s.lt.style = .live then 0 else 1] none
       { s with slc.state := .drain, lt.phase := .draining, lt.drainDue := some (s.now + 200000) }) ∧
     (buildFrame .testReady s = pushFrame .testReady [] none { s with lt.readyBuilt := true }) ∧
     (buildFrame .testGo s = pushFrame .testGo [] none { s with lt.drainDue := none })) ∧
  ((∀ (h : FrameHeader) (p : List Byte) (s s1 : State), DeliveredAt .testEnter h p s s1 →
     let joined := fun (q : TestParams) (u : State) => ({ u with
       slc.state := .drain
       lt := { u.lt with
         phase := .draining, owner := false, generator := !q.near, duration := q.duration, pattern := q.pattern,
         style := q.style, ownerTag := none, readyTaken := false, readyBuilt := false, goTaken := false,
         drainDue := some (s.now + 200000) } } : State)
     (testParams p = none → exec (.testEnter h p) s = .next s1) ∧
     (∀ q, testParams p = some q →
       (s.lt.phase = .idle → exec (.testEnter h p) s = .next (joined q s1)) ∧
       ((s.lt.phase = .enterPending ∨ s.lt.phase = .draining) →
         ((s.lt.owner = false ∨ s.slc.role = .leader) → exec (.testEnter h p) s = .next s1) ∧
         (s.lt.owner = true → s.slc.role = .follower →
           exec (.testEnter h p) s = .next (joined q (completeOwner ⟨.busy, 0, 0, []⟩ s1)))) ∧
       ((s.lt.phase = .awaitResult ∨ s.lt.phase = .resultOut) → exec (.testEnter h p) s = .next s1))) ∧
   (∀ (h : FrameHeader) (p : List Byte) (s s1 : State), DeliveredAt .testReady h p s s1 →
     (s.lt.phase = .draining → s.lt.owner = true →
       exec (.testReady h p) s = .next { s1 with lt.readyTaken := true }) ∧
     ((s.lt.phase ≠ .draining ∨ s.lt.owner = false) → exec (.testReady h p) s = .next s1)) ∧
   (∀ (h : FrameHeader) (p : List Byte) (s s1 : State), DeliveredAt .testGo h p s s1 →
     (s.lt.phase = .draining → s.lt.owner = false →
       exec (.testGo h p) s = .next { s1 with lt.drainDue := none, lt.goTaken := true }) ∧
     ((s.lt.phase ≠ .draining ∨ s.lt.owner = true) → exec (.testGo h p) s = .next s1)) ∧
   (∀ s : State, s.inReset = false →
     let back := fun u : State => ({ u with
       slc.state := .run
       lt := { u.lt with
         phase := .idle, ownerTag := none, goTaken := false, drainDue := none, durationDue := none, lostDue := none,
         resultDue := none, patternDue := none, genStart := none, releaseOwed := false } } : State)
     (s.lt.drainDue = none → exec .drainLimit s = .next s) ∧
     (∀ due, s.lt.drainDue = some due →
       (s.lt.owner = true → exec .drainLimit s = .next (back (completeOwner ⟨.drainTimeout, 0, 0, []⟩ (s.reach due)))) ∧
       (s.lt.owner = false → exec .drainLimit s = .next (back (s.reach due))))))

/-- R170: the owner enters TEST at the taking of the frame whose ack takes TEST_GO out of its window, once the rest of that
frame is done (log 16), if its Incoming Queue is empty; else its TEST_START completes DRAIN_TIMEOUT and it is in RUN again.
Entering TEST clears the counts, the first-error flag and the end reason, starts the duration timer (98 % of it on a checker),
and the generator's pattern 20 microseconds later or the checker's pattern-lost limit of 1 ms; turns and silence stop. -/
def Obligations.AcknowledgedGoEntersTheTest : Prop :=
  (∀ (k : FrameKind) (h : FrameHeader) (p : List Byte) (s s0 : State), s.inReset = false → s.fe.sending = none →
    (s.slc.state = .run ∨ s.slc.state = .drain) → frameGood k h p = true → k ≠ .train → k ≠ .trainAck → k ≠ .hello →
    ((s.slc.role = .leader ∧ s.fe.awaitReply.isSome = true ∧ s0 = { s with
        slc.missed := 0, fe.awaitReply := none, fe.earliest := s.now + 2
        fe.hurry := decide (k ≠ .idle) || h.resend }) ∨
      (s.slc.role = .follower ∧ s0 = { s with
        slc.silence := some (s.now + 2000), fe.replyDue := some (s.now + 2), fe.replyHello := false })) →
    (∃ f ∈ s.fe.window, f.kind = .testGo) → (∀ f ∈ (takeHeader h s0).fe.window, f.kind ≠ .testGo) →
    exec (frameCommand ⟨k, h, p⟩) s =
      match (if k = .idle then .next (takeHeader h s0) else takeSequenced k h.seq p (takeHeader h s0)) with
      | .next t => .next (goAcknowledged t)
      | other => other) ∧
  (∀ s : State,
    ((s.lt.phase ≠ .draining ∨ s.lt.owner = false) → goAcknowledged s = s) ∧
    (s.lt.phase = .draining → s.lt.owner = true →
      ((∀ i : Slot, s.iq.slots[i] = none) → goAcknowledged s = enterTest s) ∧
      ((∃ i : Slot, s.iq.slots[i] ≠ none) →
        goAcknowledged s = returnToRun (completeOwner ⟨.drainTimeout, 0, 0, []⟩ s)))) ∧
  (∀ s : State, ∃ lines : Vector LineRecord 12, (∀ l : LineNo, lines[l] = { s.lb.lines[l] with flagErr := false }) ∧
    enterTest s = { s with
      lb := { s.lb with lines := lines, pulse := none }
      slc := { s.slc with state := .test, silence := none }
      fe := { s.fe with awaitReply := none, replyDue := none }
      lt := { s.lt with
        phase := .running, goTaken := false, drainDue := none, bits := 0, errors := 0, firstError := false,
        endReason := .noReason, durationDone := false, seeded := 0, shift := 0, lastError := none, lastSymbol := none,
        durationDue := some (s.now + if s.lt.generator then s.lt.duration * 1000 else s.lt.duration * 980)
        patternDue := if s.lt.generator then some (s.now + 20) else none
        lostDue := if s.lt.generator then none else some (s.now + 1000) } })

/-- R103, R171, R173: in TEST a generator starts its pattern when due and leaves at its duration with DURATION, or at a
TEST_STOP write with STOPPED; a checker marks its duration run out and goes on, and leaves when the pattern is lost, with
DURATION when that time is over and PATTERN_LOST when not; a TEST_STOP there is NOT_GENERATOR, and outside TEST NO_TEST. Leaving
enters RETRAIN with its limit of 100 ms, a leader's first TRAIN due in 2 ms, and clears the lines' test marks. -/
def Obligations.TestEndsOnEachChip : Prop :=
  (∀ (r : EndReason) (s : State), ∃ lines : Vector LineRecord 12,
    (∀ l : LineNo, lines[l] = { s.lb.lines[l] with flagErr := false }) ∧
    leaveTest r s = { s with
      lb := { s.lb with lines := lines, pulse := none }
      slc := { s.slc with
        state := .retrain, good := 0, retrain := some (s.now + 100000)
        trainDue := if s.slc.role = .leader then some (s.now + 2000) else none }
      lt := { s.lt with
        phase := .returning, endReason := r, durationDue := none, lostDue := none, patternDue := none,
        genStart := none } }) ∧
  (∀ s : State, s.inReset = false → s.slc.state = .test → s.lt.phase = .running →
    (s.lt.generator = true →
      (∀ due, s.lt.patternDue = some due → exec .patternStart s =
        .next { s.reach due with lt.genStart := some (max s.now due), lt.patternDue := none }) ∧
      (∀ due, s.lt.durationDue = some due →
        exec .testDuration s = .next (leaveTest .duration (s.reach due)) ∧ exec .checkerDuration s = .next s)) ∧
    (s.lt.generator = false →
      (∀ due, s.lt.durationDue = some due → exec .testDuration s = .next s ∧
        exec .checkerDuration s = .next { s.reach due with lt.durationDone := true, lt.durationDue := none }) ∧
      (∀ due, s.lt.lostDue = some due →
        ((s.lt.durationDone = true ∨ ∃ d, s.lt.durationDue = some d ∧ d ≤ max s.now due) →
          exec .patternLost s = .next (leaveTest .duration (s.reach due))) ∧
        (s.lt.durationDone = false → (∀ d, s.lt.durationDue = some d → max s.now due < d) →
          exec .patternLost s = .next (leaveTest .patternLost (s.reach due)))))) ∧
  (∀ s : State, s.inReset = false →
    (s.lt.patternDue = none → exec .patternStart s = .next s) ∧
    (s.lt.durationDue = none → exec .testDuration s = .next s ∧ exec .checkerDuration s = .next s) ∧
    (s.lt.lostDue = none → exec .patternLost s = .next s)) ∧
  (∀ (b : Byte) (s : State), portReady s →
    (s.slc.state = .test → s.lt.phase = .running → s.lt.generator = true →
      exec (.testStop b) s = .next (setPointer 0x27#8
        { leaveTest .stopped (beginWrite s) with lt := { (leaveTest .stopped (beginWrite s)).lt with stopResult := .stopped } })) ∧
    (s.slc.state = .test → s.lt.phase = .running → s.lt.generator = false →
      exec (.testStop b) s = .next (setPointer 0x27#8 { beginWrite s with lt.stopResult := .notGenerator })) ∧
    (s.slc.state ≠ .test →
      exec (.testStop b) s = .next (setPointer 0x27#8 { beginWrite s with lt.stopResult := .noTest })))

/-- R172, R88: what a checker does with a symbol: the pattern-lost limit starts again; a checked symbol adds 9 to the bits
checked and its wrong bits, of the data expected and a high stop bit, to the errors, both saturating; the first-error flag says
whether an error was ever counted (LATCHED) or within the last millisecond (LIVE; that an error in the last symbol itself and one
exactly 1 ms before it count is the model's choice, log 24); an error reaches the TEST_FLAG lines. The
first two symbols of a PRBS seed the register and are not checked. Elsewhere a symbol is nothing. -/
def Obligations.CheckerCountsSymbols : Prop :=
  ∀ (d : Byte) (stop : Bool) (s : State), s.inReset = false →
    let running := s.slc.state = .test ∧ s.lt.phase = .running ∧ s.lt.generator = false
    (¬ running → exec (.patternSymbol d stop) s = .next s) ∧
    (running →
      let at_ := match s.lt.lastSymbol with
        | some last => max s.now (last + 1)
        | none => s.now
      (s.lt.pattern = .prbs → s.lt.seeded = 0 → exec (.patternSymbol d stop) s = .next { s with
        now := at_
        lt := { s.lt with
          lastSymbol := some at_, lostDue := some (at_ + 1000), seeded := 1, shift := seedBits 8 s.lt.shift d } }) ∧
      (s.lt.pattern = .prbs → s.lt.seeded = 1 → exec (.patternSymbol d stop) s = .next { s with
        now := at_
        lt := { s.lt with
          lastSymbol := some at_, lostDue := some (at_ + 1000), seeded := 2,
          shift := prbsStep (seedBits 7 s.lt.shift d) } }) ∧
      ((s.lt.pattern = .alternating ∨ 2 ≤ s.lt.seeded) →
        let expected := if s.lt.pattern = .alternating then 0x55#8 else prbsByte s.lt.shift
        let n := ((List.range 8).filter fun i => expected.getLsbD i != d.getLsbD i).length + if stop then 0 else 1
        let newest := if n = 0 then s.lt.lastError else some at_
        ∃ t, exec (.patternSymbol d stop) s = .next t ∧ t.now = at_ ∧
          t.lt = { s.lt with
            lastSymbol := some at_, lostDue := some (at_ + 1000)
            bits := min 1099511627775 (s.lt.bits + 9), errors := min 65535 (s.lt.errors + n), lastError := newest
            firstError := match s.lt.style, newest with
              | .latched, _ => s.lt.firstError || decide (n ≠ 0)
              | .live, some e => decide (at_ ≤ e + 1000)
              | .live, none => false
            shift := if s.lt.pattern = .alternating then s.lt.shift else prbsAdvance 8 s.lt.shift } ∧
          (n = 0 → t.lb = s.lb) ∧
          (n ≠ 0 → t.lb.pulse = some (at_ + 1) ∧
            ∀ l : LineNo, t.lb.lines[l] =
              if s.lb.lines[l].mode = .testFlag then { s.lb.lines[l] with flagErr := true } else s.lb.lines[l])))

/-- R171, R172: a checker in step counts no error. The PRBS is taken from a register of 15 bits set to all ones, each new bit
the exclusive-or of its two top bits; whichever symbol of the generator's sequence a checker that has entered TEST begins with,
after the two that seed it every further symbol of the sequence is what it expects, and adds 9 bits checked and no error. -/
def Obligations.CheckerFollowsTheGeneratorFromAnySymbol : Prop :=
  (∀ r : BitVec 15, prbsBit r = (r.getLsbD 14 ^^ r.getLsbD 13) ∧ prbsAdvance 0 r = r ∧
    ∀ n : Nat, (prbsAdvance (n + 1) r).getLsbD 0 = prbsBit (prbsAdvance n r) ∧
      ∀ i : Nat, i < 14 → (prbsAdvance (n + 1) r).getLsbD (i + 1) = (prbsAdvance n r).getLsbD i) ∧
  (∀ (k : Nat) (i : Nat), i < 8 → (patternByte .prbs k).getLsbD i = prbsBit (prbsAdvance (8 * k + i) 0x7FFF#15)) ∧
  ∀ (s : State) (k n : Nat), s.slc.state = .test → s.lt.phase = .running → s.lt.generator = false → s.lt.pattern = .prbs →
    s.lt.seeded = 0 → s.lt.bits = 0 → s.lt.errors = 0 → s.lt.firstError = false → s.lt.lastError = none →
    let t := (List.range (n + 2)).foldl (fun u j => takeSymbol (patternByte .prbs (k + j)) true u) s
    t.lt.bits = min 1099511627775 (9 * n) ∧ t.lt.errors = 0 ∧ t.lt.firstError = false ∧ t.lt.seeded = 2 ∧
    t.lt.shift = generatorRegister (k + (n + 2)) ∧ t.lb = s.lb

/-- R20, R101, R103, R135, R174, R175: at the entry to RUN from RETRAIN the Frame Engine starts anew, a release owed is applied
first and the test is settled: an owner checker completes its tag OK with its results, a non-owner checker has a TEST_RESULT to
send, an owner generator waits 100 ms for one, and all but that one raise TEST_DONE. A delivered TEST_RESULT completes a waiting
owner with what it carries; the result limit completes it LINK_DOWN. A test's completion reaches its tag only in TESTING under
the same generation. In RETRAIN a leader enters RUN at its fourth marked TRAIN_ACK in a row, an unmarked one ending the row; a
follower answers a marked TRAIN, finds a loss in an unmarked one or a HELLO, and takes any other leader frame in RUN. A changed
HOST_READY of these frames is told first, before TEST_DONE at the leader: the model's choice (log 19). A TRAIN_ACK outside the
leader's window neither counts nor ends the row (R96); that its HOST_READY is taken is the model's choice (log 29), and so is that
the follower's TRAIN_ACK starts in the step that takes the TRAIN (log 14). -/
def Obligations.TestResultsAreSettled : Prop :=
  let ended := fun s : State => ({ s with lt := { s.lt with
    phase := .idle, ownerTag := none, goTaken := false, drainDue := none, durationDue := none, lostDue := none,
    resultDue := none, patternDue := none, genStart := none } } : State)
  let results := fun (bits errors : Nat) (why : EndReason) (first : Bool) =>
    (⟨.ok, 0, BitVec.ofNat 16 errors, bytes40 bits ++ bytes16 errors ++ [why.code, if first then 1 else 0]⟩ : Answer)
  let done := fun (why : EndReason) (errors : Nat) (s : State) =>
    raiseLocal .testDone why.code (BitVec.ofNat 8 (min 255 errors)) s
  (∀ (a : Answer) (s : State),
    (∀ t g, s.lt.ownerTag = some (t, g) → s.rt.tags[t].state = .testing → s.rt.tags[t].gen = g →
      completeOwner a s = completeTag t a s) ∧
    (∀ t g, s.lt.ownerTag = some (t, g) → (s.rt.tags[t].state ≠ .testing ∨ s.rt.tags[t].gen ≠ g) → completeOwner a s = s) ∧
    (s.lt.ownerTag = none → completeOwner a s = s)) ∧
  (∀ s : State,
    let s1 : State := { s with fe.releaseAll := s.fe.releaseAll || s.lt.releaseOwed, lt.releaseOwed := false }
    (s.lt.phase ≠ .returning → settleTest s = s1) ∧
    (s.lt.phase = .returning →
      (s.lt.owner = true → s.lt.generator = false → settleTest s = ended (done s.lt.endReason s.lt.errors
        (completeOwner (results s.lt.bits s.lt.errors s.lt.endReason s.lt.firstError) s1))) ∧
      (s.lt.owner = false → s.lt.generator = false →
        settleTest s = { done s.lt.endReason s.lt.errors s1 with lt := { s1.lt with phase := .resultOut } }) ∧
      (s.lt.owner = true → s.lt.generator = true → settleTest s =
        { s1 with lt := { s1.lt with phase := .awaitResult, resultDue := some (s.now + 100000) } }) ∧
      (s.lt.owner = false → s.lt.generator = true → settleTest s = ended (done s.lt.endReason 0 s1)))) ∧
  (∀ s : State, buildFrame .testResult s = pushFrame .testResult
    (bytes40 s.lt.bits ++ bytes16 s.lt.errors ++ [if s.lt.firstError then 1 else 0, s.lt.endReason.code]) none (ended s)) ∧
  (∀ (h : FrameHeader) (p : List Byte) (s s1 : State), DeliveredAt .testResult h p s s1 →
    (s.lt.phase ≠ .awaitResult → exec (.testResult h p) s = .next s1) ∧
    (∀ carried : EndReason, s.lt.phase = .awaitResult → carried.code = p.getD 8 0 →
      let why := if s.lt.endReason = .stopped then .stopped else carried
      let bits := nat40 p
      let errors := nat16 (p.getD 5 0) (p.getD 6 0)
      let first := decide (p.getD 7 0 = 1)
      exec (.testResult h p) s = .next (ended (done why errors (completeOwner (results bits errors why first)
        { s1 with lt := { s1.lt with
          bits := bits, errors := errors, firstError := first, endReason := why, resultDue := none } })))) ) ∧
  (∀ s : State, s.inReset = false →
    (s.lt.resultDue = none → exec .resultLimit s = .next s) ∧
    (∀ due, s.lt.resultDue = some due →
      exec .resultLimit s = .next (ended (completeOwner ⟨.linkDown, 0, 0, []⟩ (s.reach due))))) ∧
  (∀ (h : FrameHeader) (s : State), s.inReset = false → s.fe.sending = none → h.ret.toNat ≤ 8 → s.slc.state = .retrain →
    s.slc.role = .leader → s.fe.awaitReply.isSome = true → h.retrain = true → s.slc.good = 3 →
    exec (.trainAck h [1]) s = .next (settleTest (startRun s.slc.peerCap
      { takeReady h.hostReady s with
        slc := { (takeReady h.hostReady s).slc with good := 4 }
        fe := { (takeReady h.hostReady s).fe with awaitReply := none } }))) ∧
  (∀ (credits : Nat) (s : State), startRun credits s = { s with
    slc := { s.slc with
      state := .run, missed := 0, trainDue := none, helloDue := none, helloLimit := none, retrain := none
      silence := if s.slc.role = .follower then some (s.now + 2000) else none }
    fe := { FrameEngine.reset with
      credits := credits, crcErrors := s.fe.crcErrors, runLines := true, turnOpened := s.now, earliest := s.now,
      hurry := true } }) ∧
  (∀ (h : FrameHeader) (s : State), s.inReset = false → s.fe.sending = none → h.ret.toNat ≤ 8 → s.slc.state = .retrain →
    (s.slc.role = .leader → s.fe.awaitReply.isSome = true →
      (h.retrain = true → s.slc.good < 3 → exec (.trainAck h [1]) s = .next { takeReady h.hostReady s with
        slc := { (takeReady h.hostReady s).slc with good := s.slc.good + 1 }
        fe := { s.fe with awaitReply := none } }) ∧
      (h.retrain = false → exec (.trainAck h [1]) s = .next { takeReady h.hostReady s with
        slc := { (takeReady h.hostReady s).slc with good := 0 }
        fe := { s.fe with awaitReply := none } })) ∧
    (s.slc.role = .leader → s.fe.awaitReply = none →
      exec (.trainAck h [1]) s = .next (takeReady h.hostReady s)) ∧
    (s.slc.role = .follower →
      (h.retrain = true → exec (.train h [0]) s = .next (sendTrainAck { takeReady h.hostReady s with
        slc := { (takeReady h.hostReady s).slc with good := min 16 (s.slc.good + 1) } })) ∧
      (h.retrain = false → exec (.train h [0]) s = .next (loss .retrainFail (takeReady h.hostReady s))) ∧
      (∀ rev cap : Byte, exec (.hello h [rev, cap, 0]) s = .next (loss .retrainFail (takeReady h.hostReady s))) ∧
      (∀ (k : FrameKind) (p : List Byte), frameGood k h p = true → k ≠ .train → k ≠ .hello → (k = .trainAck → p = [0]) →
        exec (frameCommand ⟨k, h, p⟩) s = exec (frameCommand ⟨k, h, p⟩) (settleTest (startRun s.slc.peerCap s)))))

/-! Chapter 10: the host port. -/

/-- R176, R177, R178, R180, R182, R43, R56: what a byte does at the offset it is written at. BUS_SPEED takes 0 and 1 and ignores
the rest. The second byte of a filter entry changes the entry, its first byte coming from the holding byte if that was written,
and clears the mark. REGISTER_WRITE begins a write transaction at the chip's own address and sets the pointer, and takes no part
in one addressed elsewhere; a further byte of the former is written at the pointer, which advances: an offset with a row of its
own acts as that row, the upper bytes are held, the staging bytes stored, the rest ignored; a further byte of any other
transaction does nothing. A port in reset or starting up does nothing (R187, R189): of a transaction it refused at its address
byte it takes no byte later either. (The rows as transactions of their own: log 5.) -/
def Obligations.PortWritesActByTheirOffset : Prop :=
  (∀ (d : Option PortDirection) (s : State), beginTransaction d s =
      { s with hp := { s.hp with taking := d, cqCopy := none, eqCopy := none, crcCopy := none } } ∧
    beginWrite s = beginTransaction (some .writing) s ∧ beginRead s = beginTransaction (some .reading) s ∧
    standBy s = beginTransaction none s) ∧
  (∀ (b : Byte) (s : State), portReady s →
    (b = 0 → exec (.busSpeed b) s = .next (setPointer 0x08#8 { beginWrite s with hp := { (beginWrite s).hp with busSpeed := .khz100 } })) ∧
    (b = 1 → exec (.busSpeed b) s = .next (setPointer 0x08#8 { beginWrite s with hp := { (beginWrite s).hp with busSpeed := .khz400 } })) ∧
    (2 ≤ b.toNat → exec (.busSpeed b) s = .next (setPointer 0x08#8 (beginWrite s)))) ∧
  (∀ (n : Fin 8) (b : Byte) (s : State), portReady s →
    ∃ e : FilterEntry, exec (.filter n b) s = .next (setPointer (BitVec.ofNat 8 (0x12 + 2 * n.val)) { beginWrite s with
        da := { s.da with filter := vput s.da.filter n e }
        hp := { (beginWrite s).hp with
          filterHold := vput s.hp.filterHold n { s.hp.filterHold[n] with written := false } } }) ∧
      e.canRead = b.getLsbD 0 ∧ e.canWrite = b.getLsbD 1 ∧
      (s.hp.filterHold[n].written = true →
        e.valid = s.hp.filterHold[n].byte.getLsbD 7 ∧ e.address = s.hp.filterHold[n].byte.setWidth 7) ∧
      (s.hp.filterHold[n].written = false → e.valid = s.da.filter[n].valid ∧ e.address = s.da.filter[n].address)) ∧
  (∀ (a : BitVec 7) (p : Byte) (s : State), portReady s →
    (a = s.hp.addr → exec (.registerWrite (.pointer a p)) s = .next (setPointer p (beginWrite s))) ∧
    (a ≠ s.hp.addr → exec (.registerWrite (.pointer a p)) s = .next (standBy s))) ∧
  (∀ (b : Byte) (s : State), portReady s → s.hp.taking ≠ some .writing → exec (.registerWrite (.data b)) s = .next s) ∧
  (∀ (b : Byte) (s : State), portReady s → s.hp.taking = some .writing →
    let at_ := s.hp.pointer.toNat
    (∀ x ∈ ([(0x04, .hostReady b), (0x05, .softReset b), (0x06, .busPolicy b), (0x07, .busSpeed b), (0x09, .remoteLines b),
        (0x0A, .crcErrorsClear false b), (0x0B, .crcErrorsClear true b), (0x20, .ping b), (0x22, .cancel b),
        (0x24, .completionPop b), (0x25, .eventPop b), (0x26, .testStop b)] : List (Nat × Instr)),
      at_ = x.1 → exec (.registerWrite (.data b)) s = exec x.2 s) ∧
    (∀ n : Fin 8, at_ = 0x11 + 2 * n.val → exec (.registerWrite (.data b)) s = exec (.filter n b) s) ∧
    (∀ n : Fin 8, at_ = 0x10 + 2 * n.val → exec (.registerWrite (.data b)) s =
      .next (setPointer (s.hp.pointer + 1) { beginWrite s with hp := { (beginWrite s).hp with
        filterHold := vput s.hp.filterHold n ⟨b, true⟩ } })) ∧
    (at_ = 0x08 → exec (.registerWrite (.data b)) s =
      .next (setPointer (s.hp.pointer + 1) { beginWrite s with hp := { (beginWrite s).hp with remoteHold := ⟨b, true⟩ } })) ∧
    (∀ n : Fin 40, at_ = 0x40 + n.val → exec (.registerWrite (.data b)) s =
      .next (setPointer (s.hp.pointer + 1) { beginWrite s with hp := { (beginWrite s).hp with
        staging := vput s.hp.staging n b } })) ∧
    ((at_ ≤ 0x03 ∨ (0x0C ≤ at_ ∧ at_ ≤ 0x0F) ∨ at_ = 0x21 ∨ at_ = 0x23 ∨ (0x27 ≤ at_ ∧ at_ ≤ 0x3F) ∨ 0x68 ≤ at_) →
      exec (.registerWrite (.data b)) s = .next (setPointer (s.hp.pointer + 1) (beginWrite s)))) ∧
  (∀ (k : ReqKind) (b : Byte) (low : Bool) (n : Fin 8) (a : Option (BitVec 7)) (p : Option Byte) (w : HostWrite) (s : State), ¬ portReady s →
    ∀ c ∈ [submitCommand k b, .cancel b, .completionPop b, .eventPop b, .softReset b, .testStop b, .crcErrorsClear low b,
        .crcErrorsRead a p, .completionHeadRead a p, .eventHeadRead a p, .hostReady b, .alertCq b,
        .alertEq b, .spanOff b, .busPolicy b, .busSpeed b, .remoteLines b, .filter n b, .registerWrite w],
      exec c s = .next s)

/-- R157, R176, R178, R180, R183, R184, R18, R153: a byte read is the one at the offset the pointer names, whether a write of
the pointer began the transaction, an address byte alone, or a byte before it; it is sent, the pointer goes to the next offset,
and a read changes nothing else. A read addressed elsewhere, or a further byte of a transaction that is not a read of this
chip's, sends nothing. The first byte read of COMPLETION_HEAD or EVENT_HEAD in a transaction takes a copy of the head, and the
rest of it reads from the copy; the byte at 0x0A takes the whole CRC count, and 0x0B reads from that. The heads are laid out as
given, zeros for an empty queue, and each code is the value the spec's table gives (R22, R94, R104, R153, R166, R178, R181,
R182). (The rows' offsets and the other registers read through the first row: log 5, log 6.) -/
def Obligations.ReadsShowTheRegistersAndHeads : Prop :=
  (([.ok, .noAck, .dataNack, .busStuck, .busFaulted, .timeout, .linkDown, .cancelled, .denied, .notReady, .owned, .notOwner,
      .wrongMode, .notHolder, .busy, .drainTimeout] : List Status).map Status.code = (List.range 16).map (BitVec.ofNat 8) ∧
    ([.write, .read, .lineSet, .lineSample, .lineConfig, .lineClaim, .lineRelease, .leaseTake, .leaseDrop, .busRecover, .ping,
      .testStart] : List ReqKind).map ReqKind.code = (List.range 12).map (fun n => BitVec.ofNat 8 (n + 1)) ∧
    ([.lineChange, .linkUp, .linkDown, .roleConflict, .peerHostReady, .peerHostGone, .leaseExpired, .leaseBroken, .lineLost,
      .mirrorMismatch, .busFault, .testDone, .overflow] : List EventKind).map EventKind.code =
        (List.range 13).map (fun n => BitVec.ofNat 8 (n + 1)) ∧
    ([.disabled, .listen, .hello, .run, .drain, .test, .retrain, .holdoff] : List LinkState).map LinkState.code =
      (List.range 8).map (BitVec.ofNat 8) ∧
    ([.noReason, .turnLoss, .retryLimit, .helloFail, .retrainFail, .localOff, .roleConflict] : List HoldoffReason).map
      HoldoffReason.code = (List.range 7).map (BitVec.ofNat 8) ∧
    ([.noReason, .duration, .patternLost, .stopped] : List EndReason).map EndReason.code = [0, 1, 2, 3] ∧
    ([.closed, .listed, .opened] : List BusPolicy).map BusPolicy.code = [0, 1, 2] ∧
    ([.khz100, .khz400] : List BusSpeed).map BusSpeed.code = [0, 1] ∧
    ([.badRequest, .full, .noResult] : List SubmitResult).map SubmitResult.code = [0xFE#8, 0xFD#8, 0xFF#8] ∧
    (∀ n : Tag, (SubmitResult.tag n).code = BitVec.ofNat 8 n.val) ∧
    ([.accepted, .noSuchTag, .alreadyDone, .tooLate, .noResult] : List CancelResult).map CancelResult.code =
      [1, 2, 3, 4, 0xFF#8] ∧
    ([.noResult, .stopped, .notGenerator, .noTest] : List StopResult).map StopResult.code = [0, 1, 2, 3]) ∧
  (∀ s : State,
    (s.rt.cq = [] → completionHead s = List.replicate 40 0) ∧
    (∀ c rest, s.rt.cq = c :: rest → completionHead s =
      [BitVec.ofNat 8 c.tag.val, c.gen.setWidth 8, c.kind.code, if c.side = .near then 0 else 1, c.answer.status.code,
        BitVec.ofNat 8 c.answer.count, c.answer.extra.extractLsb' 8 8, c.answer.extra.extractLsb' 0 8] ++
      c.answer.data.take 32 ++ List.replicate (32 - (c.answer.data.take 32).length) 0) ∧
    (s.eu.eventQueue = [] → eventHead s = List.replicate 6 0) ∧
    (∀ r rest, s.eu.eventQueue = r :: rest → eventHead s =
      [r.kind.code, if r.source = .localHost then 0 else 1, r.detail, r.arg, BitVec.ofNat 8 r.count, 0])) ∧
  (∀ (a : BitVec 7) (p : Option Byte) (s : State), portReady s →
    ∀ c ∈ ([.completionHeadRead, .eventHeadRead, .crcErrorsRead] : List (Option (BitVec 7) → Option Byte → Instr)),
      (a ≠ s.hp.addr → exec (c (some a) p) s = .next (standBy s)) ∧
      (s.hp.taking ≠ some .reading → exec (c none p) s = .next s)) ∧
  (∀ (a : Option (BitVec 7)) (p : Option Byte) (s u : State), portReady s →
    (a = some s.hp.addr ∧ p = some u.hp.pointer ∧ u = setPointer u.hp.pointer (beginRead s)) ∨
      (a = some s.hp.addr ∧ p = none ∧ u = beginRead s) ∨ (a = none ∧ s.hp.taking = some .reading ∧ u = s) →
    let off := u.hp.pointer
    let n := off.toNat
    let sends := fun (v : Byte) => ({ u with hp := { u.hp with sent := v, pointer := off + 1 } } : State)
    (0x80 ≤ n → n ≤ 0xA7 →
      let copy := match u.hp.cqCopy with
        | some c => c
        | none => completionHead s
      exec (.completionHeadRead a p) s = .next { sends (copy.getD (n - 0x80) 0) with
        hp := { (sends (copy.getD (n - 0x80) 0)).hp with cqCopy := some copy } }) ∧
    (0xB0 ≤ n → n ≤ 0xB5 →
      let copy := match u.hp.eqCopy with
        | some c => c
        | none => eventHead s
      exec (.eventHeadRead a p) s = .next { sends (copy.getD (n - 0xB0) 0) with
        hp := { (sends (copy.getD (n - 0xB0) 0)).hp with eqCopy := some copy } }) ∧
    (n = 0x0A → exec (.crcErrorsRead a p) s = .next { sends (BitVec.ofNat 8 (s.fe.crcErrors / 256)) with
      hp := { (sends (BitVec.ofNat 8 (s.fe.crcErrors / 256))).hp with crcCopy := some s.fe.crcErrors } }) ∧
    (n = 0x0B → (∀ count, u.hp.crcCopy = some count →
        exec (.crcErrorsRead a p) s = .next (sends (BitVec.ofNat 8 count))) ∧
      (u.hp.crcCopy = none → exec (.crcErrorsRead a p) s = .next (sends (BitVec.ofNat 8 s.fe.crcErrors)))) ∧
    (∀ x ∈ ([(0x00, 0x3A#8), (0x01, 0x01#8), (0x02, s.slc.state.code), (0x03, s.slc.detail.code), (0x05, 0),
        (0x06, s.da.policy.code), (0x07, s.hp.busSpeed.code), (0x08, (s.lb.remoteLines.extractLsb' 8 4).setWidth 8),
        (0x09, s.lb.remoteLines.extractLsb' 0 8), (0x0C, BitVec.ofNat 8 s.rt.cq.length),
        (0x0D, BitVec.ofNat 8 s.eu.eventQueue.length), (0x20, 0), (0x21, s.hp.submitResult.code), (0x22, 0),
        (0x23, s.hp.cancelResult.code), (0x24, 0), (0x25, 0), (0x26, s.lt.stopResult.code)] : List (Nat × Byte)),
      n = x.1 → exec (.completionHeadRead a p) s = .next (sends x.2)) ∧
    (∀ m : Fin 40, n = 0x40 + m.val → exec (.completionHeadRead a p) s = .next (sends s.hp.staging[m])) ∧
    (n = 0x04 → ∃ v, exec (.completionHeadRead a p) s = .next (sends v) ∧ v.getLsbD 0 = s.hp.hostReady ∧
      v.getLsbD 1 = s.hp.alertCq ∧ v.getLsbD 2 = s.hp.alertEq ∧ v.getLsbD 3 = s.hp.spanOff ∧ v.toNat < 16) ∧
    (n = 0x0E → ∃ v, exec (.completionHeadRead a p) s = .next (sends v) ∧
      ∀ t : Tag, v.getLsbD t.val = decide (s.rt.tags[t].state ≠ .free)) ∧
    (∀ m : Fin 8, n = 0x10 + 2 * m.val → ∃ v, exec (.completionHeadRead a p) s = .next (sends v) ∧
      v.getLsbD 7 = s.da.filter[m].valid ∧ v.setWidth 7 = s.da.filter[m].address) ∧
    (∀ m : Fin 8, n = 0x11 + 2 * m.val → ∃ v, exec (.completionHeadRead a p) s = .next (sends v) ∧
      v.getLsbD 0 = s.da.filter[m].canRead ∧ v.getLsbD 1 = s.da.filter[m].canWrite ∧ v.toNat < 4) ∧
    ((n = 0x0F ∨ (0x27 ≤ n ∧ n ≤ 0x3F) ∨ (0x68 ≤ n ∧ n ≤ 0x7F) ∨ (0xA8 ≤ n ∧ n ≤ 0xAF) ∨ 0xB6 ≤ n) →
      exec (.completionHeadRead a p) s = .next (sends 0)))

/-! Chapter 11: reset and start-up. -/

/-- R187 to R191, section 11.4 and the reset values it lists (R26, R51, R52, R56, R70, R92, R115, R135, R138, R163, R166, R186):
an RSTN low of 1 microsecond or a lost supply holds the chip in reset, where its pins are released, SPAN_TX is high and it
answers nothing; a pulse below 100 ns is ignored, and one between may be taken or ignored (a free value, log 8). A release out
of reset samples the straps and leaves every block at its reset value, the link in LISTEN or DISABLED; 2 ms later the host port
answers. SPAN_TX carries the bits of the frame or the pattern being sent, SPAN_DE then being high, and is high otherwise. The
model's choices: a release when the chip is not in reset does nothing (log 9), and the Link Tester's part and first-error flag,
which R166 gives no value, are NON_OWNER, CHECKER and 0 (log 27). -/
def Obligations.ResetHoldsAndReleaseStarts : Prop :=
  let held := fun (s t : State) => t.inReset = true ∧ t.hp.up = false ∧ alertLow t = false ∧ spanDe t = false ∧
    (∀ n : Nat, spanTx n t = true) ∧ busReleased t = true ∧ (∀ a : BitVec 7, acknowledges t a = false) ∧
    (∀ l : LineNo, lineDrive t t.lb.lines[l] = none) ∧ t.dbc.work = none ∧ t.fe.sending = none ∧ t.lt.genStart = none ∧
    t.rt.cq = [] ∧ t.eu.eventQueue = [] ∧ t.now = s.now ∧ t.pending = s.pending
  (∀ s : State, ∃ t, exec (.rstnLow .supply) s = .next t ∧ held s t) ∧
  (∀ (ns : Nat) (s : State),
    (ns < 100 → exec (.rstnLow (.rstn ns)) s = .next s) ∧
    (1000 ≤ ns → ∃ t, exec (.rstnLow (.rstn ns)) s = .next t ∧ held s t) ∧
    (100 ≤ ns → ns < 1000 → ∃ t, exec (.rstnLow (.rstn ns)) s = .next t ∧ t.free = s.free + 1 ∧
      (held s t ∨ t = { s with free := s.free + 1 }))) ∧
  (∀ (x : Straps) (pins : LineMask) (s : State),
    (s.inReset = false → exec (.rstnRelease x pins) s = .next s) ∧
    (s.inReset = true → ∃ t, exec (.rstnRelease x pins) s = .next t ∧ t.inReset = false ∧ t.now = s.now ∧
      t.pending = s.pending ∧ t.free = s.free ∧
      t.hp.up = false ∧ t.hp.startUp = some (s.now + 2000) ∧ t.hp.taking = none ∧ t.hp.cqCopy = none ∧
      t.hp.eqCopy = none ∧ t.hp.crcCopy = none ∧
      t.hp.addr = BitVec.ofNat 7 (0x2C + (if x.addr1 then 2 else 0) + (if x.addr0 then 1 else 0)) ∧
      t.hp.pointer = 0 ∧ t.hp.hostReady = false ∧ t.hp.alertCq = false ∧ t.hp.alertEq = false ∧ t.hp.spanOff = false ∧
      t.hp.busSpeed = .khz100 ∧ t.hp.submitResult = .noResult ∧ t.hp.cancelResult = .noResult ∧
      t.hp.remoteHold = ⟨0, false⟩ ∧ (∀ n : Fin 8, t.hp.filterHold[n] = ⟨0, false⟩) ∧
      (∀ n : Fin 40, t.hp.staging[n] = 0) ∧
      (∀ n : Tag, t.rt.tags[n] = ⟨.free, 0, Request.empty, none⟩) ∧ t.rt.order = [] ∧ t.rt.cq = [] ∧
      (∀ i : Slot, t.iq.slots[i] = none) ∧ t.iq.arrival = [] ∧ t.iq.answerOrder = [] ∧
      t.da.localList = [] ∧ t.da.remoteList = [] ∧ t.da.turn = .localHost ∧ t.da.lease = none ∧ t.da.policy = .closed ∧
      (∀ n : Fin 8, t.da.filter[n] = ⟨false, 0, false, false⟩) ∧
      t.dbc.state = .idle ∧ t.dbc.work = none ∧ t.dbc.cause = none ∧ t.dbc.clock = .khz100 ∧ t.dbc.stretch = none ∧
      t.dbc.fromFault = false ∧ busReleased t = true ∧
      t.lb.remoteLines = 0 ∧ t.lb.mirrorPending = false ∧ t.lb.pulse = none ∧
      (∀ l : LineNo,
        let r := t.lb.lines[l]
        r.mode = .input ∧ r.owner = none ∧ r.out = false ∧ r.level = pins.getLsbD l.val ∧ r.pin = r.level ∧
        r.debounce = 0 ∧ r.timing = none ∧ r.report = .nobody ∧ r.fallback = .release ∧ r.partner = l ∧ r.style = .live ∧
        r.receiving = false ∧ r.flagErr = false ∧ lineDrive t r = none) ∧
      t.slc.role = (if x.role then .leader else .follower) ∧ t.slc.spanEn = x.spanEn ∧ t.slc.good = 0 ∧
      t.slc.missed = 0 ∧ t.slc.detail = .noReason ∧ t.slc.peerRev = 0 ∧ t.slc.peerCap = 0 ∧ t.slc.peerReady = false ∧
      t.slc.helloDue = none ∧ t.slc.helloLimit = none ∧ t.slc.silence = none ∧ t.slc.retrain = none ∧ t.slc.holdoff = none ∧
      (x.spanEn = false → t.slc.state = .disabled ∧ t.slc.trainDue = none ∧ t.fe.sending = none) ∧
      (x.spanEn = true → t.slc.state = .listen ∧ (x.role = false → t.slc.trainDue = none ∧ t.fe.sending = none) ∧
        (x.role = true → t.slc.trainDue = some (s.now + 1000) ∧
          t.fe.sending = some ⟨.train, ⟨false, false, false, 0, 0, 0⟩, [0]⟩ ∧ t.fe.sendEnd = s.now + 12)) ∧
      t.fe.txSeq = 0 ∧ t.fe.window = [] ∧ t.fe.goBack = [] ∧ t.fe.stall = 0 ∧ t.fe.progress = false ∧
      t.fe.awaitReply = none ∧ t.fe.replyDue = none ∧ t.fe.replyHello = false ∧ t.fe.helloTaken = none ∧ t.fe.expected = 0 ∧
      t.fe.credits = 0 ∧ t.fe.retCount = 0 ∧ t.fe.lastRet = 0 ∧
      t.fe.cancelList = [] ∧ t.fe.releaseAll = false ∧ t.fe.runLines = false ∧ t.fe.crcErrors = 0 ∧ t.fe.resend = false ∧
      t.eu.eventQueue = [] ∧ t.eu.outbox = [] ∧
      t.lt.phase = .idle ∧ t.lt.bits = 0 ∧ t.lt.errors = 0 ∧ t.lt.firstError = false ∧ t.lt.endReason = .noReason ∧
      t.lt.readyTaken = false ∧ t.lt.readyBuilt = false ∧ t.lt.goTaken = false ∧ t.lt.releaseOwed = false ∧
      t.lt.stopResult = .noResult ∧ t.lt.owner = false ∧ t.lt.generator = false ∧ t.lt.ownerTag = none ∧
      t.lt.drainDue = none ∧ t.lt.durationDue = none ∧ t.lt.lostDue = none ∧ t.lt.resultDue = none ∧
      t.lt.patternDue = none ∧ t.lt.genStart = none)) ∧
  (∀ s : State, s.inReset = false →
    (s.hp.startUp = none → exec .hostPortStartUp s = .next s) ∧
    (∀ due, s.hp.startUp = some due → exec .hostPortStartUp s =
      .next { s.reach due with hp := { s.hp with up := true, startUp := none } })) ∧
  (∀ s : State, s.inReset = true → exec .hostPortStartUp s = .next s) ∧
  (∀ (s : State) (n : Nat), s.inReset = false → n < 10 →
    (∀ (f : Frame) (k : Nat) (b : Byte), s.fe.sending = some f → s.now + (11 + f.payload.length) = s.fe.sendEnd + k →
      (wireBytes f)[k]? = some b →
        spanDe s = true ∧ spanTx n s = (if n = 0 then false else if n = 9 then true else b.getLsbD (n - 1))) ∧
    (∀ start : Moment, s.fe.sending = none → s.lt.genStart = some start →
      spanDe s = true ∧ spanTx n s = (if n = 0 then false else if n = 9 then true else
        (patternByte s.lt.pattern (s.now - start)).getLsbD (n - 1))) ∧
    (s.fe.sending = none → s.lt.genStart = none → spanDe s = false ∧ spanTx n s = true))

/-! What every step keeps. -/

/-- The state right after reset meets every invariant below. -/
def Obligations.ResetMeetsTheInvariants : Prop :=
  RequestInv State.reset ∧ IncomingInv State.reset ∧ BusInv State.reset ∧ SelectedInv State.reset ∧ EventInv State.reset ∧
  LinkInv State.reset ∧ QuietInv State.reset ∧ WindowInv State.reset

/-- R8, R19, R20, R27, R124: every step keeps the Request Table, the Completion Queue and the lists consistent with each other,
as `RequestInv` says: each tag is in one of free, pending or the Completion Queue. -/
def Obligations.EveryStepKeepsRequestsConsistent : Prop :=
  ∀ s s' : State, RequestInv s → step s = .next s' → RequestInv s'

/-- R138, R139, R143, R27: no step leaves an Incoming Queue entry without its place in the lists, or a place without its
entry. -/
def Obligations.EveryStepKeepsIncomingEntriesConsistent : Prop :=
  ∀ s s' : State, IncomingInv s → step s = .next s' → IncomingInv s'

/-- R52, R53, R33, R142: no step leaves an EXECUTING tag or entry without bus work of its own, or the bus controller with work
in a state that has none. -/
def Obligations.EveryStepKeepsBusWorkConsistent : Prop :=
  ∀ s s' : State, RequestInv s → IncomingInv s → BusInv s → step s = .next s' → BusInv s'

/-- R29, R30: no step leaves a request waiting that the free bus controller could take. -/
def Obligations.EveryStepLeavesNothingUnselected : Prop :=
  ∀ s s' : State, SelectedInv s → step s = .next s' → SelectedInv s'

/-- R155, R156, R158, R160: both event queues keep their form through every step. -/
def Obligations.EveryStepKeepsEventQueuesInForm : Prop :=
  ∀ s s' : State, EventInv s → step s = .next s' → EventInv s'

/-- R92, R94, R166: the link controller's timers and the Link Tester's phase fit the link state through every step. -/
def Obligations.EveryStepKeepsLinkAndTestPhases : Prop :=
  ∀ s s' : State, LinkInv s → step s = .next s' → LinkInv s'

/-- R106, R135, R150, R151: with the link down nothing is held for the other side, through every step. -/
def Obligations.EveryStepKeepsADownLinkQuiet : Prop :=
  ∀ s s' : State, RequestInv s → LinkInv s → QuietInv s → step s = .next s' → QuietInv s'

/-- R122, R123, R128, R130 to R134: the window and its sequence numbers, sends, credits and counts stay in form through every
step. -/
def Obligations.EveryStepKeepsTheWindowInForm : Prop :=
  ∀ s s' : State, WindowInv s → step s = .next s' → WindowInv s'
end

