-- ==== Sys2Proof/Laws/State.lean ====
section
/-! SUPPORT. The small lemmas of the plain updates: what each named update of the state leaves and sets, all by computation. -/
namespace Sys2Proof.Machine

@[simp] theorem vput_get {α : Type} {n : Nat} (v : Vector α n) (i : Fin n) (x : α) (k : Nat) (h : k < n) :
    (vput v i x)[k] = if i.val = k then x else v[k] := by
  simp only [vput, Vector.getElem_set]

theorem vput_get_self {α : Type} {n : Nat} (v : Vector α n) (i : Fin n) (x : α) : (vput v i x)[i] = x := by simp

theorem vput_get_other {α : Type} {n : Nat} (v : Vector α n) (i j : Fin n) (x : α) (h : i ≠ j) :
    (vput v i x)[j] = v[j] := by
  simp only [Fin.getElem_fin, vput_get]
  exact if_neg fun e => h (Fin.ext e)

@[simp] theorem vtab_get {α : Type} {n : Nat} (f : Fin n → α) (k : Nat) (h : k < n) : (vtab f)[k] = f ⟨k, h⟩ := by
  simp [vtab]

theorem vector_ext {α : Type} {n : Nat} (v w : Vector α n) (h : ∀ i : Fin n, v[i] = w[i]) : v = w := by
  apply Vector.ext
  intro i hi
  exact h ⟨i, hi⟩

/-- An update that sets the clock leaves every block. -/
@[simp] theorem reach_frame (s : State) (t : Moment) :
    (s.reach t).inReset = s.inReset ∧ (s.reach t).free = s.free ∧ (s.reach t).pending = s.pending ∧
    (s.reach t).hp = s.hp ∧ (s.reach t).rt = s.rt ∧ (s.reach t).iq = s.iq ∧ (s.reach t).da = s.da ∧
    (s.reach t).dbc = s.dbc ∧ (s.reach t).lb = s.lb ∧ (s.reach t).slc = s.slc ∧ (s.reach t).fe = s.fe ∧
    (s.reach t).eu = s.eu ∧ (s.reach t).lt = s.lt ∧ (s.reach t).now = max s.now t := by
  simp [State.reach]

@[simp] theorem tick_frame (s : State) :
    (tick s).inReset = s.inReset ∧ (tick s).free = s.free ∧ (tick s).pending = s.pending ∧
    (tick s).hp = s.hp ∧ (tick s).rt = s.rt ∧ (tick s).iq = s.iq ∧ (tick s).da = s.da ∧
    (tick s).dbc = s.dbc ∧ (tick s).lb = s.lb ∧ (tick s).slc = s.slc ∧ (tick s).fe = s.fe ∧
    (tick s).eu = s.eu ∧ (tick s).lt = s.lt ∧ (tick s).now = s.now + 1 := by
  simp [tick]

@[simp] theorem setTag_frame (t : Tag) (e : TagEntry) (s : State) :
    (setTag t e s).inReset = s.inReset ∧ (setTag t e s).free = s.free ∧ (setTag t e s).pending = s.pending ∧
    (setTag t e s).now = s.now ∧ (setTag t e s).hp = s.hp ∧ (setTag t e s).iq = s.iq ∧ (setTag t e s).da = s.da ∧
    (setTag t e s).dbc = s.dbc ∧ (setTag t e s).lb = s.lb ∧ (setTag t e s).slc = s.slc ∧ (setTag t e s).fe = s.fe ∧
    (setTag t e s).eu = s.eu ∧ (setTag t e s).lt = s.lt ∧ (setTag t e s).rt.order = s.rt.order ∧
    (setTag t e s).rt.cq = s.rt.cq ∧ (setTag t e s).rt.tags = vput s.rt.tags t e := by
  simp [setTag]

@[simp] theorem setSlot_frame (i : Slot) (e : Option SlotEntry) (s : State) :
    (setSlot i e s).inReset = s.inReset ∧ (setSlot i e s).free = s.free ∧ (setSlot i e s).pending = s.pending ∧
    (setSlot i e s).now = s.now ∧ (setSlot i e s).hp = s.hp ∧ (setSlot i e s).rt = s.rt ∧ (setSlot i e s).da = s.da ∧
    (setSlot i e s).dbc = s.dbc ∧ (setSlot i e s).lb = s.lb ∧ (setSlot i e s).slc = s.slc ∧ (setSlot i e s).fe = s.fe ∧
    (setSlot i e s).eu = s.eu ∧ (setSlot i e s).lt = s.lt ∧ (setSlot i e s).iq.arrival = s.iq.arrival ∧
    (setSlot i e s).iq.answerOrder = s.iq.answerOrder ∧ (setSlot i e s).iq.slots = vput s.iq.slots i e := by
  simp [setSlot]

@[simp] theorem setLine_frame (l : LineNo) (r : LineRecord) (s : State) :
    (setLine l r s).inReset = s.inReset ∧ (setLine l r s).free = s.free ∧ (setLine l r s).pending = s.pending ∧
    (setLine l r s).now = s.now ∧ (setLine l r s).hp = s.hp ∧ (setLine l r s).rt = s.rt ∧ (setLine l r s).iq = s.iq ∧
    (setLine l r s).da = s.da ∧ (setLine l r s).dbc = s.dbc ∧ (setLine l r s).slc = s.slc ∧ (setLine l r s).fe = s.fe ∧
    (setLine l r s).eu = s.eu ∧ (setLine l r s).lt = s.lt ∧ (setLine l r s).lb.mirrorPending = s.lb.mirrorPending ∧
    (setLine l r s).lb.remoteLines = s.lb.remoteLines ∧ (setLine l r s).lb.pulse = s.lb.pulse ∧
    (setLine l r s).lb.lines = vput s.lb.lines l r := by
  simp [setLine]

@[simp] theorem mapLines_frame (f : LineNo → LineRecord → LineRecord) (s : State) :
    (mapLines f s).inReset = s.inReset ∧ (mapLines f s).free = s.free ∧ (mapLines f s).pending = s.pending ∧
    (mapLines f s).now = s.now ∧ (mapLines f s).hp = s.hp ∧ (mapLines f s).rt = s.rt ∧ (mapLines f s).iq = s.iq ∧
    (mapLines f s).da = s.da ∧ (mapLines f s).dbc = s.dbc ∧ (mapLines f s).slc = s.slc ∧ (mapLines f s).fe = s.fe ∧
    (mapLines f s).eu = s.eu ∧ (mapLines f s).lt = s.lt ∧ (mapLines f s).lb.mirrorPending = s.lb.mirrorPending ∧
    (mapLines f s).lb.remoteLines = s.lb.remoteLines ∧ (mapLines f s).lb.pulse = s.lb.pulse := by
  simp [mapLines]

@[simp] theorem mapLines_get (f : LineNo → LineRecord → LineRecord) (s : State) (l : LineNo) :
    (mapLines f s).lb.lines[l.val] = f l s.lb.lines[l] := by
  simp [mapLines]

@[simp] theorem setPointer_frame (off : Byte) (s : State) :
    (setPointer off s).inReset = s.inReset ∧ (setPointer off s).free = s.free ∧ (setPointer off s).pending = s.pending ∧
    (setPointer off s).now = s.now ∧ (setPointer off s).rt = s.rt ∧ (setPointer off s).iq = s.iq ∧
    (setPointer off s).da = s.da ∧ (setPointer off s).dbc = s.dbc ∧ (setPointer off s).lb = s.lb ∧
    (setPointer off s).slc = s.slc ∧ (setPointer off s).fe = s.fe ∧ (setPointer off s).eu = s.eu ∧
    (setPointer off s).lt = s.lt ∧ (setPointer off s).hp = { s.hp with pointer := off } := by
  simp [setPointer]

@[simp] theorem beginTransaction_frame (d : Option PortDirection) (s : State) :
    (beginTransaction d s).inReset = s.inReset ∧ (beginTransaction d s).free = s.free ∧ (beginTransaction d s).pending = s.pending ∧
    (beginTransaction d s).now = s.now ∧ (beginTransaction d s).rt = s.rt ∧ (beginTransaction d s).iq = s.iq ∧ (beginTransaction d s).da = s.da ∧
    (beginTransaction d s).dbc = s.dbc ∧ (beginTransaction d s).lb = s.lb ∧ (beginTransaction d s).slc = s.slc ∧ (beginTransaction d s).fe = s.fe ∧
    (beginTransaction d s).eu = s.eu ∧ (beginTransaction d s).lt = s.lt ∧
    (beginTransaction d s).hp = { s.hp with taking := d, cqCopy := none, eqCopy := none, crcCopy := none } := by
  simp [beginTransaction]

@[simp] theorem beginWrite_frame (s : State) :
    (beginWrite s).inReset = s.inReset ∧ (beginWrite s).free = s.free ∧ (beginWrite s).pending = s.pending ∧
    (beginWrite s).now = s.now ∧ (beginWrite s).rt = s.rt ∧ (beginWrite s).iq = s.iq ∧ (beginWrite s).da = s.da ∧
    (beginWrite s).dbc = s.dbc ∧ (beginWrite s).lb = s.lb ∧ (beginWrite s).slc = s.slc ∧ (beginWrite s).fe = s.fe ∧
    (beginWrite s).eu = s.eu ∧ (beginWrite s).lt = s.lt ∧
    (beginWrite s).hp = { s.hp with taking := some .writing, cqCopy := none, eqCopy := none, crcCopy := none } := by
  simp [beginWrite, beginTransaction]

@[simp] theorem beginRead_frame (s : State) :
    (beginRead s).inReset = s.inReset ∧ (beginRead s).free = s.free ∧ (beginRead s).pending = s.pending ∧
    (beginRead s).now = s.now ∧ (beginRead s).rt = s.rt ∧ (beginRead s).iq = s.iq ∧ (beginRead s).da = s.da ∧
    (beginRead s).dbc = s.dbc ∧ (beginRead s).lb = s.lb ∧ (beginRead s).slc = s.slc ∧ (beginRead s).fe = s.fe ∧
    (beginRead s).eu = s.eu ∧ (beginRead s).lt = s.lt ∧
    (beginRead s).hp = { s.hp with taking := some .reading, cqCopy := none, eqCopy := none, crcCopy := none } := by
  simp [beginRead, beginTransaction]

@[simp] theorem standBy_frame (s : State) :
    (standBy s).inReset = s.inReset ∧ (standBy s).free = s.free ∧ (standBy s).pending = s.pending ∧
    (standBy s).now = s.now ∧ (standBy s).rt = s.rt ∧ (standBy s).iq = s.iq ∧ (standBy s).da = s.da ∧
    (standBy s).dbc = s.dbc ∧ (standBy s).lb = s.lb ∧ (standBy s).slc = s.slc ∧ (standBy s).fe = s.fe ∧
    (standBy s).eu = s.eu ∧ (standBy s).lt = s.lt ∧
    (standBy s).hp = { s.hp with taking := none, cqCopy := none, eqCopy := none, crcCopy := none } := by
  simp [standBy, beginTransaction]

@[simp] theorem cancelResult_frame (x : CancelResult) (s : State) :
    (cancelResult x s).inReset = s.inReset ∧ (cancelResult x s).free = s.free ∧
    (cancelResult x s).pending = s.pending ∧ (cancelResult x s).now = s.now ∧ (cancelResult x s).rt = s.rt ∧
    (cancelResult x s).iq = s.iq ∧ (cancelResult x s).da = s.da ∧ (cancelResult x s).dbc = s.dbc ∧
    (cancelResult x s).lb = s.lb ∧ (cancelResult x s).slc = s.slc ∧ (cancelResult x s).fe = s.fe ∧
    (cancelResult x s).eu = s.eu ∧ (cancelResult x s).lt = s.lt ∧
    (cancelResult x s).hp = { s.hp with cancelResult := x } := by
  simp [cancelResult]

end Sys2Proof.Machine
end

