-- ==== Sys2Proof/Laws/Frame.lean ====
section
/-! SUPPORT. What each operation leaves unchanged, block by block: the frame of every shared operation of the machine. -/
namespace Sys2Proof.Machine

@[simp] theorem raiseLocal_frame (k : EventKind) (d a : Byte) (s : State) :
    (raiseLocal k d a s).inReset = s.inReset ∧ (raiseLocal k d a s).free = s.free ∧
    (raiseLocal k d a s).pending = s.pending ∧ (raiseLocal k d a s).now = s.now ∧ (raiseLocal k d a s).hp = s.hp ∧
    (raiseLocal k d a s).rt = s.rt ∧ (raiseLocal k d a s).iq = s.iq ∧ (raiseLocal k d a s).da = s.da ∧
    (raiseLocal k d a s).dbc = s.dbc ∧ (raiseLocal k d a s).lb = s.lb ∧ (raiseLocal k d a s).slc = s.slc ∧
    (raiseLocal k d a s).fe = s.fe ∧ (raiseLocal k d a s).eu.outbox = s.eu.outbox ∧ (raiseLocal k d a s).lt = s.lt := by
  simp [raiseLocal]

@[simp] theorem raiseRemote_frame (k : EventKind) (d a : Byte) (s : State) :
    (raiseRemote k d a s).inReset = s.inReset ∧ (raiseRemote k d a s).free = s.free ∧
    (raiseRemote k d a s).pending = s.pending ∧ (raiseRemote k d a s).now = s.now ∧ (raiseRemote k d a s).hp = s.hp ∧
    (raiseRemote k d a s).rt = s.rt ∧ (raiseRemote k d a s).iq = s.iq ∧ (raiseRemote k d a s).da = s.da ∧
    (raiseRemote k d a s).dbc = s.dbc ∧ (raiseRemote k d a s).lb = s.lb ∧ (raiseRemote k d a s).slc = s.slc ∧
    (raiseRemote k d a s).fe = s.fe ∧ (raiseRemote k d a s).eu.eventQueue = s.eu.eventQueue ∧
    (raiseRemote k d a s).lt = s.lt := by
  unfold raiseRemote; split <;> simp

@[simp] theorem raiseFor_frame (h : Origin) (k : EventKind) (d a : Byte) (s : State) :
    (raiseFor h k d a s).inReset = s.inReset ∧ (raiseFor h k d a s).free = s.free ∧
    (raiseFor h k d a s).pending = s.pending ∧ (raiseFor h k d a s).now = s.now ∧ (raiseFor h k d a s).hp = s.hp ∧
    (raiseFor h k d a s).rt = s.rt ∧ (raiseFor h k d a s).iq = s.iq ∧ (raiseFor h k d a s).da = s.da ∧
    (raiseFor h k d a s).dbc = s.dbc ∧ (raiseFor h k d a s).lb = s.lb ∧ (raiseFor h k d a s).slc = s.slc ∧
    (raiseFor h k d a s).fe = s.fe ∧ (raiseFor h k d a s).lt = s.lt := by
  cases h <;> simp [raiseFor]

@[simp] theorem completeTag_frame (t : Tag) (a : Answer) (s : State) :
    (completeTag t a s).inReset = s.inReset ∧ (completeTag t a s).free = s.free ∧
    (completeTag t a s).pending = s.pending ∧
    (completeTag t a s).now = s.now ∧ (completeTag t a s).hp = s.hp ∧ (completeTag t a s).iq = s.iq ∧
    (completeTag t a s).da = s.da ∧ (completeTag t a s).dbc = s.dbc ∧ (completeTag t a s).lb = s.lb ∧
    (completeTag t a s).slc = s.slc ∧ (completeTag t a s).fe.txSeq = s.fe.txSeq ∧
    (completeTag t a s).fe.window = s.fe.window ∧ (completeTag t a s).fe.goBack = s.fe.goBack ∧
    (completeTag t a s).fe.stall = s.fe.stall ∧ (completeTag t a s).fe.progress = s.fe.progress ∧
    (completeTag t a s).fe.expected = s.fe.expected ∧ (completeTag t a s).fe.lastRet = s.fe.lastRet ∧
    (completeTag t a s).fe.resend = s.fe.resend ∧ (completeTag t a s).fe.credits = s.fe.credits ∧
    (completeTag t a s).fe.retCount = s.fe.retCount ∧ (completeTag t a s).fe.releaseAll = s.fe.releaseAll ∧
    (completeTag t a s).fe.runLines = s.fe.runLines ∧ (completeTag t a s).fe.crcErrors = s.fe.crcErrors ∧
    (completeTag t a s).fe.sending = s.fe.sending ∧ (completeTag t a s).fe.sendEnd = s.fe.sendEnd ∧
    (completeTag t a s).fe.awaitReply = s.fe.awaitReply ∧ (completeTag t a s).fe.replyDue = s.fe.replyDue ∧ (completeTag t a s).fe.replyHello = s.fe.replyHello ∧
    (completeTag t a s).fe.helloTaken = s.fe.helloTaken ∧ (completeTag t a s).fe.turnOpened = s.fe.turnOpened ∧
    (completeTag t a s).fe.earliest = s.fe.earliest ∧ (completeTag t a s).fe.hurry = s.fe.hurry ∧
    (completeTag t a s).eu = s.eu ∧ (completeTag t a s).lt = s.lt := by
  simp [completeTag]

@[simp] theorem completeAll_frame (ts : List Tag) (st : Status) (s : State) :
    (completeAll ts st s).inReset = s.inReset ∧ (completeAll ts st s).free = s.free ∧
    (completeAll ts st s).pending = s.pending ∧ (completeAll ts st s).now = s.now ∧ (completeAll ts st s).hp = s.hp ∧
    (completeAll ts st s).iq = s.iq ∧ (completeAll ts st s).da = s.da ∧ (completeAll ts st s).dbc = s.dbc ∧
    (completeAll ts st s).lb = s.lb ∧ (completeAll ts st s).slc = s.slc ∧ (completeAll ts st s).fe.txSeq = s.fe.txSeq ∧
    (completeAll ts st s).fe.window = s.fe.window ∧ (completeAll ts st s).fe.goBack = s.fe.goBack ∧
    (completeAll ts st s).fe.stall = s.fe.stall ∧ (completeAll ts st s).fe.progress = s.fe.progress ∧
    (completeAll ts st s).fe.expected = s.fe.expected ∧ (completeAll ts st s).fe.lastRet = s.fe.lastRet ∧
    (completeAll ts st s).fe.resend = s.fe.resend ∧ (completeAll ts st s).fe.credits = s.fe.credits ∧
    (completeAll ts st s).fe.retCount = s.fe.retCount ∧ (completeAll ts st s).fe.releaseAll = s.fe.releaseAll ∧
    (completeAll ts st s).fe.runLines = s.fe.runLines ∧ (completeAll ts st s).fe.crcErrors = s.fe.crcErrors ∧
    (completeAll ts st s).fe.sending = s.fe.sending ∧ (completeAll ts st s).fe.sendEnd = s.fe.sendEnd ∧
    (completeAll ts st s).fe.awaitReply = s.fe.awaitReply ∧ (completeAll ts st s).fe.replyDue = s.fe.replyDue ∧ (completeAll ts st s).fe.replyHello = s.fe.replyHello ∧
    (completeAll ts st s).fe.helloTaken = s.fe.helloTaken ∧ (completeAll ts st s).fe.turnOpened = s.fe.turnOpened ∧
    (completeAll ts st s).fe.earliest = s.fe.earliest ∧ (completeAll ts st s).fe.hurry = s.fe.hurry ∧
    (completeAll ts st s).eu = s.eu ∧ (completeAll ts st s).lt = s.lt := by
  induction ts generalizing s with
  | nil => simp [completeAll]
  | cons t ts ih => simpa [completeAll] using ih (completeTag t (bare st) s)

@[simp] theorem answerSlot_frame (i : Slot) (a : Answer) (s : State) :
    (answerSlot i a s).inReset = s.inReset ∧ (answerSlot i a s).free = s.free ∧ (answerSlot i a s).pending = s.pending ∧
    (answerSlot i a s).now = s.now ∧ (answerSlot i a s).hp = s.hp ∧ (answerSlot i a s).rt = s.rt ∧
    (answerSlot i a s).iq.arrival = s.iq.arrival ∧ (answerSlot i a s).da = s.da ∧ (answerSlot i a s).dbc = s.dbc ∧
    (answerSlot i a s).lb = s.lb ∧ (answerSlot i a s).slc = s.slc ∧ (answerSlot i a s).fe = s.fe ∧
    (answerSlot i a s).eu = s.eu ∧ (answerSlot i a s).lt = s.lt := by
  unfold answerSlot; split <;> (try split) <;> simp

@[simp] theorem dropSlot_frame (i : Slot) (s : State) :
    (dropSlot i s).inReset = s.inReset ∧ (dropSlot i s).free = s.free ∧ (dropSlot i s).pending = s.pending ∧
    (dropSlot i s).now = s.now ∧ (dropSlot i s).hp = s.hp ∧ (dropSlot i s).rt = s.rt ∧ (dropSlot i s).da = s.da ∧
    (dropSlot i s).dbc = s.dbc ∧ (dropSlot i s).lb = s.lb ∧ (dropSlot i s).slc = s.slc ∧ (dropSlot i s).fe = s.fe ∧
    (dropSlot i s).eu = s.eu ∧ (dropSlot i s).lt = s.lt := by
  simp [dropSlot]

@[simp] theorem freeWithCredit_frame (i : Slot) (s : State) :
    (freeWithCredit i s).inReset = s.inReset ∧ (freeWithCredit i s).free = s.free ∧
    (freeWithCredit i s).pending = s.pending ∧ (freeWithCredit i s).now = s.now ∧ (freeWithCredit i s).hp = s.hp ∧
    (freeWithCredit i s).rt = s.rt ∧ (freeWithCredit i s).da = s.da ∧ (freeWithCredit i s).dbc = s.dbc ∧
    (freeWithCredit i s).lb = s.lb ∧ (freeWithCredit i s).slc = s.slc ∧ (freeWithCredit i s).fe.txSeq = s.fe.txSeq ∧
    (freeWithCredit i s).fe.window = s.fe.window ∧ (freeWithCredit i s).fe.goBack = s.fe.goBack ∧
    (freeWithCredit i s).fe.stall = s.fe.stall ∧ (freeWithCredit i s).fe.progress = s.fe.progress ∧
    (freeWithCredit i s).fe.expected = s.fe.expected ∧ (freeWithCredit i s).fe.lastRet = s.fe.lastRet ∧
    (freeWithCredit i s).fe.resend = s.fe.resend ∧ (freeWithCredit i s).fe.credits = s.fe.credits ∧
    (freeWithCredit i s).fe.cancelList = s.fe.cancelList ∧ (freeWithCredit i s).fe.releaseAll = s.fe.releaseAll ∧
    (freeWithCredit i s).fe.runLines = s.fe.runLines ∧ (freeWithCredit i s).fe.crcErrors = s.fe.crcErrors ∧
    (freeWithCredit i s).fe.sending = s.fe.sending ∧ (freeWithCredit i s).fe.sendEnd = s.fe.sendEnd ∧
    (freeWithCredit i s).fe.awaitReply = s.fe.awaitReply ∧ (freeWithCredit i s).fe.replyDue = s.fe.replyDue ∧ (freeWithCredit i s).fe.replyHello = s.fe.replyHello ∧
    (freeWithCredit i s).fe.helloTaken = s.fe.helloTaken ∧ (freeWithCredit i s).fe.turnOpened = s.fe.turnOpened ∧
    (freeWithCredit i s).fe.earliest = s.fe.earliest ∧ (freeWithCredit i s).fe.hurry = s.fe.hurry ∧
    (freeWithCredit i s).eu = s.eu ∧ (freeWithCredit i s).lt = s.lt := by
  simp [freeWithCredit]

@[simp] theorem releaseOwned_frame (h : Origin) (m : LineMask) (s : State) :
    (releaseOwned h m s).inReset = s.inReset ∧ (releaseOwned h m s).free = s.free ∧
    (releaseOwned h m s).pending = s.pending ∧ (releaseOwned h m s).now = s.now ∧ (releaseOwned h m s).hp = s.hp ∧
    (releaseOwned h m s).rt = s.rt ∧ (releaseOwned h m s).iq = s.iq ∧ (releaseOwned h m s).da = s.da ∧
    (releaseOwned h m s).dbc = s.dbc ∧ (releaseOwned h m s).lb.mirrorPending = s.lb.mirrorPending ∧
    (releaseOwned h m s).lb.remoteLines = s.lb.remoteLines ∧ (releaseOwned h m s).lb.pulse = s.lb.pulse ∧
    (releaseOwned h m s).slc = s.slc ∧ (releaseOwned h m s).fe = s.fe ∧ (releaseOwned h m s).eu = s.eu ∧
    (releaseOwned h m s).lt = s.lt := by
  simp [releaseOwned]

@[simp] theorem reportChange_frame (r : Report) (l : LineNo) (v : Bool) (s : State) :
    (reportChange r l v s).inReset = s.inReset ∧ (reportChange r l v s).free = s.free ∧
    (reportChange r l v s).pending = s.pending ∧ (reportChange r l v s).now = s.now ∧ (reportChange r l v s).hp = s.hp ∧
    (reportChange r l v s).rt = s.rt ∧ (reportChange r l v s).iq = s.iq ∧ (reportChange r l v s).da = s.da ∧
    (reportChange r l v s).dbc = s.dbc ∧ (reportChange r l v s).lb = s.lb ∧ (reportChange r l v s).slc = s.slc ∧
    (reportChange r l v s).fe = s.fe ∧ (reportChange r l v s).lt = s.lt := by
  cases r <;> simp [reportChange]

@[simp] theorem takeLevel_frame (l : LineNo) (v : Bool) (s : State) :
    (takeLevel l v s).inReset = s.inReset ∧ (takeLevel l v s).free = s.free ∧ (takeLevel l v s).pending = s.pending ∧
    (takeLevel l v s).now = s.now ∧ (takeLevel l v s).hp = s.hp ∧ (takeLevel l v s).rt = s.rt ∧
    (takeLevel l v s).iq = s.iq ∧ (takeLevel l v s).da = s.da ∧ (takeLevel l v s).dbc = s.dbc ∧
    (takeLevel l v s).lb.remoteLines = s.lb.remoteLines ∧ (takeLevel l v s).lb.pulse = s.lb.pulse ∧
    (takeLevel l v s).slc = s.slc ∧ (takeLevel l v s).fe = s.fe ∧ (takeLevel l v s).lt = s.lt := by
  unfold takeLevel; dsimp only; split <;> (try split) <;> simp

@[simp] theorem pinChange_frame (l : LineNo) (v : Bool) (s : State) :
    (pinChange l v s).inReset = s.inReset ∧ (pinChange l v s).free = s.free ∧ (pinChange l v s).pending = s.pending ∧
    (pinChange l v s).now = s.now ∧ (pinChange l v s).hp = s.hp ∧ (pinChange l v s).rt = s.rt ∧
    (pinChange l v s).iq = s.iq ∧ (pinChange l v s).da = s.da ∧ (pinChange l v s).dbc = s.dbc ∧
    (pinChange l v s).lb.remoteLines = s.lb.remoteLines ∧ (pinChange l v s).lb.pulse = s.lb.pulse ∧
    (pinChange l v s).slc = s.slc ∧ (pinChange l v s).fe = s.fe ∧ (pinChange l v s).lt = s.lt := by
  unfold pinChange; dsimp only; (repeat' split) <;> simp

@[simp] theorem debounceEnd_frame (l : LineNo) (s : State) :
    (debounceEnd l s).inReset = s.inReset ∧ (debounceEnd l s).free = s.free ∧ (debounceEnd l s).pending = s.pending ∧
    (debounceEnd l s).hp = s.hp ∧ (debounceEnd l s).rt = s.rt ∧ (debounceEnd l s).iq = s.iq ∧
    (debounceEnd l s).da = s.da ∧
    (debounceEnd l s).dbc = s.dbc ∧ (debounceEnd l s).lb.remoteLines = s.lb.remoteLines ∧
    (debounceEnd l s).lb.pulse = s.lb.pulse ∧ (debounceEnd l s).slc = s.slc ∧ (debounceEnd l s).fe = s.fe ∧
    (debounceEnd l s).lt = s.lt := by
  unfold debounceEnd; split <;> simp

@[simp] theorem retime_frame (l : LineNo) (old : Nat) (s : State) :
    (retime l old s).inReset = s.inReset ∧ (retime l old s).free = s.free ∧ (retime l old s).pending = s.pending ∧
    (retime l old s).now = s.now ∧ (retime l old s).hp = s.hp ∧ (retime l old s).rt = s.rt ∧ (retime l old s).iq = s.iq ∧
    (retime l old s).da = s.da ∧ (retime l old s).dbc = s.dbc ∧ (retime l old s).lb.remoteLines = s.lb.remoteLines ∧
    (retime l old s).lb.pulse = s.lb.pulse ∧ (retime l old s).slc = s.slc ∧ (retime l old s).fe = s.fe ∧
    (retime l old s).lt = s.lt := by
  unfold retime; dsimp only; (repeat' split) <;> simp

@[simp] theorem lineClaim_frame (h : Origin) (m : LineMask) (s : State) :
    ((lineClaim h m s).2).inReset = s.inReset ∧ ((lineClaim h m s).2).free = s.free ∧
    ((lineClaim h m s).2).pending = s.pending ∧ ((lineClaim h m s).2).now = s.now ∧ ((lineClaim h m s).2).hp = s.hp ∧
    ((lineClaim h m s).2).rt = s.rt ∧ ((lineClaim h m s).2).iq = s.iq ∧ ((lineClaim h m s).2).da = s.da ∧
    ((lineClaim h m s).2).dbc = s.dbc ∧ ((lineClaim h m s).2).lb.mirrorPending = s.lb.mirrorPending ∧
    ((lineClaim h m s).2).lb.remoteLines = s.lb.remoteLines ∧ ((lineClaim h m s).2).lb.pulse = s.lb.pulse ∧
    ((lineClaim h m s).2).slc = s.slc ∧ ((lineClaim h m s).2).fe = s.fe ∧ ((lineClaim h m s).2).eu = s.eu ∧
    ((lineClaim h m s).2).lt = s.lt := by
  unfold lineClaim; (repeat' split) <;> simp

@[simp] theorem lineRelease_frame (h : Origin) (m : LineMask) (s : State) :
    ((lineRelease h m s).2).inReset = s.inReset ∧ ((lineRelease h m s).2).free = s.free ∧
    ((lineRelease h m s).2).pending = s.pending ∧ ((lineRelease h m s).2).now = s.now ∧
    ((lineRelease h m s).2).hp = s.hp ∧
    ((lineRelease h m s).2).rt = s.rt ∧ ((lineRelease h m s).2).iq = s.iq ∧ ((lineRelease h m s).2).da = s.da ∧
    ((lineRelease h m s).2).dbc = s.dbc ∧ ((lineRelease h m s).2).lb.mirrorPending = s.lb.mirrorPending ∧
    ((lineRelease h m s).2).lb.remoteLines = s.lb.remoteLines ∧ ((lineRelease h m s).2).lb.pulse = s.lb.pulse ∧
    ((lineRelease h m s).2).slc = s.slc ∧ ((lineRelease h m s).2).fe = s.fe ∧ ((lineRelease h m s).2).eu = s.eu ∧
    ((lineRelease h m s).2).lt = s.lt := by
  simp [lineRelease]

@[simp] theorem lineSet_frame (h : Origin) (m v : LineMask) (s : State) :
    ((lineSet h m v s).2).inReset = s.inReset ∧ ((lineSet h m v s).2).free = s.free ∧
    ((lineSet h m v s).2).pending = s.pending ∧ ((lineSet h m v s).2).now = s.now ∧ ((lineSet h m v s).2).hp = s.hp ∧
    ((lineSet h m v s).2).rt = s.rt ∧ ((lineSet h m v s).2).iq = s.iq ∧ ((lineSet h m v s).2).da = s.da ∧
    ((lineSet h m v s).2).dbc = s.dbc ∧ ((lineSet h m v s).2).lb.mirrorPending = s.lb.mirrorPending ∧
    ((lineSet h m v s).2).lb.remoteLines = s.lb.remoteLines ∧ ((lineSet h m v s).2).lb.pulse = s.lb.pulse ∧
    ((lineSet h m v s).2).slc = s.slc ∧ ((lineSet h m v s).2).fe = s.fe ∧ ((lineSet h m v s).2).eu = s.eu ∧
    ((lineSet h m v s).2).lt = s.lt := by
  unfold lineSet; (repeat' split) <;> simp

@[simp] theorem lineConfig_frame (h : Origin) (c : LineSettings) (s : State) :
    ((lineConfig h c s).2).inReset = s.inReset ∧ ((lineConfig h c s).2).free = s.free ∧
    ((lineConfig h c s).2).pending = s.pending ∧ ((lineConfig h c s).2).now = s.now ∧ ((lineConfig h c s).2).hp = s.hp ∧
    ((lineConfig h c s).2).rt = s.rt ∧ ((lineConfig h c s).2).iq = s.iq ∧ ((lineConfig h c s).2).da = s.da ∧
    ((lineConfig h c s).2).dbc = s.dbc ∧ ((lineConfig h c s).2).lb.remoteLines = s.lb.remoteLines ∧
    ((lineConfig h c s).2).lb.pulse = s.lb.pulse ∧ ((lineConfig h c s).2).slc = s.slc ∧ ((lineConfig h c s).2).fe = s.fe ∧
    ((lineConfig h c s).2).lt = s.lt := by
  unfold lineConfig; dsimp only; (repeat' split) <;> simp

@[simp] theorem runLine_frame (h : Origin) (r : Request) (s : State) :
    ((runLine h r s).2).inReset = s.inReset ∧ ((runLine h r s).2).free = s.free ∧
    ((runLine h r s).2).pending = s.pending ∧
    ((runLine h r s).2).now = s.now ∧ ((runLine h r s).2).hp = s.hp ∧ ((runLine h r s).2).rt = s.rt ∧
    ((runLine h r s).2).iq = s.iq ∧ ((runLine h r s).2).da = s.da ∧ ((runLine h r s).2).dbc = s.dbc ∧
    ((runLine h r s).2).lb.remoteLines = s.lb.remoteLines ∧ ((runLine h r s).2).lb.pulse = s.lb.pulse ∧
    ((runLine h r s).2).slc = s.slc ∧ ((runLine h r s).2).fe = s.fe ∧ ((runLine h r s).2).lt = s.lt := by
  unfold runLine; dsimp only; (repeat' split) <;> simp

@[simp] theorem applyPair_frame (b : Byte) (s : State) :
    (applyPair s b).inReset = s.inReset ∧ (applyPair s b).free = s.free ∧ (applyPair s b).pending = s.pending ∧
    (applyPair s b).now = s.now ∧ (applyPair s b).hp = s.hp ∧ (applyPair s b).rt = s.rt ∧ (applyPair s b).iq = s.iq ∧
    (applyPair s b).da = s.da ∧ (applyPair s b).dbc = s.dbc ∧ (applyPair s b).lb.mirrorPending = s.lb.mirrorPending ∧
    (applyPair s b).lb.remoteLines = s.lb.remoteLines ∧ (applyPair s b).lb.pulse = s.lb.pulse ∧
    (applyPair s b).slc = s.slc ∧ (applyPair s b).fe = s.fe ∧ (applyPair s b).eu.outbox = s.eu.outbox ∧
    (applyPair s b).lt = s.lt := by
  unfold applyPair; dsimp only; (repeat' split) <;> simp

@[simp] theorem applyPairs_frame (p : List Byte) (s : State) :
    (applyPairs p s).inReset = s.inReset ∧ (applyPairs p s).free = s.free ∧ (applyPairs p s).pending = s.pending ∧
    (applyPairs p s).now = s.now ∧ (applyPairs p s).hp = s.hp ∧ (applyPairs p s).rt = s.rt ∧ (applyPairs p s).iq = s.iq ∧
    (applyPairs p s).da = s.da ∧ (applyPairs p s).dbc = s.dbc ∧ (applyPairs p s).lb.mirrorPending = s.lb.mirrorPending ∧
    (applyPairs p s).lb.remoteLines = s.lb.remoteLines ∧ (applyPairs p s).lb.pulse = s.lb.pulse ∧
    (applyPairs p s).slc = s.slc ∧ (applyPairs p s).fe = s.fe ∧ (applyPairs p s).eu.outbox = s.eu.outbox ∧
    (applyPairs p s).lt = s.lt := by
  induction p generalizing s with
  | nil => simp [applyPairs]
  | cons b p ih => simpa [applyPairs] using ih (applyPair s b)

@[simp] theorem linesAtLoss_frame  (s : State) :
    (linesAtLoss s).inReset = s.inReset ∧ (linesAtLoss s).free = s.free ∧ (linesAtLoss s).pending = s.pending ∧
    (linesAtLoss s).now = s.now ∧ (linesAtLoss s).hp = s.hp ∧ (linesAtLoss s).rt = s.rt ∧ (linesAtLoss s).iq = s.iq ∧
    (linesAtLoss s).da = s.da ∧ (linesAtLoss s).dbc = s.dbc ∧ (linesAtLoss s).lb.mirrorPending = s.lb.mirrorPending ∧
    (linesAtLoss s).lb.remoteLines = s.lb.remoteLines ∧ (linesAtLoss s).lb.pulse = s.lb.pulse ∧
    (linesAtLoss s).slc = s.slc ∧ (linesAtLoss s).fe = s.fe ∧ (linesAtLoss s).eu = s.eu ∧ (linesAtLoss s).lt = s.lt := by
  simp [linesAtLoss]

theorem raiseLost_fold (ls : List LineNo) (s : State) :
    (ls.foldl (fun s l => raiseRemote .lineLost (toByte l.val) 0 s) s) =
      { s with eu.outbox := (ls.foldl (fun s l => raiseRemote .lineLost (toByte l.val) 0 s) s).eu.outbox } := by
  induction ls generalizing s with
  | nil => rfl
  | cons l ls ih =>
    simp only [List.foldl_cons]
    rw [ih]
    unfold raiseRemote
    split <;> rfl

@[simp] theorem setRemoteLines_frame (m : LineMask) (s : State) :
    (setRemoteLines m s).inReset = s.inReset ∧ (setRemoteLines m s).free = s.free ∧
    (setRemoteLines m s).pending = s.pending ∧ (setRemoteLines m s).now = s.now ∧ (setRemoteLines m s).hp = s.hp ∧
    (setRemoteLines m s).rt = s.rt ∧ (setRemoteLines m s).iq = s.iq ∧ (setRemoteLines m s).da = s.da ∧
    (setRemoteLines m s).dbc = s.dbc ∧ (setRemoteLines m s).lb.mirrorPending = s.lb.mirrorPending ∧
    (setRemoteLines m s).lb.pulse = s.lb.pulse ∧ (setRemoteLines m s).slc = s.slc ∧ (setRemoteLines m s).fe = s.fe ∧
    (setRemoteLines m s).eu.eventQueue = s.eu.eventQueue ∧ (setRemoteLines m s).lt = s.lt := by
  unfold setRemoteLines; dsimp only; rw [raiseLost_fold]; simp

@[simp] theorem clearFlags_frame  (s : State) :
    (clearFlags s).inReset = s.inReset ∧ (clearFlags s).free = s.free ∧ (clearFlags s).pending = s.pending ∧
    (clearFlags s).now = s.now ∧ (clearFlags s).hp = s.hp ∧ (clearFlags s).rt = s.rt ∧ (clearFlags s).iq = s.iq ∧
    (clearFlags s).da = s.da ∧ (clearFlags s).dbc = s.dbc ∧ (clearFlags s).lb.mirrorPending = s.lb.mirrorPending ∧
    (clearFlags s).lb.remoteLines = s.lb.remoteLines ∧ (clearFlags s).slc = s.slc ∧ (clearFlags s).fe = s.fe ∧
    (clearFlags s).eu = s.eu ∧ (clearFlags s).lt = s.lt := by
  simp [clearFlags]

@[simp] theorem flagError_frame  (s : State) :
    (flagError s).inReset = s.inReset ∧ (flagError s).free = s.free ∧ (flagError s).pending = s.pending ∧
    (flagError s).now = s.now ∧ (flagError s).hp = s.hp ∧ (flagError s).rt = s.rt ∧ (flagError s).iq = s.iq ∧
    (flagError s).da = s.da ∧ (flagError s).dbc = s.dbc ∧ (flagError s).lb.mirrorPending = s.lb.mirrorPending ∧
    (flagError s).lb.remoteLines = s.lb.remoteLines ∧ (flagError s).slc = s.slc ∧ (flagError s).fe = s.fe ∧
    (flagError s).eu = s.eu ∧ (flagError s).lt = s.lt := by
  simp [flagError]

@[simp] theorem handOver_frame (ref : WorkRef) (r : Request) (s : State) :
    (handOver ref r s).inReset = s.inReset ∧ (handOver ref r s).free = s.free ∧ (handOver ref r s).pending = s.pending ∧
    (handOver ref r s).now = s.now ∧ (handOver ref r s).hp = s.hp ∧ (handOver ref r s).rt = s.rt ∧
    (handOver ref r s).iq = s.iq ∧ (handOver ref r s).da = s.da ∧ (handOver ref r s).lb = s.lb ∧
    (handOver ref r s).slc = s.slc ∧ (handOver ref r s).fe = s.fe ∧ (handOver ref r s).eu = s.eu ∧
    (handOver ref r s).lt = s.lt := by
  simp [handOver]

@[simp] theorem grantLease_frame (h : Origin) (r : Request) (s : State) :
    (grantLease h r s).inReset = s.inReset ∧ (grantLease h r s).free = s.free ∧ (grantLease h r s).pending = s.pending ∧
    (grantLease h r s).now = s.now ∧ (grantLease h r s).hp = s.hp ∧ (grantLease h r s).rt = s.rt ∧
    (grantLease h r s).iq = s.iq ∧ (grantLease h r s).da.localList = s.da.localList ∧
    (grantLease h r s).da.remoteList = s.da.remoteList ∧ (grantLease h r s).da.turn = s.da.turn ∧
    (grantLease h r s).da.policy = s.da.policy ∧ (grantLease h r s).da.filter = s.da.filter ∧
    (grantLease h r s).dbc = s.dbc ∧ (grantLease h r s).lb = s.lb ∧ (grantLease h r s).slc = s.slc ∧
    (grantLease h r s).fe = s.fe ∧ (grantLease h r s).eu = s.eu ∧ (grantLease h r s).lt = s.lt := by
  simp [grantLease]

@[simp] theorem serveLocal_frame (t : Tag) (s : State) :
    (serveLocal t s).inReset = s.inReset ∧ (serveLocal t s).free = s.free ∧ (serveLocal t s).pending = s.pending ∧
    (serveLocal t s).now = s.now ∧ (serveLocal t s).hp = s.hp ∧ (serveLocal t s).iq = s.iq ∧
    (serveLocal t s).da.localList = s.da.localList ∧ (serveLocal t s).da.remoteList = s.da.remoteList ∧
    (serveLocal t s).da.turn = s.da.turn ∧ (serveLocal t s).da.policy = s.da.policy ∧
    (serveLocal t s).da.filter = s.da.filter ∧ (serveLocal t s).lb = s.lb ∧ (serveLocal t s).slc = s.slc ∧
    (serveLocal t s).fe.txSeq = s.fe.txSeq ∧ (serveLocal t s).fe.window = s.fe.window ∧
    (serveLocal t s).fe.goBack = s.fe.goBack ∧ (serveLocal t s).fe.stall = s.fe.stall ∧
    (serveLocal t s).fe.progress = s.fe.progress ∧ (serveLocal t s).fe.expected = s.fe.expected ∧
    (serveLocal t s).fe.lastRet = s.fe.lastRet ∧ (serveLocal t s).fe.resend = s.fe.resend ∧
    (serveLocal t s).fe.credits = s.fe.credits ∧ (serveLocal t s).fe.retCount = s.fe.retCount ∧
    (serveLocal t s).fe.releaseAll = s.fe.releaseAll ∧ (serveLocal t s).fe.runLines = s.fe.runLines ∧
    (serveLocal t s).fe.crcErrors = s.fe.crcErrors ∧ (serveLocal t s).fe.sending = s.fe.sending ∧
    (serveLocal t s).fe.sendEnd = s.fe.sendEnd ∧ (serveLocal t s).fe.awaitReply = s.fe.awaitReply ∧
    (serveLocal t s).fe.replyDue = s.fe.replyDue ∧ (serveLocal t s).fe.replyHello = s.fe.replyHello ∧ (serveLocal t s).fe.helloTaken = s.fe.helloTaken ∧
    (serveLocal t s).fe.turnOpened = s.fe.turnOpened ∧ (serveLocal t s).fe.earliest = s.fe.earliest ∧
    (serveLocal t s).fe.hurry = s.fe.hurry ∧ (serveLocal t s).eu = s.eu ∧ (serveLocal t s).lt = s.lt := by
  unfold serveLocal; dsimp only; (repeat' split) <;> simp

@[simp] theorem serveRemote_frame (i : Slot) (s : State) :
    (serveRemote i s).inReset = s.inReset ∧ (serveRemote i s).free = s.free ∧ (serveRemote i s).pending = s.pending ∧
    (serveRemote i s).now = s.now ∧ (serveRemote i s).hp = s.hp ∧ (serveRemote i s).rt = s.rt ∧
    (serveRemote i s).iq.arrival = s.iq.arrival ∧ (serveRemote i s).da.localList = s.da.localList ∧
    (serveRemote i s).da.remoteList = s.da.remoteList ∧ (serveRemote i s).da.turn = s.da.turn ∧
    (serveRemote i s).da.policy = s.da.policy ∧ (serveRemote i s).da.filter = s.da.filter ∧ (serveRemote i s).lb = s.lb ∧
    (serveRemote i s).slc = s.slc ∧ (serveRemote i s).fe = s.fe ∧ (serveRemote i s).eu = s.eu ∧
    (serveRemote i s).lt = s.lt := by
  unfold serveRemote; (repeat' split) <;> simp

@[simp] theorem serveHead_frame (h : Origin) (s : State) :
    (serveHead h s).inReset = s.inReset ∧ (serveHead h s).free = s.free ∧ (serveHead h s).pending = s.pending ∧
    (serveHead h s).now = s.now ∧ (serveHead h s).hp = s.hp ∧ (serveHead h s).iq.arrival = s.iq.arrival ∧
    (serveHead h s).da.policy = s.da.policy ∧ (serveHead h s).da.filter = s.da.filter ∧ (serveHead h s).lb = s.lb ∧
    (serveHead h s).slc = s.slc ∧ (serveHead h s).fe.txSeq = s.fe.txSeq ∧ (serveHead h s).fe.window = s.fe.window ∧
    (serveHead h s).fe.goBack = s.fe.goBack ∧ (serveHead h s).fe.stall = s.fe.stall ∧
    (serveHead h s).fe.progress = s.fe.progress ∧ (serveHead h s).fe.expected = s.fe.expected ∧
    (serveHead h s).fe.lastRet = s.fe.lastRet ∧ (serveHead h s).fe.resend = s.fe.resend ∧
    (serveHead h s).fe.credits = s.fe.credits ∧ (serveHead h s).fe.retCount = s.fe.retCount ∧
    (serveHead h s).fe.releaseAll = s.fe.releaseAll ∧ (serveHead h s).fe.runLines = s.fe.runLines ∧
    (serveHead h s).fe.crcErrors = s.fe.crcErrors ∧ (serveHead h s).fe.sending = s.fe.sending ∧
    (serveHead h s).fe.sendEnd = s.fe.sendEnd ∧ (serveHead h s).fe.awaitReply = s.fe.awaitReply ∧
    (serveHead h s).fe.replyDue = s.fe.replyDue ∧ (serveHead h s).fe.replyHello = s.fe.replyHello ∧ (serveHead h s).fe.helloTaken = s.fe.helloTaken ∧
    (serveHead h s).fe.turnOpened = s.fe.turnOpened ∧ (serveHead h s).fe.earliest = s.fe.earliest ∧
    (serveHead h s).fe.hurry = s.fe.hurry ∧ (serveHead h s).eu = s.eu ∧ (serveHead h s).lt = s.lt := by
  unfold serveHead; (repeat' split) <;> simp

@[simp] theorem selectLoop_frame (n : Nat) (s : State) :
    (selectLoop n s).inReset = s.inReset ∧ (selectLoop n s).free = s.free ∧ (selectLoop n s).pending = s.pending ∧
    (selectLoop n s).now = s.now ∧ (selectLoop n s).hp = s.hp ∧ (selectLoop n s).iq.arrival = s.iq.arrival ∧
    (selectLoop n s).da.policy = s.da.policy ∧ (selectLoop n s).da.filter = s.da.filter ∧ (selectLoop n s).lb = s.lb ∧
    (selectLoop n s).slc = s.slc ∧ (selectLoop n s).fe.txSeq = s.fe.txSeq ∧ (selectLoop n s).fe.window = s.fe.window ∧
    (selectLoop n s).fe.goBack = s.fe.goBack ∧ (selectLoop n s).fe.stall = s.fe.stall ∧
    (selectLoop n s).fe.progress = s.fe.progress ∧ (selectLoop n s).fe.expected = s.fe.expected ∧
    (selectLoop n s).fe.lastRet = s.fe.lastRet ∧ (selectLoop n s).fe.resend = s.fe.resend ∧
    (selectLoop n s).fe.credits = s.fe.credits ∧ (selectLoop n s).fe.retCount = s.fe.retCount ∧
    (selectLoop n s).fe.releaseAll = s.fe.releaseAll ∧ (selectLoop n s).fe.runLines = s.fe.runLines ∧
    (selectLoop n s).fe.crcErrors = s.fe.crcErrors ∧ (selectLoop n s).fe.sending = s.fe.sending ∧
    (selectLoop n s).fe.sendEnd = s.fe.sendEnd ∧ (selectLoop n s).fe.awaitReply = s.fe.awaitReply ∧
    (selectLoop n s).fe.replyDue = s.fe.replyDue ∧ (selectLoop n s).fe.replyHello = s.fe.replyHello ∧ (selectLoop n s).fe.helloTaken = s.fe.helloTaken ∧
    (selectLoop n s).fe.turnOpened = s.fe.turnOpened ∧ (selectLoop n s).fe.earliest = s.fe.earliest ∧
    (selectLoop n s).fe.hurry = s.fe.hurry ∧ (selectLoop n s).eu = s.eu ∧ (selectLoop n s).lt = s.lt := by
  induction n generalizing s with
  | zero => simp [selectLoop]
  | succ n ih => unfold selectLoop; (repeat' split) <;> simp [ih]

@[simp] theorem select_frame  (s : State) :
    (select s).inReset = s.inReset ∧ (select s).free = s.free ∧ (select s).pending = s.pending ∧ (select s).now = s.now ∧
    (select s).hp = s.hp ∧ (select s).iq.arrival = s.iq.arrival ∧ (select s).da.policy = s.da.policy ∧
    (select s).da.filter = s.da.filter ∧ (select s).lb = s.lb ∧ (select s).slc = s.slc ∧
    (select s).fe.txSeq = s.fe.txSeq ∧
    (select s).fe.window = s.fe.window ∧ (select s).fe.goBack = s.fe.goBack ∧ (select s).fe.stall = s.fe.stall ∧
    (select s).fe.progress = s.fe.progress ∧ (select s).fe.expected = s.fe.expected ∧
    (select s).fe.lastRet = s.fe.lastRet ∧ (select s).fe.resend = s.fe.resend ∧ (select s).fe.credits = s.fe.credits ∧
    (select s).fe.retCount = s.fe.retCount ∧ (select s).fe.releaseAll = s.fe.releaseAll ∧
    (select s).fe.runLines = s.fe.runLines ∧ (select s).fe.crcErrors = s.fe.crcErrors ∧
    (select s).fe.sending = s.fe.sending ∧ (select s).fe.sendEnd = s.fe.sendEnd ∧
    (select s).fe.awaitReply = s.fe.awaitReply ∧ (select s).fe.replyDue = s.fe.replyDue ∧ (select s).fe.replyHello = s.fe.replyHello ∧
    (select s).fe.helloTaken = s.fe.helloTaken ∧ (select s).fe.turnOpened = s.fe.turnOpened ∧
    (select s).fe.earliest = s.fe.earliest ∧ (select s).fe.hurry = s.fe.hurry ∧ (select s).eu = s.eu ∧
    (select s).lt = s.lt := by
  simp [select]

@[simp] theorem leaseDrop_frame (h : Origin) (s : State) :
    ((leaseDrop h s).2).inReset = s.inReset ∧ ((leaseDrop h s).2).free = s.free ∧
    ((leaseDrop h s).2).pending = s.pending ∧
    ((leaseDrop h s).2).now = s.now ∧ ((leaseDrop h s).2).hp = s.hp ∧ ((leaseDrop h s).2).rt = s.rt ∧
    ((leaseDrop h s).2).iq = s.iq ∧ ((leaseDrop h s).2).da.localList = s.da.localList ∧
    ((leaseDrop h s).2).da.remoteList = s.da.remoteList ∧ ((leaseDrop h s).2).da.turn = s.da.turn ∧
    ((leaseDrop h s).2).da.policy = s.da.policy ∧ ((leaseDrop h s).2).da.filter = s.da.filter ∧
    ((leaseDrop h s).2).dbc = s.dbc ∧ ((leaseDrop h s).2).lb = s.lb ∧ ((leaseDrop h s).2).slc = s.slc ∧
    ((leaseDrop h s).2).fe = s.fe ∧ ((leaseDrop h s).2).eu = s.eu ∧ ((leaseDrop h s).2).lt = s.lt := by
  unfold leaseDrop; (repeat' split) <;> simp

@[simp] theorem endLease_frame (h : Origin) (s : State) :
    (endLease h s).inReset = s.inReset ∧ (endLease h s).free = s.free ∧ (endLease h s).pending = s.pending ∧
    (endLease h s).now = s.now ∧ (endLease h s).hp = s.hp ∧ (endLease h s).rt = s.rt ∧ (endLease h s).iq = s.iq ∧
    (endLease h s).da.localList = s.da.localList ∧ (endLease h s).da.remoteList = s.da.remoteList ∧
    (endLease h s).da.turn = s.da.turn ∧ (endLease h s).da.policy = s.da.policy ∧ (endLease h s).da.filter = s.da.filter ∧
    (endLease h s).dbc = s.dbc ∧ (endLease h s).lb = s.lb ∧ (endLease h s).slc = s.slc ∧ (endLease h s).fe = s.fe ∧
    (endLease h s).eu = s.eu ∧ (endLease h s).lt = s.lt := by
  unfold endLease; (repeat' split) <;> simp

@[simp] theorem leaseExpiry_frame  (s : State) :
    (leaseExpiry s).inReset = s.inReset ∧ (leaseExpiry s).free = s.free ∧ (leaseExpiry s).pending = s.pending ∧
    (leaseExpiry s).hp = s.hp ∧ (leaseExpiry s).iq.arrival = s.iq.arrival ∧ (leaseExpiry s).da.policy = s.da.policy ∧
    (leaseExpiry s).da.filter = s.da.filter ∧ (leaseExpiry s).lb = s.lb ∧ (leaseExpiry s).slc = s.slc ∧
    (leaseExpiry s).fe.txSeq = s.fe.txSeq ∧ (leaseExpiry s).fe.window = s.fe.window ∧
    (leaseExpiry s).fe.goBack = s.fe.goBack ∧ (leaseExpiry s).fe.stall = s.fe.stall ∧
    (leaseExpiry s).fe.progress = s.fe.progress ∧ (leaseExpiry s).fe.expected = s.fe.expected ∧
    (leaseExpiry s).fe.lastRet = s.fe.lastRet ∧ (leaseExpiry s).fe.resend = s.fe.resend ∧
    (leaseExpiry s).fe.credits = s.fe.credits ∧ (leaseExpiry s).fe.retCount = s.fe.retCount ∧
    (leaseExpiry s).fe.releaseAll = s.fe.releaseAll ∧ (leaseExpiry s).fe.runLines = s.fe.runLines ∧
    (leaseExpiry s).fe.crcErrors = s.fe.crcErrors ∧ (leaseExpiry s).fe.sending = s.fe.sending ∧
    (leaseExpiry s).fe.sendEnd = s.fe.sendEnd ∧ (leaseExpiry s).fe.awaitReply = s.fe.awaitReply ∧
    (leaseExpiry s).fe.replyDue = s.fe.replyDue ∧ (leaseExpiry s).fe.replyHello = s.fe.replyHello ∧ (leaseExpiry s).fe.helloTaken = s.fe.helloTaken ∧
    (leaseExpiry s).fe.turnOpened = s.fe.turnOpened ∧ (leaseExpiry s).fe.earliest = s.fe.earliest ∧
    (leaseExpiry s).fe.hurry = s.fe.hurry ∧ (leaseExpiry s).lt = s.lt := by
  unfold leaseExpiry; split <;> simp

@[simp] theorem setPolicy_frame (p : BusPolicy) (s : State) :
    (setPolicy p s).inReset = s.inReset ∧ (setPolicy p s).free = s.free ∧ (setPolicy p s).pending = s.pending ∧
    (setPolicy p s).now = s.now ∧ (setPolicy p s).hp = s.hp ∧ (setPolicy p s).iq.arrival = s.iq.arrival ∧
    (setPolicy p s).da.filter = s.da.filter ∧ (setPolicy p s).lb = s.lb ∧ (setPolicy p s).slc = s.slc ∧
    (setPolicy p s).fe.txSeq = s.fe.txSeq ∧ (setPolicy p s).fe.window = s.fe.window ∧
    (setPolicy p s).fe.goBack = s.fe.goBack ∧ (setPolicy p s).fe.stall = s.fe.stall ∧
    (setPolicy p s).fe.progress = s.fe.progress ∧ (setPolicy p s).fe.expected = s.fe.expected ∧
    (setPolicy p s).fe.lastRet = s.fe.lastRet ∧ (setPolicy p s).fe.resend = s.fe.resend ∧
    (setPolicy p s).fe.credits = s.fe.credits ∧ (setPolicy p s).fe.retCount = s.fe.retCount ∧
    (setPolicy p s).fe.releaseAll = s.fe.releaseAll ∧ (setPolicy p s).fe.runLines = s.fe.runLines ∧
    (setPolicy p s).fe.crcErrors = s.fe.crcErrors ∧ (setPolicy p s).fe.sending = s.fe.sending ∧
    (setPolicy p s).fe.sendEnd = s.fe.sendEnd ∧ (setPolicy p s).fe.awaitReply = s.fe.awaitReply ∧
    (setPolicy p s).fe.replyDue = s.fe.replyDue ∧ (setPolicy p s).fe.replyHello = s.fe.replyHello ∧ (setPolicy p s).fe.helloTaken = s.fe.helloTaken ∧
    (setPolicy p s).fe.turnOpened = s.fe.turnOpened ∧ (setPolicy p s).fe.earliest = s.fe.earliest ∧
    (setPolicy p s).fe.hurry = s.fe.hurry ∧ (setPolicy p s).lt = s.lt := by
  unfold setPolicy; dsimp only; (repeat' split) <;> simp

@[simp] theorem routeResult_frame (ref : WorkRef) (a : Answer) (s : State) :
    (routeResult ref a s).inReset = s.inReset ∧ (routeResult ref a s).free = s.free ∧
    (routeResult ref a s).pending = s.pending ∧ (routeResult ref a s).now = s.now ∧ (routeResult ref a s).hp = s.hp ∧
    (routeResult ref a s).da = s.da ∧ (routeResult ref a s).dbc = s.dbc ∧ (routeResult ref a s).lb = s.lb ∧
    (routeResult ref a s).slc = s.slc ∧ (routeResult ref a s).fe.txSeq = s.fe.txSeq ∧
    (routeResult ref a s).fe.window = s.fe.window ∧ (routeResult ref a s).fe.goBack = s.fe.goBack ∧
    (routeResult ref a s).fe.stall = s.fe.stall ∧ (routeResult ref a s).fe.progress = s.fe.progress ∧
    (routeResult ref a s).fe.expected = s.fe.expected ∧ (routeResult ref a s).fe.lastRet = s.fe.lastRet ∧
    (routeResult ref a s).fe.resend = s.fe.resend ∧ (routeResult ref a s).fe.credits = s.fe.credits ∧
    (routeResult ref a s).fe.retCount = s.fe.retCount ∧ (routeResult ref a s).fe.releaseAll = s.fe.releaseAll ∧
    (routeResult ref a s).fe.runLines = s.fe.runLines ∧ (routeResult ref a s).fe.crcErrors = s.fe.crcErrors ∧
    (routeResult ref a s).fe.sending = s.fe.sending ∧ (routeResult ref a s).fe.sendEnd = s.fe.sendEnd ∧
    (routeResult ref a s).fe.awaitReply = s.fe.awaitReply ∧ (routeResult ref a s).fe.replyDue = s.fe.replyDue ∧ (routeResult ref a s).fe.replyHello = s.fe.replyHello ∧
    (routeResult ref a s).fe.helloTaken = s.fe.helloTaken ∧ (routeResult ref a s).fe.turnOpened = s.fe.turnOpened ∧
    (routeResult ref a s).fe.earliest = s.fe.earliest ∧ (routeResult ref a s).fe.hurry = s.fe.hurry ∧
    (routeResult ref a s).eu = s.eu ∧ (routeResult ref a s).lt = s.lt := by
  unfold routeResult; (repeat' split) <;> simp

theorem answerAll_fold (is : List Slot) (a : Answer) (s : State) :
    (is.foldl (fun s i => answerSlot i a s) s) =
      { s with
        iq.slots := (is.foldl (fun s i => answerSlot i a s) s).iq.slots
        iq.answerOrder := (is.foldl (fun s i => answerSlot i a s) s).iq.answerOrder } := by
  induction is generalizing s with
  | nil => rfl
  | cons i is ih =>
    simp only [List.foldl_cons]
    rw [ih]
    unfold answerSlot
    split <;> (try split) <;> rfl

@[simp] theorem faultPurge_frame  (s : State) :
    (faultPurge s).inReset = s.inReset ∧ (faultPurge s).free = s.free ∧ (faultPurge s).pending = s.pending ∧
    (faultPurge s).now = s.now ∧ (faultPurge s).hp = s.hp ∧ (faultPurge s).iq.arrival = s.iq.arrival ∧
    (faultPurge s).da.turn = s.da.turn ∧ (faultPurge s).da.lease = s.da.lease ∧ (faultPurge s).da.policy = s.da.policy ∧
    (faultPurge s).da.filter = s.da.filter ∧ (faultPurge s).dbc = s.dbc ∧ (faultPurge s).lb = s.lb ∧
    (faultPurge s).slc = s.slc ∧ (faultPurge s).fe.txSeq = s.fe.txSeq ∧ (faultPurge s).fe.window = s.fe.window ∧
    (faultPurge s).fe.goBack = s.fe.goBack ∧ (faultPurge s).fe.stall = s.fe.stall ∧
    (faultPurge s).fe.progress = s.fe.progress ∧ (faultPurge s).fe.expected = s.fe.expected ∧
    (faultPurge s).fe.lastRet = s.fe.lastRet ∧ (faultPurge s).fe.resend = s.fe.resend ∧
    (faultPurge s).fe.credits = s.fe.credits ∧ (faultPurge s).fe.retCount = s.fe.retCount ∧
    (faultPurge s).fe.releaseAll = s.fe.releaseAll ∧ (faultPurge s).fe.runLines = s.fe.runLines ∧
    (faultPurge s).fe.crcErrors = s.fe.crcErrors ∧ (faultPurge s).fe.sending = s.fe.sending ∧
    (faultPurge s).fe.sendEnd = s.fe.sendEnd ∧ (faultPurge s).fe.awaitReply = s.fe.awaitReply ∧
    (faultPurge s).fe.replyDue = s.fe.replyDue ∧ (faultPurge s).fe.replyHello = s.fe.replyHello ∧ (faultPurge s).fe.helloTaken = s.fe.helloTaken ∧
    (faultPurge s).fe.turnOpened = s.fe.turnOpened ∧ (faultPurge s).fe.earliest = s.fe.earliest ∧
    (faultPurge s).fe.hurry = s.fe.hurry ∧ (faultPurge s).eu = s.eu ∧ (faultPurge s).lt = s.lt := by
  unfold faultPurge; dsimp only; rw [answerAll_fold]; simp

@[simp] theorem endWork_frame (a : Answer) (c : Option StuckCause) (s : State) :
    (endWork a c s).inReset = s.inReset ∧ (endWork a c s).free = s.free ∧ (endWork a c s).pending = s.pending ∧
    (endWork a c s).now = s.now ∧ (endWork a c s).hp = s.hp ∧ (endWork a c s).da.policy = s.da.policy ∧
    (endWork a c s).da.filter = s.da.filter ∧ (endWork a c s).lb = s.lb ∧ (endWork a c s).slc = s.slc ∧
    (endWork a c s).fe.txSeq = s.fe.txSeq ∧ (endWork a c s).fe.window = s.fe.window ∧
    (endWork a c s).fe.goBack = s.fe.goBack ∧ (endWork a c s).fe.stall = s.fe.stall ∧
    (endWork a c s).fe.progress = s.fe.progress ∧ (endWork a c s).fe.expected = s.fe.expected ∧
    (endWork a c s).fe.lastRet = s.fe.lastRet ∧ (endWork a c s).fe.resend = s.fe.resend ∧
    (endWork a c s).fe.credits = s.fe.credits ∧ (endWork a c s).fe.retCount = s.fe.retCount ∧
    (endWork a c s).fe.releaseAll = s.fe.releaseAll ∧ (endWork a c s).fe.runLines = s.fe.runLines ∧
    (endWork a c s).fe.crcErrors = s.fe.crcErrors ∧ (endWork a c s).fe.sending = s.fe.sending ∧
    (endWork a c s).fe.sendEnd = s.fe.sendEnd ∧ (endWork a c s).fe.awaitReply = s.fe.awaitReply ∧
    (endWork a c s).fe.replyDue = s.fe.replyDue ∧ (endWork a c s).fe.replyHello = s.fe.replyHello ∧ (endWork a c s).fe.helloTaken = s.fe.helloTaken ∧
    (endWork a c s).fe.turnOpened = s.fe.turnOpened ∧ (endWork a c s).fe.earliest = s.fe.earliest ∧
    (endWork a c s).fe.hurry = s.fe.hurry ∧ (endWork a c s).lt = s.lt := by
  unfold endWork; dsimp only; (repeat' split) <;> simp

@[simp] theorem transactionEnd_frame (acks : List Bool) (rx : List Byte) (s : State) :
    (transactionEnd acks rx s).inReset = s.inReset ∧ (transactionEnd acks rx s).free = s.free ∧
    (transactionEnd acks rx s).pending = s.pending ∧ (transactionEnd acks rx s).now = s.now ∧
    (transactionEnd acks rx s).hp = s.hp ∧ (transactionEnd acks rx s).da.policy = s.da.policy ∧
    (transactionEnd acks rx s).da.filter = s.da.filter ∧ (transactionEnd acks rx s).lb = s.lb ∧
    (transactionEnd acks rx s).slc = s.slc ∧ (transactionEnd acks rx s).fe.txSeq = s.fe.txSeq ∧
    (transactionEnd acks rx s).fe.window = s.fe.window ∧ (transactionEnd acks rx s).fe.goBack = s.fe.goBack ∧
    (transactionEnd acks rx s).fe.stall = s.fe.stall ∧ (transactionEnd acks rx s).fe.progress = s.fe.progress ∧
    (transactionEnd acks rx s).fe.expected = s.fe.expected ∧ (transactionEnd acks rx s).fe.lastRet = s.fe.lastRet ∧
    (transactionEnd acks rx s).fe.resend = s.fe.resend ∧ (transactionEnd acks rx s).fe.credits = s.fe.credits ∧
    (transactionEnd acks rx s).fe.retCount = s.fe.retCount ∧ (transactionEnd acks rx s).fe.releaseAll = s.fe.releaseAll ∧
    (transactionEnd acks rx s).fe.runLines = s.fe.runLines ∧ (transactionEnd acks rx s).fe.crcErrors = s.fe.crcErrors ∧
    (transactionEnd acks rx s).fe.sending = s.fe.sending ∧ (transactionEnd acks rx s).fe.sendEnd = s.fe.sendEnd ∧
    (transactionEnd acks rx s).fe.awaitReply = s.fe.awaitReply ∧ (transactionEnd acks rx s).fe.replyDue = s.fe.replyDue ∧ (transactionEnd acks rx s).fe.replyHello = s.fe.replyHello ∧
    (transactionEnd acks rx s).fe.helloTaken = s.fe.helloTaken ∧
    (transactionEnd acks rx s).fe.turnOpened = s.fe.turnOpened ∧ (transactionEnd acks rx s).fe.earliest = s.fe.earliest ∧
    (transactionEnd acks rx s).fe.hurry = s.fe.hurry ∧ (transactionEnd acks rx s).lt = s.lt := by
  unfold transactionEnd; split <;> simp

@[simp] theorem startRecovery_frame (c : StuckCause) (w : Work) (s : State) :
    (startRecovery c w s).inReset = s.inReset ∧ (startRecovery c w s).free = s.free ∧
    (startRecovery c w s).pending = s.pending ∧ (startRecovery c w s).now = s.now ∧ (startRecovery c w s).hp = s.hp ∧
    (startRecovery c w s).rt = s.rt ∧ (startRecovery c w s).iq = s.iq ∧ (startRecovery c w s).da = s.da ∧
    (startRecovery c w s).lb = s.lb ∧ (startRecovery c w s).slc = s.slc ∧ (startRecovery c w s).fe = s.fe ∧
    (startRecovery c w s).eu = s.eu ∧ (startRecovery c w s).lt = s.lt := by
  simp [startRecovery]

@[simp] theorem stuckAtStart_frame  (s : State) :
    (stuckAtStart s).inReset = s.inReset ∧ (stuckAtStart s).free = s.free ∧ (stuckAtStart s).pending = s.pending ∧
    (stuckAtStart s).now = s.now ∧ (stuckAtStart s).hp = s.hp ∧ (stuckAtStart s).rt = s.rt ∧ (stuckAtStart s).iq = s.iq ∧
    (stuckAtStart s).da = s.da ∧ (stuckAtStart s).lb = s.lb ∧ (stuckAtStart s).slc = s.slc ∧ (stuckAtStart s).fe = s.fe ∧
    (stuckAtStart s).eu = s.eu ∧ (stuckAtStart s).lt = s.lt := by
  unfold stuckAtStart; split <;> simp

@[simp] theorem endRecovery_frame (c : Option StuckCause) (s : State) :
    (endRecovery c s).inReset = s.inReset ∧ (endRecovery c s).free = s.free ∧ (endRecovery c s).pending = s.pending ∧
    (endRecovery c s).now = s.now ∧ (endRecovery c s).hp = s.hp ∧ (endRecovery c s).da.policy = s.da.policy ∧
    (endRecovery c s).da.filter = s.da.filter ∧ (endRecovery c s).lb = s.lb ∧ (endRecovery c s).slc = s.slc ∧
    (endRecovery c s).fe.txSeq = s.fe.txSeq ∧ (endRecovery c s).fe.window = s.fe.window ∧
    (endRecovery c s).fe.goBack = s.fe.goBack ∧ (endRecovery c s).fe.stall = s.fe.stall ∧
    (endRecovery c s).fe.progress = s.fe.progress ∧ (endRecovery c s).fe.expected = s.fe.expected ∧
    (endRecovery c s).fe.lastRet = s.fe.lastRet ∧ (endRecovery c s).fe.resend = s.fe.resend ∧
    (endRecovery c s).fe.credits = s.fe.credits ∧ (endRecovery c s).fe.retCount = s.fe.retCount ∧
    (endRecovery c s).fe.releaseAll = s.fe.releaseAll ∧ (endRecovery c s).fe.runLines = s.fe.runLines ∧
    (endRecovery c s).fe.crcErrors = s.fe.crcErrors ∧ (endRecovery c s).fe.sending = s.fe.sending ∧
    (endRecovery c s).fe.sendEnd = s.fe.sendEnd ∧ (endRecovery c s).fe.awaitReply = s.fe.awaitReply ∧
    (endRecovery c s).fe.replyDue = s.fe.replyDue ∧ (endRecovery c s).fe.replyHello = s.fe.replyHello ∧ (endRecovery c s).fe.helloTaken = s.fe.helloTaken ∧
    (endRecovery c s).fe.turnOpened = s.fe.turnOpened ∧ (endRecovery c s).fe.earliest = s.fe.earliest ∧
    (endRecovery c s).fe.hurry = s.fe.hurry ∧ (endRecovery c s).lt = s.lt := by
  unfold endRecovery; split <;> simp

@[simp] theorem stretchLimit_frame (release : SclRelease) (rx : List Byte) (s : State) :
    (stretchLimit release rx s).inReset = s.inReset ∧ (stretchLimit release rx s).free = s.free ∧
    (stretchLimit release rx s).pending = s.pending ∧ (stretchLimit release rx s).hp = s.hp ∧
    (stretchLimit release rx s).da.policy = s.da.policy ∧
    (stretchLimit release rx s).da.filter = s.da.filter ∧
    (stretchLimit release rx s).lb = s.lb ∧ (stretchLimit release rx s).slc = s.slc ∧
    (stretchLimit release rx s).fe.txSeq = s.fe.txSeq ∧ (stretchLimit release rx s).fe.window = s.fe.window ∧
    (stretchLimit release rx s).fe.goBack = s.fe.goBack ∧ (stretchLimit release rx s).fe.stall = s.fe.stall ∧
    (stretchLimit release rx s).fe.progress = s.fe.progress ∧
    (stretchLimit release rx s).fe.expected = s.fe.expected ∧
    (stretchLimit release rx s).fe.lastRet = s.fe.lastRet ∧
    (stretchLimit release rx s).fe.resend = s.fe.resend ∧
    (stretchLimit release rx s).fe.credits = s.fe.credits ∧
    (stretchLimit release rx s).fe.retCount = s.fe.retCount ∧
    (stretchLimit release rx s).fe.releaseAll = s.fe.releaseAll ∧
    (stretchLimit release rx s).fe.runLines = s.fe.runLines ∧
    (stretchLimit release rx s).fe.crcErrors = s.fe.crcErrors ∧
    (stretchLimit release rx s).fe.sending = s.fe.sending ∧
    (stretchLimit release rx s).fe.sendEnd = s.fe.sendEnd ∧
    (stretchLimit release rx s).fe.awaitReply = s.fe.awaitReply ∧
    (stretchLimit release rx s).fe.replyDue = s.fe.replyDue ∧ (stretchLimit release rx s).fe.replyHello = s.fe.replyHello ∧
    (stretchLimit release rx s).fe.helloTaken = s.fe.helloTaken ∧
    (stretchLimit release rx s).fe.turnOpened = s.fe.turnOpened ∧
    (stretchLimit release rx s).fe.earliest = s.fe.earliest ∧
    (stretchLimit release rx s).fe.hurry = s.fe.hurry ∧ (stretchLimit release rx s).lt = s.lt := by
  unfold stretchLimit; dsimp only; (repeat' split) <;> simp

@[simp] theorem recoveryEnd_frame (x : RecoverySamples) (s : State) :
    (recoveryEnd x s).inReset = s.inReset ∧ (recoveryEnd x s).free = s.free ∧ (recoveryEnd x s).pending = s.pending ∧
    (recoveryEnd x s).now = s.now ∧ (recoveryEnd x s).hp = s.hp ∧ (recoveryEnd x s).da.policy = s.da.policy ∧
    (recoveryEnd x s).da.filter = s.da.filter ∧ (recoveryEnd x s).lb = s.lb ∧ (recoveryEnd x s).slc = s.slc ∧
    (recoveryEnd x s).fe.txSeq = s.fe.txSeq ∧ (recoveryEnd x s).fe.window = s.fe.window ∧
    (recoveryEnd x s).fe.goBack = s.fe.goBack ∧ (recoveryEnd x s).fe.stall = s.fe.stall ∧
    (recoveryEnd x s).fe.progress = s.fe.progress ∧ (recoveryEnd x s).fe.expected = s.fe.expected ∧
    (recoveryEnd x s).fe.lastRet = s.fe.lastRet ∧ (recoveryEnd x s).fe.resend = s.fe.resend ∧
    (recoveryEnd x s).fe.credits = s.fe.credits ∧ (recoveryEnd x s).fe.retCount = s.fe.retCount ∧
    (recoveryEnd x s).fe.releaseAll = s.fe.releaseAll ∧ (recoveryEnd x s).fe.runLines = s.fe.runLines ∧
    (recoveryEnd x s).fe.crcErrors = s.fe.crcErrors ∧ (recoveryEnd x s).fe.sending = s.fe.sending ∧
    (recoveryEnd x s).fe.sendEnd = s.fe.sendEnd ∧ (recoveryEnd x s).fe.awaitReply = s.fe.awaitReply ∧
    (recoveryEnd x s).fe.replyDue = s.fe.replyDue ∧ (recoveryEnd x s).fe.replyHello = s.fe.replyHello ∧ (recoveryEnd x s).fe.helloTaken = s.fe.helloTaken ∧
    (recoveryEnd x s).fe.turnOpened = s.fe.turnOpened ∧ (recoveryEnd x s).fe.earliest = s.fe.earliest ∧
    (recoveryEnd x s).fe.hurry = s.fe.hurry ∧ (recoveryEnd x s).lt = s.lt := by
  unfold recoveryEnd; split <;> simp

@[simp] theorem completeOwner_frame (a : Answer) (s : State) :
    (completeOwner a s).inReset = s.inReset ∧ (completeOwner a s).free = s.free ∧
    (completeOwner a s).pending = s.pending ∧
    (completeOwner a s).now = s.now ∧ (completeOwner a s).hp = s.hp ∧ (completeOwner a s).iq = s.iq ∧
    (completeOwner a s).da = s.da ∧ (completeOwner a s).dbc = s.dbc ∧ (completeOwner a s).lb = s.lb ∧
    (completeOwner a s).slc = s.slc ∧ (completeOwner a s).fe.txSeq = s.fe.txSeq ∧
    (completeOwner a s).fe.window = s.fe.window ∧ (completeOwner a s).fe.goBack = s.fe.goBack ∧
    (completeOwner a s).fe.stall = s.fe.stall ∧ (completeOwner a s).fe.progress = s.fe.progress ∧
    (completeOwner a s).fe.expected = s.fe.expected ∧ (completeOwner a s).fe.lastRet = s.fe.lastRet ∧
    (completeOwner a s).fe.resend = s.fe.resend ∧ (completeOwner a s).fe.credits = s.fe.credits ∧
    (completeOwner a s).fe.retCount = s.fe.retCount ∧ (completeOwner a s).fe.releaseAll = s.fe.releaseAll ∧
    (completeOwner a s).fe.runLines = s.fe.runLines ∧ (completeOwner a s).fe.crcErrors = s.fe.crcErrors ∧
    (completeOwner a s).fe.sending = s.fe.sending ∧ (completeOwner a s).fe.sendEnd = s.fe.sendEnd ∧
    (completeOwner a s).fe.awaitReply = s.fe.awaitReply ∧ (completeOwner a s).fe.replyDue = s.fe.replyDue ∧ (completeOwner a s).fe.replyHello = s.fe.replyHello ∧
    (completeOwner a s).fe.helloTaken = s.fe.helloTaken ∧ (completeOwner a s).fe.turnOpened = s.fe.turnOpened ∧
    (completeOwner a s).fe.earliest = s.fe.earliest ∧ (completeOwner a s).fe.hurry = s.fe.hurry ∧
    (completeOwner a s).eu = s.eu ∧ (completeOwner a s).lt = s.lt := by
  unfold completeOwner; (repeat' split) <;> simp

@[simp] theorem endTest_frame  (s : State) :
    (endTest s).inReset = s.inReset ∧ (endTest s).free = s.free ∧ (endTest s).pending = s.pending ∧
    (endTest s).now = s.now ∧ (endTest s).hp = s.hp ∧ (endTest s).rt = s.rt ∧ (endTest s).iq = s.iq ∧
    (endTest s).da = s.da ∧ (endTest s).dbc = s.dbc ∧ (endTest s).lb = s.lb ∧ (endTest s).slc = s.slc ∧
    (endTest s).fe = s.fe ∧ (endTest s).eu = s.eu ∧ (endTest s).lt.owner = s.lt.owner ∧
    (endTest s).lt.generator = s.lt.generator ∧ (endTest s).lt.duration = s.lt.duration ∧
    (endTest s).lt.pattern = s.lt.pattern ∧ (endTest s).lt.style = s.lt.style ∧
    (endTest s).lt.readyTaken = s.lt.readyTaken ∧ (endTest s).lt.readyBuilt = s.lt.readyBuilt ∧
    (endTest s).lt.durationDone = s.lt.durationDone ∧ (endTest s).lt.bits = s.lt.bits ∧
    (endTest s).lt.errors = s.lt.errors ∧ (endTest s).lt.firstError = s.lt.firstError ∧
    (endTest s).lt.endReason = s.lt.endReason ∧ (endTest s).lt.releaseOwed = s.lt.releaseOwed ∧
    (endTest s).lt.stopResult = s.lt.stopResult ∧ (endTest s).lt.seeded = s.lt.seeded ∧
    (endTest s).lt.shift = s.lt.shift ∧
    (endTest s).lt.lastError = s.lt.lastError ∧ (endTest s).lt.lastSymbol = s.lt.lastSymbol := by
  simp [endTest]

@[simp] theorem raiseTestDone_frame (r : EndReason) (n : Nat) (s : State) :
    (raiseTestDone r n s).inReset = s.inReset ∧ (raiseTestDone r n s).free = s.free ∧
    (raiseTestDone r n s).pending = s.pending ∧ (raiseTestDone r n s).now = s.now ∧ (raiseTestDone r n s).hp = s.hp ∧
    (raiseTestDone r n s).rt = s.rt ∧ (raiseTestDone r n s).iq = s.iq ∧ (raiseTestDone r n s).da = s.da ∧
    (raiseTestDone r n s).dbc = s.dbc ∧ (raiseTestDone r n s).lb = s.lb ∧ (raiseTestDone r n s).slc = s.slc ∧
    (raiseTestDone r n s).fe = s.fe ∧ (raiseTestDone r n s).eu.outbox = s.eu.outbox ∧
    (raiseTestDone r n s).lt = s.lt := by
  simp [raiseTestDone]

@[simp] theorem startTest_frame (t : Tag) (s : State) :
    (startTest t s).inReset = s.inReset ∧ (startTest t s).free = s.free ∧ (startTest t s).pending = s.pending ∧
    (startTest t s).now = s.now ∧ (startTest t s).hp = s.hp ∧ (startTest t s).iq = s.iq ∧ (startTest t s).da = s.da ∧
    (startTest t s).dbc = s.dbc ∧ (startTest t s).lb = s.lb ∧ (startTest t s).slc = s.slc ∧
    (startTest t s).fe.txSeq = s.fe.txSeq ∧ (startTest t s).fe.window = s.fe.window ∧
    (startTest t s).fe.goBack = s.fe.goBack ∧ (startTest t s).fe.stall = s.fe.stall ∧
    (startTest t s).fe.progress = s.fe.progress ∧ (startTest t s).fe.expected = s.fe.expected ∧
    (startTest t s).fe.lastRet = s.fe.lastRet ∧ (startTest t s).fe.resend = s.fe.resend ∧
    (startTest t s).fe.credits = s.fe.credits ∧ (startTest t s).fe.retCount = s.fe.retCount ∧
    (startTest t s).fe.releaseAll = s.fe.releaseAll ∧ (startTest t s).fe.runLines = s.fe.runLines ∧
    (startTest t s).fe.crcErrors = s.fe.crcErrors ∧ (startTest t s).fe.sending = s.fe.sending ∧
    (startTest t s).fe.sendEnd = s.fe.sendEnd ∧ (startTest t s).fe.awaitReply = s.fe.awaitReply ∧
    (startTest t s).fe.replyDue = s.fe.replyDue ∧ (startTest t s).fe.replyHello = s.fe.replyHello ∧ (startTest t s).fe.helloTaken = s.fe.helloTaken ∧
    (startTest t s).fe.turnOpened = s.fe.turnOpened ∧ (startTest t s).fe.earliest = s.fe.earliest ∧
    (startTest t s).fe.hurry = s.fe.hurry ∧ (startTest t s).eu = s.eu := by
  unfold startTest; dsimp only; (repeat' split) <;> simp

@[simp] theorem returnToRun_frame  (s : State) :
    (returnToRun s).inReset = s.inReset ∧ (returnToRun s).free = s.free ∧ (returnToRun s).pending = s.pending ∧
    (returnToRun s).now = s.now ∧ (returnToRun s).hp = s.hp ∧ (returnToRun s).rt = s.rt ∧ (returnToRun s).iq = s.iq ∧
    (returnToRun s).da = s.da ∧ (returnToRun s).dbc = s.dbc ∧ (returnToRun s).lb = s.lb ∧
    (returnToRun s).slc.role = s.slc.role ∧ (returnToRun s).slc.spanEn = s.slc.spanEn ∧
    (returnToRun s).slc.good = s.slc.good ∧ (returnToRun s).slc.missed = s.slc.missed ∧
    (returnToRun s).slc.detail = s.slc.detail ∧ (returnToRun s).slc.peerRev = s.slc.peerRev ∧
    (returnToRun s).slc.peerCap = s.slc.peerCap ∧ (returnToRun s).slc.peerReady = s.slc.peerReady ∧
    (returnToRun s).slc.trainDue = s.slc.trainDue ∧ (returnToRun s).slc.helloDue = s.slc.helloDue ∧
    (returnToRun s).slc.helloLimit = s.slc.helloLimit ∧ (returnToRun s).slc.silence = s.slc.silence ∧
    (returnToRun s).slc.retrain = s.slc.retrain ∧ (returnToRun s).slc.holdoff = s.slc.holdoff ∧
    (returnToRun s).fe = s.fe ∧
    (returnToRun s).eu = s.eu := by
  simp [returnToRun]

@[simp] theorem drainLimit_frame  (s : State) :
    (drainLimit s).inReset = s.inReset ∧ (drainLimit s).free = s.free ∧ (drainLimit s).pending = s.pending ∧
    (drainLimit s).hp = s.hp ∧ (drainLimit s).iq = s.iq ∧ (drainLimit s).da = s.da ∧ (drainLimit s).dbc = s.dbc ∧
    (drainLimit s).lb = s.lb ∧ (drainLimit s).slc.role = s.slc.role ∧ (drainLimit s).slc.spanEn = s.slc.spanEn ∧
    (drainLimit s).slc.good = s.slc.good ∧ (drainLimit s).slc.missed = s.slc.missed ∧
    (drainLimit s).slc.detail = s.slc.detail ∧ (drainLimit s).slc.peerRev = s.slc.peerRev ∧
    (drainLimit s).slc.peerCap = s.slc.peerCap ∧ (drainLimit s).slc.peerReady = s.slc.peerReady ∧
    (drainLimit s).slc.trainDue = s.slc.trainDue ∧ (drainLimit s).slc.helloDue = s.slc.helloDue ∧
    (drainLimit s).slc.helloLimit = s.slc.helloLimit ∧ (drainLimit s).slc.silence = s.slc.silence ∧
    (drainLimit s).slc.retrain = s.slc.retrain ∧ (drainLimit s).slc.holdoff = s.slc.holdoff ∧
    (drainLimit s).fe.txSeq = s.fe.txSeq ∧ (drainLimit s).fe.window = s.fe.window ∧
    (drainLimit s).fe.goBack = s.fe.goBack ∧ (drainLimit s).fe.stall = s.fe.stall ∧
    (drainLimit s).fe.progress = s.fe.progress ∧ (drainLimit s).fe.expected = s.fe.expected ∧
    (drainLimit s).fe.lastRet = s.fe.lastRet ∧ (drainLimit s).fe.resend = s.fe.resend ∧
    (drainLimit s).fe.credits = s.fe.credits ∧ (drainLimit s).fe.retCount = s.fe.retCount ∧
    (drainLimit s).fe.releaseAll = s.fe.releaseAll ∧ (drainLimit s).fe.runLines = s.fe.runLines ∧
    (drainLimit s).fe.crcErrors = s.fe.crcErrors ∧ (drainLimit s).fe.sending = s.fe.sending ∧
    (drainLimit s).fe.sendEnd = s.fe.sendEnd ∧ (drainLimit s).fe.awaitReply = s.fe.awaitReply ∧
    (drainLimit s).fe.replyDue = s.fe.replyDue ∧ (drainLimit s).fe.replyHello = s.fe.replyHello ∧ (drainLimit s).fe.helloTaken = s.fe.helloTaken ∧
    (drainLimit s).fe.turnOpened = s.fe.turnOpened ∧ (drainLimit s).fe.earliest = s.fe.earliest ∧
    (drainLimit s).fe.hurry = s.fe.hurry ∧ (drainLimit s).eu = s.eu := by
  unfold drainLimit; dsimp only; (repeat' split) <;> simp

@[simp] theorem becomeNonOwner_frame (p : TestParams) (s : State) :
    (becomeNonOwner p s).inReset = s.inReset ∧ (becomeNonOwner p s).free = s.free ∧
    (becomeNonOwner p s).pending = s.pending ∧ (becomeNonOwner p s).now = s.now ∧ (becomeNonOwner p s).hp = s.hp ∧
    (becomeNonOwner p s).rt = s.rt ∧ (becomeNonOwner p s).iq = s.iq ∧ (becomeNonOwner p s).da = s.da ∧
    (becomeNonOwner p s).dbc = s.dbc ∧ (becomeNonOwner p s).lb = s.lb ∧ (becomeNonOwner p s).slc.role = s.slc.role ∧
    (becomeNonOwner p s).slc.spanEn = s.slc.spanEn ∧ (becomeNonOwner p s).slc.good = s.slc.good ∧
    (becomeNonOwner p s).slc.missed = s.slc.missed ∧ (becomeNonOwner p s).slc.detail = s.slc.detail ∧
    (becomeNonOwner p s).slc.peerRev = s.slc.peerRev ∧ (becomeNonOwner p s).slc.peerCap = s.slc.peerCap ∧
    (becomeNonOwner p s).slc.peerReady = s.slc.peerReady ∧ (becomeNonOwner p s).slc.trainDue = s.slc.trainDue ∧
    (becomeNonOwner p s).slc.helloDue = s.slc.helloDue ∧ (becomeNonOwner p s).slc.helloLimit = s.slc.helloLimit ∧
    (becomeNonOwner p s).slc.silence = s.slc.silence ∧ (becomeNonOwner p s).slc.retrain = s.slc.retrain ∧
    (becomeNonOwner p s).slc.holdoff = s.slc.holdoff ∧ (becomeNonOwner p s).fe = s.fe ∧
    (becomeNonOwner p s).eu = s.eu := by
  simp [becomeNonOwner]

@[simp] theorem takeTestEnter_frame (p : List Byte) (s : State) :
    (takeTestEnter p s).inReset = s.inReset ∧ (takeTestEnter p s).free = s.free ∧
    (takeTestEnter p s).pending = s.pending ∧
    (takeTestEnter p s).now = s.now ∧ (takeTestEnter p s).hp = s.hp ∧ (takeTestEnter p s).iq = s.iq ∧
    (takeTestEnter p s).da = s.da ∧ (takeTestEnter p s).dbc = s.dbc ∧ (takeTestEnter p s).lb = s.lb ∧
    (takeTestEnter p s).slc.role = s.slc.role ∧ (takeTestEnter p s).slc.spanEn = s.slc.spanEn ∧
    (takeTestEnter p s).slc.good = s.slc.good ∧ (takeTestEnter p s).slc.missed = s.slc.missed ∧
    (takeTestEnter p s).slc.detail = s.slc.detail ∧ (takeTestEnter p s).slc.peerRev = s.slc.peerRev ∧
    (takeTestEnter p s).slc.peerCap = s.slc.peerCap ∧ (takeTestEnter p s).slc.peerReady = s.slc.peerReady ∧
    (takeTestEnter p s).slc.trainDue = s.slc.trainDue ∧ (takeTestEnter p s).slc.helloDue = s.slc.helloDue ∧
    (takeTestEnter p s).slc.helloLimit = s.slc.helloLimit ∧ (takeTestEnter p s).slc.silence = s.slc.silence ∧
    (takeTestEnter p s).slc.retrain = s.slc.retrain ∧ (takeTestEnter p s).slc.holdoff = s.slc.holdoff ∧
    (takeTestEnter p s).fe.txSeq = s.fe.txSeq ∧ (takeTestEnter p s).fe.window = s.fe.window ∧
    (takeTestEnter p s).fe.goBack = s.fe.goBack ∧ (takeTestEnter p s).fe.stall = s.fe.stall ∧
    (takeTestEnter p s).fe.progress = s.fe.progress ∧ (takeTestEnter p s).fe.expected = s.fe.expected ∧
    (takeTestEnter p s).fe.lastRet = s.fe.lastRet ∧ (takeTestEnter p s).fe.resend = s.fe.resend ∧
    (takeTestEnter p s).fe.credits = s.fe.credits ∧ (takeTestEnter p s).fe.retCount = s.fe.retCount ∧
    (takeTestEnter p s).fe.releaseAll = s.fe.releaseAll ∧ (takeTestEnter p s).fe.runLines = s.fe.runLines ∧
    (takeTestEnter p s).fe.crcErrors = s.fe.crcErrors ∧ (takeTestEnter p s).fe.sending = s.fe.sending ∧
    (takeTestEnter p s).fe.sendEnd = s.fe.sendEnd ∧ (takeTestEnter p s).fe.awaitReply = s.fe.awaitReply ∧
    (takeTestEnter p s).fe.replyDue = s.fe.replyDue ∧ (takeTestEnter p s).fe.replyHello = s.fe.replyHello ∧ (takeTestEnter p s).fe.helloTaken = s.fe.helloTaken ∧
    (takeTestEnter p s).fe.turnOpened = s.fe.turnOpened ∧ (takeTestEnter p s).fe.earliest = s.fe.earliest ∧
    (takeTestEnter p s).fe.hurry = s.fe.hurry ∧ (takeTestEnter p s).eu = s.eu := by
  unfold takeTestEnter; (repeat' split) <;> simp

@[simp] theorem takeTestReady_frame  (s : State) :
    (takeTestReady s).inReset = s.inReset ∧ (takeTestReady s).free = s.free ∧ (takeTestReady s).pending = s.pending ∧
    (takeTestReady s).now = s.now ∧ (takeTestReady s).hp = s.hp ∧ (takeTestReady s).rt = s.rt ∧
    (takeTestReady s).iq = s.iq ∧ (takeTestReady s).da = s.da ∧ (takeTestReady s).dbc = s.dbc ∧
    (takeTestReady s).lb = s.lb ∧ (takeTestReady s).slc = s.slc ∧ (takeTestReady s).fe = s.fe ∧
    (takeTestReady s).eu = s.eu ∧ (takeTestReady s).lt.phase = s.lt.phase ∧ (takeTestReady s).lt.owner = s.lt.owner ∧
    (takeTestReady s).lt.generator = s.lt.generator ∧ (takeTestReady s).lt.duration = s.lt.duration ∧
    (takeTestReady s).lt.pattern = s.lt.pattern ∧ (takeTestReady s).lt.style = s.lt.style ∧
    (takeTestReady s).lt.ownerTag = s.lt.ownerTag ∧ (takeTestReady s).lt.readyBuilt = s.lt.readyBuilt ∧
    (takeTestReady s).lt.goTaken = s.lt.goTaken ∧ (takeTestReady s).lt.drainDue = s.lt.drainDue ∧
    (takeTestReady s).lt.durationDue = s.lt.durationDue ∧ (takeTestReady s).lt.lostDue = s.lt.lostDue ∧
    (takeTestReady s).lt.resultDue = s.lt.resultDue ∧ (takeTestReady s).lt.patternDue = s.lt.patternDue ∧
    (takeTestReady s).lt.durationDone = s.lt.durationDone ∧ (takeTestReady s).lt.bits = s.lt.bits ∧
    (takeTestReady s).lt.errors = s.lt.errors ∧ (takeTestReady s).lt.firstError = s.lt.firstError ∧
    (takeTestReady s).lt.endReason = s.lt.endReason ∧ (takeTestReady s).lt.releaseOwed = s.lt.releaseOwed ∧
    (takeTestReady s).lt.stopResult = s.lt.stopResult ∧ (takeTestReady s).lt.genStart = s.lt.genStart ∧
    (takeTestReady s).lt.seeded = s.lt.seeded ∧ (takeTestReady s).lt.shift = s.lt.shift ∧
    (takeTestReady s).lt.lastError = s.lt.lastError ∧ (takeTestReady s).lt.lastSymbol = s.lt.lastSymbol := by
  unfold takeTestReady; split <;> simp

@[simp] theorem takeTestGo_frame  (s : State) :
    (takeTestGo s).inReset = s.inReset ∧ (takeTestGo s).free = s.free ∧ (takeTestGo s).pending = s.pending ∧
    (takeTestGo s).now = s.now ∧ (takeTestGo s).hp = s.hp ∧ (takeTestGo s).rt = s.rt ∧ (takeTestGo s).iq = s.iq ∧
    (takeTestGo s).da = s.da ∧ (takeTestGo s).dbc = s.dbc ∧ (takeTestGo s).lb = s.lb ∧ (takeTestGo s).slc = s.slc ∧
    (takeTestGo s).fe = s.fe ∧ (takeTestGo s).eu = s.eu ∧ (takeTestGo s).lt.phase = s.lt.phase ∧
    (takeTestGo s).lt.owner = s.lt.owner ∧ (takeTestGo s).lt.generator = s.lt.generator ∧
    (takeTestGo s).lt.duration = s.lt.duration ∧ (takeTestGo s).lt.pattern = s.lt.pattern ∧
    (takeTestGo s).lt.style = s.lt.style ∧ (takeTestGo s).lt.ownerTag = s.lt.ownerTag ∧
    (takeTestGo s).lt.readyTaken = s.lt.readyTaken ∧ (takeTestGo s).lt.readyBuilt = s.lt.readyBuilt ∧
    (takeTestGo s).lt.durationDue = s.lt.durationDue ∧ (takeTestGo s).lt.lostDue = s.lt.lostDue ∧
    (takeTestGo s).lt.resultDue = s.lt.resultDue ∧ (takeTestGo s).lt.patternDue = s.lt.patternDue ∧
    (takeTestGo s).lt.durationDone = s.lt.durationDone ∧ (takeTestGo s).lt.bits = s.lt.bits ∧
    (takeTestGo s).lt.errors = s.lt.errors ∧ (takeTestGo s).lt.firstError = s.lt.firstError ∧
    (takeTestGo s).lt.endReason = s.lt.endReason ∧ (takeTestGo s).lt.releaseOwed = s.lt.releaseOwed ∧
    (takeTestGo s).lt.stopResult = s.lt.stopResult ∧ (takeTestGo s).lt.genStart = s.lt.genStart ∧
    (takeTestGo s).lt.seeded = s.lt.seeded ∧ (takeTestGo s).lt.shift = s.lt.shift ∧
    (takeTestGo s).lt.lastError = s.lt.lastError ∧ (takeTestGo s).lt.lastSymbol = s.lt.lastSymbol := by
  unfold takeTestGo; split <;> simp

@[simp] theorem enterTest_frame  (s : State) :
    (enterTest s).inReset = s.inReset ∧ (enterTest s).free = s.free ∧ (enterTest s).pending = s.pending ∧
    (enterTest s).now = s.now ∧ (enterTest s).hp = s.hp ∧ (enterTest s).rt = s.rt ∧ (enterTest s).iq = s.iq ∧
    (enterTest s).da = s.da ∧ (enterTest s).dbc = s.dbc ∧ (enterTest s).lb.mirrorPending = s.lb.mirrorPending ∧
    (enterTest s).lb.remoteLines = s.lb.remoteLines ∧ (enterTest s).slc.role = s.slc.role ∧
    (enterTest s).slc.spanEn = s.slc.spanEn ∧ (enterTest s).slc.good = s.slc.good ∧
    (enterTest s).slc.missed = s.slc.missed ∧ (enterTest s).slc.detail = s.slc.detail ∧
    (enterTest s).slc.peerRev = s.slc.peerRev ∧ (enterTest s).slc.peerCap = s.slc.peerCap ∧
    (enterTest s).slc.peerReady = s.slc.peerReady ∧ (enterTest s).slc.trainDue = s.slc.trainDue ∧
    (enterTest s).slc.helloDue = s.slc.helloDue ∧ (enterTest s).slc.helloLimit = s.slc.helloLimit ∧
    (enterTest s).slc.retrain = s.slc.retrain ∧ (enterTest s).slc.holdoff = s.slc.holdoff ∧
    (enterTest s).fe.txSeq = s.fe.txSeq ∧ (enterTest s).fe.window = s.fe.window ∧ (enterTest s).fe.goBack = s.fe.goBack ∧
    (enterTest s).fe.stall = s.fe.stall ∧ (enterTest s).fe.progress = s.fe.progress ∧
    (enterTest s).fe.expected = s.fe.expected ∧ (enterTest s).fe.lastRet = s.fe.lastRet ∧
    (enterTest s).fe.resend = s.fe.resend ∧ (enterTest s).fe.credits = s.fe.credits ∧
    (enterTest s).fe.retCount = s.fe.retCount ∧ (enterTest s).fe.cancelList = s.fe.cancelList ∧
    (enterTest s).fe.releaseAll = s.fe.releaseAll ∧ (enterTest s).fe.runLines = s.fe.runLines ∧
    (enterTest s).fe.crcErrors = s.fe.crcErrors ∧ (enterTest s).fe.sending = s.fe.sending ∧
    (enterTest s).fe.sendEnd = s.fe.sendEnd ∧ (enterTest s).fe.replyHello = s.fe.replyHello ∧ (enterTest s).fe.helloTaken = s.fe.helloTaken ∧
    (enterTest s).fe.turnOpened = s.fe.turnOpened ∧ (enterTest s).fe.earliest = s.fe.earliest ∧
    (enterTest s).fe.hurry = s.fe.hurry ∧ (enterTest s).eu = s.eu := by
  simp [enterTest]

@[simp] theorem goAcknowledged_frame  (s : State) :
    (goAcknowledged s).inReset = s.inReset ∧ (goAcknowledged s).free = s.free ∧ (goAcknowledged s).pending = s.pending ∧
    (goAcknowledged s).now = s.now ∧ (goAcknowledged s).hp = s.hp ∧ (goAcknowledged s).iq = s.iq ∧
    (goAcknowledged s).da = s.da ∧ (goAcknowledged s).dbc = s.dbc ∧
    (goAcknowledged s).lb.mirrorPending = s.lb.mirrorPending ∧ (goAcknowledged s).lb.remoteLines = s.lb.remoteLines ∧
    (goAcknowledged s).slc.role = s.slc.role ∧ (goAcknowledged s).slc.spanEn = s.slc.spanEn ∧
    (goAcknowledged s).slc.good = s.slc.good ∧ (goAcknowledged s).slc.missed = s.slc.missed ∧
    (goAcknowledged s).slc.detail = s.slc.detail ∧ (goAcknowledged s).slc.peerRev = s.slc.peerRev ∧
    (goAcknowledged s).slc.peerCap = s.slc.peerCap ∧ (goAcknowledged s).slc.peerReady = s.slc.peerReady ∧
    (goAcknowledged s).slc.trainDue = s.slc.trainDue ∧ (goAcknowledged s).slc.helloDue = s.slc.helloDue ∧
    (goAcknowledged s).slc.helloLimit = s.slc.helloLimit ∧ (goAcknowledged s).slc.retrain = s.slc.retrain ∧
    (goAcknowledged s).slc.holdoff = s.slc.holdoff ∧ (goAcknowledged s).fe.txSeq = s.fe.txSeq ∧
    (goAcknowledged s).fe.window = s.fe.window ∧ (goAcknowledged s).fe.goBack = s.fe.goBack ∧
    (goAcknowledged s).fe.stall = s.fe.stall ∧ (goAcknowledged s).fe.progress = s.fe.progress ∧
    (goAcknowledged s).fe.expected = s.fe.expected ∧ (goAcknowledged s).fe.lastRet = s.fe.lastRet ∧
    (goAcknowledged s).fe.resend = s.fe.resend ∧ (goAcknowledged s).fe.credits = s.fe.credits ∧
    (goAcknowledged s).fe.retCount = s.fe.retCount ∧ (goAcknowledged s).fe.releaseAll = s.fe.releaseAll ∧
    (goAcknowledged s).fe.runLines = s.fe.runLines ∧ (goAcknowledged s).fe.crcErrors = s.fe.crcErrors ∧
    (goAcknowledged s).fe.sending = s.fe.sending ∧ (goAcknowledged s).fe.sendEnd = s.fe.sendEnd ∧
    (goAcknowledged s).fe.replyHello = s.fe.replyHello ∧ (goAcknowledged s).fe.helloTaken = s.fe.helloTaken ∧ (goAcknowledged s).fe.turnOpened = s.fe.turnOpened ∧
    (goAcknowledged s).fe.earliest = s.fe.earliest ∧ (goAcknowledged s).fe.hurry = s.fe.hurry ∧
    (goAcknowledged s).eu = s.eu := by
  unfold goAcknowledged; (repeat' split) <;> simp

@[simp] theorem takeSymbol_frame (d : Byte) (stop : Bool) (s : State) :
    (takeSymbol d stop s).inReset = s.inReset ∧ (takeSymbol d stop s).free = s.free ∧
    (takeSymbol d stop s).pending = s.pending ∧ (takeSymbol d stop s).hp = s.hp ∧ (takeSymbol d stop s).rt = s.rt ∧
    (takeSymbol d stop s).iq = s.iq ∧ (takeSymbol d stop s).da = s.da ∧ (takeSymbol d stop s).dbc = s.dbc ∧
    (takeSymbol d stop s).lb.mirrorPending = s.lb.mirrorPending ∧
    (takeSymbol d stop s).lb.remoteLines = s.lb.remoteLines ∧
    (takeSymbol d stop s).slc = s.slc ∧ (takeSymbol d stop s).fe = s.fe ∧ (takeSymbol d stop s).eu = s.eu := by
  unfold takeSymbol; dsimp only; (repeat' split) <;> simp

@[simp] theorem leaveTest_frame (r : EndReason) (s : State) :
    (leaveTest r s).inReset = s.inReset ∧ (leaveTest r s).free = s.free ∧ (leaveTest r s).pending = s.pending ∧
    (leaveTest r s).now = s.now ∧ (leaveTest r s).hp = s.hp ∧ (leaveTest r s).rt = s.rt ∧ (leaveTest r s).iq = s.iq ∧
    (leaveTest r s).da = s.da ∧ (leaveTest r s).dbc = s.dbc ∧ (leaveTest r s).lb.mirrorPending = s.lb.mirrorPending ∧
    (leaveTest r s).lb.remoteLines = s.lb.remoteLines ∧ (leaveTest r s).slc.role = s.slc.role ∧
    (leaveTest r s).slc.spanEn = s.slc.spanEn ∧ (leaveTest r s).slc.missed = s.slc.missed ∧
    (leaveTest r s).slc.detail = s.slc.detail ∧ (leaveTest r s).slc.peerRev = s.slc.peerRev ∧
    (leaveTest r s).slc.peerCap = s.slc.peerCap ∧ (leaveTest r s).slc.peerReady = s.slc.peerReady ∧
    (leaveTest r s).slc.helloDue = s.slc.helloDue ∧ (leaveTest r s).slc.helloLimit = s.slc.helloLimit ∧
    (leaveTest r s).slc.silence = s.slc.silence ∧ (leaveTest r s).slc.holdoff = s.slc.holdoff ∧
    (leaveTest r s).fe = s.fe ∧
    (leaveTest r s).eu = s.eu := by
  simp [leaveTest]

@[simp] theorem testDuration_frame  (s : State) :
    (testDuration s).inReset = s.inReset ∧ (testDuration s).free = s.free ∧ (testDuration s).pending = s.pending ∧
    (testDuration s).hp = s.hp ∧ (testDuration s).rt = s.rt ∧ (testDuration s).iq = s.iq ∧ (testDuration s).da = s.da ∧
    (testDuration s).dbc = s.dbc ∧ (testDuration s).lb.mirrorPending = s.lb.mirrorPending ∧
    (testDuration s).lb.remoteLines = s.lb.remoteLines ∧ (testDuration s).slc.role = s.slc.role ∧
    (testDuration s).slc.spanEn = s.slc.spanEn ∧ (testDuration s).slc.missed = s.slc.missed ∧
    (testDuration s).slc.detail = s.slc.detail ∧ (testDuration s).slc.peerRev = s.slc.peerRev ∧
    (testDuration s).slc.peerCap = s.slc.peerCap ∧ (testDuration s).slc.peerReady = s.slc.peerReady ∧
    (testDuration s).slc.helloDue = s.slc.helloDue ∧ (testDuration s).slc.helloLimit = s.slc.helloLimit ∧
    (testDuration s).slc.silence = s.slc.silence ∧ (testDuration s).slc.holdoff = s.slc.holdoff ∧
    (testDuration s).fe = s.fe ∧ (testDuration s).eu = s.eu := by
  unfold testDuration; (repeat' split) <;> simp

@[simp] theorem checkerDuration_frame  (s : State) :
    (checkerDuration s).inReset = s.inReset ∧ (checkerDuration s).free = s.free ∧
    (checkerDuration s).pending = s.pending ∧
    (checkerDuration s).hp = s.hp ∧ (checkerDuration s).rt = s.rt ∧ (checkerDuration s).iq = s.iq ∧
    (checkerDuration s).da = s.da ∧ (checkerDuration s).dbc = s.dbc ∧ (checkerDuration s).lb = s.lb ∧
    (checkerDuration s).slc = s.slc ∧ (checkerDuration s).fe = s.fe ∧ (checkerDuration s).eu = s.eu ∧
    (checkerDuration s).lt.phase = s.lt.phase ∧ (checkerDuration s).lt.owner = s.lt.owner ∧
    (checkerDuration s).lt.generator = s.lt.generator ∧ (checkerDuration s).lt.duration = s.lt.duration ∧
    (checkerDuration s).lt.pattern = s.lt.pattern ∧ (checkerDuration s).lt.style = s.lt.style ∧
    (checkerDuration s).lt.ownerTag = s.lt.ownerTag ∧ (checkerDuration s).lt.readyTaken = s.lt.readyTaken ∧
    (checkerDuration s).lt.readyBuilt = s.lt.readyBuilt ∧ (checkerDuration s).lt.goTaken = s.lt.goTaken ∧
    (checkerDuration s).lt.drainDue = s.lt.drainDue ∧ (checkerDuration s).lt.lostDue = s.lt.lostDue ∧
    (checkerDuration s).lt.resultDue = s.lt.resultDue ∧ (checkerDuration s).lt.patternDue = s.lt.patternDue ∧
    (checkerDuration s).lt.bits = s.lt.bits ∧ (checkerDuration s).lt.errors = s.lt.errors ∧
    (checkerDuration s).lt.firstError = s.lt.firstError ∧ (checkerDuration s).lt.endReason = s.lt.endReason ∧
    (checkerDuration s).lt.releaseOwed = s.lt.releaseOwed ∧ (checkerDuration s).lt.stopResult = s.lt.stopResult ∧
    (checkerDuration s).lt.genStart = s.lt.genStart ∧ (checkerDuration s).lt.seeded = s.lt.seeded ∧
    (checkerDuration s).lt.shift = s.lt.shift ∧ (checkerDuration s).lt.lastError = s.lt.lastError ∧
    (checkerDuration s).lt.lastSymbol = s.lt.lastSymbol := by
  unfold checkerDuration; (repeat' split) <;> simp

@[simp] theorem patternLost_frame  (s : State) :
    (patternLost s).inReset = s.inReset ∧ (patternLost s).free = s.free ∧ (patternLost s).pending = s.pending ∧
    (patternLost s).hp = s.hp ∧ (patternLost s).rt = s.rt ∧ (patternLost s).iq = s.iq ∧ (patternLost s).da = s.da ∧
    (patternLost s).dbc = s.dbc ∧ (patternLost s).lb.mirrorPending = s.lb.mirrorPending ∧
    (patternLost s).lb.remoteLines = s.lb.remoteLines ∧ (patternLost s).slc.role = s.slc.role ∧
    (patternLost s).slc.spanEn = s.slc.spanEn ∧ (patternLost s).slc.missed = s.slc.missed ∧
    (patternLost s).slc.detail = s.slc.detail ∧ (patternLost s).slc.peerRev = s.slc.peerRev ∧
    (patternLost s).slc.peerCap = s.slc.peerCap ∧ (patternLost s).slc.peerReady = s.slc.peerReady ∧
    (patternLost s).slc.helloDue = s.slc.helloDue ∧ (patternLost s).slc.helloLimit = s.slc.helloLimit ∧
    (patternLost s).slc.silence = s.slc.silence ∧ (patternLost s).slc.holdoff = s.slc.holdoff ∧
    (patternLost s).fe = s.fe ∧
    (patternLost s).eu = s.eu := by
  unfold patternLost; dsimp only; (repeat' split) <;> simp

@[simp] theorem testStop_frame  (s : State) :
    (testStop s).inReset = s.inReset ∧ (testStop s).free = s.free ∧ (testStop s).pending = s.pending ∧
    (testStop s).now = s.now ∧ (testStop s).hp = s.hp ∧ (testStop s).rt = s.rt ∧ (testStop s).iq = s.iq ∧
    (testStop s).da = s.da ∧ (testStop s).dbc = s.dbc ∧ (testStop s).lb.mirrorPending = s.lb.mirrorPending ∧
    (testStop s).lb.remoteLines = s.lb.remoteLines ∧ (testStop s).slc.role = s.slc.role ∧
    (testStop s).slc.spanEn = s.slc.spanEn ∧ (testStop s).slc.missed = s.slc.missed ∧
    (testStop s).slc.detail = s.slc.detail ∧ (testStop s).slc.peerRev = s.slc.peerRev ∧
    (testStop s).slc.peerCap = s.slc.peerCap ∧ (testStop s).slc.peerReady = s.slc.peerReady ∧
    (testStop s).slc.helloDue = s.slc.helloDue ∧ (testStop s).slc.helloLimit = s.slc.helloLimit ∧
    (testStop s).slc.silence = s.slc.silence ∧ (testStop s).slc.holdoff = s.slc.holdoff ∧ (testStop s).fe = s.fe ∧
    (testStop s).eu = s.eu := by
  unfold testStop; dsimp only; (repeat' split) <;> simp

@[simp] theorem patternStart_frame  (s : State) :
    (patternStart s).inReset = s.inReset ∧ (patternStart s).free = s.free ∧ (patternStart s).pending = s.pending ∧
    (patternStart s).hp = s.hp ∧ (patternStart s).rt = s.rt ∧ (patternStart s).iq = s.iq ∧ (patternStart s).da = s.da ∧
    (patternStart s).dbc = s.dbc ∧ (patternStart s).lb = s.lb ∧ (patternStart s).slc = s.slc ∧
    (patternStart s).fe = s.fe ∧
    (patternStart s).eu = s.eu ∧ (patternStart s).lt.phase = s.lt.phase ∧ (patternStart s).lt.owner = s.lt.owner ∧
    (patternStart s).lt.generator = s.lt.generator ∧ (patternStart s).lt.duration = s.lt.duration ∧
    (patternStart s).lt.pattern = s.lt.pattern ∧ (patternStart s).lt.style = s.lt.style ∧
    (patternStart s).lt.ownerTag = s.lt.ownerTag ∧ (patternStart s).lt.readyTaken = s.lt.readyTaken ∧
    (patternStart s).lt.readyBuilt = s.lt.readyBuilt ∧ (patternStart s).lt.goTaken = s.lt.goTaken ∧
    (patternStart s).lt.drainDue = s.lt.drainDue ∧ (patternStart s).lt.durationDue = s.lt.durationDue ∧
    (patternStart s).lt.lostDue = s.lt.lostDue ∧ (patternStart s).lt.resultDue = s.lt.resultDue ∧
    (patternStart s).lt.durationDone = s.lt.durationDone ∧ (patternStart s).lt.bits = s.lt.bits ∧
    (patternStart s).lt.errors = s.lt.errors ∧ (patternStart s).lt.firstError = s.lt.firstError ∧
    (patternStart s).lt.endReason = s.lt.endReason ∧ (patternStart s).lt.releaseOwed = s.lt.releaseOwed ∧
    (patternStart s).lt.stopResult = s.lt.stopResult ∧ (patternStart s).lt.seeded = s.lt.seeded ∧
    (patternStart s).lt.shift = s.lt.shift ∧ (patternStart s).lt.lastError = s.lt.lastError ∧
    (patternStart s).lt.lastSymbol = s.lt.lastSymbol := by
  unfold patternStart; dsimp only; (repeat' split) <;> simp

@[simp] theorem settleTest_frame  (s : State) :
    (settleTest s).inReset = s.inReset ∧ (settleTest s).free = s.free ∧ (settleTest s).pending = s.pending ∧
    (settleTest s).now = s.now ∧ (settleTest s).hp = s.hp ∧ (settleTest s).iq = s.iq ∧ (settleTest s).da = s.da ∧
    (settleTest s).dbc = s.dbc ∧ (settleTest s).lb = s.lb ∧ (settleTest s).slc = s.slc ∧
    (settleTest s).fe.txSeq = s.fe.txSeq ∧ (settleTest s).fe.window = s.fe.window ∧
    (settleTest s).fe.goBack = s.fe.goBack ∧ (settleTest s).fe.stall = s.fe.stall ∧
    (settleTest s).fe.progress = s.fe.progress ∧ (settleTest s).fe.expected = s.fe.expected ∧
    (settleTest s).fe.lastRet = s.fe.lastRet ∧ (settleTest s).fe.resend = s.fe.resend ∧
    (settleTest s).fe.credits = s.fe.credits ∧ (settleTest s).fe.retCount = s.fe.retCount ∧
    (settleTest s).fe.runLines = s.fe.runLines ∧ (settleTest s).fe.crcErrors = s.fe.crcErrors ∧
    (settleTest s).fe.sending = s.fe.sending ∧ (settleTest s).fe.sendEnd = s.fe.sendEnd ∧
    (settleTest s).fe.awaitReply = s.fe.awaitReply ∧ (settleTest s).fe.replyDue = s.fe.replyDue ∧ (settleTest s).fe.replyHello = s.fe.replyHello ∧
    (settleTest s).fe.helloTaken = s.fe.helloTaken ∧ (settleTest s).fe.turnOpened = s.fe.turnOpened ∧
    (settleTest s).fe.earliest = s.fe.earliest ∧ (settleTest s).fe.hurry = s.fe.hurry ∧
    (settleTest s).eu.outbox = s.eu.outbox := by
  unfold settleTest; dsimp only; (repeat' split) <;> simp

@[simp] theorem takeTestResult_frame (p : List Byte) (s : State) :
    (takeTestResult p s).inReset = s.inReset ∧ (takeTestResult p s).free = s.free ∧
    (takeTestResult p s).pending = s.pending ∧ (takeTestResult p s).now = s.now ∧ (takeTestResult p s).hp = s.hp ∧
    (takeTestResult p s).iq = s.iq ∧ (takeTestResult p s).da = s.da ∧ (takeTestResult p s).dbc = s.dbc ∧
    (takeTestResult p s).lb = s.lb ∧ (takeTestResult p s).slc = s.slc ∧ (takeTestResult p s).fe.txSeq = s.fe.txSeq ∧
    (takeTestResult p s).fe.window = s.fe.window ∧ (takeTestResult p s).fe.goBack = s.fe.goBack ∧
    (takeTestResult p s).fe.stall = s.fe.stall ∧ (takeTestResult p s).fe.progress = s.fe.progress ∧
    (takeTestResult p s).fe.expected = s.fe.expected ∧ (takeTestResult p s).fe.lastRet = s.fe.lastRet ∧
    (takeTestResult p s).fe.resend = s.fe.resend ∧ (takeTestResult p s).fe.credits = s.fe.credits ∧
    (takeTestResult p s).fe.retCount = s.fe.retCount ∧ (takeTestResult p s).fe.releaseAll = s.fe.releaseAll ∧
    (takeTestResult p s).fe.runLines = s.fe.runLines ∧ (takeTestResult p s).fe.crcErrors = s.fe.crcErrors ∧
    (takeTestResult p s).fe.sending = s.fe.sending ∧ (takeTestResult p s).fe.sendEnd = s.fe.sendEnd ∧
    (takeTestResult p s).fe.awaitReply = s.fe.awaitReply ∧ (takeTestResult p s).fe.replyDue = s.fe.replyDue ∧ (takeTestResult p s).fe.replyHello = s.fe.replyHello ∧
    (takeTestResult p s).fe.helloTaken = s.fe.helloTaken ∧ (takeTestResult p s).fe.turnOpened = s.fe.turnOpened ∧
    (takeTestResult p s).fe.earliest = s.fe.earliest ∧ (takeTestResult p s).fe.hurry = s.fe.hurry ∧
    (takeTestResult p s).eu.outbox = s.eu.outbox := by
  unfold takeTestResult; dsimp only; (repeat' split) <;> simp

@[simp] theorem resultLimit_frame  (s : State) :
    (resultLimit s).inReset = s.inReset ∧ (resultLimit s).free = s.free ∧ (resultLimit s).pending = s.pending ∧
    (resultLimit s).hp = s.hp ∧ (resultLimit s).iq = s.iq ∧ (resultLimit s).da = s.da ∧ (resultLimit s).dbc = s.dbc ∧
    (resultLimit s).lb = s.lb ∧ (resultLimit s).slc = s.slc ∧ (resultLimit s).fe.txSeq = s.fe.txSeq ∧
    (resultLimit s).fe.window = s.fe.window ∧ (resultLimit s).fe.goBack = s.fe.goBack ∧
    (resultLimit s).fe.stall = s.fe.stall ∧ (resultLimit s).fe.progress = s.fe.progress ∧
    (resultLimit s).fe.expected = s.fe.expected ∧ (resultLimit s).fe.lastRet = s.fe.lastRet ∧
    (resultLimit s).fe.resend = s.fe.resend ∧ (resultLimit s).fe.credits = s.fe.credits ∧
    (resultLimit s).fe.retCount = s.fe.retCount ∧ (resultLimit s).fe.releaseAll = s.fe.releaseAll ∧
    (resultLimit s).fe.runLines = s.fe.runLines ∧ (resultLimit s).fe.crcErrors = s.fe.crcErrors ∧
    (resultLimit s).fe.sending = s.fe.sending ∧ (resultLimit s).fe.sendEnd = s.fe.sendEnd ∧
    (resultLimit s).fe.awaitReply = s.fe.awaitReply ∧ (resultLimit s).fe.replyDue = s.fe.replyDue ∧ (resultLimit s).fe.replyHello = s.fe.replyHello ∧
    (resultLimit s).fe.helloTaken = s.fe.helloTaken ∧ (resultLimit s).fe.turnOpened = s.fe.turnOpened ∧
    (resultLimit s).fe.earliest = s.fe.earliest ∧ (resultLimit s).fe.hurry = s.fe.hurry ∧ (resultLimit s).eu = s.eu := by
  unfold resultLimit; (repeat' split) <;> simp

@[simp] theorem testAtLoss_frame  (s : State) :
    (testAtLoss s).inReset = s.inReset ∧ (testAtLoss s).free = s.free ∧ (testAtLoss s).pending = s.pending ∧
    (testAtLoss s).now = s.now ∧ (testAtLoss s).hp = s.hp ∧ (testAtLoss s).iq = s.iq ∧ (testAtLoss s).da = s.da ∧
    (testAtLoss s).dbc = s.dbc ∧ (testAtLoss s).lb = s.lb ∧ (testAtLoss s).slc = s.slc ∧
    (testAtLoss s).fe.txSeq = s.fe.txSeq ∧ (testAtLoss s).fe.window = s.fe.window ∧
    (testAtLoss s).fe.goBack = s.fe.goBack ∧ (testAtLoss s).fe.stall = s.fe.stall ∧
    (testAtLoss s).fe.progress = s.fe.progress ∧ (testAtLoss s).fe.expected = s.fe.expected ∧
    (testAtLoss s).fe.lastRet = s.fe.lastRet ∧ (testAtLoss s).fe.resend = s.fe.resend ∧
    (testAtLoss s).fe.credits = s.fe.credits ∧ (testAtLoss s).fe.retCount = s.fe.retCount ∧
    (testAtLoss s).fe.releaseAll = s.fe.releaseAll ∧ (testAtLoss s).fe.runLines = s.fe.runLines ∧
    (testAtLoss s).fe.crcErrors = s.fe.crcErrors ∧ (testAtLoss s).fe.sending = s.fe.sending ∧
    (testAtLoss s).fe.sendEnd = s.fe.sendEnd ∧ (testAtLoss s).fe.awaitReply = s.fe.awaitReply ∧
    (testAtLoss s).fe.replyDue = s.fe.replyDue ∧ (testAtLoss s).fe.replyHello = s.fe.replyHello ∧ (testAtLoss s).fe.helloTaken = s.fe.helloTaken ∧
    (testAtLoss s).fe.turnOpened = s.fe.turnOpened ∧ (testAtLoss s).fe.earliest = s.fe.earliest ∧
    (testAtLoss s).fe.hurry = s.fe.hurry ∧ (testAtLoss s).eu.outbox = s.eu.outbox := by
  unfold testAtLoss; dsimp only; (repeat' split) <;> simp

@[simp] theorem testAtSoftReset_frame  (s : State) :
    (testAtSoftReset s).inReset = s.inReset ∧ (testAtSoftReset s).free = s.free ∧
    (testAtSoftReset s).pending = s.pending ∧
    (testAtSoftReset s).now = s.now ∧ (testAtSoftReset s).hp = s.hp ∧ (testAtSoftReset s).rt = s.rt ∧
    (testAtSoftReset s).iq = s.iq ∧ (testAtSoftReset s).da = s.da ∧ (testAtSoftReset s).dbc = s.dbc ∧
    (testAtSoftReset s).lb = s.lb ∧ (testAtSoftReset s).slc = s.slc ∧ (testAtSoftReset s).fe = s.fe ∧
    (testAtSoftReset s).eu = s.eu := by
  unfold testAtSoftReset; dsimp only; (repeat' split) <;> simp

@[simp] theorem startFrame_frame (f : Frame) (s : State) :
    (startFrame f s).inReset = s.inReset ∧ (startFrame f s).free = s.free ∧ (startFrame f s).pending = s.pending ∧
    (startFrame f s).now = s.now ∧ (startFrame f s).hp = s.hp ∧ (startFrame f s).rt = s.rt ∧ (startFrame f s).iq = s.iq ∧
    (startFrame f s).da = s.da ∧ (startFrame f s).dbc = s.dbc ∧ (startFrame f s).lb = s.lb ∧
    (startFrame f s).slc = s.slc ∧
    (startFrame f s).fe.txSeq = s.fe.txSeq ∧ (startFrame f s).fe.window = s.fe.window ∧
    (startFrame f s).fe.goBack = s.fe.goBack ∧ (startFrame f s).fe.stall = s.fe.stall ∧
    (startFrame f s).fe.progress = s.fe.progress ∧ (startFrame f s).fe.expected = s.fe.expected ∧
    (startFrame f s).fe.lastRet = s.fe.lastRet ∧ (startFrame f s).fe.resend = s.fe.resend ∧
    (startFrame f s).fe.credits = s.fe.credits ∧ (startFrame f s).fe.retCount = s.fe.retCount ∧
    (startFrame f s).fe.cancelList = s.fe.cancelList ∧ (startFrame f s).fe.releaseAll = s.fe.releaseAll ∧
    (startFrame f s).fe.runLines = s.fe.runLines ∧ (startFrame f s).fe.crcErrors = s.fe.crcErrors ∧
    (startFrame f s).fe.replyHello = s.fe.replyHello ∧ (startFrame f s).fe.helloTaken = s.fe.helloTaken ∧ (startFrame f s).fe.turnOpened = s.fe.turnOpened ∧
    (startFrame f s).fe.earliest = s.fe.earliest ∧ (startFrame f s).fe.hurry = s.fe.hurry ∧ (startFrame f s).eu = s.eu ∧
    (startFrame f s).lt = s.lt := by
  simp [startFrame]

@[simp] theorem sendTrain_frame  (s : State) :
    (sendTrain s).inReset = s.inReset ∧ (sendTrain s).free = s.free ∧ (sendTrain s).pending = s.pending ∧
    (sendTrain s).now = s.now ∧ (sendTrain s).hp = s.hp ∧ (sendTrain s).rt = s.rt ∧ (sendTrain s).iq = s.iq ∧
    (sendTrain s).da = s.da ∧ (sendTrain s).dbc = s.dbc ∧ (sendTrain s).lb = s.lb ∧ (sendTrain s).slc = s.slc ∧
    (sendTrain s).fe.txSeq = s.fe.txSeq ∧ (sendTrain s).fe.window = s.fe.window ∧ (sendTrain s).fe.goBack = s.fe.goBack ∧
    (sendTrain s).fe.stall = s.fe.stall ∧ (sendTrain s).fe.progress = s.fe.progress ∧
    (sendTrain s).fe.expected = s.fe.expected ∧ (sendTrain s).fe.lastRet = s.fe.lastRet ∧
    (sendTrain s).fe.resend = s.fe.resend ∧ (sendTrain s).fe.credits = s.fe.credits ∧
    (sendTrain s).fe.retCount = s.fe.retCount ∧ (sendTrain s).fe.cancelList = s.fe.cancelList ∧
    (sendTrain s).fe.releaseAll = s.fe.releaseAll ∧ (sendTrain s).fe.runLines = s.fe.runLines ∧
    (sendTrain s).fe.crcErrors = s.fe.crcErrors ∧ (sendTrain s).fe.replyHello = s.fe.replyHello ∧ (sendTrain s).fe.helloTaken = s.fe.helloTaken ∧
    (sendTrain s).fe.turnOpened = s.fe.turnOpened ∧ (sendTrain s).fe.earliest = s.fe.earliest ∧
    (sendTrain s).fe.hurry = s.fe.hurry ∧ (sendTrain s).eu = s.eu ∧ (sendTrain s).lt = s.lt := by
  simp [sendTrain]

@[simp] theorem sendTrainAck_frame  (s : State) :
    (sendTrainAck s).inReset = s.inReset ∧ (sendTrainAck s).free = s.free ∧ (sendTrainAck s).pending = s.pending ∧
    (sendTrainAck s).now = s.now ∧ (sendTrainAck s).hp = s.hp ∧ (sendTrainAck s).rt = s.rt ∧ (sendTrainAck s).iq = s.iq ∧
    (sendTrainAck s).da = s.da ∧ (sendTrainAck s).dbc = s.dbc ∧ (sendTrainAck s).lb = s.lb ∧
    (sendTrainAck s).slc = s.slc ∧
    (sendTrainAck s).fe.txSeq = s.fe.txSeq ∧ (sendTrainAck s).fe.window = s.fe.window ∧
    (sendTrainAck s).fe.goBack = s.fe.goBack ∧ (sendTrainAck s).fe.stall = s.fe.stall ∧
    (sendTrainAck s).fe.progress = s.fe.progress ∧ (sendTrainAck s).fe.expected = s.fe.expected ∧
    (sendTrainAck s).fe.lastRet = s.fe.lastRet ∧ (sendTrainAck s).fe.resend = s.fe.resend ∧
    (sendTrainAck s).fe.credits = s.fe.credits ∧ (sendTrainAck s).fe.retCount = s.fe.retCount ∧
    (sendTrainAck s).fe.cancelList = s.fe.cancelList ∧ (sendTrainAck s).fe.releaseAll = s.fe.releaseAll ∧
    (sendTrainAck s).fe.runLines = s.fe.runLines ∧ (sendTrainAck s).fe.crcErrors = s.fe.crcErrors ∧
    (sendTrainAck s).fe.replyHello = s.fe.replyHello ∧ (sendTrainAck s).fe.helloTaken = s.fe.helloTaken ∧ (sendTrainAck s).fe.turnOpened = s.fe.turnOpened ∧
    (sendTrainAck s).fe.earliest = s.fe.earliest ∧ (sendTrainAck s).fe.hurry = s.fe.hurry ∧ (sendTrainAck s).eu = s.eu ∧
    (sendTrainAck s).lt = s.lt := by
  simp [sendTrainAck]

@[simp] theorem sendHello_frame  (s : State) :
    (sendHello s).inReset = s.inReset ∧ (sendHello s).free = s.free ∧ (sendHello s).pending = s.pending ∧
    (sendHello s).now = s.now ∧ (sendHello s).hp = s.hp ∧ (sendHello s).rt = s.rt ∧ (sendHello s).iq = s.iq ∧
    (sendHello s).da = s.da ∧ (sendHello s).dbc = s.dbc ∧ (sendHello s).lb = s.lb ∧ (sendHello s).slc = s.slc ∧
    (sendHello s).fe.txSeq = s.fe.txSeq ∧ (sendHello s).fe.window = s.fe.window ∧ (sendHello s).fe.goBack = s.fe.goBack ∧
    (sendHello s).fe.stall = s.fe.stall ∧ (sendHello s).fe.progress = s.fe.progress ∧
    (sendHello s).fe.expected = s.fe.expected ∧ (sendHello s).fe.lastRet = s.fe.lastRet ∧
    (sendHello s).fe.resend = s.fe.resend ∧ (sendHello s).fe.credits = s.fe.credits ∧
    (sendHello s).fe.retCount = s.fe.retCount ∧ (sendHello s).fe.cancelList = s.fe.cancelList ∧
    (sendHello s).fe.releaseAll = s.fe.releaseAll ∧ (sendHello s).fe.runLines = s.fe.runLines ∧
    (sendHello s).fe.crcErrors = s.fe.crcErrors ∧ (sendHello s).fe.replyHello = s.fe.replyHello ∧ (sendHello s).fe.helloTaken = s.fe.helloTaken ∧
    (sendHello s).fe.turnOpened = s.fe.turnOpened ∧ (sendHello s).fe.earliest = s.fe.earliest ∧
    (sendHello s).fe.hurry = s.fe.hurry ∧ (sendHello s).eu = s.eu ∧ (sendHello s).lt = s.lt := by
  simp [sendHello]

@[simp] theorem enterListen_frame  (s : State) :
    (enterListen s).inReset = s.inReset ∧ (enterListen s).free = s.free ∧ (enterListen s).pending = s.pending ∧
    (enterListen s).now = s.now ∧ (enterListen s).hp = s.hp ∧ (enterListen s).rt = s.rt ∧ (enterListen s).iq = s.iq ∧
    (enterListen s).da = s.da ∧ (enterListen s).dbc = s.dbc ∧ (enterListen s).lb = s.lb ∧
    (enterListen s).slc.role = s.slc.role ∧ (enterListen s).slc.spanEn = s.slc.spanEn ∧
    (enterListen s).slc.missed = s.slc.missed ∧ (enterListen s).slc.detail = s.slc.detail ∧
    (enterListen s).slc.peerRev = s.slc.peerRev ∧ (enterListen s).slc.peerCap = s.slc.peerCap ∧
    (enterListen s).slc.peerReady = s.slc.peerReady ∧ (enterListen s).slc.helloDue = s.slc.helloDue ∧
    (enterListen s).slc.helloLimit = s.slc.helloLimit ∧ (enterListen s).slc.silence = s.slc.silence ∧
    (enterListen s).slc.retrain = s.slc.retrain ∧ (enterListen s).slc.holdoff = s.slc.holdoff ∧
    (enterListen s).fe.txSeq = s.fe.txSeq ∧ (enterListen s).fe.window = s.fe.window ∧
    (enterListen s).fe.goBack = s.fe.goBack ∧ (enterListen s).fe.stall = s.fe.stall ∧
    (enterListen s).fe.progress = s.fe.progress ∧ (enterListen s).fe.expected = s.fe.expected ∧
    (enterListen s).fe.lastRet = s.fe.lastRet ∧ (enterListen s).fe.resend = s.fe.resend ∧
    (enterListen s).fe.credits = s.fe.credits ∧ (enterListen s).fe.retCount = s.fe.retCount ∧
    (enterListen s).fe.cancelList = s.fe.cancelList ∧ (enterListen s).fe.releaseAll = s.fe.releaseAll ∧
    (enterListen s).fe.runLines = s.fe.runLines ∧ (enterListen s).fe.crcErrors = s.fe.crcErrors ∧
    (enterListen s).fe.replyHello = s.fe.replyHello ∧ (enterListen s).fe.helloTaken = s.fe.helloTaken ∧ (enterListen s).fe.turnOpened = s.fe.turnOpened ∧
    (enterListen s).fe.earliest = s.fe.earliest ∧ (enterListen s).fe.hurry = s.fe.hurry ∧ (enterListen s).eu = s.eu ∧
    (enterListen s).lt = s.lt := by
  unfold enterListen; dsimp only; split <;> simp

@[simp] theorem quiet_frame  (s : State) :
    (quiet s).inReset = s.inReset ∧ (quiet s).free = s.free ∧ (quiet s).pending = s.pending ∧ (quiet s).now = s.now ∧
    (quiet s).hp = s.hp ∧ (quiet s).rt = s.rt ∧ (quiet s).iq = s.iq ∧ (quiet s).da = s.da ∧ (quiet s).dbc = s.dbc ∧
    (quiet s).lb = s.lb ∧ (quiet s).slc.role = s.slc.role ∧ (quiet s).slc.spanEn = s.slc.spanEn ∧
    (quiet s).slc.state = s.slc.state ∧ (quiet s).slc.detail = s.slc.detail ∧ (quiet s).slc.peerRev = s.slc.peerRev ∧
    (quiet s).slc.peerCap = s.slc.peerCap ∧ (quiet s).slc.peerReady = s.slc.peerReady ∧ (quiet s).fe.txSeq = s.fe.txSeq ∧
    (quiet s).fe.window = s.fe.window ∧ (quiet s).fe.goBack = s.fe.goBack ∧ (quiet s).fe.stall = s.fe.stall ∧
    (quiet s).fe.progress = s.fe.progress ∧ (quiet s).fe.expected = s.fe.expected ∧ (quiet s).fe.lastRet = s.fe.lastRet ∧
    (quiet s).fe.resend = s.fe.resend ∧ (quiet s).fe.credits = s.fe.credits ∧ (quiet s).fe.retCount = s.fe.retCount ∧
    (quiet s).fe.cancelList = s.fe.cancelList ∧ (quiet s).fe.releaseAll = s.fe.releaseAll ∧
    (quiet s).fe.runLines = s.fe.runLines ∧ (quiet s).fe.crcErrors = s.fe.crcErrors ∧
    (quiet s).fe.sendEnd = s.fe.sendEnd ∧
    (quiet s).fe.turnOpened = s.fe.turnOpened ∧ (quiet s).fe.earliest = s.fe.earliest ∧ (quiet s).fe.hurry = s.fe.hurry ∧
    (quiet s).eu = s.eu ∧ (quiet s).lt = s.lt := by
  simp [quiet]

@[simp] theorem enterHoldoff_frame (r : HoldoffReason) (n : Nat) (s : State) :
    (enterHoldoff r n s).inReset = s.inReset ∧ (enterHoldoff r n s).free = s.free ∧
    (enterHoldoff r n s).pending = s.pending ∧ (enterHoldoff r n s).now = s.now ∧ (enterHoldoff r n s).hp = s.hp ∧
    (enterHoldoff r n s).rt = s.rt ∧ (enterHoldoff r n s).iq = s.iq ∧ (enterHoldoff r n s).da = s.da ∧
    (enterHoldoff r n s).dbc = s.dbc ∧ (enterHoldoff r n s).lb = s.lb ∧ (enterHoldoff r n s).slc.role = s.slc.role ∧
    (enterHoldoff r n s).slc.spanEn = s.slc.spanEn ∧ (enterHoldoff r n s).slc.peerRev = s.slc.peerRev ∧
    (enterHoldoff r n s).slc.peerCap = s.slc.peerCap ∧ (enterHoldoff r n s).slc.peerReady = s.slc.peerReady ∧
    (enterHoldoff r n s).fe.txSeq = s.fe.txSeq ∧ (enterHoldoff r n s).fe.window = s.fe.window ∧
    (enterHoldoff r n s).fe.goBack = s.fe.goBack ∧ (enterHoldoff r n s).fe.stall = s.fe.stall ∧
    (enterHoldoff r n s).fe.progress = s.fe.progress ∧ (enterHoldoff r n s).fe.expected = s.fe.expected ∧
    (enterHoldoff r n s).fe.lastRet = s.fe.lastRet ∧ (enterHoldoff r n s).fe.resend = s.fe.resend ∧
    (enterHoldoff r n s).fe.credits = s.fe.credits ∧ (enterHoldoff r n s).fe.retCount = s.fe.retCount ∧
    (enterHoldoff r n s).fe.cancelList = s.fe.cancelList ∧ (enterHoldoff r n s).fe.releaseAll = s.fe.releaseAll ∧
    (enterHoldoff r n s).fe.runLines = s.fe.runLines ∧ (enterHoldoff r n s).fe.crcErrors = s.fe.crcErrors ∧
    (enterHoldoff r n s).fe.sendEnd = s.fe.sendEnd ∧ (enterHoldoff r n s).fe.turnOpened = s.fe.turnOpened ∧
    (enterHoldoff r n s).fe.earliest = s.fe.earliest ∧ (enterHoldoff r n s).fe.hurry = s.fe.hurry ∧
    (enterHoldoff r n s).eu = s.eu ∧ (enterHoldoff r n s).lt = s.lt := by
  simp [enterHoldoff]

@[simp] theorem failBringUp_frame (r : HoldoffReason) (s : State) :
    (failBringUp r s).inReset = s.inReset ∧ (failBringUp r s).free = s.free ∧ (failBringUp r s).pending = s.pending ∧
    (failBringUp r s).now = s.now ∧ (failBringUp r s).hp = s.hp ∧ (failBringUp r s).rt = s.rt ∧
    (failBringUp r s).iq = s.iq ∧ (failBringUp r s).da = s.da ∧ (failBringUp r s).dbc = s.dbc ∧
    (failBringUp r s).lb = s.lb ∧ (failBringUp r s).slc.role = s.slc.role ∧ (failBringUp r s).slc.spanEn = s.slc.spanEn ∧
    (failBringUp r s).slc.peerRev = s.slc.peerRev ∧ (failBringUp r s).slc.peerCap = s.slc.peerCap ∧
    (failBringUp r s).slc.peerReady = s.slc.peerReady ∧ (failBringUp r s).fe.txSeq = s.fe.txSeq ∧
    (failBringUp r s).fe.window = s.fe.window ∧ (failBringUp r s).fe.goBack = s.fe.goBack ∧
    (failBringUp r s).fe.stall = s.fe.stall ∧ (failBringUp r s).fe.progress = s.fe.progress ∧
    (failBringUp r s).fe.expected = s.fe.expected ∧ (failBringUp r s).fe.lastRet = s.fe.lastRet ∧
    (failBringUp r s).fe.resend = s.fe.resend ∧ (failBringUp r s).fe.credits = s.fe.credits ∧
    (failBringUp r s).fe.retCount = s.fe.retCount ∧ (failBringUp r s).fe.cancelList = s.fe.cancelList ∧
    (failBringUp r s).fe.releaseAll = s.fe.releaseAll ∧ (failBringUp r s).fe.runLines = s.fe.runLines ∧
    (failBringUp r s).fe.crcErrors = s.fe.crcErrors ∧ (failBringUp r s).fe.sendEnd = s.fe.sendEnd ∧
    (failBringUp r s).fe.turnOpened = s.fe.turnOpened ∧ (failBringUp r s).fe.earliest = s.fe.earliest ∧
    (failBringUp r s).fe.hurry = s.fe.hurry ∧ (failBringUp r s).eu = s.eu ∧ (failBringUp r s).lt = s.lt := by
  simp [failBringUp]

@[simp] theorem roleClash_frame  (s : State) :
    (roleClash s).inReset = s.inReset ∧ (roleClash s).free = s.free ∧ (roleClash s).pending = s.pending ∧
    (roleClash s).now = s.now ∧ (roleClash s).hp = s.hp ∧ (roleClash s).rt = s.rt ∧ (roleClash s).iq = s.iq ∧
    (roleClash s).da = s.da ∧ (roleClash s).dbc = s.dbc ∧ (roleClash s).lb = s.lb ∧ (roleClash s).slc.role = s.slc.role ∧
    (roleClash s).slc.spanEn = s.slc.spanEn ∧ (roleClash s).slc.peerRev = s.slc.peerRev ∧
    (roleClash s).slc.peerCap = s.slc.peerCap ∧ (roleClash s).slc.peerReady = s.slc.peerReady ∧
    (roleClash s).fe.txSeq = s.fe.txSeq ∧ (roleClash s).fe.window = s.fe.window ∧ (roleClash s).fe.goBack = s.fe.goBack ∧
    (roleClash s).fe.stall = s.fe.stall ∧ (roleClash s).fe.progress = s.fe.progress ∧
    (roleClash s).fe.expected = s.fe.expected ∧ (roleClash s).fe.lastRet = s.fe.lastRet ∧
    (roleClash s).fe.resend = s.fe.resend ∧ (roleClash s).fe.credits = s.fe.credits ∧
    (roleClash s).fe.retCount = s.fe.retCount ∧ (roleClash s).fe.cancelList = s.fe.cancelList ∧
    (roleClash s).fe.releaseAll = s.fe.releaseAll ∧ (roleClash s).fe.runLines = s.fe.runLines ∧
    (roleClash s).fe.crcErrors = s.fe.crcErrors ∧ (roleClash s).fe.sendEnd = s.fe.sendEnd ∧
    (roleClash s).fe.turnOpened = s.fe.turnOpened ∧ (roleClash s).fe.earliest = s.fe.earliest ∧
    (roleClash s).fe.hurry = s.fe.hurry ∧ (roleClash s).eu.outbox = s.eu.outbox ∧ (roleClash s).lt = s.lt := by
  simp [roleClash]

@[simp] theorem requestsAtLoss_frame  (s : State) :
    (requestsAtLoss s).inReset = s.inReset ∧ (requestsAtLoss s).free = s.free ∧ (requestsAtLoss s).pending = s.pending ∧
    (requestsAtLoss s).now = s.now ∧ (requestsAtLoss s).hp = s.hp ∧ (requestsAtLoss s).iq = s.iq ∧
    (requestsAtLoss s).da = s.da ∧ (requestsAtLoss s).dbc = s.dbc ∧ (requestsAtLoss s).lb = s.lb ∧
    (requestsAtLoss s).slc = s.slc ∧ (requestsAtLoss s).fe.txSeq = s.fe.txSeq ∧
    (requestsAtLoss s).fe.window = s.fe.window ∧ (requestsAtLoss s).fe.goBack = s.fe.goBack ∧
    (requestsAtLoss s).fe.stall = s.fe.stall ∧ (requestsAtLoss s).fe.progress = s.fe.progress ∧
    (requestsAtLoss s).fe.expected = s.fe.expected ∧ (requestsAtLoss s).fe.lastRet = s.fe.lastRet ∧
    (requestsAtLoss s).fe.resend = s.fe.resend ∧ (requestsAtLoss s).fe.credits = s.fe.credits ∧
    (requestsAtLoss s).fe.retCount = s.fe.retCount ∧ (requestsAtLoss s).fe.releaseAll = s.fe.releaseAll ∧
    (requestsAtLoss s).fe.runLines = s.fe.runLines ∧ (requestsAtLoss s).fe.crcErrors = s.fe.crcErrors ∧
    (requestsAtLoss s).fe.sending = s.fe.sending ∧ (requestsAtLoss s).fe.sendEnd = s.fe.sendEnd ∧
    (requestsAtLoss s).fe.awaitReply = s.fe.awaitReply ∧ (requestsAtLoss s).fe.replyDue = s.fe.replyDue ∧ (requestsAtLoss s).fe.replyHello = s.fe.replyHello ∧
    (requestsAtLoss s).fe.helloTaken = s.fe.helloTaken ∧ (requestsAtLoss s).fe.turnOpened = s.fe.turnOpened ∧
    (requestsAtLoss s).fe.earliest = s.fe.earliest ∧ (requestsAtLoss s).fe.hurry = s.fe.hurry ∧
    (requestsAtLoss s).eu = s.eu ∧ (requestsAtLoss s).lt = s.lt := by
  simp [requestsAtLoss]

@[simp] theorem incomingAtLoss_frame  (s : State) :
    (incomingAtLoss s).inReset = s.inReset ∧ (incomingAtLoss s).free = s.free ∧ (incomingAtLoss s).pending = s.pending ∧
    (incomingAtLoss s).now = s.now ∧ (incomingAtLoss s).hp = s.hp ∧ (incomingAtLoss s).rt = s.rt ∧
    (incomingAtLoss s).da.localList = s.da.localList ∧ (incomingAtLoss s).da.turn = s.da.turn ∧
    (incomingAtLoss s).da.lease = s.da.lease ∧ (incomingAtLoss s).da.policy = s.da.policy ∧
    (incomingAtLoss s).da.filter = s.da.filter ∧ (incomingAtLoss s).dbc = s.dbc ∧ (incomingAtLoss s).lb = s.lb ∧
    (incomingAtLoss s).slc = s.slc ∧ (incomingAtLoss s).fe = s.fe ∧ (incomingAtLoss s).eu = s.eu ∧
    (incomingAtLoss s).lt = s.lt := by
  simp [incomingAtLoss]

@[simp] theorem eventsAtLoss_frame (r : HoldoffReason) (s : State) :
    (eventsAtLoss r s).inReset = s.inReset ∧ (eventsAtLoss r s).free = s.free ∧ (eventsAtLoss r s).pending = s.pending ∧
    (eventsAtLoss r s).now = s.now ∧ (eventsAtLoss r s).hp = s.hp ∧ (eventsAtLoss r s).rt = s.rt ∧
    (eventsAtLoss r s).iq = s.iq ∧ (eventsAtLoss r s).da = s.da ∧ (eventsAtLoss r s).dbc = s.dbc ∧
    (eventsAtLoss r s).lb = s.lb ∧ (eventsAtLoss r s).slc = s.slc ∧ (eventsAtLoss r s).fe = s.fe ∧
    (eventsAtLoss r s).lt = s.lt := by
  simp [eventsAtLoss]

@[simp] theorem leaseAtLoss_frame  (s : State) :
    (leaseAtLoss s).inReset = s.inReset ∧ (leaseAtLoss s).free = s.free ∧ (leaseAtLoss s).pending = s.pending ∧
    (leaseAtLoss s).now = s.now ∧ (leaseAtLoss s).hp = s.hp ∧ (leaseAtLoss s).rt = s.rt ∧ (leaseAtLoss s).iq = s.iq ∧
    (leaseAtLoss s).da.localList = s.da.localList ∧ (leaseAtLoss s).da.remoteList = s.da.remoteList ∧
    (leaseAtLoss s).da.turn = s.da.turn ∧ (leaseAtLoss s).da.policy = s.da.policy ∧
    (leaseAtLoss s).da.filter = s.da.filter ∧ (leaseAtLoss s).dbc = s.dbc ∧ (leaseAtLoss s).lb = s.lb ∧
    (leaseAtLoss s).slc = s.slc ∧ (leaseAtLoss s).fe = s.fe ∧ (leaseAtLoss s).eu.outbox = s.eu.outbox ∧
    (leaseAtLoss s).lt = s.lt := by
  unfold leaseAtLoss; split <;> simp

@[simp] theorem engineAtLoss_frame  (s : State) :
    (engineAtLoss s).inReset = s.inReset ∧ (engineAtLoss s).free = s.free ∧ (engineAtLoss s).pending = s.pending ∧
    (engineAtLoss s).now = s.now ∧ (engineAtLoss s).hp = s.hp ∧ (engineAtLoss s).rt = s.rt ∧ (engineAtLoss s).iq = s.iq ∧
    (engineAtLoss s).da = s.da ∧ (engineAtLoss s).dbc = s.dbc ∧ (engineAtLoss s).lb = s.lb ∧
    (engineAtLoss s).slc.role = s.slc.role ∧ (engineAtLoss s).slc.spanEn = s.slc.spanEn ∧
    (engineAtLoss s).slc.state = s.slc.state ∧ (engineAtLoss s).slc.good = s.slc.good ∧
    (engineAtLoss s).slc.missed = s.slc.missed ∧ (engineAtLoss s).slc.detail = s.slc.detail ∧
    (engineAtLoss s).slc.peerRev = s.slc.peerRev ∧ (engineAtLoss s).slc.peerCap = s.slc.peerCap ∧
    (engineAtLoss s).slc.trainDue = s.slc.trainDue ∧ (engineAtLoss s).slc.helloDue = s.slc.helloDue ∧
    (engineAtLoss s).slc.helloLimit = s.slc.helloLimit ∧ (engineAtLoss s).slc.silence = s.slc.silence ∧
    (engineAtLoss s).slc.retrain = s.slc.retrain ∧ (engineAtLoss s).slc.holdoff = s.slc.holdoff ∧
    (engineAtLoss s).eu = s.eu ∧ (engineAtLoss s).lt = s.lt := by
  simp [engineAtLoss]

@[simp] theorem loss_frame (r : HoldoffReason) (s : State) :
    (loss r s).inReset = s.inReset ∧ (loss r s).free = s.free ∧ (loss r s).pending = s.pending ∧ (loss r s).now = s.now ∧
    (loss r s).hp = s.hp ∧ (loss r s).da.policy = s.da.policy ∧ (loss r s).da.filter = s.da.filter ∧
    (loss r s).lb.mirrorPending = s.lb.mirrorPending ∧ (loss r s).lb.remoteLines = s.lb.remoteLines ∧
    (loss r s).slc.role = s.slc.role ∧ (loss r s).slc.spanEn = s.slc.spanEn ∧ (loss r s).slc.peerRev = s.slc.peerRev ∧
    (loss r s).slc.peerCap = s.slc.peerCap := by
  simp [loss]

@[simp] theorem lock_frame  (s : State) :
    (lock s).inReset = s.inReset ∧ (lock s).free = s.free ∧ (lock s).pending = s.pending ∧ (lock s).now = s.now ∧
    (lock s).hp = s.hp ∧ (lock s).rt = s.rt ∧ (lock s).iq = s.iq ∧ (lock s).da = s.da ∧ (lock s).dbc = s.dbc ∧
    (lock s).lb = s.lb ∧ (lock s).slc.role = s.slc.role ∧ (lock s).slc.spanEn = s.slc.spanEn ∧
    (lock s).slc.good = s.slc.good ∧ (lock s).slc.missed = s.slc.missed ∧ (lock s).slc.detail = s.slc.detail ∧
    (lock s).slc.peerRev = s.slc.peerRev ∧ (lock s).slc.peerCap = s.slc.peerCap ∧
    (lock s).slc.peerReady = s.slc.peerReady ∧ (lock s).slc.silence = s.slc.silence ∧
    (lock s).slc.retrain = s.slc.retrain ∧ (lock s).slc.holdoff = s.slc.holdoff ∧ (lock s).fe = s.fe ∧
    (lock s).eu = s.eu ∧
    (lock s).lt = s.lt := by
  simp [lock]

@[simp] theorem startRun_frame (n : Nat) (s : State) :
    (startRun n s).inReset = s.inReset ∧ (startRun n s).free = s.free ∧ (startRun n s).pending = s.pending ∧
    (startRun n s).now = s.now ∧ (startRun n s).hp = s.hp ∧ (startRun n s).rt = s.rt ∧ (startRun n s).iq = s.iq ∧
    (startRun n s).da = s.da ∧ (startRun n s).dbc = s.dbc ∧ (startRun n s).lb = s.lb ∧
    (startRun n s).slc.role = s.slc.role ∧ (startRun n s).slc.spanEn = s.slc.spanEn ∧
    (startRun n s).slc.good = s.slc.good ∧ (startRun n s).slc.detail = s.slc.detail ∧
    (startRun n s).slc.peerRev = s.slc.peerRev ∧ (startRun n s).slc.peerCap = s.slc.peerCap ∧
    (startRun n s).slc.peerReady = s.slc.peerReady ∧ (startRun n s).slc.holdoff = s.slc.holdoff ∧
    (startRun n s).eu = s.eu ∧ (startRun n s).lt = s.lt := by
  simp [startRun]

@[simp] theorem freeDetached_frame  (s : State) :
    (freeDetached s).inReset = s.inReset ∧ (freeDetached s).free = s.free ∧ (freeDetached s).pending = s.pending ∧
    (freeDetached s).now = s.now ∧ (freeDetached s).hp = s.hp ∧ (freeDetached s).rt = s.rt ∧
    (freeDetached s).iq.answerOrder = s.iq.answerOrder ∧ (freeDetached s).da = s.da ∧ (freeDetached s).dbc = s.dbc ∧
    (freeDetached s).lb = s.lb ∧ (freeDetached s).slc = s.slc ∧ (freeDetached s).fe = s.fe ∧ (freeDetached s).eu = s.eu ∧
    (freeDetached s).lt = s.lt := by
  simp [freeDetached]

@[simp] theorem enterRunFromHello_frame (h : HelloTaken) (s : State) :
    (enterRunFromHello h s).inReset = s.inReset ∧ (enterRunFromHello h s).free = s.free ∧
    (enterRunFromHello h s).pending = s.pending ∧ (enterRunFromHello h s).now = s.now ∧
    (enterRunFromHello h s).hp = s.hp ∧
    (enterRunFromHello h s).rt = s.rt ∧ (enterRunFromHello h s).iq.answerOrder = s.iq.answerOrder ∧
    (enterRunFromHello h s).da = s.da ∧ (enterRunFromHello h s).dbc = s.dbc ∧ (enterRunFromHello h s).lb = s.lb ∧
    (enterRunFromHello h s).slc.role = s.slc.role ∧ (enterRunFromHello h s).slc.spanEn = s.slc.spanEn ∧
    (enterRunFromHello h s).slc.good = s.slc.good ∧ (enterRunFromHello h s).slc.detail = s.slc.detail ∧
    (enterRunFromHello h s).slc.holdoff = s.slc.holdoff ∧ (enterRunFromHello h s).eu.outbox = s.eu.outbox ∧
    (enterRunFromHello h s).lt = s.lt := by
  unfold enterRunFromHello; dsimp only; split <;> simp

@[simp] theorem enterRunFromRetrain_frame  (s : State) :
    (enterRunFromRetrain s).inReset = s.inReset ∧ (enterRunFromRetrain s).free = s.free ∧
    (enterRunFromRetrain s).pending = s.pending ∧ (enterRunFromRetrain s).now = s.now ∧
    (enterRunFromRetrain s).hp = s.hp ∧
    (enterRunFromRetrain s).iq = s.iq ∧ (enterRunFromRetrain s).da = s.da ∧ (enterRunFromRetrain s).dbc = s.dbc ∧
    (enterRunFromRetrain s).lb = s.lb ∧ (enterRunFromRetrain s).slc.role = s.slc.role ∧
    (enterRunFromRetrain s).slc.spanEn = s.slc.spanEn ∧ (enterRunFromRetrain s).slc.good = s.slc.good ∧
    (enterRunFromRetrain s).slc.detail = s.slc.detail ∧ (enterRunFromRetrain s).slc.peerRev = s.slc.peerRev ∧
    (enterRunFromRetrain s).slc.peerCap = s.slc.peerCap ∧ (enterRunFromRetrain s).slc.peerReady = s.slc.peerReady ∧
    (enterRunFromRetrain s).slc.holdoff = s.slc.holdoff ∧ (enterRunFromRetrain s).eu.outbox = s.eu.outbox := by
  simp [enterRunFromRetrain]

@[simp] theorem setSpanOff_frame (v : Bool) (s : State) :
    (setSpanOff v s).inReset = s.inReset ∧ (setSpanOff v s).free = s.free ∧ (setSpanOff v s).pending = s.pending ∧
    (setSpanOff v s).now = s.now ∧ (setSpanOff v s).hp.up = s.hp.up ∧ (setSpanOff v s).hp.startUp = s.hp.startUp ∧
    (setSpanOff v s).hp.addr = s.hp.addr ∧ (setSpanOff v s).hp.taking = s.hp.taking ∧
    (setSpanOff v s).hp.pointer = s.hp.pointer ∧
    (setSpanOff v s).hp.hostReady = s.hp.hostReady ∧ (setSpanOff v s).hp.alertCq = s.hp.alertCq ∧
    (setSpanOff v s).hp.alertEq = s.hp.alertEq ∧ (setSpanOff v s).hp.busSpeed = s.hp.busSpeed ∧
    (setSpanOff v s).hp.submitResult = s.hp.submitResult ∧ (setSpanOff v s).hp.cancelResult = s.hp.cancelResult ∧
    (setSpanOff v s).hp.remoteHold = s.hp.remoteHold ∧ (setSpanOff v s).hp.filterHold = s.hp.filterHold ∧
    (setSpanOff v s).hp.staging = s.hp.staging ∧ (setSpanOff v s).hp.cqCopy = s.hp.cqCopy ∧
    (setSpanOff v s).hp.eqCopy = s.hp.eqCopy ∧ (setSpanOff v s).hp.crcCopy = s.hp.crcCopy ∧
    (setSpanOff v s).hp.sent = s.hp.sent ∧ (setSpanOff v s).da.policy = s.da.policy ∧
    (setSpanOff v s).da.filter = s.da.filter ∧ (setSpanOff v s).lb.mirrorPending = s.lb.mirrorPending ∧
    (setSpanOff v s).lb.remoteLines = s.lb.remoteLines ∧ (setSpanOff v s).slc.role = s.slc.role ∧
    (setSpanOff v s).slc.spanEn = s.slc.spanEn ∧ (setSpanOff v s).slc.peerRev = s.slc.peerRev ∧
    (setSpanOff v s).slc.peerCap = s.slc.peerCap := by
  unfold setSpanOff; dsimp only; (repeat' split) <;> simp

@[simp] theorem trainingInterval_frame  (s : State) :
    (trainingInterval s).inReset = s.inReset ∧ (trainingInterval s).free = s.free ∧
    (trainingInterval s).pending = s.pending ∧ (trainingInterval s).hp = s.hp ∧ (trainingInterval s).rt = s.rt ∧
    (trainingInterval s).iq = s.iq ∧ (trainingInterval s).da = s.da ∧ (trainingInterval s).dbc = s.dbc ∧
    (trainingInterval s).lb = s.lb ∧ (trainingInterval s).slc.role = s.slc.role ∧
    (trainingInterval s).slc.spanEn = s.slc.spanEn ∧ (trainingInterval s).slc.state = s.slc.state ∧
    (trainingInterval s).slc.good = s.slc.good ∧ (trainingInterval s).slc.missed = s.slc.missed ∧
    (trainingInterval s).slc.detail = s.slc.detail ∧ (trainingInterval s).slc.peerRev = s.slc.peerRev ∧
    (trainingInterval s).slc.peerCap = s.slc.peerCap ∧ (trainingInterval s).slc.peerReady = s.slc.peerReady ∧
    (trainingInterval s).slc.helloDue = s.slc.helloDue ∧ (trainingInterval s).slc.helloLimit = s.slc.helloLimit ∧
    (trainingInterval s).slc.silence = s.slc.silence ∧ (trainingInterval s).slc.retrain = s.slc.retrain ∧
    (trainingInterval s).slc.holdoff = s.slc.holdoff ∧ (trainingInterval s).fe.txSeq = s.fe.txSeq ∧
    (trainingInterval s).fe.window = s.fe.window ∧ (trainingInterval s).fe.goBack = s.fe.goBack ∧
    (trainingInterval s).fe.stall = s.fe.stall ∧ (trainingInterval s).fe.progress = s.fe.progress ∧
    (trainingInterval s).fe.expected = s.fe.expected ∧ (trainingInterval s).fe.lastRet = s.fe.lastRet ∧
    (trainingInterval s).fe.resend = s.fe.resend ∧ (trainingInterval s).fe.credits = s.fe.credits ∧
    (trainingInterval s).fe.retCount = s.fe.retCount ∧ (trainingInterval s).fe.cancelList = s.fe.cancelList ∧
    (trainingInterval s).fe.releaseAll = s.fe.releaseAll ∧ (trainingInterval s).fe.runLines = s.fe.runLines ∧
    (trainingInterval s).fe.crcErrors = s.fe.crcErrors ∧ (trainingInterval s).fe.replyHello = s.fe.replyHello ∧ (trainingInterval s).fe.helloTaken = s.fe.helloTaken ∧
    (trainingInterval s).fe.turnOpened = s.fe.turnOpened ∧ (trainingInterval s).fe.earliest = s.fe.earliest ∧
    (trainingInterval s).fe.hurry = s.fe.hurry ∧ (trainingInterval s).eu = s.eu ∧ (trainingInterval s).lt = s.lt := by
  unfold trainingInterval; split <;> simp

@[simp] theorem helloInterval_frame  (s : State) :
    (helloInterval s).inReset = s.inReset ∧ (helloInterval s).free = s.free ∧ (helloInterval s).pending = s.pending ∧
    (helloInterval s).hp = s.hp ∧ (helloInterval s).rt = s.rt ∧ (helloInterval s).iq = s.iq ∧
    (helloInterval s).da = s.da ∧
    (helloInterval s).dbc = s.dbc ∧ (helloInterval s).lb = s.lb ∧ (helloInterval s).slc.role = s.slc.role ∧
    (helloInterval s).slc.spanEn = s.slc.spanEn ∧ (helloInterval s).slc.state = s.slc.state ∧
    (helloInterval s).slc.good = s.slc.good ∧ (helloInterval s).slc.missed = s.slc.missed ∧
    (helloInterval s).slc.detail = s.slc.detail ∧ (helloInterval s).slc.peerRev = s.slc.peerRev ∧
    (helloInterval s).slc.peerCap = s.slc.peerCap ∧ (helloInterval s).slc.peerReady = s.slc.peerReady ∧
    (helloInterval s).slc.trainDue = s.slc.trainDue ∧ (helloInterval s).slc.helloLimit = s.slc.helloLimit ∧
    (helloInterval s).slc.silence = s.slc.silence ∧ (helloInterval s).slc.retrain = s.slc.retrain ∧
    (helloInterval s).slc.holdoff = s.slc.holdoff ∧ (helloInterval s).fe.txSeq = s.fe.txSeq ∧
    (helloInterval s).fe.window = s.fe.window ∧ (helloInterval s).fe.goBack = s.fe.goBack ∧
    (helloInterval s).fe.stall = s.fe.stall ∧ (helloInterval s).fe.progress = s.fe.progress ∧
    (helloInterval s).fe.expected = s.fe.expected ∧ (helloInterval s).fe.lastRet = s.fe.lastRet ∧
    (helloInterval s).fe.resend = s.fe.resend ∧ (helloInterval s).fe.credits = s.fe.credits ∧
    (helloInterval s).fe.retCount = s.fe.retCount ∧ (helloInterval s).fe.cancelList = s.fe.cancelList ∧
    (helloInterval s).fe.releaseAll = s.fe.releaseAll ∧ (helloInterval s).fe.runLines = s.fe.runLines ∧
    (helloInterval s).fe.crcErrors = s.fe.crcErrors ∧ (helloInterval s).fe.replyHello = s.fe.replyHello ∧ (helloInterval s).fe.helloTaken = s.fe.helloTaken ∧
    (helloInterval s).fe.turnOpened = s.fe.turnOpened ∧ (helloInterval s).fe.earliest = s.fe.earliest ∧
    (helloInterval s).fe.hurry = s.fe.hurry ∧ (helloInterval s).eu = s.eu ∧ (helloInterval s).lt = s.lt := by
  unfold helloInterval; split <;> simp

@[simp] theorem helloLimit_frame  (s : State) :
    (helloLimit s).inReset = s.inReset ∧ (helloLimit s).free = s.free ∧ (helloLimit s).pending = s.pending ∧
    (helloLimit s).hp = s.hp ∧ (helloLimit s).rt = s.rt ∧ (helloLimit s).iq = s.iq ∧ (helloLimit s).da = s.da ∧
    (helloLimit s).dbc = s.dbc ∧ (helloLimit s).lb = s.lb ∧ (helloLimit s).slc.role = s.slc.role ∧
    (helloLimit s).slc.spanEn = s.slc.spanEn ∧ (helloLimit s).slc.peerRev = s.slc.peerRev ∧
    (helloLimit s).slc.peerCap = s.slc.peerCap ∧ (helloLimit s).slc.peerReady = s.slc.peerReady ∧
    (helloLimit s).fe.txSeq = s.fe.txSeq ∧ (helloLimit s).fe.window = s.fe.window ∧
    (helloLimit s).fe.goBack = s.fe.goBack ∧ (helloLimit s).fe.stall = s.fe.stall ∧
    (helloLimit s).fe.progress = s.fe.progress ∧ (helloLimit s).fe.expected = s.fe.expected ∧
    (helloLimit s).fe.lastRet = s.fe.lastRet ∧ (helloLimit s).fe.resend = s.fe.resend ∧
    (helloLimit s).fe.credits = s.fe.credits ∧ (helloLimit s).fe.retCount = s.fe.retCount ∧
    (helloLimit s).fe.cancelList = s.fe.cancelList ∧ (helloLimit s).fe.releaseAll = s.fe.releaseAll ∧
    (helloLimit s).fe.runLines = s.fe.runLines ∧ (helloLimit s).fe.crcErrors = s.fe.crcErrors ∧
    (helloLimit s).fe.sendEnd = s.fe.sendEnd ∧ (helloLimit s).fe.turnOpened = s.fe.turnOpened ∧
    (helloLimit s).fe.earliest = s.fe.earliest ∧ (helloLimit s).fe.hurry = s.fe.hurry ∧ (helloLimit s).eu = s.eu ∧
    (helloLimit s).lt = s.lt := by
  unfold helloLimit; split <;> simp

@[simp] theorem silenceLimit_frame  (s : State) :
    (silenceLimit s).inReset = s.inReset ∧ (silenceLimit s).free = s.free ∧ (silenceLimit s).pending = s.pending ∧
    (silenceLimit s).hp = s.hp ∧ (silenceLimit s).da.policy = s.da.policy ∧ (silenceLimit s).da.filter = s.da.filter ∧
    (silenceLimit s).lb.mirrorPending = s.lb.mirrorPending ∧ (silenceLimit s).lb.remoteLines = s.lb.remoteLines ∧
    (silenceLimit s).slc.role = s.slc.role ∧ (silenceLimit s).slc.spanEn = s.slc.spanEn ∧
    (silenceLimit s).slc.peerRev = s.slc.peerRev ∧ (silenceLimit s).slc.peerCap = s.slc.peerCap := by
  unfold silenceLimit; split <;> simp

@[simp] theorem retrainLimit_frame  (s : State) :
    (retrainLimit s).inReset = s.inReset ∧ (retrainLimit s).free = s.free ∧ (retrainLimit s).pending = s.pending ∧
    (retrainLimit s).hp = s.hp ∧ (retrainLimit s).da.policy = s.da.policy ∧ (retrainLimit s).da.filter = s.da.filter ∧
    (retrainLimit s).lb.mirrorPending = s.lb.mirrorPending ∧ (retrainLimit s).lb.remoteLines = s.lb.remoteLines ∧
    (retrainLimit s).slc.role = s.slc.role ∧ (retrainLimit s).slc.spanEn = s.slc.spanEn ∧
    (retrainLimit s).slc.peerRev = s.slc.peerRev ∧ (retrainLimit s).slc.peerCap = s.slc.peerCap := by
  unfold retrainLimit; split <;> simp

@[simp] theorem holdoffEnd_frame  (s : State) :
    (holdoffEnd s).inReset = s.inReset ∧ (holdoffEnd s).free = s.free ∧ (holdoffEnd s).pending = s.pending ∧
    (holdoffEnd s).hp = s.hp ∧ (holdoffEnd s).rt = s.rt ∧ (holdoffEnd s).iq = s.iq ∧ (holdoffEnd s).da = s.da ∧
    (holdoffEnd s).dbc = s.dbc ∧ (holdoffEnd s).lb = s.lb ∧ (holdoffEnd s).slc.role = s.slc.role ∧
    (holdoffEnd s).slc.spanEn = s.slc.spanEn ∧ (holdoffEnd s).slc.missed = s.slc.missed ∧
    (holdoffEnd s).slc.detail = s.slc.detail ∧ (holdoffEnd s).slc.peerRev = s.slc.peerRev ∧
    (holdoffEnd s).slc.peerCap = s.slc.peerCap ∧ (holdoffEnd s).slc.peerReady = s.slc.peerReady ∧
    (holdoffEnd s).slc.helloDue = s.slc.helloDue ∧ (holdoffEnd s).slc.helloLimit = s.slc.helloLimit ∧
    (holdoffEnd s).slc.silence = s.slc.silence ∧ (holdoffEnd s).slc.retrain = s.slc.retrain ∧
    (holdoffEnd s).fe.txSeq = s.fe.txSeq ∧ (holdoffEnd s).fe.window = s.fe.window ∧
    (holdoffEnd s).fe.goBack = s.fe.goBack ∧ (holdoffEnd s).fe.stall = s.fe.stall ∧
    (holdoffEnd s).fe.progress = s.fe.progress ∧ (holdoffEnd s).fe.expected = s.fe.expected ∧
    (holdoffEnd s).fe.lastRet = s.fe.lastRet ∧ (holdoffEnd s).fe.resend = s.fe.resend ∧
    (holdoffEnd s).fe.credits = s.fe.credits ∧ (holdoffEnd s).fe.retCount = s.fe.retCount ∧
    (holdoffEnd s).fe.cancelList = s.fe.cancelList ∧ (holdoffEnd s).fe.releaseAll = s.fe.releaseAll ∧
    (holdoffEnd s).fe.runLines = s.fe.runLines ∧ (holdoffEnd s).fe.crcErrors = s.fe.crcErrors ∧
    (holdoffEnd s).fe.replyHello = s.fe.replyHello ∧ (holdoffEnd s).fe.helloTaken = s.fe.helloTaken ∧ (holdoffEnd s).fe.turnOpened = s.fe.turnOpened ∧
    (holdoffEnd s).fe.earliest = s.fe.earliest ∧ (holdoffEnd s).fe.hurry = s.fe.hurry ∧ (holdoffEnd s).eu = s.eu ∧
    (holdoffEnd s).lt = s.lt := by
  unfold holdoffEnd; dsimp only; (repeat' split) <;> simp

@[simp] theorem runRemote_frame (i : Slot) (r : Request) (s : State) :
    (runRemote i r s).inReset = s.inReset ∧ (runRemote i r s).free = s.free ∧ (runRemote i r s).pending = s.pending ∧
    (runRemote i r s).now = s.now ∧ (runRemote i r s).hp = s.hp ∧ (runRemote i r s).iq.arrival = s.iq.arrival ∧
    (runRemote i r s).da.policy = s.da.policy ∧ (runRemote i r s).da.filter = s.da.filter ∧
    (runRemote i r s).lb.remoteLines = s.lb.remoteLines ∧ (runRemote i r s).lb.pulse = s.lb.pulse ∧
    (runRemote i r s).slc = s.slc ∧ (runRemote i r s).fe.txSeq = s.fe.txSeq ∧ (runRemote i r s).fe.window = s.fe.window ∧
    (runRemote i r s).fe.goBack = s.fe.goBack ∧ (runRemote i r s).fe.stall = s.fe.stall ∧
    (runRemote i r s).fe.progress = s.fe.progress ∧ (runRemote i r s).fe.expected = s.fe.expected ∧
    (runRemote i r s).fe.lastRet = s.fe.lastRet ∧ (runRemote i r s).fe.resend = s.fe.resend ∧
    (runRemote i r s).fe.credits = s.fe.credits ∧ (runRemote i r s).fe.retCount = s.fe.retCount ∧
    (runRemote i r s).fe.releaseAll = s.fe.releaseAll ∧ (runRemote i r s).fe.runLines = s.fe.runLines ∧
    (runRemote i r s).fe.crcErrors = s.fe.crcErrors ∧ (runRemote i r s).fe.sending = s.fe.sending ∧
    (runRemote i r s).fe.sendEnd = s.fe.sendEnd ∧ (runRemote i r s).fe.awaitReply = s.fe.awaitReply ∧
    (runRemote i r s).fe.replyDue = s.fe.replyDue ∧ (runRemote i r s).fe.replyHello = s.fe.replyHello ∧ (runRemote i r s).fe.helloTaken = s.fe.helloTaken ∧
    (runRemote i r s).fe.turnOpened = s.fe.turnOpened ∧ (runRemote i r s).fe.earliest = s.fe.earliest ∧
    (runRemote i r s).fe.hurry = s.fe.hurry ∧ (runRemote i r s).lt = s.lt := by
  unfold runRemote dropLease; dsimp only; (repeat' split) <;> simp

@[simp] theorem handleReq_frame (i : Slot) (r : Request) (s : State) :
    (handleReq i r s).inReset = s.inReset ∧ (handleReq i r s).free = s.free ∧ (handleReq i r s).pending = s.pending ∧
    (handleReq i r s).now = s.now ∧ (handleReq i r s).hp = s.hp ∧ (handleReq i r s).iq.arrival = s.iq.arrival ∧
    (handleReq i r s).da.policy = s.da.policy ∧ (handleReq i r s).da.filter = s.da.filter ∧
    (handleReq i r s).lb.remoteLines = s.lb.remoteLines ∧ (handleReq i r s).lb.pulse = s.lb.pulse ∧
    (handleReq i r s).slc = s.slc ∧ (handleReq i r s).fe.txSeq = s.fe.txSeq ∧ (handleReq i r s).fe.window = s.fe.window ∧
    (handleReq i r s).fe.goBack = s.fe.goBack ∧ (handleReq i r s).fe.stall = s.fe.stall ∧
    (handleReq i r s).fe.progress = s.fe.progress ∧ (handleReq i r s).fe.expected = s.fe.expected ∧
    (handleReq i r s).fe.lastRet = s.fe.lastRet ∧ (handleReq i r s).fe.resend = s.fe.resend ∧
    (handleReq i r s).fe.credits = s.fe.credits ∧ (handleReq i r s).fe.retCount = s.fe.retCount ∧
    (handleReq i r s).fe.releaseAll = s.fe.releaseAll ∧ (handleReq i r s).fe.runLines = s.fe.runLines ∧
    (handleReq i r s).fe.crcErrors = s.fe.crcErrors ∧ (handleReq i r s).fe.sending = s.fe.sending ∧
    (handleReq i r s).fe.sendEnd = s.fe.sendEnd ∧ (handleReq i r s).fe.awaitReply = s.fe.awaitReply ∧
    (handleReq i r s).fe.replyDue = s.fe.replyDue ∧ (handleReq i r s).fe.replyHello = s.fe.replyHello ∧ (handleReq i r s).fe.helloTaken = s.fe.helloTaken ∧
    (handleReq i r s).fe.turnOpened = s.fe.turnOpened ∧ (handleReq i r s).fe.earliest = s.fe.earliest ∧
    (handleReq i r s).fe.hurry = s.fe.hurry ∧ (handleReq i r s).lt = s.lt := by
  unfold handleReq; (repeat' split) <;> simp

@[simp] theorem takeRsp_frame (p : List Byte) (s : State) :
    (takeRsp p s).inReset = s.inReset ∧ (takeRsp p s).free = s.free ∧ (takeRsp p s).pending = s.pending ∧
    (takeRsp p s).now = s.now ∧ (takeRsp p s).hp = s.hp ∧ (takeRsp p s).iq = s.iq ∧ (takeRsp p s).da = s.da ∧
    (takeRsp p s).dbc = s.dbc ∧ (takeRsp p s).lb = s.lb ∧ (takeRsp p s).slc = s.slc ∧
    (takeRsp p s).fe.txSeq = s.fe.txSeq ∧
    (takeRsp p s).fe.window = s.fe.window ∧ (takeRsp p s).fe.goBack = s.fe.goBack ∧ (takeRsp p s).fe.stall = s.fe.stall ∧
    (takeRsp p s).fe.progress = s.fe.progress ∧ (takeRsp p s).fe.expected = s.fe.expected ∧
    (takeRsp p s).fe.lastRet = s.fe.lastRet ∧ (takeRsp p s).fe.resend = s.fe.resend ∧
    (takeRsp p s).fe.credits = s.fe.credits ∧ (takeRsp p s).fe.retCount = s.fe.retCount ∧
    (takeRsp p s).fe.releaseAll = s.fe.releaseAll ∧ (takeRsp p s).fe.runLines = s.fe.runLines ∧
    (takeRsp p s).fe.crcErrors = s.fe.crcErrors ∧ (takeRsp p s).fe.sending = s.fe.sending ∧
    (takeRsp p s).fe.sendEnd = s.fe.sendEnd ∧ (takeRsp p s).fe.awaitReply = s.fe.awaitReply ∧
    (takeRsp p s).fe.replyDue = s.fe.replyDue ∧ (takeRsp p s).fe.replyHello = s.fe.replyHello ∧ (takeRsp p s).fe.helloTaken = s.fe.helloTaken ∧
    (takeRsp p s).fe.turnOpened = s.fe.turnOpened ∧ (takeRsp p s).fe.earliest = s.fe.earliest ∧
    (takeRsp p s).fe.hurry = s.fe.hurry ∧ (takeRsp p s).eu = s.eu ∧ (takeRsp p s).lt = s.lt := by
  unfold takeRsp; (repeat' split) <;> simp

@[simp] theorem withdrawSlot_frame (i : Slot) (st : Status) (s : State) :
    (withdrawSlot i st s).inReset = s.inReset ∧ (withdrawSlot i st s).free = s.free ∧
    (withdrawSlot i st s).pending = s.pending ∧ (withdrawSlot i st s).now = s.now ∧ (withdrawSlot i st s).hp = s.hp ∧
    (withdrawSlot i st s).rt = s.rt ∧ (withdrawSlot i st s).iq.arrival = s.iq.arrival ∧
    (withdrawSlot i st s).da.localList = s.da.localList ∧ (withdrawSlot i st s).da.turn = s.da.turn ∧
    (withdrawSlot i st s).da.lease = s.da.lease ∧ (withdrawSlot i st s).da.policy = s.da.policy ∧
    (withdrawSlot i st s).da.filter = s.da.filter ∧ (withdrawSlot i st s).dbc = s.dbc ∧ (withdrawSlot i st s).lb = s.lb ∧
    (withdrawSlot i st s).slc = s.slc ∧ (withdrawSlot i st s).fe = s.fe ∧ (withdrawSlot i st s).eu = s.eu ∧
    (withdrawSlot i st s).lt = s.lt := by
  simp [withdrawSlot]

@[simp] theorem takeCancel_frame (p : List Byte) (s : State) :
    (takeCancel p s).inReset = s.inReset ∧ (takeCancel p s).free = s.free ∧ (takeCancel p s).pending = s.pending ∧
    (takeCancel p s).now = s.now ∧ (takeCancel p s).hp = s.hp ∧ (takeCancel p s).rt = s.rt ∧
    (takeCancel p s).iq.arrival = s.iq.arrival ∧ (takeCancel p s).da.localList = s.da.localList ∧
    (takeCancel p s).da.turn = s.da.turn ∧ (takeCancel p s).da.lease = s.da.lease ∧
    (takeCancel p s).da.policy = s.da.policy ∧ (takeCancel p s).da.filter = s.da.filter ∧ (takeCancel p s).dbc = s.dbc ∧
    (takeCancel p s).lb = s.lb ∧ (takeCancel p s).slc = s.slc ∧ (takeCancel p s).fe = s.fe ∧ (takeCancel p s).eu = s.eu ∧
    (takeCancel p s).lt = s.lt := by
  unfold takeCancel; (repeat' split) <;> simp

theorem freeAll_fold (is : List Slot) (s : State) :
    (is.foldl (fun s i => freeWithCredit i s) s) =
      { s with
        iq := (is.foldl (fun s i => freeWithCredit i s) s).iq
        fe.retCount := (is.foldl (fun s i => freeWithCredit i s) s).fe.retCount } := by
  induction is generalizing s with
  | nil => rfl
  | cons i is ih =>
    simp only [List.foldl_cons]
    rw [ih]
    rfl

@[simp] theorem dropWaiting_frame  (s : State) :
    (dropWaiting s).inReset = s.inReset ∧ (dropWaiting s).free = s.free ∧ (dropWaiting s).pending = s.pending ∧
    (dropWaiting s).now = s.now ∧ (dropWaiting s).hp = s.hp ∧ (dropWaiting s).rt = s.rt ∧
    (dropWaiting s).da.localList = s.da.localList ∧ (dropWaiting s).da.turn = s.da.turn ∧
    (dropWaiting s).da.lease = s.da.lease ∧ (dropWaiting s).da.policy = s.da.policy ∧
    (dropWaiting s).da.filter = s.da.filter ∧ (dropWaiting s).dbc = s.dbc ∧ (dropWaiting s).lb = s.lb ∧
    (dropWaiting s).slc = s.slc ∧ (dropWaiting s).fe.txSeq = s.fe.txSeq ∧ (dropWaiting s).fe.window = s.fe.window ∧
    (dropWaiting s).fe.goBack = s.fe.goBack ∧ (dropWaiting s).fe.stall = s.fe.stall ∧
    (dropWaiting s).fe.progress = s.fe.progress ∧ (dropWaiting s).fe.expected = s.fe.expected ∧
    (dropWaiting s).fe.lastRet = s.fe.lastRet ∧ (dropWaiting s).fe.resend = s.fe.resend ∧
    (dropWaiting s).fe.credits = s.fe.credits ∧ (dropWaiting s).fe.cancelList = s.fe.cancelList ∧
    (dropWaiting s).fe.releaseAll = s.fe.releaseAll ∧ (dropWaiting s).fe.runLines = s.fe.runLines ∧
    (dropWaiting s).fe.crcErrors = s.fe.crcErrors ∧ (dropWaiting s).fe.sending = s.fe.sending ∧
    (dropWaiting s).fe.sendEnd = s.fe.sendEnd ∧ (dropWaiting s).fe.awaitReply = s.fe.awaitReply ∧
    (dropWaiting s).fe.replyDue = s.fe.replyDue ∧ (dropWaiting s).fe.replyHello = s.fe.replyHello ∧ (dropWaiting s).fe.helloTaken = s.fe.helloTaken ∧
    (dropWaiting s).fe.turnOpened = s.fe.turnOpened ∧ (dropWaiting s).fe.earliest = s.fe.earliest ∧
    (dropWaiting s).fe.hurry = s.fe.hurry ∧ (dropWaiting s).eu = s.eu ∧ (dropWaiting s).lt = s.lt := by
  unfold dropWaiting; rw [freeAll_fold]; simp

@[simp] theorem takeReleaseAll_frame  (s : State) :
    (takeReleaseAll s).inReset = s.inReset ∧ (takeReleaseAll s).free = s.free ∧ (takeReleaseAll s).pending = s.pending ∧
    (takeReleaseAll s).now = s.now ∧ (takeReleaseAll s).hp = s.hp ∧ (takeReleaseAll s).da.policy = s.da.policy ∧
    (takeReleaseAll s).da.filter = s.da.filter ∧ (takeReleaseAll s).lb.mirrorPending = s.lb.mirrorPending ∧
    (takeReleaseAll s).lb.remoteLines = s.lb.remoteLines ∧ (takeReleaseAll s).lb.pulse = s.lb.pulse ∧
    (takeReleaseAll s).slc = s.slc ∧ (takeReleaseAll s).fe.txSeq = s.fe.txSeq ∧
    (takeReleaseAll s).fe.window = s.fe.window ∧ (takeReleaseAll s).fe.goBack = s.fe.goBack ∧
    (takeReleaseAll s).fe.stall = s.fe.stall ∧ (takeReleaseAll s).fe.progress = s.fe.progress ∧
    (takeReleaseAll s).fe.expected = s.fe.expected ∧ (takeReleaseAll s).fe.lastRet = s.fe.lastRet ∧
    (takeReleaseAll s).fe.resend = s.fe.resend ∧ (takeReleaseAll s).fe.credits = s.fe.credits ∧
    (takeReleaseAll s).fe.releaseAll = s.fe.releaseAll ∧ (takeReleaseAll s).fe.runLines = s.fe.runLines ∧
    (takeReleaseAll s).fe.crcErrors = s.fe.crcErrors ∧ (takeReleaseAll s).fe.sending = s.fe.sending ∧
    (takeReleaseAll s).fe.sendEnd = s.fe.sendEnd ∧ (takeReleaseAll s).fe.awaitReply = s.fe.awaitReply ∧
    (takeReleaseAll s).fe.replyDue = s.fe.replyDue ∧ (takeReleaseAll s).fe.replyHello = s.fe.replyHello ∧ (takeReleaseAll s).fe.helloTaken = s.fe.helloTaken ∧
    (takeReleaseAll s).fe.turnOpened = s.fe.turnOpened ∧ (takeReleaseAll s).fe.earliest = s.fe.earliest ∧
    (takeReleaseAll s).fe.hurry = s.fe.hurry ∧ (takeReleaseAll s).eu = s.eu ∧ (takeReleaseAll s).lt = s.lt := by
  simp [takeReleaseAll]

@[simp] theorem takeEvent_frame (p : List Byte) (s : State) :
    (takeEvent p s).inReset = s.inReset ∧ (takeEvent p s).free = s.free ∧ (takeEvent p s).pending = s.pending ∧
    (takeEvent p s).now = s.now ∧ (takeEvent p s).hp = s.hp ∧ (takeEvent p s).rt = s.rt ∧ (takeEvent p s).iq = s.iq ∧
    (takeEvent p s).da = s.da ∧ (takeEvent p s).dbc = s.dbc ∧ (takeEvent p s).lb = s.lb ∧ (takeEvent p s).slc = s.slc ∧
    (takeEvent p s).fe = s.fe ∧ (takeEvent p s).eu.outbox = s.eu.outbox ∧ (takeEvent p s).lt = s.lt := by
  unfold takeEvent; split <;> simp

@[simp] theorem remoteDeadlineExpiry_frame (i : Slot) (s : State) :
    (remoteDeadlineExpiry i s).inReset = s.inReset ∧ (remoteDeadlineExpiry i s).free = s.free ∧
    (remoteDeadlineExpiry i s).pending = s.pending ∧ (remoteDeadlineExpiry i s).hp = s.hp ∧
    (remoteDeadlineExpiry i s).rt = s.rt ∧ (remoteDeadlineExpiry i s).iq.arrival = s.iq.arrival ∧
    (remoteDeadlineExpiry i s).da.localList = s.da.localList ∧ (remoteDeadlineExpiry i s).da.turn = s.da.turn ∧
    (remoteDeadlineExpiry i s).da.lease = s.da.lease ∧ (remoteDeadlineExpiry i s).da.policy = s.da.policy ∧
    (remoteDeadlineExpiry i s).da.filter = s.da.filter ∧ (remoteDeadlineExpiry i s).dbc = s.dbc ∧
    (remoteDeadlineExpiry i s).lb = s.lb ∧ (remoteDeadlineExpiry i s).slc = s.slc ∧ (remoteDeadlineExpiry i s).fe = s.fe ∧
    (remoteDeadlineExpiry i s).eu = s.eu ∧ (remoteDeadlineExpiry i s).lt = s.lt := by
  unfold remoteDeadlineExpiry; split <;> simp

@[simp] theorem goBack_frame  (s : State) :
    (goBack s).inReset = s.inReset ∧ (goBack s).free = s.free ∧ (goBack s).pending = s.pending ∧ (goBack s).now = s.now ∧
    (goBack s).hp = s.hp ∧ (goBack s).rt = s.rt ∧ (goBack s).iq = s.iq ∧ (goBack s).da = s.da ∧ (goBack s).dbc = s.dbc ∧
    (goBack s).lb = s.lb ∧ (goBack s).slc = s.slc ∧ (goBack s).fe.txSeq = s.fe.txSeq ∧
    (goBack s).fe.window = s.fe.window ∧
    (goBack s).fe.progress = s.fe.progress ∧ (goBack s).fe.expected = s.fe.expected ∧
    (goBack s).fe.lastRet = s.fe.lastRet ∧ (goBack s).fe.resend = s.fe.resend ∧ (goBack s).fe.credits = s.fe.credits ∧
    (goBack s).fe.retCount = s.fe.retCount ∧ (goBack s).fe.cancelList = s.fe.cancelList ∧
    (goBack s).fe.releaseAll = s.fe.releaseAll ∧ (goBack s).fe.runLines = s.fe.runLines ∧
    (goBack s).fe.crcErrors = s.fe.crcErrors ∧ (goBack s).fe.sending = s.fe.sending ∧
    (goBack s).fe.sendEnd = s.fe.sendEnd ∧ (goBack s).fe.awaitReply = s.fe.awaitReply ∧
    (goBack s).fe.replyDue = s.fe.replyDue ∧ (goBack s).fe.replyHello = s.fe.replyHello ∧ (goBack s).fe.helloTaken = s.fe.helloTaken ∧
    (goBack s).fe.turnOpened = s.fe.turnOpened ∧ (goBack s).fe.earliest = s.fe.earliest ∧
    (goBack s).fe.hurry = s.fe.hurry ∧ (goBack s).eu = s.eu ∧ (goBack s).lt = s.lt := by
  simp [goBack]

@[simp] theorem noteSend_frame (h : Bool) (s : State) :
    (noteSend h s).inReset = s.inReset ∧ (noteSend h s).free = s.free ∧ (noteSend h s).pending = s.pending ∧
    (noteSend h s).now = s.now ∧ (noteSend h s).hp = s.hp ∧ (noteSend h s).rt = s.rt ∧ (noteSend h s).iq = s.iq ∧
    (noteSend h s).da = s.da ∧ (noteSend h s).dbc = s.dbc ∧ (noteSend h s).lb = s.lb ∧ (noteSend h s).slc = s.slc ∧
    (noteSend h s).fe.txSeq = s.fe.txSeq ∧ (noteSend h s).fe.window = s.fe.window ∧
    (noteSend h s).fe.expected = s.fe.expected ∧ (noteSend h s).fe.lastRet = s.fe.lastRet ∧
    (noteSend h s).fe.resend = s.fe.resend ∧ (noteSend h s).fe.credits = s.fe.credits ∧
    (noteSend h s).fe.retCount = s.fe.retCount ∧ (noteSend h s).fe.cancelList = s.fe.cancelList ∧
    (noteSend h s).fe.releaseAll = s.fe.releaseAll ∧ (noteSend h s).fe.runLines = s.fe.runLines ∧
    (noteSend h s).fe.crcErrors = s.fe.crcErrors ∧ (noteSend h s).fe.sending = s.fe.sending ∧
    (noteSend h s).fe.sendEnd = s.fe.sendEnd ∧ (noteSend h s).fe.awaitReply = s.fe.awaitReply ∧
    (noteSend h s).fe.replyDue = s.fe.replyDue ∧ (noteSend h s).fe.replyHello = s.fe.replyHello ∧ (noteSend h s).fe.helloTaken = s.fe.helloTaken ∧
    (noteSend h s).fe.turnOpened = s.fe.turnOpened ∧ (noteSend h s).fe.earliest = s.fe.earliest ∧
    (noteSend h s).fe.hurry = s.fe.hurry ∧ (noteSend h s).eu = s.eu ∧ (noteSend h s).lt = s.lt := by
  unfold noteSend; dsimp only; (repeat' split) <;> simp

@[simp] theorem pushFrame_frame (k : FrameKind) (p : List Byte) (i : Option Slot) (s : State) :
    (pushFrame k p i s).inReset = s.inReset ∧ (pushFrame k p i s).free = s.free ∧
    (pushFrame k p i s).pending = s.pending ∧
    (pushFrame k p i s).now = s.now ∧ (pushFrame k p i s).hp = s.hp ∧ (pushFrame k p i s).rt = s.rt ∧
    (pushFrame k p i s).iq = s.iq ∧ (pushFrame k p i s).da = s.da ∧ (pushFrame k p i s).dbc = s.dbc ∧
    (pushFrame k p i s).lb = s.lb ∧ (pushFrame k p i s).slc = s.slc ∧ (pushFrame k p i s).fe.expected = s.fe.expected ∧
    (pushFrame k p i s).fe.lastRet = s.fe.lastRet ∧ (pushFrame k p i s).fe.resend = s.fe.resend ∧
    (pushFrame k p i s).fe.credits = s.fe.credits ∧ (pushFrame k p i s).fe.retCount = s.fe.retCount ∧
    (pushFrame k p i s).fe.cancelList = s.fe.cancelList ∧ (pushFrame k p i s).fe.releaseAll = s.fe.releaseAll ∧
    (pushFrame k p i s).fe.runLines = s.fe.runLines ∧ (pushFrame k p i s).fe.crcErrors = s.fe.crcErrors ∧
    (pushFrame k p i s).fe.replyHello = s.fe.replyHello ∧ (pushFrame k p i s).fe.helloTaken = s.fe.helloTaken ∧ (pushFrame k p i s).fe.turnOpened = s.fe.turnOpened ∧
    (pushFrame k p i s).fe.earliest = s.fe.earliest ∧ (pushFrame k p i s).fe.hurry = s.fe.hurry ∧
    (pushFrame k p i s).eu = s.eu ∧ (pushFrame k p i s).lt = s.lt := by
  simp [pushFrame]

@[simp] theorem buildReq_frame (t : Tag) (s : State) :
    (buildReq t s).inReset = s.inReset ∧ (buildReq t s).free = s.free ∧ (buildReq t s).pending = s.pending ∧
    (buildReq t s).now = s.now ∧ (buildReq t s).hp = s.hp ∧ (buildReq t s).rt.order = s.rt.order ∧
    (buildReq t s).rt.cq = s.rt.cq ∧ (buildReq t s).iq = s.iq ∧ (buildReq t s).da = s.da ∧ (buildReq t s).dbc = s.dbc ∧
    (buildReq t s).lb = s.lb ∧ (buildReq t s).slc = s.slc ∧ (buildReq t s).fe.expected = s.fe.expected ∧
    (buildReq t s).fe.lastRet = s.fe.lastRet ∧ (buildReq t s).fe.resend = s.fe.resend ∧
    (buildReq t s).fe.retCount = s.fe.retCount ∧ (buildReq t s).fe.cancelList = s.fe.cancelList ∧
    (buildReq t s).fe.releaseAll = s.fe.releaseAll ∧ (buildReq t s).fe.runLines = s.fe.runLines ∧
    (buildReq t s).fe.crcErrors = s.fe.crcErrors ∧ (buildReq t s).fe.replyHello = s.fe.replyHello ∧ (buildReq t s).fe.helloTaken = s.fe.helloTaken ∧
    (buildReq t s).fe.turnOpened = s.fe.turnOpened ∧ (buildReq t s).fe.earliest = s.fe.earliest ∧
    (buildReq t s).fe.hurry = s.fe.hurry ∧ (buildReq t s).eu = s.eu ∧ (buildReq t s).lt = s.lt := by
  simp [buildReq]

@[simp] theorem buildRsp_frame (i : Slot) (s : State) :
    (buildRsp i s).inReset = s.inReset ∧ (buildRsp i s).free = s.free ∧ (buildRsp i s).pending = s.pending ∧
    (buildRsp i s).now = s.now ∧ (buildRsp i s).hp = s.hp ∧ (buildRsp i s).rt = s.rt ∧
    (buildRsp i s).iq.arrival = s.iq.arrival ∧ (buildRsp i s).da = s.da ∧ (buildRsp i s).dbc = s.dbc ∧
    (buildRsp i s).lb = s.lb ∧ (buildRsp i s).slc = s.slc ∧ (buildRsp i s).fe.expected = s.fe.expected ∧
    (buildRsp i s).fe.lastRet = s.fe.lastRet ∧ (buildRsp i s).fe.resend = s.fe.resend ∧
    (buildRsp i s).fe.credits = s.fe.credits ∧ (buildRsp i s).fe.retCount = s.fe.retCount ∧
    (buildRsp i s).fe.cancelList = s.fe.cancelList ∧ (buildRsp i s).fe.releaseAll = s.fe.releaseAll ∧
    (buildRsp i s).fe.runLines = s.fe.runLines ∧ (buildRsp i s).fe.crcErrors = s.fe.crcErrors ∧
    (buildRsp i s).fe.replyHello = s.fe.replyHello ∧ (buildRsp i s).fe.helloTaken = s.fe.helloTaken ∧ (buildRsp i s).fe.turnOpened = s.fe.turnOpened ∧
    (buildRsp i s).fe.earliest = s.fe.earliest ∧ (buildRsp i s).fe.hurry = s.fe.hurry ∧ (buildRsp i s).eu = s.eu ∧
    (buildRsp i s).lt = s.lt := by
  unfold buildRsp; dsimp only; (repeat' split) <;> simp

@[simp] theorem buildIdle_frame  (s : State) :
    (buildIdle s).inReset = s.inReset ∧ (buildIdle s).free = s.free ∧ (buildIdle s).pending = s.pending ∧
    (buildIdle s).now = s.now ∧ (buildIdle s).hp = s.hp ∧ (buildIdle s).rt = s.rt ∧ (buildIdle s).iq = s.iq ∧
    (buildIdle s).da = s.da ∧ (buildIdle s).dbc = s.dbc ∧ (buildIdle s).lb = s.lb ∧ (buildIdle s).slc = s.slc ∧
    (buildIdle s).fe.txSeq = s.fe.txSeq ∧ (buildIdle s).fe.window = s.fe.window ∧
    (buildIdle s).fe.expected = s.fe.expected ∧ (buildIdle s).fe.lastRet = s.fe.lastRet ∧
    (buildIdle s).fe.resend = s.fe.resend ∧ (buildIdle s).fe.credits = s.fe.credits ∧
    (buildIdle s).fe.retCount = s.fe.retCount ∧ (buildIdle s).fe.cancelList = s.fe.cancelList ∧
    (buildIdle s).fe.releaseAll = s.fe.releaseAll ∧ (buildIdle s).fe.runLines = s.fe.runLines ∧
    (buildIdle s).fe.crcErrors = s.fe.crcErrors ∧ (buildIdle s).fe.replyHello = s.fe.replyHello ∧ (buildIdle s).fe.helloTaken = s.fe.helloTaken ∧
    (buildIdle s).fe.turnOpened = s.fe.turnOpened ∧ (buildIdle s).fe.earliest = s.fe.earliest ∧
    (buildIdle s).fe.hurry = s.fe.hurry ∧ (buildIdle s).eu = s.eu ∧ (buildIdle s).lt = s.lt := by
  simp [buildIdle]

@[simp] theorem buildFrame_frame (k : FrameKind) (s : State) :
    (buildFrame k s).inReset = s.inReset ∧ (buildFrame k s).free = s.free ∧ (buildFrame k s).pending = s.pending ∧
    (buildFrame k s).now = s.now ∧ (buildFrame k s).hp = s.hp ∧ (buildFrame k s).rt.order = s.rt.order ∧
    (buildFrame k s).rt.cq = s.rt.cq ∧ (buildFrame k s).iq.arrival = s.iq.arrival ∧ (buildFrame k s).da = s.da ∧
    (buildFrame k s).dbc = s.dbc ∧ (buildFrame k s).lb.lines = s.lb.lines ∧
    (buildFrame k s).lb.remoteLines = s.lb.remoteLines ∧ (buildFrame k s).lb.pulse = s.lb.pulse ∧
    (buildFrame k s).slc.role = s.slc.role ∧ (buildFrame k s).slc.spanEn = s.slc.spanEn ∧
    (buildFrame k s).slc.good = s.slc.good ∧ (buildFrame k s).slc.missed = s.slc.missed ∧
    (buildFrame k s).slc.detail = s.slc.detail ∧ (buildFrame k s).slc.peerRev = s.slc.peerRev ∧
    (buildFrame k s).slc.peerCap = s.slc.peerCap ∧ (buildFrame k s).slc.peerReady = s.slc.peerReady ∧
    (buildFrame k s).slc.trainDue = s.slc.trainDue ∧ (buildFrame k s).slc.helloDue = s.slc.helloDue ∧
    (buildFrame k s).slc.helloLimit = s.slc.helloLimit ∧ (buildFrame k s).slc.silence = s.slc.silence ∧
    (buildFrame k s).slc.retrain = s.slc.retrain ∧ (buildFrame k s).slc.holdoff = s.slc.holdoff ∧
    (buildFrame k s).fe.expected = s.fe.expected ∧ (buildFrame k s).fe.lastRet = s.fe.lastRet ∧
    (buildFrame k s).fe.resend = s.fe.resend ∧ (buildFrame k s).fe.retCount = s.fe.retCount ∧
    (buildFrame k s).fe.crcErrors = s.fe.crcErrors ∧ (buildFrame k s).fe.replyHello = s.fe.replyHello ∧ (buildFrame k s).fe.helloTaken = s.fe.helloTaken ∧
    (buildFrame k s).fe.turnOpened = s.fe.turnOpened ∧ (buildFrame k s).fe.earliest = s.fe.earliest ∧
    (buildFrame k s).fe.hurry = s.fe.hurry ∧ (buildFrame k s).eu.eventQueue = s.eu.eventQueue ∧
    (buildFrame k s).lt.owner = s.lt.owner ∧ (buildFrame k s).lt.generator = s.lt.generator ∧
    (buildFrame k s).lt.duration = s.lt.duration ∧ (buildFrame k s).lt.pattern = s.lt.pattern ∧
    (buildFrame k s).lt.style = s.lt.style ∧ (buildFrame k s).lt.readyTaken = s.lt.readyTaken ∧
    (buildFrame k s).lt.durationDone = s.lt.durationDone ∧ (buildFrame k s).lt.bits = s.lt.bits ∧
    (buildFrame k s).lt.errors = s.lt.errors ∧ (buildFrame k s).lt.firstError = s.lt.firstError ∧
    (buildFrame k s).lt.endReason = s.lt.endReason ∧ (buildFrame k s).lt.releaseOwed = s.lt.releaseOwed ∧
    (buildFrame k s).lt.stopResult = s.lt.stopResult ∧ (buildFrame k s).lt.seeded = s.lt.seeded ∧
    (buildFrame k s).lt.shift = s.lt.shift ∧ (buildFrame k s).lt.lastError = s.lt.lastError ∧
    (buildFrame k s).lt.lastSymbol = s.lt.lastSymbol := by
  unfold buildFrame; (repeat' split) <;> simp

@[simp] theorem resendFrame_frame (f : WindowFrame) (rest : List Seq) (s : State) :
    (resendFrame f rest s).inReset = s.inReset ∧ (resendFrame f rest s).free = s.free ∧
    (resendFrame f rest s).pending = s.pending ∧ (resendFrame f rest s).now = s.now ∧ (resendFrame f rest s).hp = s.hp ∧
    (resendFrame f rest s).rt = s.rt ∧ (resendFrame f rest s).iq = s.iq ∧ (resendFrame f rest s).da = s.da ∧
    (resendFrame f rest s).dbc = s.dbc ∧ (resendFrame f rest s).lb = s.lb ∧ (resendFrame f rest s).slc = s.slc ∧
    (resendFrame f rest s).fe.txSeq = s.fe.txSeq ∧ (resendFrame f rest s).fe.expected = s.fe.expected ∧
    (resendFrame f rest s).fe.lastRet = s.fe.lastRet ∧ (resendFrame f rest s).fe.resend = s.fe.resend ∧
    (resendFrame f rest s).fe.credits = s.fe.credits ∧ (resendFrame f rest s).fe.retCount = s.fe.retCount ∧
    (resendFrame f rest s).fe.cancelList = s.fe.cancelList ∧ (resendFrame f rest s).fe.releaseAll = s.fe.releaseAll ∧
    (resendFrame f rest s).fe.runLines = s.fe.runLines ∧ (resendFrame f rest s).fe.crcErrors = s.fe.crcErrors ∧
    (resendFrame f rest s).fe.replyHello = s.fe.replyHello ∧ (resendFrame f rest s).fe.helloTaken = s.fe.helloTaken ∧ (resendFrame f rest s).fe.turnOpened = s.fe.turnOpened ∧
    (resendFrame f rest s).fe.earliest = s.fe.earliest ∧ (resendFrame f rest s).fe.hurry = s.fe.hurry ∧
    (resendFrame f rest s).eu = s.eu ∧ (resendFrame f rest s).lt = s.lt := by
  simp [resendFrame]

@[simp] theorem sendSelected_frame  (s : State) :
    (sendSelected s).inReset = s.inReset ∧ (sendSelected s).free = s.free ∧ (sendSelected s).pending = s.pending ∧
    (sendSelected s).now = s.now ∧ (sendSelected s).hp = s.hp ∧ (sendSelected s).da.policy = s.da.policy ∧
    (sendSelected s).da.filter = s.da.filter ∧ (sendSelected s).lb.remoteLines = s.lb.remoteLines ∧
    (sendSelected s).slc.role = s.slc.role ∧ (sendSelected s).slc.spanEn = s.slc.spanEn ∧
    (sendSelected s).slc.peerRev = s.slc.peerRev ∧ (sendSelected s).slc.peerCap = s.slc.peerCap := by
  unfold sendSelected; (repeat' split) <;> simp

@[simp] theorem turnOpen_frame  (s : State) :
    (turnOpen s).inReset = s.inReset ∧ (turnOpen s).free = s.free ∧ (turnOpen s).pending = s.pending ∧
    (turnOpen s).hp = s.hp ∧ (turnOpen s).da.policy = s.da.policy ∧ (turnOpen s).da.filter = s.da.filter ∧
    (turnOpen s).lb.remoteLines = s.lb.remoteLines ∧ (turnOpen s).slc.role = s.slc.role ∧
    (turnOpen s).slc.spanEn = s.slc.spanEn ∧ (turnOpen s).slc.peerRev = s.slc.peerRev ∧
    (turnOpen s).slc.peerCap = s.slc.peerCap := by
  unfold turnOpen; dsimp only; (repeat' split) <;> simp

@[simp] theorem sendHelloReply_frame (s : State) :
    (sendHelloReply s).inReset = s.inReset ∧ (sendHelloReply s).free = s.free ∧ (sendHelloReply s).pending = s.pending ∧
    (sendHelloReply s).now = s.now ∧ (sendHelloReply s).hp = s.hp ∧ (sendHelloReply s).rt = s.rt ∧
    (sendHelloReply s).iq = s.iq ∧ (sendHelloReply s).da = s.da ∧ (sendHelloReply s).dbc = s.dbc ∧
    (sendHelloReply s).lb = s.lb ∧ (sendHelloReply s).slc = s.slc ∧ (sendHelloReply s).eu = s.eu ∧
    (sendHelloReply s).lt = s.lt ∧ (sendHelloReply s).fe.txSeq = s.fe.txSeq ∧ (sendHelloReply s).fe.window = s.fe.window ∧
    (sendHelloReply s).fe.expected = s.fe.expected ∧ (sendHelloReply s).fe.lastRet = s.fe.lastRet ∧
    (sendHelloReply s).fe.resend = s.fe.resend ∧ (sendHelloReply s).fe.credits = s.fe.credits ∧
    (sendHelloReply s).fe.retCount = s.fe.retCount ∧ (sendHelloReply s).fe.cancelList = s.fe.cancelList ∧
    (sendHelloReply s).fe.releaseAll = s.fe.releaseAll ∧ (sendHelloReply s).fe.runLines = s.fe.runLines ∧
    (sendHelloReply s).fe.crcErrors = s.fe.crcErrors ∧ (sendHelloReply s).fe.replyHello = s.fe.replyHello ∧
    (sendHelloReply s).fe.helloTaken = s.fe.helloTaken ∧ (sendHelloReply s).fe.turnOpened = s.fe.turnOpened ∧
    (sendHelloReply s).fe.earliest = s.fe.earliest ∧ (sendHelloReply s).fe.hurry = s.fe.hurry := by
  simp [sendHelloReply]

@[simp] theorem followerReply_frame  (s : State) :
    (followerReply s).inReset = s.inReset ∧ (followerReply s).free = s.free ∧ (followerReply s).pending = s.pending ∧
    (followerReply s).hp = s.hp ∧ (followerReply s).da.policy = s.da.policy ∧ (followerReply s).da.filter = s.da.filter ∧
    (followerReply s).lb.remoteLines = s.lb.remoteLines ∧ (followerReply s).slc.role = s.slc.role ∧
    (followerReply s).slc.spanEn = s.slc.spanEn ∧ (followerReply s).slc.peerRev = s.slc.peerRev ∧
    (followerReply s).slc.peerCap = s.slc.peerCap := by
  unfold followerReply; dsimp only; (repeat' split) <;> simp

@[simp] theorem afterSend_frame  (s : State) :
    (afterSend s).inReset = s.inReset ∧ (afterSend s).free = s.free ∧ (afterSend s).pending = s.pending ∧
    (afterSend s).now = s.now ∧ (afterSend s).hp = s.hp ∧ (afterSend s).rt = s.rt ∧ (afterSend s).iq = s.iq ∧
    (afterSend s).da = s.da ∧ (afterSend s).dbc = s.dbc ∧ (afterSend s).lb.mirrorPending = s.lb.mirrorPending ∧
    (afterSend s).lb.remoteLines = s.lb.remoteLines ∧ (afterSend s).slc.role = s.slc.role ∧
    (afterSend s).slc.spanEn = s.slc.spanEn ∧ (afterSend s).slc.good = s.slc.good ∧
    (afterSend s).slc.missed = s.slc.missed ∧ (afterSend s).slc.detail = s.slc.detail ∧
    (afterSend s).slc.peerRev = s.slc.peerRev ∧ (afterSend s).slc.peerCap = s.slc.peerCap ∧
    (afterSend s).slc.peerReady = s.slc.peerReady ∧ (afterSend s).slc.trainDue = s.slc.trainDue ∧
    (afterSend s).slc.helloDue = s.slc.helloDue ∧ (afterSend s).slc.helloLimit = s.slc.helloLimit ∧
    (afterSend s).slc.retrain = s.slc.retrain ∧ (afterSend s).slc.holdoff = s.slc.holdoff ∧
    (afterSend s).fe.txSeq = s.fe.txSeq ∧ (afterSend s).fe.window = s.fe.window ∧ (afterSend s).fe.goBack = s.fe.goBack ∧
    (afterSend s).fe.stall = s.fe.stall ∧ (afterSend s).fe.progress = s.fe.progress ∧
    (afterSend s).fe.expected = s.fe.expected ∧ (afterSend s).fe.lastRet = s.fe.lastRet ∧
    (afterSend s).fe.resend = s.fe.resend ∧ (afterSend s).fe.credits = s.fe.credits ∧
    (afterSend s).fe.retCount = s.fe.retCount ∧ (afterSend s).fe.cancelList = s.fe.cancelList ∧
    (afterSend s).fe.releaseAll = s.fe.releaseAll ∧ (afterSend s).fe.runLines = s.fe.runLines ∧
    (afterSend s).fe.crcErrors = s.fe.crcErrors ∧ (afterSend s).fe.sending = s.fe.sending ∧
    (afterSend s).fe.sendEnd = s.fe.sendEnd ∧ (afterSend s).fe.replyHello = s.fe.replyHello ∧ (afterSend s).fe.helloTaken = s.fe.helloTaken ∧
    (afterSend s).fe.turnOpened = s.fe.turnOpened ∧ (afterSend s).fe.earliest = s.fe.earliest ∧
    (afterSend s).fe.hurry = s.fe.hurry ∧ (afterSend s).eu = s.eu := by
  unfold afterSend; split <;> simp

@[simp] theorem frameSent_frame  (s : State) :
    (frameSent s).inReset = s.inReset ∧ (frameSent s).free = s.free ∧ (frameSent s).pending = s.pending ∧
    (frameSent s).hp = s.hp ∧ (frameSent s).rt = s.rt ∧ (frameSent s).iq.answerOrder = s.iq.answerOrder ∧
    (frameSent s).da = s.da ∧ (frameSent s).dbc = s.dbc ∧ (frameSent s).lb.mirrorPending = s.lb.mirrorPending ∧
    (frameSent s).lb.remoteLines = s.lb.remoteLines ∧ (frameSent s).slc.role = s.slc.role ∧
    (frameSent s).slc.spanEn = s.slc.spanEn ∧ (frameSent s).slc.good = s.slc.good ∧
    (frameSent s).slc.detail = s.slc.detail ∧ (frameSent s).slc.holdoff = s.slc.holdoff ∧
    (frameSent s).eu.outbox = s.eu.outbox := by
  unfold frameSent; dsimp only; (repeat' split) <;> simp

@[simp] theorem missTurn_frame (g : Nat) (s : State) :
    (missTurn g s).inReset = s.inReset ∧ (missTurn g s).free = s.free ∧ (missTurn g s).pending = s.pending ∧
    (missTurn g s).now = s.now ∧ (missTurn g s).hp = s.hp ∧ (missTurn g s).da.policy = s.da.policy ∧
    (missTurn g s).da.filter = s.da.filter ∧ (missTurn g s).lb.mirrorPending = s.lb.mirrorPending ∧
    (missTurn g s).lb.remoteLines = s.lb.remoteLines ∧ (missTurn g s).slc.role = s.slc.role ∧
    (missTurn g s).slc.spanEn = s.slc.spanEn ∧ (missTurn g s).slc.peerRev = s.slc.peerRev ∧
    (missTurn g s).slc.peerCap = s.slc.peerCap := by
  unfold missTurn; dsimp only; (repeat' split) <;> simp

@[simp] theorem missExchange_frame  (s : State) :
    (missExchange s).inReset = s.inReset ∧ (missExchange s).free = s.free ∧ (missExchange s).pending = s.pending ∧
    (missExchange s).now = s.now ∧ (missExchange s).hp = s.hp ∧ (missExchange s).rt = s.rt ∧ (missExchange s).iq = s.iq ∧
    (missExchange s).da = s.da ∧ (missExchange s).dbc = s.dbc ∧ (missExchange s).lb = s.lb ∧
    (missExchange s).slc.role = s.slc.role ∧ (missExchange s).slc.spanEn = s.slc.spanEn ∧
    (missExchange s).slc.state = s.slc.state ∧ (missExchange s).slc.missed = s.slc.missed ∧
    (missExchange s).slc.detail = s.slc.detail ∧ (missExchange s).slc.peerRev = s.slc.peerRev ∧
    (missExchange s).slc.peerCap = s.slc.peerCap ∧ (missExchange s).slc.peerReady = s.slc.peerReady ∧
    (missExchange s).slc.trainDue = s.slc.trainDue ∧ (missExchange s).slc.helloDue = s.slc.helloDue ∧
    (missExchange s).slc.helloLimit = s.slc.helloLimit ∧ (missExchange s).slc.silence = s.slc.silence ∧
    (missExchange s).slc.retrain = s.slc.retrain ∧ (missExchange s).slc.holdoff = s.slc.holdoff ∧
    (missExchange s).fe.txSeq = s.fe.txSeq ∧ (missExchange s).fe.window = s.fe.window ∧
    (missExchange s).fe.goBack = s.fe.goBack ∧ (missExchange s).fe.stall = s.fe.stall ∧
    (missExchange s).fe.progress = s.fe.progress ∧ (missExchange s).fe.expected = s.fe.expected ∧
    (missExchange s).fe.lastRet = s.fe.lastRet ∧ (missExchange s).fe.resend = s.fe.resend ∧
    (missExchange s).fe.credits = s.fe.credits ∧ (missExchange s).fe.retCount = s.fe.retCount ∧
    (missExchange s).fe.cancelList = s.fe.cancelList ∧ (missExchange s).fe.releaseAll = s.fe.releaseAll ∧
    (missExchange s).fe.runLines = s.fe.runLines ∧ (missExchange s).fe.crcErrors = s.fe.crcErrors ∧
    (missExchange s).fe.sending = s.fe.sending ∧ (missExchange s).fe.sendEnd = s.fe.sendEnd ∧
    (missExchange s).fe.replyDue = s.fe.replyDue ∧ (missExchange s).fe.replyHello = s.fe.replyHello ∧ (missExchange s).fe.helloTaken = s.fe.helloTaken ∧
    (missExchange s).fe.turnOpened = s.fe.turnOpened ∧ (missExchange s).fe.earliest = s.fe.earliest ∧
    (missExchange s).fe.hurry = s.fe.hurry ∧ (missExchange s).eu = s.eu ∧ (missExchange s).lt = s.lt := by
  simp [missExchange]

@[simp] theorem replyWindowEnd_frame  (s : State) :
    (replyWindowEnd s).inReset = s.inReset ∧ (replyWindowEnd s).free = s.free ∧ (replyWindowEnd s).pending = s.pending ∧
    (replyWindowEnd s).hp = s.hp ∧ (replyWindowEnd s).da.policy = s.da.policy ∧
    (replyWindowEnd s).da.filter = s.da.filter ∧ (replyWindowEnd s).lb.mirrorPending = s.lb.mirrorPending ∧
    (replyWindowEnd s).lb.remoteLines = s.lb.remoteLines ∧ (replyWindowEnd s).slc.role = s.slc.role ∧
    (replyWindowEnd s).slc.spanEn = s.slc.spanEn ∧ (replyWindowEnd s).slc.peerRev = s.slc.peerRev ∧
    (replyWindowEnd s).slc.peerCap = s.slc.peerCap := by
  unfold replyWindowEnd; dsimp only; (repeat' split) <;> simp

@[simp] theorem countBad_frame  (s : State) :
    (countBad s).inReset = s.inReset ∧ (countBad s).free = s.free ∧ (countBad s).pending = s.pending ∧
    (countBad s).now = s.now ∧ (countBad s).hp = s.hp ∧ (countBad s).rt = s.rt ∧ (countBad s).iq = s.iq ∧
    (countBad s).da = s.da ∧ (countBad s).dbc = s.dbc ∧ (countBad s).lb = s.lb ∧ (countBad s).slc = s.slc ∧
    (countBad s).fe.txSeq = s.fe.txSeq ∧ (countBad s).fe.window = s.fe.window ∧ (countBad s).fe.goBack = s.fe.goBack ∧
    (countBad s).fe.stall = s.fe.stall ∧ (countBad s).fe.progress = s.fe.progress ∧
    (countBad s).fe.expected = s.fe.expected ∧ (countBad s).fe.lastRet = s.fe.lastRet ∧
    (countBad s).fe.resend = s.fe.resend ∧ (countBad s).fe.credits = s.fe.credits ∧
    (countBad s).fe.retCount = s.fe.retCount ∧ (countBad s).fe.cancelList = s.fe.cancelList ∧
    (countBad s).fe.releaseAll = s.fe.releaseAll ∧ (countBad s).fe.runLines = s.fe.runLines ∧
    (countBad s).fe.sending = s.fe.sending ∧ (countBad s).fe.sendEnd = s.fe.sendEnd ∧
    (countBad s).fe.awaitReply = s.fe.awaitReply ∧ (countBad s).fe.replyDue = s.fe.replyDue ∧ (countBad s).fe.replyHello = s.fe.replyHello ∧
    (countBad s).fe.helloTaken = s.fe.helloTaken ∧ (countBad s).fe.turnOpened = s.fe.turnOpened ∧
    (countBad s).fe.earliest = s.fe.earliest ∧ (countBad s).fe.hurry = s.fe.hurry ∧ (countBad s).eu = s.eu ∧
    (countBad s).lt = s.lt := by
  simp [countBad]

@[simp] theorem badFrame_frame  (s : State) :
    (badFrame s).inReset = s.inReset ∧ (badFrame s).free = s.free ∧ (badFrame s).pending = s.pending ∧
    (badFrame s).now = s.now ∧ (badFrame s).hp = s.hp ∧ (badFrame s).da.policy = s.da.policy ∧
    (badFrame s).da.filter = s.da.filter ∧ (badFrame s).lb.mirrorPending = s.lb.mirrorPending ∧
    (badFrame s).lb.remoteLines = s.lb.remoteLines ∧ (badFrame s).slc.role = s.slc.role ∧
    (badFrame s).slc.spanEn = s.slc.spanEn ∧ (badFrame s).slc.peerRev = s.slc.peerRev ∧
    (badFrame s).slc.peerCap = s.slc.peerCap := by
  unfold badFrame; dsimp only; (repeat' split) <;> simp

@[simp] theorem takeAck_frame (a : Seq) (s : State) :
    (takeAck a s).inReset = s.inReset ∧ (takeAck a s).free = s.free ∧ (takeAck a s).pending = s.pending ∧
    (takeAck a s).now = s.now ∧ (takeAck a s).hp = s.hp ∧ (takeAck a s).rt = s.rt ∧ (takeAck a s).da = s.da ∧
    (takeAck a s).dbc = s.dbc ∧ (takeAck a s).lb = s.lb ∧ (takeAck a s).slc = s.slc ∧
    (takeAck a s).fe.txSeq = s.fe.txSeq ∧
    (takeAck a s).fe.expected = s.fe.expected ∧ (takeAck a s).fe.lastRet = s.fe.lastRet ∧
    (takeAck a s).fe.resend = s.fe.resend ∧ (takeAck a s).fe.credits = s.fe.credits ∧
    (takeAck a s).fe.cancelList = s.fe.cancelList ∧ (takeAck a s).fe.releaseAll = s.fe.releaseAll ∧
    (takeAck a s).fe.runLines = s.fe.runLines ∧ (takeAck a s).fe.crcErrors = s.fe.crcErrors ∧
    (takeAck a s).fe.sending = s.fe.sending ∧ (takeAck a s).fe.sendEnd = s.fe.sendEnd ∧
    (takeAck a s).fe.awaitReply = s.fe.awaitReply ∧ (takeAck a s).fe.replyDue = s.fe.replyDue ∧ (takeAck a s).fe.replyHello = s.fe.replyHello ∧
    (takeAck a s).fe.helloTaken = s.fe.helloTaken ∧ (takeAck a s).fe.turnOpened = s.fe.turnOpened ∧
    (takeAck a s).fe.earliest = s.fe.earliest ∧ (takeAck a s).fe.hurry = s.fe.hurry ∧ (takeAck a s).eu = s.eu ∧
    (takeAck a s).lt = s.lt := by
  unfold takeAck; dsimp only; split <;> (try rw [freeAll_fold]) <;> simp

@[simp] theorem takeReturn_frame (b : Byte) (s : State) :
    (takeReturn b s).inReset = s.inReset ∧ (takeReturn b s).free = s.free ∧ (takeReturn b s).pending = s.pending ∧
    (takeReturn b s).now = s.now ∧ (takeReturn b s).hp = s.hp ∧ (takeReturn b s).rt = s.rt ∧ (takeReturn b s).iq = s.iq ∧
    (takeReturn b s).da = s.da ∧ (takeReturn b s).dbc = s.dbc ∧ (takeReturn b s).lb = s.lb ∧
    (takeReturn b s).slc = s.slc ∧
    (takeReturn b s).fe.txSeq = s.fe.txSeq ∧ (takeReturn b s).fe.window = s.fe.window ∧
    (takeReturn b s).fe.goBack = s.fe.goBack ∧ (takeReturn b s).fe.stall = s.fe.stall ∧
    (takeReturn b s).fe.progress = s.fe.progress ∧ (takeReturn b s).fe.expected = s.fe.expected ∧
    (takeReturn b s).fe.resend = s.fe.resend ∧ (takeReturn b s).fe.retCount = s.fe.retCount ∧
    (takeReturn b s).fe.cancelList = s.fe.cancelList ∧ (takeReturn b s).fe.releaseAll = s.fe.releaseAll ∧
    (takeReturn b s).fe.runLines = s.fe.runLines ∧ (takeReturn b s).fe.crcErrors = s.fe.crcErrors ∧
    (takeReturn b s).fe.sending = s.fe.sending ∧ (takeReturn b s).fe.sendEnd = s.fe.sendEnd ∧
    (takeReturn b s).fe.awaitReply = s.fe.awaitReply ∧ (takeReturn b s).fe.replyDue = s.fe.replyDue ∧ (takeReturn b s).fe.replyHello = s.fe.replyHello ∧
    (takeReturn b s).fe.helloTaken = s.fe.helloTaken ∧ (takeReturn b s).fe.turnOpened = s.fe.turnOpened ∧
    (takeReturn b s).fe.earliest = s.fe.earliest ∧ (takeReturn b s).fe.hurry = s.fe.hurry ∧ (takeReturn b s).eu = s.eu ∧
    (takeReturn b s).lt = s.lt := by
  simp [takeReturn]

@[simp] theorem takeReady_frame (r : Bool) (s : State) :
    (takeReady r s).inReset = s.inReset ∧ (takeReady r s).free = s.free ∧ (takeReady r s).pending = s.pending ∧
    (takeReady r s).now = s.now ∧ (takeReady r s).hp = s.hp ∧ (takeReady r s).rt = s.rt ∧ (takeReady r s).iq = s.iq ∧
    (takeReady r s).da = s.da ∧ (takeReady r s).dbc = s.dbc ∧ (takeReady r s).lb = s.lb ∧
    (takeReady r s).slc.role = s.slc.role ∧ (takeReady r s).slc.spanEn = s.slc.spanEn ∧
    (takeReady r s).slc.state = s.slc.state ∧ (takeReady r s).slc.good = s.slc.good ∧
    (takeReady r s).slc.missed = s.slc.missed ∧ (takeReady r s).slc.detail = s.slc.detail ∧
    (takeReady r s).slc.peerRev = s.slc.peerRev ∧ (takeReady r s).slc.peerCap = s.slc.peerCap ∧
    (takeReady r s).slc.trainDue = s.slc.trainDue ∧ (takeReady r s).slc.helloDue = s.slc.helloDue ∧
    (takeReady r s).slc.helloLimit = s.slc.helloLimit ∧ (takeReady r s).slc.silence = s.slc.silence ∧
    (takeReady r s).slc.retrain = s.slc.retrain ∧ (takeReady r s).slc.holdoff = s.slc.holdoff ∧
    (takeReady r s).fe = s.fe ∧
    (takeReady r s).eu.outbox = s.eu.outbox ∧ (takeReady r s).lt = s.lt := by
  unfold takeReady; split <;> simp

@[simp] theorem takeHeader_frame (h : FrameHeader) (s : State) :
    (takeHeader h s).inReset = s.inReset ∧ (takeHeader h s).free = s.free ∧ (takeHeader h s).pending = s.pending ∧
    (takeHeader h s).now = s.now ∧ (takeHeader h s).hp = s.hp ∧ (takeHeader h s).rt = s.rt ∧ (takeHeader h s).da = s.da ∧
    (takeHeader h s).dbc = s.dbc ∧ (takeHeader h s).lb = s.lb ∧ (takeHeader h s).slc.role = s.slc.role ∧
    (takeHeader h s).slc.spanEn = s.slc.spanEn ∧ (takeHeader h s).slc.state = s.slc.state ∧
    (takeHeader h s).slc.good = s.slc.good ∧ (takeHeader h s).slc.missed = s.slc.missed ∧
    (takeHeader h s).slc.detail = s.slc.detail ∧ (takeHeader h s).slc.peerRev = s.slc.peerRev ∧
    (takeHeader h s).slc.peerCap = s.slc.peerCap ∧ (takeHeader h s).slc.trainDue = s.slc.trainDue ∧
    (takeHeader h s).slc.helloDue = s.slc.helloDue ∧ (takeHeader h s).slc.helloLimit = s.slc.helloLimit ∧
    (takeHeader h s).slc.silence = s.slc.silence ∧ (takeHeader h s).slc.retrain = s.slc.retrain ∧
    (takeHeader h s).slc.holdoff = s.slc.holdoff ∧ (takeHeader h s).fe.txSeq = s.fe.txSeq ∧
    (takeHeader h s).fe.expected = s.fe.expected ∧ (takeHeader h s).fe.resend = s.fe.resend ∧
    (takeHeader h s).fe.cancelList = s.fe.cancelList ∧ (takeHeader h s).fe.releaseAll = s.fe.releaseAll ∧
    (takeHeader h s).fe.runLines = s.fe.runLines ∧ (takeHeader h s).fe.crcErrors = s.fe.crcErrors ∧
    (takeHeader h s).fe.sending = s.fe.sending ∧ (takeHeader h s).fe.sendEnd = s.fe.sendEnd ∧
    (takeHeader h s).fe.awaitReply = s.fe.awaitReply ∧ (takeHeader h s).fe.replyDue = s.fe.replyDue ∧ (takeHeader h s).fe.replyHello = s.fe.replyHello ∧
    (takeHeader h s).fe.helloTaken = s.fe.helloTaken ∧ (takeHeader h s).fe.turnOpened = s.fe.turnOpened ∧
    (takeHeader h s).fe.earliest = s.fe.earliest ∧ (takeHeader h s).fe.hurry = s.fe.hurry ∧
    (takeHeader h s).eu.outbox = s.eu.outbox ∧ (takeHeader h s).lt = s.lt := by
  unfold takeHeader; dsimp only; split <;> simp

@[simp] theorem takeTrainAck_frame (h : FrameHeader) (s : State) :
    (takeTrainAck h s).inReset = s.inReset ∧ (takeTrainAck h s).free = s.free ∧ (takeTrainAck h s).pending = s.pending ∧
    (takeTrainAck h s).now = s.now ∧ (takeTrainAck h s).hp = s.hp ∧ (takeTrainAck h s).iq = s.iq ∧
    (takeTrainAck h s).da = s.da ∧ (takeTrainAck h s).dbc = s.dbc ∧ (takeTrainAck h s).lb = s.lb ∧
    (takeTrainAck h s).slc.role = s.slc.role ∧ (takeTrainAck h s).slc.spanEn = s.slc.spanEn ∧
    (takeTrainAck h s).slc.detail = s.slc.detail ∧ (takeTrainAck h s).slc.peerRev = s.slc.peerRev ∧
    (takeTrainAck h s).slc.peerCap = s.slc.peerCap ∧ (takeTrainAck h s).slc.peerReady = s.slc.peerReady ∧
    (takeTrainAck h s).slc.holdoff = s.slc.holdoff ∧ (takeTrainAck h s).eu.outbox = s.eu.outbox := by
  unfold takeTrainAck; dsimp only; (repeat' split) <;> simp

@[simp] theorem leaderHello_frame (h : FrameHeader) (p : List Byte) (s : State) :
    (leaderHello h p s).inReset = s.inReset ∧ (leaderHello h p s).free = s.free ∧
    (leaderHello h p s).pending = s.pending ∧
    (leaderHello h p s).now = s.now ∧ (leaderHello h p s).hp = s.hp ∧ (leaderHello h p s).rt = s.rt ∧
    (leaderHello h p s).iq.answerOrder = s.iq.answerOrder ∧ (leaderHello h p s).da = s.da ∧
    (leaderHello h p s).dbc = s.dbc ∧ (leaderHello h p s).lb = s.lb ∧ (leaderHello h p s).slc.role = s.slc.role ∧
    (leaderHello h p s).slc.spanEn = s.slc.spanEn ∧ (leaderHello h p s).eu.outbox = s.eu.outbox ∧
    (leaderHello h p s).lt = s.lt := by
  unfold leaderHello; split <;> simp

@[simp] theorem turnAnswered_frame (k : FrameKind) (h : FrameHeader) (s : State) :
    (turnAnswered k h s).inReset = s.inReset ∧ (turnAnswered k h s).free = s.free ∧
    (turnAnswered k h s).pending = s.pending ∧ (turnAnswered k h s).now = s.now ∧ (turnAnswered k h s).hp = s.hp ∧
    (turnAnswered k h s).rt = s.rt ∧ (turnAnswered k h s).iq = s.iq ∧ (turnAnswered k h s).da = s.da ∧
    (turnAnswered k h s).dbc = s.dbc ∧ (turnAnswered k h s).lb = s.lb ∧ (turnAnswered k h s).slc.role = s.slc.role ∧
    (turnAnswered k h s).slc.spanEn = s.slc.spanEn ∧ (turnAnswered k h s).slc.state = s.slc.state ∧
    (turnAnswered k h s).slc.good = s.slc.good ∧ (turnAnswered k h s).slc.detail = s.slc.detail ∧
    (turnAnswered k h s).slc.peerRev = s.slc.peerRev ∧ (turnAnswered k h s).slc.peerCap = s.slc.peerCap ∧
    (turnAnswered k h s).slc.peerReady = s.slc.peerReady ∧ (turnAnswered k h s).slc.trainDue = s.slc.trainDue ∧
    (turnAnswered k h s).slc.helloDue = s.slc.helloDue ∧ (turnAnswered k h s).slc.helloLimit = s.slc.helloLimit ∧
    (turnAnswered k h s).slc.silence = s.slc.silence ∧ (turnAnswered k h s).slc.retrain = s.slc.retrain ∧
    (turnAnswered k h s).slc.holdoff = s.slc.holdoff ∧ (turnAnswered k h s).fe.txSeq = s.fe.txSeq ∧
    (turnAnswered k h s).fe.window = s.fe.window ∧ (turnAnswered k h s).fe.goBack = s.fe.goBack ∧
    (turnAnswered k h s).fe.stall = s.fe.stall ∧ (turnAnswered k h s).fe.progress = s.fe.progress ∧
    (turnAnswered k h s).fe.expected = s.fe.expected ∧ (turnAnswered k h s).fe.lastRet = s.fe.lastRet ∧
    (turnAnswered k h s).fe.resend = s.fe.resend ∧ (turnAnswered k h s).fe.credits = s.fe.credits ∧
    (turnAnswered k h s).fe.retCount = s.fe.retCount ∧ (turnAnswered k h s).fe.cancelList = s.fe.cancelList ∧
    (turnAnswered k h s).fe.releaseAll = s.fe.releaseAll ∧ (turnAnswered k h s).fe.runLines = s.fe.runLines ∧
    (turnAnswered k h s).fe.crcErrors = s.fe.crcErrors ∧ (turnAnswered k h s).fe.sending = s.fe.sending ∧
    (turnAnswered k h s).fe.sendEnd = s.fe.sendEnd ∧ (turnAnswered k h s).fe.replyDue = s.fe.replyDue ∧ (turnAnswered k h s).fe.replyHello = s.fe.replyHello ∧
    (turnAnswered k h s).fe.helloTaken = s.fe.helloTaken ∧ (turnAnswered k h s).fe.turnOpened = s.fe.turnOpened ∧
    (turnAnswered k h s).eu = s.eu ∧ (turnAnswered k h s).lt = s.lt := by
  simp [turnAnswered]

@[simp] theorem answerTrain_frame  (s : State) :
    (answerTrain s).inReset = s.inReset ∧ (answerTrain s).free = s.free ∧ (answerTrain s).pending = s.pending ∧
    (answerTrain s).now = s.now ∧ (answerTrain s).hp = s.hp ∧ (answerTrain s).rt = s.rt ∧ (answerTrain s).iq = s.iq ∧
    (answerTrain s).da = s.da ∧ (answerTrain s).dbc = s.dbc ∧ (answerTrain s).lb = s.lb ∧
    (answerTrain s).slc.role = s.slc.role ∧ (answerTrain s).slc.spanEn = s.slc.spanEn ∧
    (answerTrain s).slc.state = s.slc.state ∧ (answerTrain s).slc.missed = s.slc.missed ∧
    (answerTrain s).slc.detail = s.slc.detail ∧ (answerTrain s).slc.peerRev = s.slc.peerRev ∧
    (answerTrain s).slc.peerCap = s.slc.peerCap ∧ (answerTrain s).slc.peerReady = s.slc.peerReady ∧
    (answerTrain s).slc.trainDue = s.slc.trainDue ∧ (answerTrain s).slc.helloDue = s.slc.helloDue ∧
    (answerTrain s).slc.helloLimit = s.slc.helloLimit ∧ (answerTrain s).slc.silence = s.slc.silence ∧
    (answerTrain s).slc.retrain = s.slc.retrain ∧ (answerTrain s).slc.holdoff = s.slc.holdoff ∧
    (answerTrain s).fe.txSeq = s.fe.txSeq ∧ (answerTrain s).fe.window = s.fe.window ∧
    (answerTrain s).fe.goBack = s.fe.goBack ∧ (answerTrain s).fe.stall = s.fe.stall ∧
    (answerTrain s).fe.progress = s.fe.progress ∧ (answerTrain s).fe.expected = s.fe.expected ∧
    (answerTrain s).fe.lastRet = s.fe.lastRet ∧ (answerTrain s).fe.resend = s.fe.resend ∧
    (answerTrain s).fe.credits = s.fe.credits ∧ (answerTrain s).fe.retCount = s.fe.retCount ∧
    (answerTrain s).fe.cancelList = s.fe.cancelList ∧ (answerTrain s).fe.releaseAll = s.fe.releaseAll ∧
    (answerTrain s).fe.runLines = s.fe.runLines ∧ (answerTrain s).fe.crcErrors = s.fe.crcErrors ∧
    (answerTrain s).fe.replyHello = s.fe.replyHello ∧ (answerTrain s).fe.helloTaken = s.fe.helloTaken ∧ (answerTrain s).fe.turnOpened = s.fe.turnOpened ∧
    (answerTrain s).fe.earliest = s.fe.earliest ∧ (answerTrain s).fe.hurry = s.fe.hurry ∧ (answerTrain s).eu = s.eu ∧
    (answerTrain s).lt = s.lt := by
  simp [answerTrain]

@[simp] theorem followerHello_frame (h : FrameHeader) (p : List Byte) (s : State) :
    (followerHello h p s).inReset = s.inReset ∧ (followerHello h p s).free = s.free ∧
    (followerHello h p s).pending = s.pending ∧ (followerHello h p s).now = s.now ∧ (followerHello h p s).hp = s.hp ∧
    (followerHello h p s).rt = s.rt ∧ (followerHello h p s).iq = s.iq ∧ (followerHello h p s).da = s.da ∧
    (followerHello h p s).dbc = s.dbc ∧ (followerHello h p s).lb = s.lb ∧ (followerHello h p s).slc.role = s.slc.role ∧
    (followerHello h p s).slc.spanEn = s.slc.spanEn ∧ (followerHello h p s).slc.peerRev = s.slc.peerRev ∧
    (followerHello h p s).slc.peerCap = s.slc.peerCap ∧ (followerHello h p s).slc.peerReady = s.slc.peerReady ∧
    (followerHello h p s).fe.txSeq = s.fe.txSeq ∧ (followerHello h p s).fe.window = s.fe.window ∧
    (followerHello h p s).fe.goBack = s.fe.goBack ∧ (followerHello h p s).fe.stall = s.fe.stall ∧
    (followerHello h p s).fe.progress = s.fe.progress ∧ (followerHello h p s).fe.expected = s.fe.expected ∧
    (followerHello h p s).fe.lastRet = s.fe.lastRet ∧ (followerHello h p s).fe.resend = s.fe.resend ∧
    (followerHello h p s).fe.credits = s.fe.credits ∧ (followerHello h p s).fe.retCount = s.fe.retCount ∧
    (followerHello h p s).fe.cancelList = s.fe.cancelList ∧ (followerHello h p s).fe.releaseAll = s.fe.releaseAll ∧
    (followerHello h p s).fe.runLines = s.fe.runLines ∧ (followerHello h p s).fe.crcErrors = s.fe.crcErrors ∧
    (followerHello h p s).fe.turnOpened = s.fe.turnOpened ∧ (followerHello h p s).fe.earliest = s.fe.earliest ∧
    (followerHello h p s).fe.hurry = s.fe.hurry ∧ (followerHello h p s).eu = s.eu ∧ (followerHello h p s).lt = s.lt := by
  unfold followerHello; split <;> simp

@[simp] theorem restartSilence_frame  (s : State) :
    (restartSilence s).inReset = s.inReset ∧ (restartSilence s).free = s.free ∧ (restartSilence s).pending = s.pending ∧
    (restartSilence s).now = s.now ∧ (restartSilence s).hp = s.hp ∧ (restartSilence s).rt = s.rt ∧
    (restartSilence s).iq = s.iq ∧ (restartSilence s).da = s.da ∧ (restartSilence s).dbc = s.dbc ∧
    (restartSilence s).lb = s.lb ∧ (restartSilence s).slc.role = s.slc.role ∧
    (restartSilence s).slc.spanEn = s.slc.spanEn ∧ (restartSilence s).slc.state = s.slc.state ∧
    (restartSilence s).slc.good = s.slc.good ∧ (restartSilence s).slc.missed = s.slc.missed ∧
    (restartSilence s).slc.detail = s.slc.detail ∧ (restartSilence s).slc.peerRev = s.slc.peerRev ∧
    (restartSilence s).slc.peerCap = s.slc.peerCap ∧ (restartSilence s).slc.peerReady = s.slc.peerReady ∧
    (restartSilence s).slc.trainDue = s.slc.trainDue ∧ (restartSilence s).slc.helloDue = s.slc.helloDue ∧
    (restartSilence s).slc.helloLimit = s.slc.helloLimit ∧ (restartSilence s).slc.retrain = s.slc.retrain ∧
    (restartSilence s).slc.holdoff = s.slc.holdoff ∧ (restartSilence s).fe = s.fe ∧ (restartSilence s).eu = s.eu ∧
    (restartSilence s).lt = s.lt := by
  simp [restartSilence]

@[simp] theorem oweReply_frame (k : FrameKind) (s : State) :
    (oweReply k s).inReset = s.inReset ∧ (oweReply k s).free = s.free ∧ (oweReply k s).pending = s.pending ∧
    (oweReply k s).now = s.now ∧ (oweReply k s).hp = s.hp ∧ (oweReply k s).rt = s.rt ∧ (oweReply k s).iq = s.iq ∧
    (oweReply k s).da = s.da ∧ (oweReply k s).dbc = s.dbc ∧ (oweReply k s).lb = s.lb ∧ (oweReply k s).slc = s.slc ∧
    (oweReply k s).eu = s.eu ∧ (oweReply k s).lt = s.lt ∧ (oweReply k s).fe.txSeq = s.fe.txSeq ∧
    (oweReply k s).fe.window = s.fe.window ∧ (oweReply k s).fe.goBack = s.fe.goBack ∧
    (oweReply k s).fe.stall = s.fe.stall ∧ (oweReply k s).fe.progress = s.fe.progress ∧
    (oweReply k s).fe.expected = s.fe.expected ∧ (oweReply k s).fe.lastRet = s.fe.lastRet ∧
    (oweReply k s).fe.resend = s.fe.resend ∧ (oweReply k s).fe.credits = s.fe.credits ∧
    (oweReply k s).fe.retCount = s.fe.retCount ∧ (oweReply k s).fe.cancelList = s.fe.cancelList ∧
    (oweReply k s).fe.releaseAll = s.fe.releaseAll ∧ (oweReply k s).fe.runLines = s.fe.runLines ∧
    (oweReply k s).fe.crcErrors = s.fe.crcErrors ∧ (oweReply k s).fe.sending = s.fe.sending ∧
    (oweReply k s).fe.sendEnd = s.fe.sendEnd ∧ (oweReply k s).fe.awaitReply = s.fe.awaitReply ∧
    (oweReply k s).fe.helloTaken = s.fe.helloTaken ∧ (oweReply k s).fe.turnOpened = s.fe.turnOpened ∧
    (oweReply k s).fe.earliest = s.fe.earliest ∧ (oweReply k s).fe.hurry = s.fe.hurry := by
  simp [oweReply]

@[simp] theorem takeSymbols_frame (bs : List Byte) (s : State) :
    (takeSymbols bs s).inReset = s.inReset ∧ (takeSymbols bs s).free = s.free ∧ (takeSymbols bs s).pending = s.pending ∧
    (takeSymbols bs s).hp = s.hp ∧ (takeSymbols bs s).rt = s.rt ∧ (takeSymbols bs s).iq = s.iq ∧
    (takeSymbols bs s).da = s.da ∧ (takeSymbols bs s).dbc = s.dbc ∧
    (takeSymbols bs s).lb.mirrorPending = s.lb.mirrorPending ∧ (takeSymbols bs s).lb.remoteLines = s.lb.remoteLines ∧
    (takeSymbols bs s).slc = s.slc ∧ (takeSymbols bs s).fe = s.fe ∧ (takeSymbols bs s).eu = s.eu := by
  induction bs generalizing s with
  | nil => simp [takeSymbols]
  | cons b bs ih => simpa [takeSymbols] using ih (takeSymbol b true s)

@[simp] theorem receiveBad_frame (raw : List Byte) (s : State) :
    (receiveBad raw s).inReset = s.inReset ∧ (receiveBad raw s).free = s.free ∧ (receiveBad raw s).pending = s.pending ∧
    (receiveBad raw s).hp = s.hp ∧ (receiveBad raw s).da.policy = s.da.policy ∧
    (receiveBad raw s).da.filter = s.da.filter ∧ (receiveBad raw s).lb.mirrorPending = s.lb.mirrorPending ∧
    (receiveBad raw s).lb.remoteLines = s.lb.remoteLines ∧ (receiveBad raw s).slc.role = s.slc.role ∧
    (receiveBad raw s).slc.spanEn = s.slc.spanEn ∧ (receiveBad raw s).slc.peerRev = s.slc.peerRev ∧
    (receiveBad raw s).slc.peerCap = s.slc.peerCap := by
  unfold receiveBad; (repeat' split) <;> simp

@[simp] theorem acceptTag_frame (t : Tag) (r : Request) (st : TagState) (s : State) :
    (acceptTag t r st s).inReset = s.inReset ∧ (acceptTag t r st s).free = s.free ∧
    (acceptTag t r st s).pending = s.pending ∧ (acceptTag t r st s).now = s.now ∧ (acceptTag t r st s).hp.up = s.hp.up ∧
    (acceptTag t r st s).hp.startUp = s.hp.startUp ∧ (acceptTag t r st s).hp.addr = s.hp.addr ∧
    (acceptTag t r st s).hp.taking = s.hp.taking ∧
    (acceptTag t r st s).hp.pointer = s.hp.pointer ∧ (acceptTag t r st s).hp.hostReady = s.hp.hostReady ∧
    (acceptTag t r st s).hp.alertCq = s.hp.alertCq ∧ (acceptTag t r st s).hp.alertEq = s.hp.alertEq ∧
    (acceptTag t r st s).hp.spanOff = s.hp.spanOff ∧ (acceptTag t r st s).hp.busSpeed = s.hp.busSpeed ∧
    (acceptTag t r st s).hp.cancelResult = s.hp.cancelResult ∧ (acceptTag t r st s).hp.remoteHold = s.hp.remoteHold ∧
    (acceptTag t r st s).hp.filterHold = s.hp.filterHold ∧ (acceptTag t r st s).hp.staging = s.hp.staging ∧
    (acceptTag t r st s).hp.cqCopy = s.hp.cqCopy ∧ (acceptTag t r st s).hp.eqCopy = s.hp.eqCopy ∧
    (acceptTag t r st s).hp.crcCopy = s.hp.crcCopy ∧ (acceptTag t r st s).hp.sent = s.hp.sent ∧
    (acceptTag t r st s).rt.cq = s.rt.cq ∧ (acceptTag t r st s).iq = s.iq ∧ (acceptTag t r st s).da = s.da ∧
    (acceptTag t r st s).dbc = s.dbc ∧ (acceptTag t r st s).lb = s.lb ∧ (acceptTag t r st s).slc = s.slc ∧
    (acceptTag t r st s).fe = s.fe ∧ (acceptTag t r st s).eu = s.eu ∧ (acceptTag t r st s).lt = s.lt := by
  simp [acceptTag]

@[simp] theorem submitFar_frame (t : Tag) (r : Request) (s : State) :
    (submitFar t r s).inReset = s.inReset ∧ (submitFar t r s).free = s.free ∧ (submitFar t r s).pending = s.pending ∧
    (submitFar t r s).now = s.now ∧ (submitFar t r s).hp.up = s.hp.up ∧ (submitFar t r s).hp.startUp = s.hp.startUp ∧
    (submitFar t r s).hp.addr = s.hp.addr ∧ (submitFar t r s).hp.taking = s.hp.taking ∧
    (submitFar t r s).hp.pointer = s.hp.pointer ∧
    (submitFar t r s).hp.hostReady = s.hp.hostReady ∧ (submitFar t r s).hp.alertCq = s.hp.alertCq ∧
    (submitFar t r s).hp.alertEq = s.hp.alertEq ∧ (submitFar t r s).hp.spanOff = s.hp.spanOff ∧
    (submitFar t r s).hp.busSpeed = s.hp.busSpeed ∧ (submitFar t r s).hp.cancelResult = s.hp.cancelResult ∧
    (submitFar t r s).hp.remoteHold = s.hp.remoteHold ∧ (submitFar t r s).hp.filterHold = s.hp.filterHold ∧
    (submitFar t r s).hp.staging = s.hp.staging ∧ (submitFar t r s).hp.cqCopy = s.hp.cqCopy ∧
    (submitFar t r s).hp.eqCopy = s.hp.eqCopy ∧ (submitFar t r s).hp.crcCopy = s.hp.crcCopy ∧
    (submitFar t r s).hp.sent = s.hp.sent ∧ (submitFar t r s).iq = s.iq ∧ (submitFar t r s).da = s.da ∧
    (submitFar t r s).dbc = s.dbc ∧ (submitFar t r s).lb = s.lb ∧ (submitFar t r s).slc = s.slc ∧
    (submitFar t r s).fe.txSeq = s.fe.txSeq ∧ (submitFar t r s).fe.window = s.fe.window ∧
    (submitFar t r s).fe.goBack = s.fe.goBack ∧ (submitFar t r s).fe.stall = s.fe.stall ∧
    (submitFar t r s).fe.progress = s.fe.progress ∧ (submitFar t r s).fe.expected = s.fe.expected ∧
    (submitFar t r s).fe.lastRet = s.fe.lastRet ∧ (submitFar t r s).fe.resend = s.fe.resend ∧
    (submitFar t r s).fe.credits = s.fe.credits ∧ (submitFar t r s).fe.retCount = s.fe.retCount ∧
    (submitFar t r s).fe.releaseAll = s.fe.releaseAll ∧ (submitFar t r s).fe.runLines = s.fe.runLines ∧
    (submitFar t r s).fe.crcErrors = s.fe.crcErrors ∧ (submitFar t r s).fe.sending = s.fe.sending ∧
    (submitFar t r s).fe.sendEnd = s.fe.sendEnd ∧ (submitFar t r s).fe.awaitReply = s.fe.awaitReply ∧
    (submitFar t r s).fe.replyDue = s.fe.replyDue ∧ (submitFar t r s).fe.replyHello = s.fe.replyHello ∧ (submitFar t r s).fe.helloTaken = s.fe.helloTaken ∧
    (submitFar t r s).fe.turnOpened = s.fe.turnOpened ∧ (submitFar t r s).fe.earliest = s.fe.earliest ∧
    (submitFar t r s).fe.hurry = s.fe.hurry ∧ (submitFar t r s).eu = s.eu ∧ (submitFar t r s).lt = s.lt := by
  unfold submitFar; dsimp only; split <;> simp

@[simp] theorem submitNear_frame (t : Tag) (r : Request) (s : State) :
    (submitNear t r s).inReset = s.inReset ∧ (submitNear t r s).free = s.free ∧ (submitNear t r s).pending = s.pending ∧
    (submitNear t r s).now = s.now ∧ (submitNear t r s).hp.up = s.hp.up ∧ (submitNear t r s).hp.startUp = s.hp.startUp ∧
    (submitNear t r s).hp.addr = s.hp.addr ∧ (submitNear t r s).hp.taking = s.hp.taking ∧
    (submitNear t r s).hp.pointer = s.hp.pointer ∧
    (submitNear t r s).hp.hostReady = s.hp.hostReady ∧ (submitNear t r s).hp.alertCq = s.hp.alertCq ∧
    (submitNear t r s).hp.alertEq = s.hp.alertEq ∧ (submitNear t r s).hp.spanOff = s.hp.spanOff ∧
    (submitNear t r s).hp.busSpeed = s.hp.busSpeed ∧ (submitNear t r s).hp.cancelResult = s.hp.cancelResult ∧
    (submitNear t r s).hp.remoteHold = s.hp.remoteHold ∧ (submitNear t r s).hp.filterHold = s.hp.filterHold ∧
    (submitNear t r s).hp.staging = s.hp.staging ∧ (submitNear t r s).hp.cqCopy = s.hp.cqCopy ∧
    (submitNear t r s).hp.eqCopy = s.hp.eqCopy ∧ (submitNear t r s).hp.crcCopy = s.hp.crcCopy ∧
    (submitNear t r s).hp.sent = s.hp.sent ∧ (submitNear t r s).iq.arrival = s.iq.arrival ∧
    (submitNear t r s).da.policy = s.da.policy ∧ (submitNear t r s).da.filter = s.da.filter ∧
    (submitNear t r s).lb.remoteLines = s.lb.remoteLines ∧ (submitNear t r s).lb.pulse = s.lb.pulse ∧
    (submitNear t r s).slc = s.slc ∧ (submitNear t r s).fe.txSeq = s.fe.txSeq ∧
    (submitNear t r s).fe.window = s.fe.window ∧ (submitNear t r s).fe.goBack = s.fe.goBack ∧
    (submitNear t r s).fe.stall = s.fe.stall ∧ (submitNear t r s).fe.progress = s.fe.progress ∧
    (submitNear t r s).fe.expected = s.fe.expected ∧ (submitNear t r s).fe.lastRet = s.fe.lastRet ∧
    (submitNear t r s).fe.resend = s.fe.resend ∧ (submitNear t r s).fe.credits = s.fe.credits ∧
    (submitNear t r s).fe.retCount = s.fe.retCount ∧ (submitNear t r s).fe.releaseAll = s.fe.releaseAll ∧
    (submitNear t r s).fe.runLines = s.fe.runLines ∧ (submitNear t r s).fe.crcErrors = s.fe.crcErrors ∧
    (submitNear t r s).fe.sending = s.fe.sending ∧ (submitNear t r s).fe.sendEnd = s.fe.sendEnd ∧
    (submitNear t r s).fe.awaitReply = s.fe.awaitReply ∧ (submitNear t r s).fe.replyDue = s.fe.replyDue ∧ (submitNear t r s).fe.replyHello = s.fe.replyHello ∧
    (submitNear t r s).fe.helloTaken = s.fe.helloTaken ∧ (submitNear t r s).fe.turnOpened = s.fe.turnOpened ∧
    (submitNear t r s).fe.earliest = s.fe.earliest ∧ (submitNear t r s).fe.hurry = s.fe.hurry := by
  unfold submitNear dropLease; dsimp only; (repeat' split) <;> simp

@[simp] theorem submit_frame  (s : State) :
    (submit s).inReset = s.inReset ∧ (submit s).free = s.free ∧ (submit s).pending = s.pending ∧ (submit s).now = s.now ∧
    (submit s).hp.up = s.hp.up ∧ (submit s).hp.startUp = s.hp.startUp ∧ (submit s).hp.addr = s.hp.addr ∧
    (submit s).hp.taking = s.hp.taking ∧
    (submit s).hp.pointer = s.hp.pointer ∧ (submit s).hp.hostReady = s.hp.hostReady ∧
    (submit s).hp.alertCq = s.hp.alertCq ∧ (submit s).hp.alertEq = s.hp.alertEq ∧ (submit s).hp.spanOff = s.hp.spanOff ∧
    (submit s).hp.busSpeed = s.hp.busSpeed ∧ (submit s).hp.cancelResult = s.hp.cancelResult ∧
    (submit s).hp.remoteHold = s.hp.remoteHold ∧ (submit s).hp.filterHold = s.hp.filterHold ∧
    (submit s).hp.staging = s.hp.staging ∧ (submit s).hp.cqCopy = s.hp.cqCopy ∧ (submit s).hp.eqCopy = s.hp.eqCopy ∧
    (submit s).hp.crcCopy = s.hp.crcCopy ∧ (submit s).hp.sent = s.hp.sent ∧ (submit s).iq.arrival = s.iq.arrival ∧
    (submit s).da.policy = s.da.policy ∧ (submit s).da.filter = s.da.filter ∧
    (submit s).lb.remoteLines = s.lb.remoteLines ∧ (submit s).lb.pulse = s.lb.pulse ∧ (submit s).slc = s.slc ∧
    (submit s).fe.txSeq = s.fe.txSeq ∧ (submit s).fe.window = s.fe.window ∧ (submit s).fe.goBack = s.fe.goBack ∧
    (submit s).fe.stall = s.fe.stall ∧ (submit s).fe.progress = s.fe.progress ∧ (submit s).fe.expected = s.fe.expected ∧
    (submit s).fe.lastRet = s.fe.lastRet ∧ (submit s).fe.resend = s.fe.resend ∧ (submit s).fe.credits = s.fe.credits ∧
    (submit s).fe.retCount = s.fe.retCount ∧ (submit s).fe.releaseAll = s.fe.releaseAll ∧
    (submit s).fe.runLines = s.fe.runLines ∧ (submit s).fe.crcErrors = s.fe.crcErrors ∧
    (submit s).fe.sending = s.fe.sending ∧ (submit s).fe.sendEnd = s.fe.sendEnd ∧
    (submit s).fe.awaitReply = s.fe.awaitReply ∧ (submit s).fe.replyDue = s.fe.replyDue ∧ (submit s).fe.replyHello = s.fe.replyHello ∧
    (submit s).fe.helloTaken = s.fe.helloTaken ∧ (submit s).fe.turnOpened = s.fe.turnOpened ∧
    (submit s).fe.earliest = s.fe.earliest ∧ (submit s).fe.hurry = s.fe.hurry := by
  unfold submit; (repeat' split) <;> simp

@[simp] theorem cancelTag_frame (t : Tag) (s : State) :
    (cancelTag t s).inReset = s.inReset ∧ (cancelTag t s).free = s.free ∧ (cancelTag t s).pending = s.pending ∧
    (cancelTag t s).now = s.now ∧ (cancelTag t s).hp.up = s.hp.up ∧ (cancelTag t s).hp.startUp = s.hp.startUp ∧
    (cancelTag t s).hp.addr = s.hp.addr ∧ (cancelTag t s).hp.taking = s.hp.taking ∧
    (cancelTag t s).hp.pointer = s.hp.pointer ∧
    (cancelTag t s).hp.hostReady = s.hp.hostReady ∧ (cancelTag t s).hp.alertCq = s.hp.alertCq ∧
    (cancelTag t s).hp.alertEq = s.hp.alertEq ∧ (cancelTag t s).hp.spanOff = s.hp.spanOff ∧
    (cancelTag t s).hp.busSpeed = s.hp.busSpeed ∧ (cancelTag t s).hp.submitResult = s.hp.submitResult ∧
    (cancelTag t s).hp.remoteHold = s.hp.remoteHold ∧ (cancelTag t s).hp.filterHold = s.hp.filterHold ∧
    (cancelTag t s).hp.staging = s.hp.staging ∧ (cancelTag t s).hp.cqCopy = s.hp.cqCopy ∧
    (cancelTag t s).hp.eqCopy = s.hp.eqCopy ∧ (cancelTag t s).hp.crcCopy = s.hp.crcCopy ∧
    (cancelTag t s).hp.sent = s.hp.sent ∧ (cancelTag t s).iq = s.iq ∧ (cancelTag t s).da.remoteList = s.da.remoteList ∧
    (cancelTag t s).da.turn = s.da.turn ∧ (cancelTag t s).da.lease = s.da.lease ∧
    (cancelTag t s).da.policy = s.da.policy ∧
    (cancelTag t s).da.filter = s.da.filter ∧ (cancelTag t s).dbc = s.dbc ∧ (cancelTag t s).lb = s.lb ∧
    (cancelTag t s).slc = s.slc ∧ (cancelTag t s).fe.txSeq = s.fe.txSeq ∧ (cancelTag t s).fe.window = s.fe.window ∧
    (cancelTag t s).fe.goBack = s.fe.goBack ∧ (cancelTag t s).fe.stall = s.fe.stall ∧
    (cancelTag t s).fe.progress = s.fe.progress ∧ (cancelTag t s).fe.expected = s.fe.expected ∧
    (cancelTag t s).fe.lastRet = s.fe.lastRet ∧ (cancelTag t s).fe.resend = s.fe.resend ∧
    (cancelTag t s).fe.credits = s.fe.credits ∧ (cancelTag t s).fe.retCount = s.fe.retCount ∧
    (cancelTag t s).fe.releaseAll = s.fe.releaseAll ∧ (cancelTag t s).fe.runLines = s.fe.runLines ∧
    (cancelTag t s).fe.crcErrors = s.fe.crcErrors ∧ (cancelTag t s).fe.sending = s.fe.sending ∧
    (cancelTag t s).fe.sendEnd = s.fe.sendEnd ∧ (cancelTag t s).fe.awaitReply = s.fe.awaitReply ∧
    (cancelTag t s).fe.replyDue = s.fe.replyDue ∧ (cancelTag t s).fe.replyHello = s.fe.replyHello ∧ (cancelTag t s).fe.helloTaken = s.fe.helloTaken ∧
    (cancelTag t s).fe.turnOpened = s.fe.turnOpened ∧ (cancelTag t s).fe.earliest = s.fe.earliest ∧
    (cancelTag t s).fe.hurry = s.fe.hurry ∧ (cancelTag t s).eu = s.eu ∧ (cancelTag t s).lt = s.lt := by
  unfold cancelTag; dsimp only; (repeat' split) <;> simp

@[simp] theorem cancel_frame (b : Byte) (s : State) :
    (cancel b s).inReset = s.inReset ∧ (cancel b s).free = s.free ∧ (cancel b s).pending = s.pending ∧
    (cancel b s).now = s.now ∧ (cancel b s).hp.up = s.hp.up ∧ (cancel b s).hp.startUp = s.hp.startUp ∧
    (cancel b s).hp.addr = s.hp.addr ∧ (cancel b s).hp.taking = s.hp.taking ∧ (cancel b s).hp.pointer = s.hp.pointer ∧
    (cancel b s).hp.hostReady = s.hp.hostReady ∧ (cancel b s).hp.alertCq = s.hp.alertCq ∧
    (cancel b s).hp.alertEq = s.hp.alertEq ∧ (cancel b s).hp.spanOff = s.hp.spanOff ∧
    (cancel b s).hp.busSpeed = s.hp.busSpeed ∧ (cancel b s).hp.submitResult = s.hp.submitResult ∧
    (cancel b s).hp.remoteHold = s.hp.remoteHold ∧ (cancel b s).hp.filterHold = s.hp.filterHold ∧
    (cancel b s).hp.staging = s.hp.staging ∧ (cancel b s).hp.cqCopy = s.hp.cqCopy ∧ (cancel b s).hp.eqCopy = s.hp.eqCopy ∧
    (cancel b s).hp.crcCopy = s.hp.crcCopy ∧ (cancel b s).hp.sent = s.hp.sent ∧ (cancel b s).iq = s.iq ∧
    (cancel b s).da.remoteList = s.da.remoteList ∧ (cancel b s).da.turn = s.da.turn ∧ (cancel b s).da.lease = s.da.lease ∧
    (cancel b s).da.policy = s.da.policy ∧ (cancel b s).da.filter = s.da.filter ∧ (cancel b s).dbc = s.dbc ∧
    (cancel b s).lb = s.lb ∧ (cancel b s).slc = s.slc ∧ (cancel b s).fe.txSeq = s.fe.txSeq ∧
    (cancel b s).fe.window = s.fe.window ∧ (cancel b s).fe.goBack = s.fe.goBack ∧ (cancel b s).fe.stall = s.fe.stall ∧
    (cancel b s).fe.progress = s.fe.progress ∧ (cancel b s).fe.expected = s.fe.expected ∧
    (cancel b s).fe.lastRet = s.fe.lastRet ∧ (cancel b s).fe.resend = s.fe.resend ∧
    (cancel b s).fe.credits = s.fe.credits ∧ (cancel b s).fe.retCount = s.fe.retCount ∧
    (cancel b s).fe.releaseAll = s.fe.releaseAll ∧ (cancel b s).fe.runLines = s.fe.runLines ∧
    (cancel b s).fe.crcErrors = s.fe.crcErrors ∧ (cancel b s).fe.sending = s.fe.sending ∧
    (cancel b s).fe.sendEnd = s.fe.sendEnd ∧ (cancel b s).fe.awaitReply = s.fe.awaitReply ∧
    (cancel b s).fe.replyDue = s.fe.replyDue ∧ (cancel b s).fe.replyHello = s.fe.replyHello ∧ (cancel b s).fe.helloTaken = s.fe.helloTaken ∧
    (cancel b s).fe.turnOpened = s.fe.turnOpened ∧ (cancel b s).fe.earliest = s.fe.earliest ∧
    (cancel b s).fe.hurry = s.fe.hurry ∧ (cancel b s).eu = s.eu ∧ (cancel b s).lt = s.lt := by
  unfold cancel; split <;> simp

@[simp] theorem deadlineExpiry_frame (t : Tag) (s : State) :
    (deadlineExpiry t s).inReset = s.inReset ∧ (deadlineExpiry t s).free = s.free ∧
    (deadlineExpiry t s).pending = s.pending ∧ (deadlineExpiry t s).hp = s.hp ∧ (deadlineExpiry t s).iq = s.iq ∧
    (deadlineExpiry t s).da.remoteList = s.da.remoteList ∧ (deadlineExpiry t s).da.turn = s.da.turn ∧
    (deadlineExpiry t s).da.lease = s.da.lease ∧ (deadlineExpiry t s).da.policy = s.da.policy ∧
    (deadlineExpiry t s).da.filter = s.da.filter ∧ (deadlineExpiry t s).dbc = s.dbc ∧ (deadlineExpiry t s).lb = s.lb ∧
    (deadlineExpiry t s).slc = s.slc ∧ (deadlineExpiry t s).fe.txSeq = s.fe.txSeq ∧
    (deadlineExpiry t s).fe.window = s.fe.window ∧ (deadlineExpiry t s).fe.goBack = s.fe.goBack ∧
    (deadlineExpiry t s).fe.stall = s.fe.stall ∧ (deadlineExpiry t s).fe.progress = s.fe.progress ∧
    (deadlineExpiry t s).fe.expected = s.fe.expected ∧ (deadlineExpiry t s).fe.lastRet = s.fe.lastRet ∧
    (deadlineExpiry t s).fe.resend = s.fe.resend ∧ (deadlineExpiry t s).fe.credits = s.fe.credits ∧
    (deadlineExpiry t s).fe.retCount = s.fe.retCount ∧ (deadlineExpiry t s).fe.releaseAll = s.fe.releaseAll ∧
    (deadlineExpiry t s).fe.runLines = s.fe.runLines ∧ (deadlineExpiry t s).fe.crcErrors = s.fe.crcErrors ∧
    (deadlineExpiry t s).fe.sending = s.fe.sending ∧ (deadlineExpiry t s).fe.sendEnd = s.fe.sendEnd ∧
    (deadlineExpiry t s).fe.awaitReply = s.fe.awaitReply ∧ (deadlineExpiry t s).fe.replyDue = s.fe.replyDue ∧ (deadlineExpiry t s).fe.replyHello = s.fe.replyHello ∧
    (deadlineExpiry t s).fe.helloTaken = s.fe.helloTaken ∧ (deadlineExpiry t s).fe.turnOpened = s.fe.turnOpened ∧
    (deadlineExpiry t s).fe.earliest = s.fe.earliest ∧ (deadlineExpiry t s).fe.hurry = s.fe.hurry ∧
    (deadlineExpiry t s).eu = s.eu ∧ (deadlineExpiry t s).lt = s.lt := by
  unfold deadlineExpiry; dsimp only; (repeat' split) <;> simp

@[simp] theorem completionPop_frame  (s : State) :
    (completionPop s).inReset = s.inReset ∧ (completionPop s).free = s.free ∧ (completionPop s).pending = s.pending ∧
    (completionPop s).now = s.now ∧ (completionPop s).hp = s.hp ∧ (completionPop s).rt.order = s.rt.order ∧
    (completionPop s).iq = s.iq ∧ (completionPop s).da = s.da ∧ (completionPop s).dbc = s.dbc ∧
    (completionPop s).lb = s.lb ∧ (completionPop s).slc = s.slc ∧ (completionPop s).fe = s.fe ∧
    (completionPop s).eu = s.eu ∧ (completionPop s).lt = s.lt := by
  unfold completionPop; split <;> simp

@[simp] theorem eventPop_frame  (s : State) :
    (eventPop s).inReset = s.inReset ∧ (eventPop s).free = s.free ∧ (eventPop s).pending = s.pending ∧
    (eventPop s).now = s.now ∧ (eventPop s).hp = s.hp ∧ (eventPop s).rt = s.rt ∧ (eventPop s).iq = s.iq ∧
    (eventPop s).da = s.da ∧ (eventPop s).dbc = s.dbc ∧ (eventPop s).lb = s.lb ∧ (eventPop s).slc = s.slc ∧
    (eventPop s).fe = s.fe ∧ (eventPop s).eu.outbox = s.eu.outbox ∧ (eventPop s).lt = s.lt := by
  simp [eventPop]

@[simp] theorem requestsAtSoftReset_frame  (s : State) :
    (requestsAtSoftReset s).inReset = s.inReset ∧ (requestsAtSoftReset s).free = s.free ∧
    (requestsAtSoftReset s).pending = s.pending ∧ (requestsAtSoftReset s).now = s.now ∧
    (requestsAtSoftReset s).hp.up = s.hp.up ∧ (requestsAtSoftReset s).hp.startUp = s.hp.startUp ∧
    (requestsAtSoftReset s).hp.addr = s.hp.addr ∧ (requestsAtSoftReset s).hp.taking = s.hp.taking ∧
    (requestsAtSoftReset s).hp.pointer = s.hp.pointer ∧
    (requestsAtSoftReset s).hp.hostReady = s.hp.hostReady ∧ (requestsAtSoftReset s).hp.alertCq = s.hp.alertCq ∧
    (requestsAtSoftReset s).hp.alertEq = s.hp.alertEq ∧ (requestsAtSoftReset s).hp.spanOff = s.hp.spanOff ∧
    (requestsAtSoftReset s).hp.busSpeed = s.hp.busSpeed ∧ (requestsAtSoftReset s).hp.remoteHold = s.hp.remoteHold ∧
    (requestsAtSoftReset s).hp.filterHold = s.hp.filterHold ∧ (requestsAtSoftReset s).hp.staging = s.hp.staging ∧
    (requestsAtSoftReset s).hp.cqCopy = s.hp.cqCopy ∧ (requestsAtSoftReset s).hp.eqCopy = s.hp.eqCopy ∧
    (requestsAtSoftReset s).hp.crcCopy = s.hp.crcCopy ∧ (requestsAtSoftReset s).hp.sent = s.hp.sent ∧
    (requestsAtSoftReset s).iq = s.iq ∧ (requestsAtSoftReset s).da = s.da ∧ (requestsAtSoftReset s).dbc = s.dbc ∧
    (requestsAtSoftReset s).lb = s.lb ∧ (requestsAtSoftReset s).slc = s.slc ∧
    (requestsAtSoftReset s).fe.txSeq = s.fe.txSeq ∧ (requestsAtSoftReset s).fe.window = s.fe.window ∧
    (requestsAtSoftReset s).fe.goBack = s.fe.goBack ∧ (requestsAtSoftReset s).fe.stall = s.fe.stall ∧
    (requestsAtSoftReset s).fe.progress = s.fe.progress ∧ (requestsAtSoftReset s).fe.expected = s.fe.expected ∧
    (requestsAtSoftReset s).fe.lastRet = s.fe.lastRet ∧ (requestsAtSoftReset s).fe.resend = s.fe.resend ∧
    (requestsAtSoftReset s).fe.credits = s.fe.credits ∧ (requestsAtSoftReset s).fe.retCount = s.fe.retCount ∧
    (requestsAtSoftReset s).fe.releaseAll = s.fe.releaseAll ∧ (requestsAtSoftReset s).fe.runLines = s.fe.runLines ∧
    (requestsAtSoftReset s).fe.crcErrors = s.fe.crcErrors ∧ (requestsAtSoftReset s).fe.sending = s.fe.sending ∧
    (requestsAtSoftReset s).fe.sendEnd = s.fe.sendEnd ∧ (requestsAtSoftReset s).fe.awaitReply = s.fe.awaitReply ∧
    (requestsAtSoftReset s).fe.replyDue = s.fe.replyDue ∧ (requestsAtSoftReset s).fe.replyHello = s.fe.replyHello ∧ (requestsAtSoftReset s).fe.helloTaken = s.fe.helloTaken ∧
    (requestsAtSoftReset s).fe.turnOpened = s.fe.turnOpened ∧ (requestsAtSoftReset s).fe.earliest = s.fe.earliest ∧
    (requestsAtSoftReset s).fe.hurry = s.fe.hurry ∧ (requestsAtSoftReset s).eu = s.eu ∧
    (requestsAtSoftReset s).lt = s.lt := by
  simp [requestsAtSoftReset]

@[simp] theorem restAtSoftReset_frame  (s : State) :
    (restAtSoftReset s).inReset = s.inReset ∧ (restAtSoftReset s).free = s.free ∧
    (restAtSoftReset s).pending = s.pending ∧
    (restAtSoftReset s).now = s.now ∧ (restAtSoftReset s).hp.up = s.hp.up ∧
    (restAtSoftReset s).hp.startUp = s.hp.startUp ∧
    (restAtSoftReset s).hp.addr = s.hp.addr ∧ (restAtSoftReset s).hp.taking = s.hp.taking ∧
    (restAtSoftReset s).hp.pointer = s.hp.pointer ∧
    (restAtSoftReset s).hp.spanOff = s.hp.spanOff ∧ (restAtSoftReset s).hp.busSpeed = s.hp.busSpeed ∧
    (restAtSoftReset s).hp.submitResult = s.hp.submitResult ∧ (restAtSoftReset s).hp.cancelResult = s.hp.cancelResult ∧
    (restAtSoftReset s).hp.remoteHold = s.hp.remoteHold ∧ (restAtSoftReset s).hp.filterHold = s.hp.filterHold ∧
    (restAtSoftReset s).hp.staging = s.hp.staging ∧ (restAtSoftReset s).hp.cqCopy = s.hp.cqCopy ∧
    (restAtSoftReset s).hp.eqCopy = s.hp.eqCopy ∧ (restAtSoftReset s).hp.crcCopy = s.hp.crcCopy ∧
    (restAtSoftReset s).hp.sent = s.hp.sent ∧ (restAtSoftReset s).rt = s.rt ∧ (restAtSoftReset s).iq = s.iq ∧
    (restAtSoftReset s).da = s.da ∧ (restAtSoftReset s).dbc = s.dbc ∧ (restAtSoftReset s).lb = s.lb ∧
    (restAtSoftReset s).slc = s.slc ∧ (restAtSoftReset s).fe.txSeq = s.fe.txSeq ∧
    (restAtSoftReset s).fe.window = s.fe.window ∧ (restAtSoftReset s).fe.goBack = s.fe.goBack ∧
    (restAtSoftReset s).fe.stall = s.fe.stall ∧ (restAtSoftReset s).fe.progress = s.fe.progress ∧
    (restAtSoftReset s).fe.expected = s.fe.expected ∧ (restAtSoftReset s).fe.lastRet = s.fe.lastRet ∧
    (restAtSoftReset s).fe.resend = s.fe.resend ∧ (restAtSoftReset s).fe.credits = s.fe.credits ∧
    (restAtSoftReset s).fe.retCount = s.fe.retCount ∧ (restAtSoftReset s).fe.cancelList = s.fe.cancelList ∧
    (restAtSoftReset s).fe.runLines = s.fe.runLines ∧ (restAtSoftReset s).fe.crcErrors = s.fe.crcErrors ∧
    (restAtSoftReset s).fe.sending = s.fe.sending ∧ (restAtSoftReset s).fe.sendEnd = s.fe.sendEnd ∧
    (restAtSoftReset s).fe.awaitReply = s.fe.awaitReply ∧ (restAtSoftReset s).fe.replyDue = s.fe.replyDue ∧ (restAtSoftReset s).fe.replyHello = s.fe.replyHello ∧
    (restAtSoftReset s).fe.helloTaken = s.fe.helloTaken ∧ (restAtSoftReset s).fe.turnOpened = s.fe.turnOpened ∧
    (restAtSoftReset s).fe.earliest = s.fe.earliest ∧ (restAtSoftReset s).fe.hurry = s.fe.hurry ∧
    (restAtSoftReset s).eu.outbox = s.eu.outbox ∧ (restAtSoftReset s).lt = s.lt := by
  simp [restAtSoftReset]

@[simp] theorem arbiterAtSoftReset_frame  (s : State) :
    (arbiterAtSoftReset s).inReset = s.inReset ∧ (arbiterAtSoftReset s).free = s.free ∧
    (arbiterAtSoftReset s).pending = s.pending ∧ (arbiterAtSoftReset s).now = s.now ∧ (arbiterAtSoftReset s).hp = s.hp ∧
    (arbiterAtSoftReset s).rt = s.rt ∧ (arbiterAtSoftReset s).iq = s.iq ∧
    (arbiterAtSoftReset s).da.remoteList = s.da.remoteList ∧ (arbiterAtSoftReset s).da.turn = s.da.turn ∧
    (arbiterAtSoftReset s).da.policy = s.da.policy ∧ (arbiterAtSoftReset s).da.filter = s.da.filter ∧
    (arbiterAtSoftReset s).dbc = s.dbc ∧ (arbiterAtSoftReset s).lb = s.lb ∧ (arbiterAtSoftReset s).slc = s.slc ∧
    (arbiterAtSoftReset s).fe = s.fe ∧ (arbiterAtSoftReset s).eu = s.eu ∧ (arbiterAtSoftReset s).lt = s.lt := by
  simp [arbiterAtSoftReset]

@[simp] theorem softReset_frame (b : Byte) (s : State) :
    (softReset b s).inReset = s.inReset ∧ (softReset b s).free = s.free ∧ (softReset b s).pending = s.pending ∧
    (softReset b s).now = s.now ∧ (softReset b s).hp.up = s.hp.up ∧ (softReset b s).hp.startUp = s.hp.startUp ∧
    (softReset b s).hp.addr = s.hp.addr ∧ (softReset b s).hp.taking = s.hp.taking ∧
    (softReset b s).hp.pointer = s.hp.pointer ∧
    (softReset b s).hp.spanOff = s.hp.spanOff ∧ (softReset b s).hp.busSpeed = s.hp.busSpeed ∧
    (softReset b s).hp.remoteHold = s.hp.remoteHold ∧ (softReset b s).hp.filterHold = s.hp.filterHold ∧
    (softReset b s).hp.staging = s.hp.staging ∧ (softReset b s).hp.cqCopy = s.hp.cqCopy ∧
    (softReset b s).hp.eqCopy = s.hp.eqCopy ∧ (softReset b s).hp.crcCopy = s.hp.crcCopy ∧
    (softReset b s).hp.sent = s.hp.sent ∧ (softReset b s).iq.arrival = s.iq.arrival ∧
    (softReset b s).da.policy = s.da.policy ∧ (softReset b s).da.filter = s.da.filter ∧
    (softReset b s).lb.mirrorPending = s.lb.mirrorPending ∧ (softReset b s).lb.remoteLines = s.lb.remoteLines ∧
    (softReset b s).lb.pulse = s.lb.pulse ∧ (softReset b s).slc = s.slc ∧ (softReset b s).fe.txSeq = s.fe.txSeq ∧
    (softReset b s).fe.window = s.fe.window ∧ (softReset b s).fe.goBack = s.fe.goBack ∧
    (softReset b s).fe.stall = s.fe.stall ∧ (softReset b s).fe.progress = s.fe.progress ∧
    (softReset b s).fe.expected = s.fe.expected ∧ (softReset b s).fe.lastRet = s.fe.lastRet ∧
    (softReset b s).fe.resend = s.fe.resend ∧ (softReset b s).fe.credits = s.fe.credits ∧
    (softReset b s).fe.retCount = s.fe.retCount ∧ (softReset b s).fe.runLines = s.fe.runLines ∧
    (softReset b s).fe.crcErrors = s.fe.crcErrors ∧ (softReset b s).fe.sending = s.fe.sending ∧
    (softReset b s).fe.sendEnd = s.fe.sendEnd ∧ (softReset b s).fe.awaitReply = s.fe.awaitReply ∧
    (softReset b s).fe.replyDue = s.fe.replyDue ∧ (softReset b s).fe.replyHello = s.fe.replyHello ∧ (softReset b s).fe.helloTaken = s.fe.helloTaken ∧
    (softReset b s).fe.turnOpened = s.fe.turnOpened ∧ (softReset b s).fe.earliest = s.fe.earliest ∧
    (softReset b s).fe.hurry = s.fe.hurry ∧ (softReset b s).eu.outbox = s.eu.outbox := by
  unfold softReset; split <;> simp

@[simp] theorem writeHostCtrl_frame (b : Byte) (s : State) :
    (writeHostCtrl b s).inReset = s.inReset ∧ (writeHostCtrl b s).free = s.free ∧
    (writeHostCtrl b s).pending = s.pending ∧
    (writeHostCtrl b s).now = s.now ∧ (writeHostCtrl b s).hp.up = s.hp.up ∧
    (writeHostCtrl b s).hp.startUp = s.hp.startUp ∧
    (writeHostCtrl b s).hp.addr = s.hp.addr ∧ (writeHostCtrl b s).hp.taking = s.hp.taking ∧
    (writeHostCtrl b s).hp.pointer = s.hp.pointer ∧
    (writeHostCtrl b s).hp.busSpeed = s.hp.busSpeed ∧ (writeHostCtrl b s).hp.submitResult = s.hp.submitResult ∧
    (writeHostCtrl b s).hp.cancelResult = s.hp.cancelResult ∧ (writeHostCtrl b s).hp.remoteHold = s.hp.remoteHold ∧
    (writeHostCtrl b s).hp.filterHold = s.hp.filterHold ∧ (writeHostCtrl b s).hp.staging = s.hp.staging ∧
    (writeHostCtrl b s).hp.cqCopy = s.hp.cqCopy ∧ (writeHostCtrl b s).hp.eqCopy = s.hp.eqCopy ∧
    (writeHostCtrl b s).hp.crcCopy = s.hp.crcCopy ∧ (writeHostCtrl b s).hp.sent = s.hp.sent ∧
    (writeHostCtrl b s).da.policy = s.da.policy ∧ (writeHostCtrl b s).da.filter = s.da.filter ∧
    (writeHostCtrl b s).lb.mirrorPending = s.lb.mirrorPending ∧ (writeHostCtrl b s).lb.remoteLines = s.lb.remoteLines ∧
    (writeHostCtrl b s).slc.role = s.slc.role ∧ (writeHostCtrl b s).slc.spanEn = s.slc.spanEn ∧
    (writeHostCtrl b s).slc.peerRev = s.slc.peerRev ∧ (writeHostCtrl b s).slc.peerCap = s.slc.peerCap := by
  simp [writeHostCtrl]

@[simp] theorem writePolicy_frame (b : Byte) (s : State) :
    (writePolicy b s).inReset = s.inReset ∧ (writePolicy b s).free = s.free ∧ (writePolicy b s).pending = s.pending ∧
    (writePolicy b s).now = s.now ∧ (writePolicy b s).hp = s.hp ∧ (writePolicy b s).iq.arrival = s.iq.arrival ∧
    (writePolicy b s).da.filter = s.da.filter ∧ (writePolicy b s).lb = s.lb ∧ (writePolicy b s).slc = s.slc ∧
    (writePolicy b s).fe.txSeq = s.fe.txSeq ∧ (writePolicy b s).fe.window = s.fe.window ∧
    (writePolicy b s).fe.goBack = s.fe.goBack ∧ (writePolicy b s).fe.stall = s.fe.stall ∧
    (writePolicy b s).fe.progress = s.fe.progress ∧ (writePolicy b s).fe.expected = s.fe.expected ∧
    (writePolicy b s).fe.lastRet = s.fe.lastRet ∧ (writePolicy b s).fe.resend = s.fe.resend ∧
    (writePolicy b s).fe.credits = s.fe.credits ∧ (writePolicy b s).fe.retCount = s.fe.retCount ∧
    (writePolicy b s).fe.releaseAll = s.fe.releaseAll ∧ (writePolicy b s).fe.runLines = s.fe.runLines ∧
    (writePolicy b s).fe.crcErrors = s.fe.crcErrors ∧ (writePolicy b s).fe.sending = s.fe.sending ∧
    (writePolicy b s).fe.sendEnd = s.fe.sendEnd ∧ (writePolicy b s).fe.awaitReply = s.fe.awaitReply ∧
    (writePolicy b s).fe.replyDue = s.fe.replyDue ∧ (writePolicy b s).fe.replyHello = s.fe.replyHello ∧ (writePolicy b s).fe.helloTaken = s.fe.helloTaken ∧
    (writePolicy b s).fe.turnOpened = s.fe.turnOpened ∧ (writePolicy b s).fe.earliest = s.fe.earliest ∧
    (writePolicy b s).fe.hurry = s.fe.hurry ∧ (writePolicy b s).lt = s.lt := by
  unfold writePolicy; split <;> simp

@[simp] theorem writeSpeed_frame (b : Byte) (s : State) :
    (writeSpeed b s).inReset = s.inReset ∧ (writeSpeed b s).free = s.free ∧ (writeSpeed b s).pending = s.pending ∧
    (writeSpeed b s).now = s.now ∧ (writeSpeed b s).hp.up = s.hp.up ∧ (writeSpeed b s).hp.startUp = s.hp.startUp ∧
    (writeSpeed b s).hp.addr = s.hp.addr ∧ (writeSpeed b s).hp.taking = s.hp.taking ∧
    (writeSpeed b s).hp.pointer = s.hp.pointer ∧
    (writeSpeed b s).hp.hostReady = s.hp.hostReady ∧ (writeSpeed b s).hp.alertCq = s.hp.alertCq ∧
    (writeSpeed b s).hp.alertEq = s.hp.alertEq ∧ (writeSpeed b s).hp.spanOff = s.hp.spanOff ∧
    (writeSpeed b s).hp.submitResult = s.hp.submitResult ∧ (writeSpeed b s).hp.cancelResult = s.hp.cancelResult ∧
    (writeSpeed b s).hp.remoteHold = s.hp.remoteHold ∧ (writeSpeed b s).hp.filterHold = s.hp.filterHold ∧
    (writeSpeed b s).hp.staging = s.hp.staging ∧ (writeSpeed b s).hp.cqCopy = s.hp.cqCopy ∧
    (writeSpeed b s).hp.eqCopy = s.hp.eqCopy ∧ (writeSpeed b s).hp.crcCopy = s.hp.crcCopy ∧
    (writeSpeed b s).hp.sent = s.hp.sent ∧ (writeSpeed b s).rt = s.rt ∧ (writeSpeed b s).iq = s.iq ∧
    (writeSpeed b s).da = s.da ∧ (writeSpeed b s).dbc = s.dbc ∧ (writeSpeed b s).lb = s.lb ∧
    (writeSpeed b s).slc = s.slc ∧
    (writeSpeed b s).fe = s.fe ∧ (writeSpeed b s).eu = s.eu ∧ (writeSpeed b s).lt = s.lt := by
  unfold writeSpeed; split <;> simp

@[simp] theorem writeRemoteHold_frame (b : Byte) (s : State) :
    (writeRemoteHold b s).inReset = s.inReset ∧ (writeRemoteHold b s).free = s.free ∧
    (writeRemoteHold b s).pending = s.pending ∧ (writeRemoteHold b s).now = s.now ∧
    (writeRemoteHold b s).hp.up = s.hp.up ∧
    (writeRemoteHold b s).hp.startUp = s.hp.startUp ∧ (writeRemoteHold b s).hp.addr = s.hp.addr ∧
    (writeRemoteHold b s).hp.taking = s.hp.taking ∧
    (writeRemoteHold b s).hp.pointer = s.hp.pointer ∧ (writeRemoteHold b s).hp.hostReady = s.hp.hostReady ∧
    (writeRemoteHold b s).hp.alertCq = s.hp.alertCq ∧ (writeRemoteHold b s).hp.alertEq = s.hp.alertEq ∧
    (writeRemoteHold b s).hp.spanOff = s.hp.spanOff ∧ (writeRemoteHold b s).hp.busSpeed = s.hp.busSpeed ∧
    (writeRemoteHold b s).hp.submitResult = s.hp.submitResult ∧
    (writeRemoteHold b s).hp.cancelResult = s.hp.cancelResult ∧
    (writeRemoteHold b s).hp.filterHold = s.hp.filterHold ∧ (writeRemoteHold b s).hp.staging = s.hp.staging ∧
    (writeRemoteHold b s).hp.cqCopy = s.hp.cqCopy ∧ (writeRemoteHold b s).hp.eqCopy = s.hp.eqCopy ∧
    (writeRemoteHold b s).hp.crcCopy = s.hp.crcCopy ∧ (writeRemoteHold b s).hp.sent = s.hp.sent ∧
    (writeRemoteHold b s).rt = s.rt ∧ (writeRemoteHold b s).iq = s.iq ∧ (writeRemoteHold b s).da = s.da ∧
    (writeRemoteHold b s).dbc = s.dbc ∧ (writeRemoteHold b s).lb = s.lb ∧ (writeRemoteHold b s).slc = s.slc ∧
    (writeRemoteHold b s).fe = s.fe ∧ (writeRemoteHold b s).eu = s.eu ∧ (writeRemoteHold b s).lt = s.lt := by
  simp [writeRemoteHold]

@[simp] theorem writeRemoteLines_frame (b : Byte) (s : State) :
    (writeRemoteLines b s).inReset = s.inReset ∧ (writeRemoteLines b s).free = s.free ∧
    (writeRemoteLines b s).pending = s.pending ∧ (writeRemoteLines b s).now = s.now ∧
    (writeRemoteLines b s).hp.up = s.hp.up ∧ (writeRemoteLines b s).hp.startUp = s.hp.startUp ∧
    (writeRemoteLines b s).hp.addr = s.hp.addr ∧ (writeRemoteLines b s).hp.taking = s.hp.taking ∧
    (writeRemoteLines b s).hp.pointer = s.hp.pointer ∧
    (writeRemoteLines b s).hp.hostReady = s.hp.hostReady ∧ (writeRemoteLines b s).hp.alertCq = s.hp.alertCq ∧
    (writeRemoteLines b s).hp.alertEq = s.hp.alertEq ∧ (writeRemoteLines b s).hp.spanOff = s.hp.spanOff ∧
    (writeRemoteLines b s).hp.busSpeed = s.hp.busSpeed ∧ (writeRemoteLines b s).hp.submitResult = s.hp.submitResult ∧
    (writeRemoteLines b s).hp.cancelResult = s.hp.cancelResult ∧ (writeRemoteLines b s).hp.filterHold = s.hp.filterHold ∧
    (writeRemoteLines b s).hp.staging = s.hp.staging ∧ (writeRemoteLines b s).hp.cqCopy = s.hp.cqCopy ∧
    (writeRemoteLines b s).hp.eqCopy = s.hp.eqCopy ∧ (writeRemoteLines b s).hp.crcCopy = s.hp.crcCopy ∧
    (writeRemoteLines b s).hp.sent = s.hp.sent ∧ (writeRemoteLines b s).rt = s.rt ∧ (writeRemoteLines b s).iq = s.iq ∧
    (writeRemoteLines b s).da = s.da ∧ (writeRemoteLines b s).dbc = s.dbc ∧
    (writeRemoteLines b s).lb.mirrorPending = s.lb.mirrorPending ∧ (writeRemoteLines b s).lb.pulse = s.lb.pulse ∧
    (writeRemoteLines b s).slc = s.slc ∧ (writeRemoteLines b s).fe = s.fe ∧
    (writeRemoteLines b s).eu.eventQueue = s.eu.eventQueue ∧ (writeRemoteLines b s).lt = s.lt := by
  simp [writeRemoteLines]

@[simp] theorem writeFilterHold_frame (n : Fin 8) (b : Byte) (s : State) :
    (writeFilterHold n b s).inReset = s.inReset ∧ (writeFilterHold n b s).free = s.free ∧
    (writeFilterHold n b s).pending = s.pending ∧ (writeFilterHold n b s).now = s.now ∧
    (writeFilterHold n b s).hp.up = s.hp.up ∧ (writeFilterHold n b s).hp.startUp = s.hp.startUp ∧
    (writeFilterHold n b s).hp.addr = s.hp.addr ∧ (writeFilterHold n b s).hp.taking = s.hp.taking ∧
    (writeFilterHold n b s).hp.pointer = s.hp.pointer ∧
    (writeFilterHold n b s).hp.hostReady = s.hp.hostReady ∧ (writeFilterHold n b s).hp.alertCq = s.hp.alertCq ∧
    (writeFilterHold n b s).hp.alertEq = s.hp.alertEq ∧ (writeFilterHold n b s).hp.spanOff = s.hp.spanOff ∧
    (writeFilterHold n b s).hp.busSpeed = s.hp.busSpeed ∧ (writeFilterHold n b s).hp.submitResult = s.hp.submitResult ∧
    (writeFilterHold n b s).hp.cancelResult = s.hp.cancelResult ∧
    (writeFilterHold n b s).hp.remoteHold = s.hp.remoteHold ∧
    (writeFilterHold n b s).hp.staging = s.hp.staging ∧ (writeFilterHold n b s).hp.cqCopy = s.hp.cqCopy ∧
    (writeFilterHold n b s).hp.eqCopy = s.hp.eqCopy ∧ (writeFilterHold n b s).hp.crcCopy = s.hp.crcCopy ∧
    (writeFilterHold n b s).hp.sent = s.hp.sent ∧ (writeFilterHold n b s).rt = s.rt ∧ (writeFilterHold n b s).iq = s.iq ∧
    (writeFilterHold n b s).da = s.da ∧ (writeFilterHold n b s).dbc = s.dbc ∧ (writeFilterHold n b s).lb = s.lb ∧
    (writeFilterHold n b s).slc = s.slc ∧ (writeFilterHold n b s).fe = s.fe ∧ (writeFilterHold n b s).eu = s.eu ∧
    (writeFilterHold n b s).lt = s.lt := by
  simp [writeFilterHold]

@[simp] theorem writeFilter_frame (n : Fin 8) (b : Byte) (s : State) :
    (writeFilter n b s).inReset = s.inReset ∧ (writeFilter n b s).free = s.free ∧
    (writeFilter n b s).pending = s.pending ∧
    (writeFilter n b s).now = s.now ∧ (writeFilter n b s).hp.up = s.hp.up ∧
    (writeFilter n b s).hp.startUp = s.hp.startUp ∧
    (writeFilter n b s).hp.addr = s.hp.addr ∧ (writeFilter n b s).hp.taking = s.hp.taking ∧
    (writeFilter n b s).hp.pointer = s.hp.pointer ∧
    (writeFilter n b s).hp.hostReady = s.hp.hostReady ∧ (writeFilter n b s).hp.alertCq = s.hp.alertCq ∧
    (writeFilter n b s).hp.alertEq = s.hp.alertEq ∧ (writeFilter n b s).hp.spanOff = s.hp.spanOff ∧
    (writeFilter n b s).hp.busSpeed = s.hp.busSpeed ∧ (writeFilter n b s).hp.submitResult = s.hp.submitResult ∧
    (writeFilter n b s).hp.cancelResult = s.hp.cancelResult ∧ (writeFilter n b s).hp.remoteHold = s.hp.remoteHold ∧
    (writeFilter n b s).hp.staging = s.hp.staging ∧ (writeFilter n b s).hp.cqCopy = s.hp.cqCopy ∧
    (writeFilter n b s).hp.eqCopy = s.hp.eqCopy ∧ (writeFilter n b s).hp.crcCopy = s.hp.crcCopy ∧
    (writeFilter n b s).hp.sent = s.hp.sent ∧ (writeFilter n b s).rt = s.rt ∧ (writeFilter n b s).iq = s.iq ∧
    (writeFilter n b s).da.localList = s.da.localList ∧ (writeFilter n b s).da.remoteList = s.da.remoteList ∧
    (writeFilter n b s).da.turn = s.da.turn ∧ (writeFilter n b s).da.lease = s.da.lease ∧
    (writeFilter n b s).da.policy = s.da.policy ∧ (writeFilter n b s).dbc = s.dbc ∧ (writeFilter n b s).lb = s.lb ∧
    (writeFilter n b s).slc = s.slc ∧ (writeFilter n b s).fe = s.fe ∧ (writeFilter n b s).eu = s.eu ∧
    (writeFilter n b s).lt = s.lt := by
  simp [writeFilter]

@[simp] theorem clearCrcErrors_frame  (s : State) :
    (clearCrcErrors s).inReset = s.inReset ∧ (clearCrcErrors s).free = s.free ∧ (clearCrcErrors s).pending = s.pending ∧
    (clearCrcErrors s).now = s.now ∧ (clearCrcErrors s).hp = s.hp ∧ (clearCrcErrors s).rt = s.rt ∧
    (clearCrcErrors s).iq = s.iq ∧ (clearCrcErrors s).da = s.da ∧ (clearCrcErrors s).dbc = s.dbc ∧
    (clearCrcErrors s).lb = s.lb ∧ (clearCrcErrors s).slc = s.slc ∧ (clearCrcErrors s).fe.txSeq = s.fe.txSeq ∧
    (clearCrcErrors s).fe.window = s.fe.window ∧ (clearCrcErrors s).fe.goBack = s.fe.goBack ∧
    (clearCrcErrors s).fe.stall = s.fe.stall ∧ (clearCrcErrors s).fe.progress = s.fe.progress ∧
    (clearCrcErrors s).fe.expected = s.fe.expected ∧ (clearCrcErrors s).fe.lastRet = s.fe.lastRet ∧
    (clearCrcErrors s).fe.resend = s.fe.resend ∧ (clearCrcErrors s).fe.credits = s.fe.credits ∧
    (clearCrcErrors s).fe.retCount = s.fe.retCount ∧ (clearCrcErrors s).fe.cancelList = s.fe.cancelList ∧
    (clearCrcErrors s).fe.releaseAll = s.fe.releaseAll ∧ (clearCrcErrors s).fe.runLines = s.fe.runLines ∧
    (clearCrcErrors s).fe.sending = s.fe.sending ∧ (clearCrcErrors s).fe.sendEnd = s.fe.sendEnd ∧
    (clearCrcErrors s).fe.awaitReply = s.fe.awaitReply ∧ (clearCrcErrors s).fe.replyDue = s.fe.replyDue ∧ (clearCrcErrors s).fe.replyHello = s.fe.replyHello ∧
    (clearCrcErrors s).fe.helloTaken = s.fe.helloTaken ∧ (clearCrcErrors s).fe.turnOpened = s.fe.turnOpened ∧
    (clearCrcErrors s).fe.earliest = s.fe.earliest ∧ (clearCrcErrors s).fe.hurry = s.fe.hurry ∧
    (clearCrcErrors s).eu = s.eu ∧ (clearCrcErrors s).lt = s.lt := by
  simp [clearCrcErrors]

@[simp] theorem writeStaging_frame (n : Nat) (b : Byte) (s : State) :
    (writeStaging n b s).inReset = s.inReset ∧ (writeStaging n b s).free = s.free ∧
    (writeStaging n b s).pending = s.pending ∧ (writeStaging n b s).now = s.now ∧ (writeStaging n b s).hp.up = s.hp.up ∧
    (writeStaging n b s).hp.startUp = s.hp.startUp ∧ (writeStaging n b s).hp.addr = s.hp.addr ∧
    (writeStaging n b s).hp.taking = s.hp.taking ∧
    (writeStaging n b s).hp.pointer = s.hp.pointer ∧ (writeStaging n b s).hp.hostReady = s.hp.hostReady ∧
    (writeStaging n b s).hp.alertCq = s.hp.alertCq ∧ (writeStaging n b s).hp.alertEq = s.hp.alertEq ∧
    (writeStaging n b s).hp.spanOff = s.hp.spanOff ∧ (writeStaging n b s).hp.busSpeed = s.hp.busSpeed ∧
    (writeStaging n b s).hp.submitResult = s.hp.submitResult ∧ (writeStaging n b s).hp.cancelResult = s.hp.cancelResult ∧
    (writeStaging n b s).hp.remoteHold = s.hp.remoteHold ∧ (writeStaging n b s).hp.filterHold = s.hp.filterHold ∧
    (writeStaging n b s).hp.cqCopy = s.hp.cqCopy ∧ (writeStaging n b s).hp.eqCopy = s.hp.eqCopy ∧
    (writeStaging n b s).hp.crcCopy = s.hp.crcCopy ∧ (writeStaging n b s).hp.sent = s.hp.sent ∧
    (writeStaging n b s).rt = s.rt ∧ (writeStaging n b s).iq = s.iq ∧ (writeStaging n b s).da = s.da ∧
    (writeStaging n b s).dbc = s.dbc ∧ (writeStaging n b s).lb = s.lb ∧ (writeStaging n b s).slc = s.slc ∧
    (writeStaging n b s).fe = s.fe ∧ (writeStaging n b s).eu = s.eu ∧ (writeStaging n b s).lt = s.lt := by
  unfold writeStaging; split <;> simp

@[simp] theorem writeAt_frame (off b : Byte) (s : State) :
    (writeAt off b s).inReset = s.inReset ∧ (writeAt off b s).free = s.free ∧ (writeAt off b s).pending = s.pending ∧
    (writeAt off b s).now = s.now := by
  unfold writeAt; (repeat' split) <;> simp

@[simp] theorem portWrite_frame (off b : Byte) (s : State) :
    (portWrite off b s).inReset = s.inReset ∧ (portWrite off b s).free = s.free ∧
    (portWrite off b s).pending = s.pending ∧
    (portWrite off b s).now = s.now := by
  simp [portWrite]

@[simp] theorem readCrc_frame (off : Byte) (s : State) :
    (readCrc off s).inReset = s.inReset ∧ (readCrc off s).free = s.free ∧ (readCrc off s).pending = s.pending ∧
    (readCrc off s).now = s.now ∧ (readCrc off s).hp.up = s.hp.up ∧ (readCrc off s).hp.startUp = s.hp.startUp ∧
    (readCrc off s).hp.addr = s.hp.addr ∧ (readCrc off s).hp.taking = s.hp.taking ∧
    (readCrc off s).hp.pointer = s.hp.pointer ∧
    (readCrc off s).hp.hostReady = s.hp.hostReady ∧ (readCrc off s).hp.alertCq = s.hp.alertCq ∧
    (readCrc off s).hp.alertEq = s.hp.alertEq ∧ (readCrc off s).hp.spanOff = s.hp.spanOff ∧
    (readCrc off s).hp.busSpeed = s.hp.busSpeed ∧ (readCrc off s).hp.submitResult = s.hp.submitResult ∧
    (readCrc off s).hp.cancelResult = s.hp.cancelResult ∧ (readCrc off s).hp.remoteHold = s.hp.remoteHold ∧
    (readCrc off s).hp.filterHold = s.hp.filterHold ∧ (readCrc off s).hp.staging = s.hp.staging ∧
    (readCrc off s).hp.cqCopy = s.hp.cqCopy ∧ (readCrc off s).hp.eqCopy = s.hp.eqCopy ∧ (readCrc off s).rt = s.rt ∧
    (readCrc off s).iq = s.iq ∧ (readCrc off s).da = s.da ∧ (readCrc off s).dbc = s.dbc ∧ (readCrc off s).lb = s.lb ∧
    (readCrc off s).slc = s.slc ∧ (readCrc off s).fe = s.fe ∧ (readCrc off s).eu = s.eu ∧ (readCrc off s).lt = s.lt := by
  unfold readCrc; split <;> simp

@[simp] theorem readCompletion_frame (off : Byte) (s : State) :
    (readCompletion off s).inReset = s.inReset ∧ (readCompletion off s).free = s.free ∧
    (readCompletion off s).pending = s.pending ∧ (readCompletion off s).now = s.now ∧
    (readCompletion off s).hp.up = s.hp.up ∧ (readCompletion off s).hp.startUp = s.hp.startUp ∧
    (readCompletion off s).hp.addr = s.hp.addr ∧ (readCompletion off s).hp.taking = s.hp.taking ∧
    (readCompletion off s).hp.pointer = s.hp.pointer ∧
    (readCompletion off s).hp.hostReady = s.hp.hostReady ∧ (readCompletion off s).hp.alertCq = s.hp.alertCq ∧
    (readCompletion off s).hp.alertEq = s.hp.alertEq ∧ (readCompletion off s).hp.spanOff = s.hp.spanOff ∧
    (readCompletion off s).hp.busSpeed = s.hp.busSpeed ∧ (readCompletion off s).hp.submitResult = s.hp.submitResult ∧
    (readCompletion off s).hp.cancelResult = s.hp.cancelResult ∧ (readCompletion off s).hp.remoteHold = s.hp.remoteHold ∧
    (readCompletion off s).hp.filterHold = s.hp.filterHold ∧ (readCompletion off s).hp.staging = s.hp.staging ∧
    (readCompletion off s).hp.eqCopy = s.hp.eqCopy ∧ (readCompletion off s).hp.crcCopy = s.hp.crcCopy ∧
    (readCompletion off s).rt = s.rt ∧ (readCompletion off s).iq = s.iq ∧ (readCompletion off s).da = s.da ∧
    (readCompletion off s).dbc = s.dbc ∧ (readCompletion off s).lb = s.lb ∧ (readCompletion off s).slc = s.slc ∧
    (readCompletion off s).fe = s.fe ∧ (readCompletion off s).eu = s.eu ∧ (readCompletion off s).lt = s.lt := by
  simp [readCompletion]

@[simp] theorem readEvent_frame (off : Byte) (s : State) :
    (readEvent off s).inReset = s.inReset ∧ (readEvent off s).free = s.free ∧ (readEvent off s).pending = s.pending ∧
    (readEvent off s).now = s.now ∧ (readEvent off s).hp.up = s.hp.up ∧ (readEvent off s).hp.startUp = s.hp.startUp ∧
    (readEvent off s).hp.addr = s.hp.addr ∧ (readEvent off s).hp.taking = s.hp.taking ∧
    (readEvent off s).hp.pointer = s.hp.pointer ∧
    (readEvent off s).hp.hostReady = s.hp.hostReady ∧ (readEvent off s).hp.alertCq = s.hp.alertCq ∧
    (readEvent off s).hp.alertEq = s.hp.alertEq ∧ (readEvent off s).hp.spanOff = s.hp.spanOff ∧
    (readEvent off s).hp.busSpeed = s.hp.busSpeed ∧ (readEvent off s).hp.submitResult = s.hp.submitResult ∧
    (readEvent off s).hp.cancelResult = s.hp.cancelResult ∧ (readEvent off s).hp.remoteHold = s.hp.remoteHold ∧
    (readEvent off s).hp.filterHold = s.hp.filterHold ∧ (readEvent off s).hp.staging = s.hp.staging ∧
    (readEvent off s).hp.cqCopy = s.hp.cqCopy ∧ (readEvent off s).hp.crcCopy = s.hp.crcCopy ∧
    (readEvent off s).rt = s.rt ∧
    (readEvent off s).iq = s.iq ∧ (readEvent off s).da = s.da ∧ (readEvent off s).dbc = s.dbc ∧
    (readEvent off s).lb = s.lb ∧ (readEvent off s).slc = s.slc ∧ (readEvent off s).fe = s.fe ∧
    (readEvent off s).eu = s.eu ∧ (readEvent off s).lt = s.lt := by
  simp [readEvent]

@[simp] theorem sendByte_frame (s : State) :
    (sendByte s).inReset = s.inReset ∧ (sendByte s).free = s.free ∧
    (sendByte s).pending = s.pending ∧ (sendByte s).now = s.now ∧
    (sendByte s).hp.up = s.hp.up ∧ (sendByte s).hp.startUp = s.hp.startUp ∧
    (sendByte s).hp.addr = s.hp.addr ∧ (sendByte s).hp.taking = s.hp.taking ∧ (sendByte s).hp.hostReady = s.hp.hostReady ∧
    (sendByte s).hp.alertCq = s.hp.alertCq ∧ (sendByte s).hp.alertEq = s.hp.alertEq ∧
    (sendByte s).hp.spanOff = s.hp.spanOff ∧ (sendByte s).hp.busSpeed = s.hp.busSpeed ∧
    (sendByte s).hp.submitResult = s.hp.submitResult ∧
    (sendByte s).hp.cancelResult = s.hp.cancelResult ∧ (sendByte s).hp.remoteHold = s.hp.remoteHold ∧
    (sendByte s).hp.filterHold = s.hp.filterHold ∧ (sendByte s).hp.staging = s.hp.staging ∧
    (sendByte s).rt = s.rt ∧ (sendByte s).iq = s.iq ∧ (sendByte s).da = s.da ∧
    (sendByte s).dbc = s.dbc ∧ (sendByte s).lb = s.lb ∧ (sendByte s).slc = s.slc ∧
    (sendByte s).fe = s.fe ∧ (sendByte s).eu = s.eu ∧ (sendByte s).lt = s.lt := by
  unfold sendByte; dsimp only; (repeat' split) <;> simp

@[simp] theorem portRead_frame (start : Option (BitVec 7)) (pointer : Option Byte) (s : State) :
    (portRead start pointer s).inReset = s.inReset ∧ (portRead start pointer s).free = s.free ∧
    (portRead start pointer s).pending = s.pending ∧ (portRead start pointer s).now = s.now ∧
    (portRead start pointer s).hp.up = s.hp.up ∧ (portRead start pointer s).hp.startUp = s.hp.startUp ∧
    (portRead start pointer s).hp.addr = s.hp.addr ∧ (portRead start pointer s).hp.hostReady = s.hp.hostReady ∧
    (portRead start pointer s).hp.alertCq = s.hp.alertCq ∧ (portRead start pointer s).hp.alertEq = s.hp.alertEq ∧
    (portRead start pointer s).hp.spanOff = s.hp.spanOff ∧ (portRead start pointer s).hp.busSpeed = s.hp.busSpeed ∧
    (portRead start pointer s).hp.submitResult = s.hp.submitResult ∧
    (portRead start pointer s).hp.cancelResult = s.hp.cancelResult ∧ (portRead start pointer s).hp.remoteHold = s.hp.remoteHold ∧
    (portRead start pointer s).hp.filterHold = s.hp.filterHold ∧ (portRead start pointer s).hp.staging = s.hp.staging ∧
    (portRead start pointer s).rt = s.rt ∧ (portRead start pointer s).iq = s.iq ∧ (portRead start pointer s).da = s.da ∧
    (portRead start pointer s).dbc = s.dbc ∧ (portRead start pointer s).lb = s.lb ∧ (portRead start pointer s).slc = s.slc ∧
    (portRead start pointer s).fe = s.fe ∧ (portRead start pointer s).eu = s.eu ∧ (portRead start pointer s).lt = s.lt := by
  unfold portRead; (repeat' split) <;> simp

@[simp] theorem registerWrite_frame (w : HostWrite) (s : State) :
    (registerWrite w s).inReset = s.inReset ∧ (registerWrite w s).free = s.free ∧
    (registerWrite w s).pending = s.pending ∧
    (registerWrite w s).now = s.now := by
  unfold registerWrite; (repeat' split) <;> simp

@[simp] theorem hostPortStartUp_frame  (s : State) :
    (hostPortStartUp s).inReset = s.inReset ∧ (hostPortStartUp s).free = s.free ∧
    (hostPortStartUp s).pending = s.pending ∧
    (hostPortStartUp s).hp.addr = s.hp.addr ∧ (hostPortStartUp s).hp.taking = s.hp.taking ∧
    (hostPortStartUp s).hp.pointer = s.hp.pointer ∧
    (hostPortStartUp s).hp.hostReady = s.hp.hostReady ∧ (hostPortStartUp s).hp.alertCq = s.hp.alertCq ∧
    (hostPortStartUp s).hp.alertEq = s.hp.alertEq ∧ (hostPortStartUp s).hp.spanOff = s.hp.spanOff ∧
    (hostPortStartUp s).hp.busSpeed = s.hp.busSpeed ∧ (hostPortStartUp s).hp.submitResult = s.hp.submitResult ∧
    (hostPortStartUp s).hp.cancelResult = s.hp.cancelResult ∧ (hostPortStartUp s).hp.remoteHold = s.hp.remoteHold ∧
    (hostPortStartUp s).hp.filterHold = s.hp.filterHold ∧ (hostPortStartUp s).hp.staging = s.hp.staging ∧
    (hostPortStartUp s).hp.cqCopy = s.hp.cqCopy ∧ (hostPortStartUp s).hp.eqCopy = s.hp.eqCopy ∧
    (hostPortStartUp s).hp.crcCopy = s.hp.crcCopy ∧ (hostPortStartUp s).hp.sent = s.hp.sent ∧
    (hostPortStartUp s).rt = s.rt ∧ (hostPortStartUp s).iq = s.iq ∧ (hostPortStartUp s).da = s.da ∧
    (hostPortStartUp s).dbc = s.dbc ∧ (hostPortStartUp s).lb = s.lb ∧ (hostPortStartUp s).slc = s.slc ∧
    (hostPortStartUp s).fe = s.fe ∧ (hostPortStartUp s).eu = s.eu ∧ (hostPortStartUp s).lt = s.lt := by
  unfold hostPortStartUp; split <;> simp

end Sys2Proof.Machine
end

