-- ==== Sys2Proof/Laws/RequestInv.lean ====
section
/-! SUPPORT. What each operation does to the consistency of the Request Table (RequestInv). -/
namespace Sys2Proof.Laws.RequestInv
open Sys2Proof.Machine
set_option maxHeartbeats 2000000

theorem vput_at {α : Type} {n : Nat} (v : Vector α n) (i j : Fin n) (x : α) : (vput v i x)[j] = if i = j then x else v[j] := by
  simp only [Fin.getElem_fin, vput_get, Fin.ext_iff]

theorem vtab_at {α : Type} {n : Nat} (f : Fin n → α) (j : Fin n) : (vtab f)[j] = f j := by
  simp only [Fin.getElem_fin, vtab_get]

/-- The result of the bus work returned. -/

def returned (a : Answer) (s : State) : State := match s.dbc.work with
  | some w => routeResult w.ref a s
  | none => s

def dbcAfter (s : State) (c : Option StuckCause) : BusController := ⟨if c.isSome then .faulted else .idle, none, s.dbc.clock, none, c, false⟩

theorem returned_dbc (a s) : (returned a s).dbc = s.dbc := by unfold returned; split <;> simp

theorem endWork_none (a s) : endWork a none s = select { returned a s with dbc := dbcAfter s none } := by
  rw [show dbcAfter s none = dbcAfter (returned a s) none by simp [dbcAfter, returned_dbc]]; rfl

theorem endWork_some (a c s) : endWork a (some c) s = if s.dbc.fromFault then select { returned a s with dbc := dbcAfter s (some c) }
   else select (faultPurge (raiseRemote .busFault c.code 0 (raiseLocal .busFault c.code 0 { returned a s with dbc := dbcAfter s (some c) }))) := by
  rw [show dbcAfter s (some c) = dbcAfter (returned a s) (some c) by simp [dbcAfter, returned_dbc]]; rfl

theorem endWork_keep (I : State → Prop) (hsel : ∀ s, I s → I (select s)) (hfp : ∀ s, I s → I (faultPurge s))
   (hev : ∀ s c, I s → I (raiseRemote .busFault c 0 (raiseLocal .busFault c 0 s))) (a c) (s : State)
   (h : I { returned a s with dbc := dbcAfter s c }) : I (endWork a c s) := by
  cases c with
  | none => rw [endWork_none]; exact hsel _ h
  | some c =>
    rw [endWork_some]; split
    · exact hsel _ h
    · exact hsel _ (hfp _ (hev _ _ h))

theorem thenDo_next {f o} {t : State} (h : thenDo f o = .next t) : ∃ u, o = .next u ∧ t = f u := by
  cases o <;> simp only [thenDo] at h <;> cases h
  exact ⟨_, rfl, rfl⟩

/-- no tag is in TESTING -/

def NoTesting (s : State) : Prop := ∀ t : Tag, s.rt.tags[t].state ≠ .testing

theorem requestInv_completeTag (s : State) (t : Tag) (a : Answer) (L : List Tag) (h : RequestInv { s with da.localList := L })
    (hp : s.rt.tags[t].state.isPending = true) (hL : s.da.localList = L.filter (· ≠ t)) : RequestInv (completeTag t a s) := by
  obtain ⟨h1, h2, h3, h4, h5, h6, h7, h8, h9, h10, h11, h12⟩ := h
  simp only at h1 h2 h3 h4 h5 h6 h7 h8 h9 h10 h11 h12
  have hnd : t ∉ s.rt.cq.map (·.tag) := by rw [← h2]; intro e; rw [e] at hp; cases hp
  refine ⟨?_, ?_, ?_, ?_, ?_, ?_, ?_, ?_, ?_, ?_, ?_, ?_⟩ <;> simp only [completeTag]
  · rw [List.map_append, List.nodup_append]
    refine ⟨h1, by simp, ?_⟩
    rintro a ha b hb rfl
    simp at hb; subst hb; exact hnd ha
  · intro u
    rw [vput_at, List.map_append, List.mem_append, ← h2]
    by_cases hu : t = u
    · subst hu; simp
    · rw [if_neg hu]; exact ⟨Or.inl, fun e => e.resolve_right fun e => Ne.symm hu (by simpa using e)⟩
  · intro c hc
    rw [vput_at]
    rcases List.mem_append.1 hc with hc | hc
    · have : t ≠ c.tag := fun e => hnd (e ▸ List.mem_map_of_mem hc)
      rw [if_neg this]; exact h3 c hc
    · simp at hc; subst hc; simp
  · exact h4.filter _
  · intro u
    rw [vput_at, List.mem_filter, ← h5]
    by_cases hu : t = u
    · subst hu; simp [TagState.isPending]
    · rw [if_neg hu]; simp [Ne.symm hu]
  · intro u
    rw [vput_at]
    by_cases hu : t = u
    · subst hu; simp [TagState.timed]
    · rw [if_neg hu]; exact h6 u
  · rw [hL]; exact h7.filter _
  · intro u
    rw [vput_at, hL, List.mem_filter, ← h8]
    by_cases hu : t = u
    · subst hu; simp
    · rw [if_neg hu]; simp [Ne.symm hu]
  · intro u
    rw [vput_at]
    by_cases hu : t = u
    · subst hu; simp
    · simp only [hu, if_false]; exact h9 u
  · exact h10.sublist (List.Sublist.map _ List.filter_sublist)
  · intro x hx
    rw [vput_at]
    simp at hx
    rw [if_neg (Ne.symm hx.2)]; exact h11 x hx.1
  · intro u
    rw [vput_at]
    by_cases hu : t = u
    · subst hu; simp
    · simp only [hu, if_false]; exact h12 u

theorem requestInv_completeTag' (s : State) (t : Tag) (a : Answer) (h : RequestInv s) (hp : s.rt.tags[t].state.isPending = true)
    (hq : s.rt.tags[t].state ≠ .queued) : RequestInv (completeTag t a s) := by
  apply requestInv_completeTag s t a s.da.localList h hp
  symm; rw [List.filter_eq_self]
  intro u hu
  have : t ∉ s.da.localList := by rw [← h.2.2.2.2.2.2.2.1]; exact hq
  simp; rintro rfl; exact this hu

theorem completeTag_other (t u : Tag) (a) (s : State) (h : t ≠ u) : (completeTag t a s).rt.tags[u] = s.rt.tags[u] := by
  simp only [completeTag]; rw [vput_at, if_neg h]

theorem completeTag_self (t : Tag) (a) (s : State) : (completeTag t a s).rt.tags[t].state = .done := by
  simp only [completeTag]; rw [vput_at, if_pos rfl]

theorem requestInv_completeAll (ts : List Tag) (st) (s : State) (h : RequestInv s) (hn : ts.Nodup)
   (hp : ∀ t ∈ ts, s.rt.tags[t].state.isPending = true ∧ s.rt.tags[t].state ≠ .queued) : RequestInv (completeAll ts st s) := by
  unfold completeAll
  induction ts generalizing s with
  | nil => exact h
  | cons t ts ih =>
    rw [List.nodup_cons] at hn
    apply ih _ _ hn.2
    · intro u hu
      have : t ≠ u := by rintro rfl; exact hn.1 hu
      rw [completeTag_other _ _ _ _ this]
      exact hp u (List.mem_cons_of_mem _ hu)
    · exact requestInv_completeTag' _ _ _ h (hp t (by simp)).1 (hp t (by simp)).2

/-- the update of a tag in a pending state, not queued, to another such -/

theorem requestInv_setPending (s : State) (t : Tag) (e : TagEntry) (h : RequestInv s) (hp : s.rt.tags[t].state.isPending = true)
   (hq : s.rt.tags[t].state ≠ .queued) (he : e.state.isPending = true) (heq : e.state ≠ .queued)
   (hd : e.due.isSome = e.state.timed) (hg : e.gen = s.rt.tags[t].gen) (hc : s.rt.tags[t].state = .cancelSent → e.state = .cancelSent)
   (ht : e.state ≠ .testing) : RequestInv (setTag t e s) := by
  obtain ⟨h1, h2, h3, h4, h5, h6, h7, h8, h9, h10, h11, h12⟩ := h
  refine ⟨?_, ?_, ?_, ?_, ?_, ?_, ?_, ?_, ?_, ?_, ?_, ?_⟩ <;> simp only [setTag]
  · exact h1
  · intro u; rw [vput_at, ← h2]
    by_cases hu : t = u
    · subst hu; rw [if_pos rfl]; exact ⟨fun hh => by (rw [hh] at he; cases he), fun hh => by (rw [hh] at hp; cases hp)⟩
    · rw [if_neg hu]
  · intro c hc'; rw [vput_at]; split
    · rename_i hu; subst hu; rw [hg]; exact h3 c hc'
    · exact h3 c hc'
  · exact h4
  · intro u; rw [vput_at, ← h5]
    by_cases hu : t = u
    · subst hu; rw [if_pos rfl, he, hp]
    · rw [if_neg hu]
  · intro u; rw [vput_at]; split
    · exact hd
    · exact h6 u
  · exact h7
  · intro u; rw [vput_at, ← h8]; split
    · rename_i hu; subst hu; exact ⟨fun e => absurd e heq, fun e => absurd e hq⟩
    · rfl
  · intro u; rw [vput_at]; split
    · intro hh; exact absurd hh heq
    · exact h9 u
  · exact h10
  · intro x hx; rw [vput_at]; split
    · rename_i hu
      have := h11 x hx
      obtain ⟨x1, x2⟩ := x
      simp only at hu this; subst hu
      exact ⟨hc this.1, by rw [hg]; exact this.2⟩
    · exact h11 x hx
  · intro u; rw [vput_at]; split
    · intro hh; exact absurd hh ht
    · exact h12 u

theorem requestInv_serveLocal (s : State) (t : Tag) (rest : List Tag) (tn : Origin) (h : RequestInv s) (hl : s.da.localList = t :: rest) :
   RequestInv (serveLocal t { s with da.localList := rest, da.turn := tn }) := by
  have hn := h.2.2.2.2.2.2.1
  rw [hl, List.nodup_cons] at hn
  have hr : rest = (t :: rest).filter (· ≠ t) := by
    rw [List.filter_cons]; simp only [ne_eq, not_true_eq_false, decide_false, Bool.false_eq_true, if_false]
    symm; rw [List.filter_eq_self]; intro u hu; simp; rintro rfl; exact hn.1 hu
  have hq : s.rt.tags[t].state = .queued := by rw [h.2.2.2.2.2.2.2.1, hl]; simp
  have hp : s.rt.tags[t].state.isPending = true := by rw [hq]; rfl
  have key : RequestInv { s with da.localList := t :: rest } := by rw [← hl]; exact h
  unfold serveLocal
  dsimp only
  split
  · exact requestInv_completeTag _ t _ (t :: rest) key hp hr
  split
  · exact requestInv_completeTag _ t _ (t :: rest) key hp hr
  · obtain ⟨h1, h2, h3, h4, h5, h6, h7, h8, h9, h10, h11, h12⟩ := h
    refine ⟨?_, ?_, ?_, ?_, ?_, ?_, ?_, ?_, ?_, ?_, ?_, ?_⟩ <;> simp only [setTag, handOver]
    · exact h1
    · intro u; rw [vput_at, ← h2]
      by_cases hu : t = u
      · subst hu; rw [if_pos rfl, hq]; constructor <;> intro hh <;> cases hh
      · rw [if_neg hu]
    · intro c hc; rw [vput_at]; split
      · rename_i hu; subst hu; exact h3 c hc
      · exact h3 c hc
    · exact h4
    · intro u; rw [vput_at, ← h5]
      by_cases hu : t = u
      · subst hu; rw [if_pos rfl, hp]; rfl
      · rw [if_neg hu]
    · intro u; rw [vput_at]; split
      · rfl
      · exact h6 u
    · exact hn.2
    · intro u; rw [vput_at]; split
      · rename_i hu; subst hu; simp [hn.1]
      · rename_i hu
        rw [h8, hl, List.mem_cons]; simp [Ne.symm hu]
    · intro u; rw [vput_at]; split
      · intro hh; cases hh
      · exact h9 u
    · exact h10
    · intro x hx; rw [vput_at]; split
      · rename_i hu
        have := (h11 x hx).1
        obtain ⟨x1, x2⟩ := x
        simp only at hu this; subst hu
        rw [hq] at this; cases this
      · exact h11 x hx
    · intro u; rw [vput_at]; split
      · intro hh; cases hh
      · exact h12 u

theorem requestInv_serveHead (o) (s : State) (h : RequestInv s) : RequestInv (serveHead o s) := by
  unfold serveHead
  cases o
  · simp only; split
    · exact h
    · rename_i t rest hl
      exact requestInv_serveLocal s t rest _ h hl
  · simp only; split
    · exact h
    · simpa [RequestInv] using h

theorem requestInv_selectLoop (n) (s : State) (h : RequestInv s) : RequestInv (selectLoop n s) := by
  induction n generalizing s with
  | zero => exact h
  | succ n ih =>
    unfold selectLoop
    (repeat' split) <;> first | exact h | exact ih _ (requestInv_serveHead _ _ h)

theorem requestInv_select (s : State) (h : RequestInv s) : RequestInv (select s) := requestInv_selectLoop _ _ h

theorem requestInv_routeResult (r a) (s : State) (h : RequestInv s) : RequestInv (routeResult r a s) := by
  unfold routeResult
  split
  · split
    · rename_i hh
      exact requestInv_completeTag' _ _ _ h (by rw [hh.1]; rfl) (by rw [hh.1]; decide)
    · exact h
  · (repeat' split) <;> (first | exact h | (simpa [RequestInv] using h))

theorem requestInv_faultPurge (s : State) (h : RequestInv s) : RequestInv (faultPurge s) := by
  unfold faultPurge
  dsimp only
  have key : ∀ (ts : List Tag) (u : State), ts.Nodup → (∀ t ∈ ts, t ∈ s.da.localList) → 
      RequestInv { u with da.localList := u.da.localList ++ ts } → (∀ t ∈ ts, t ∉ u.da.localList) → RequestInv (completeAll ts .busFaulted u) := by
    intro ts
    induction ts with
    | nil => intro u _ _ h _; simpa [completeAll] using h
    | cons t ts ih =>
      intro u hn hm hi hd
      rw [List.nodup_cons] at hn
      have e : completeAll (t :: ts) .busFaulted u = completeAll ts .busFaulted (completeTag t (bare .busFaulted) u) := rfl
      rw [e]
      apply ih _ hn.2 (fun x hx => hm x (List.mem_cons_of_mem _ hx))
      · have hpend : u.rt.tags[t].state = .queued := by
          have := hi.2.2.2.2.2.2.2.1 t
          simp only at this; rw [this]; simp
        have := requestInv_completeTag { u with da.localList := u.da.localList ++ ts } t (bare .busFaulted) (u.da.localList ++ t :: ts) hi (by rw [hpend]; rfl) (by
          simp only [List.filter_append, List.filter_cons, ne_eq, not_true_eq_false, decide_false, Bool.false_eq_true, if_false]
          congr 1 <;> symm <;> rw [List.filter_eq_self] <;> intro x hx <;> simp <;> rintro rfl
          · exact hd x (by simp) hx
          · exact hn.1 hx)
        exact this
      · intro x hx
        simpa using hd x (List.mem_cons_of_mem _ hx)
  have : RequestInv (completeAll (s.da.localList.filter (localTransfer s)) .busFaulted { s with
      da.localList := s.da.localList.filter fun t => !localTransfer s t
      da.remoteList := s.da.remoteList.filter fun i => !remoteTransfer s i }) := by
    apply key _ _ (h.2.2.2.2.2.2.1.filter _) (fun t ht => (List.mem_filter.1 ht).1)
    · have hp : (s.da.localList.filter (fun t => !localTransfer s t) ++ s.da.localList.filter (localTransfer s)).Perm s.da.localList := by
        have := List.filter_append_perm (localTransfer s) s.da.localList
        exact (List.perm_append_comm).trans this
      obtain ⟨h1, h2, h3, h4, h5, h6, h7, h8, h9, h10, h11, h12⟩ := h
      refine ⟨h1, h2, h3, h4, h5, h6, hp.nodup_iff.2 h7, ?_, h9, h10, h11, h12⟩
      intro t; rw [h8]; exact hp.mem_iff.symm
    · intro t ht; simp [(List.mem_filter.1 ht).2]
  refine List.foldlRecOn (motive := RequestInv) _ _ this ?_
  intro u hu i _
  simpa [RequestInv] using hu

theorem requestInv_endWork (a c) (s : State) (h : RequestInv s) : RequestInv (endWork a c s) := by
  apply endWork_keep RequestInv requestInv_select requestInv_faultPurge
  · intro s c h; simpa [RequestInv] using h
  · have : RequestInv (returned a s) := by
      unfold returned; split
      · exact requestInv_routeResult _ _ _ h
      · exact h
    exact this
/-! bus and lines -/

theorem requestInv_transactionEnd (a r) (s : State) (h : RequestInv s) : RequestInv (transactionEnd a r s) := by
  unfold transactionEnd
  split
  · exact requestInv_endWork _ _ _ h
  · exact h

theorem requestInv_endRecovery (c) (s : State) (h : RequestInv s) : RequestInv (endRecovery c s) := by
  unfold endRecovery
  split
  · exact requestInv_endWork _ _ _ h
  · exact h

theorem requestInv_stretchLimit (a r) (s : State) (h : RequestInv s) : RequestInv (stretchLimit a r s) := by
  unfold stretchLimit
  dsimp only
  (repeat' split) <;> first | exact h | exact requestInv_endRecovery _ (s.reach _) h

theorem requestInv_recoveryEnd (x) (s : State) (h : RequestInv s) : RequestInv (recoveryEnd x s) := by
  unfold recoveryEnd
  split
  · exact requestInv_endRecovery _ _ h
  · exact h

theorem requestInv_leaseExpiry (s : State) (h : RequestInv s) : RequestInv (leaseExpiry s) := by
  unfold leaseExpiry
  split
  · exact h
  · apply requestInv_select; simpa [RequestInv] using h

theorem requestInv_setPolicy (p) (s : State) (h : RequestInv s) : RequestInv (setPolicy p s) := by
  unfold setPolicy
  (repeat' split) <;> first | exact h | (apply requestInv_select; simpa [RequestInv] using h)

/-! the tester -/

theorem requestInv_completeOwner (a) (s : State) (h : RequestInv s) : RequestInv (completeOwner a s) := by
  unfold completeOwner
  (repeat' split) <;> try exact h
  rename_i hh
  exact requestInv_completeTag' _ _ _ h (by rw [hh.1]; rfl) (by rw [hh.1]; decide)

theorem noTesting_completeOwner (a) (s : State) (h : RequestInv s) : NoTesting (completeOwner a s) := by
  intro t ht
  unfold completeOwner at ht
  revert ht
  split
  · rename_i u g hu
    split
    · rename_i hh
      by_cases e : u = t
      · subst e; rw [completeTag_self]; intro e; cases e
      · rw [completeTag_other _ _ _ _ e]
        intro ht
        have := h.2.2.2.2.2.2.2.2.2.2.2 t ht
        rw [hu] at this; simp at this; exact e this.2.1.1
    · rename_i hh
      intro ht
      have := h.2.2.2.2.2.2.2.2.2.2.2 t ht
      rw [hu] at this; simp only [Option.some.injEq, Prod.mk.injEq] at this
      obtain ⟨-, ⟨rfl, e2⟩, -⟩ := this
      exact hh ⟨ht, e2.symm⟩
  · rename_i hu
    intro ht
    have := h.2.2.2.2.2.2.2.2.2.2.2 t ht
    rw [hu] at this; cases this.2.1

theorem requestInv_noTesting (s u : State) (h : RequestInv s) (hn : NoTesting s) (e1 : u.rt = s.rt) (e2 : u.da = s.da) (e3 : u.fe.cancelList = s.fe.cancelList) : RequestInv u := by
  obtain ⟨h1, h2, h3, h4, h5, h6, h7, h8, h9, h10, h11, h12⟩ := h
  unfold NoTesting at hn
  rw [← e1] at h1 h2 h3 h4 h5 h6 h8 h9 h11 h12 hn; rw [← e2] at h7 h8; rw [← e3] at h10 h11
  exact ⟨h1, h2, h3, h4, h5, h6, h7, h8, h9, h10, h11, fun t ht => absurd ht (hn t)⟩

theorem noTesting_idle {s : State} (h : RequestInv s) (hp : s.lt.phase = .idle ∨ s.lt.phase = .resultOut) : NoTesting s := by
  intro t ht
  have := h.2.2.2.2.2.2.2.2.2.2.2 t ht
  rcases hp with hp | hp <;> simp [hp] at this

theorem noTesting_other {s : State} (h : RequestInv s) (hp : s.lt.owner = false) : NoTesting s := by
  intro t ht
  have := h.2.2.2.2.2.2.2.2.2.2.2 t ht
  simp [hp] at this

theorem noTesting_congr {s u : State} (h : NoTesting s) (e : u.rt = s.rt) : NoTesting u := by unfold NoTesting; rw [e]; exact h

theorem requestInv_endTest (s : State) (h : RequestInv s) (hn : NoTesting s) : RequestInv (endTest s) := requestInv_noTesting s _ h hn rfl rfl rfl

theorem requestInv_drainLimit (s : State) (h : RequestInv s) : RequestInv (drainLimit s) := by
  unfold drainLimit returnToRun
  split
  · exact h
  · rename_i due hd
    have h' : RequestInv (s.reach due) := h
    dsimp only
    split
    · exact requestInv_noTesting _ _ (requestInv_completeOwner (bare .drainTimeout) _ h') (noTesting_completeOwner _ _ h') (by simp) (by simp) (by simp)
    · rename_i ho
      have := noTesting_other h' (by simpa using ho)
      exact requestInv_noTesting _ _ h' this (by simp) (by simp) (by simp)

theorem requestInv_becomeNonOwner (p) (s : State) (h : RequestInv s) (hn : NoTesting s) : RequestInv (becomeNonOwner p s) := requestInv_noTesting s _ h hn rfl rfl rfl

theorem requestInv_takeTestEnter (p) (s : State) (h : RequestInv s) : RequestInv (takeTestEnter p s) := by
  unfold takeTestEnter
  (repeat' split) <;> first | exact h | skip
  · exact requestInv_becomeNonOwner _ _ h (noTesting_idle h (Or.inl (by assumption)))
  · exact requestInv_becomeNonOwner _ _ (requestInv_completeOwner _ _ h) (noTesting_completeOwner _ _ h)
  · exact requestInv_becomeNonOwner _ _ (requestInv_completeOwner _ _ h) (noTesting_completeOwner _ _ h)

theorem requestInv_lt (s u : State) (h : RequestInv s) (e1 : u.rt = s.rt) (e2 : u.da = s.da) (e3 : u.fe.cancelList = s.fe.cancelList)
   (e4 : u.lt.owner = s.lt.owner) (e5 : u.lt.ownerTag = s.lt.ownerTag) (e6 : s.lt.phase ≠ .idle → s.lt.phase ≠ .resultOut → u.lt.phase ≠ .idle ∧ u.lt.phase ≠ .resultOut) : RequestInv u := by
  obtain ⟨h1, h2, h3, h4, h5, h6, h7, h8, h9, h10, h11, h12⟩ := h
  rw [← e1] at h1 h2 h3 h4 h5 h6 h8 h9 h11 h12; rw [← e2] at h7 h8; rw [← e3] at h10 h11; rw [← e4, ← e5] at h12
  refine ⟨h1, h2, h3, h4, h5, h6, h7, h8, h9, h10, h11, fun t ht => ?_⟩
  have := h12 t ht
  exact ⟨this.1, this.2.1, e6 this.2.2.1 this.2.2.2⟩

theorem requestInv_takeTestReady (s : State) (h : RequestInv s) : RequestInv (takeTestReady s) := by unfold takeTestReady; split <;> (first | exact h | (simpa [RequestInv] using h))

theorem requestInv_takeTestGo (s : State) (h : RequestInv s) : RequestInv (takeTestGo s) := by unfold takeTestGo; split <;> (first | exact h | (simpa [RequestInv] using h))

theorem requestInv_enterTest (s : State) (h : RequestInv s) : RequestInv (enterTest s) := requestInv_lt s _ h (by simp) (by simp) (by simp) (by simp [enterTest]) (by simp [enterTest]) (by simp [enterTest])

theorem requestInv_goAcknowledged (s : State) (h : RequestInv s) : RequestInv (goAcknowledged s) := by
  unfold goAcknowledged
  (repeat' split)
  · exact requestInv_enterTest s h
  · unfold returnToRun
    exact requestInv_noTesting _ _ (requestInv_completeOwner (bare .drainTimeout) _ h) (noTesting_completeOwner _ _ h) (by simp) (by simp) (by simp)
  · exact h

theorem requestInv_takeSymbol (d st) (s : State) (h : RequestInv s) : RequestInv (takeSymbol d st s) := by
  have : (takeSymbol d st s).lt.owner = s.lt.owner ∧ (takeSymbol d st s).lt.ownerTag = s.lt.ownerTag ∧ (takeSymbol d st s).lt.phase = s.lt.phase := by
    unfold takeSymbol
    dsimp only
    (repeat' split) <;> simp [countSymbol]
  exact requestInv_lt s _ h (by simp) (by simp) (by simp) this.1 this.2.1 (by rw [this.2.2]; exact fun a b => ⟨a, b⟩)

theorem requestInv_takeSymbols (bs) (s : State) (h : RequestInv s) : RequestInv (takeSymbols bs s) := by
  unfold takeSymbols
  induction bs generalizing s with
  | nil => exact h
  | cons b bs ih => exact ih _ (requestInv_takeSymbol _ _ _ h)

theorem requestInv_leaveTest (r) (s : State) (h : RequestInv s) : RequestInv (leaveTest r s) :=
  requestInv_lt s _ h (by simp) (by simp) (by simp) (by simp [leaveTest]) (by simp [leaveTest]) (by simp [leaveTest])

theorem requestInv_reach (t) (s : State) (h : RequestInv s) : RequestInv (s.reach t) := h

theorem requestInv_testDuration (s : State) (h : RequestInv s) : RequestInv (testDuration s) := by
  unfold testDuration
  (repeat' split) <;> first | exact h | exact requestInv_leaveTest _ _ h

theorem requestInv_checkerDuration (s : State) (h : RequestInv s) : RequestInv (checkerDuration s) := by
  unfold checkerDuration
  (repeat' split) <;> (first | exact h | (simpa [RequestInv] using h))

theorem requestInv_patternLost (s : State) (h : RequestInv s) : RequestInv (patternLost s) := by
  unfold patternLost
  (repeat' split) <;> first | exact h | exact requestInv_leaveTest _ _ h

theorem requestInv_patternStart (s : State) (h : RequestInv s) : RequestInv (patternStart s) := by
  unfold patternStart
  (repeat' split) <;> (first | exact h | (simpa [RequestInv] using h))

theorem requestInv_testStop (s : State) (h : RequestInv s) : RequestInv (testStop s) := by
  unfold testStop
  (repeat' split)
  · exact requestInv_leaveTest .stopped _ h
  · (first | exact h | (simpa [RequestInv] using h))
  · (first | exact h | (simpa [RequestInv] using h))

theorem requestInv_settleTest (s : State) (h : RequestInv s) : RequestInv (settleTest s) := by
  unfold settleTest
  dsimp only
  have h' : ∀ s0 : State, s0 = s ∨ s0 = { s with fe.releaseAll := true, lt.releaseOwed := false } → RequestInv s0 := by
    rintro s0 (rfl | rfl)
    · exact h
    · exact h
  generalize hu : (if s.lt.releaseOwed then ({ s with fe.releaseAll := true, lt.releaseOwed := false } : State) else s) = u
  have h := h' u (by rw [← hu]; split <;> simp)
  clear h'
  split
  · exact h
  split
  · apply requestInv_endTest
    · have := requestInv_completeOwner (testAnswer u.lt) u h
      simpa [RequestInv, raiseTestDone] using this
    · exact noTesting_congr (noTesting_completeOwner (testAnswer u.lt) u h) (by simp)
  · exact requestInv_noTesting _ _ h (noTesting_other h (by assumption)) (by simp) (by simp) (by simp)
  · exact requestInv_lt _ _ h (by simp) (by simp) (by simp) (by simp) (by simp) (by simp)
  · exact requestInv_noTesting _ _ h (noTesting_other h (by assumption)) (by simp) (by simp) (by simp)

theorem requestInv_takeTestResult (p) (s : State) (h : RequestInv s) : RequestInv (takeTestResult p s) := by
  unfold takeTestResult
  dsimp only
  split
  · exact h
  · set_option linter.unusedVariables false in
    apply requestInv_endTest
    · simp only [RequestInv, raiseTestDone, raiseLocal_frame]
      refine requestInv_completeOwner _ _ ?_
      exact h
    · refine noTesting_congr (noTesting_completeOwner _ _ ?_) (raiseTestDone_frame _ _ _).2.2.2.2.2.1
      exact h

theorem requestInv_resultLimit (s : State) (h : RequestInv s) : RequestInv (resultLimit s) := by
  unfold resultLimit
  split
  · exact requestInv_endTest _ (requestInv_completeOwner _ _ h) (noTesting_completeOwner _ _ h)
  · exact h

theorem testAtLoss_eq (s : State) : ∃ u a, (u = s ∨ ∃ r e n, u = raiseTestDone e n { s with lt.endReason := r }) ∧ 
    (testAtLoss s = s ∨ (testAtLoss s = { endTest u with lt.releaseOwed := false } ∧ s.lt.phase = .resultOut) ∨
     testAtLoss s = { endTest (if u.lt.owner then completeOwner a u else u) with lt.releaseOwed := false } ∨ testAtLoss s = { endTest (completeOwner a u) with lt.releaseOwed := false }) := by
  unfold testAtLoss
  cases hp : s.lt.phase
  · exact ⟨s, bare .ok, Or.inl rfl, Or.inl rfl⟩
  · exact ⟨s, bare .linkDown, Or.inl rfl, Or.inr (Or.inr (Or.inl rfl))⟩
  · exact ⟨s, bare .linkDown, Or.inl rfl, Or.inr (Or.inr (Or.inl rfl))⟩
  · cases hg : s.lt.generator
    · refine ⟨_, testAnswer { s.lt with endReason := .stopped }, Or.inr ⟨.stopped, .stopped, s.lt.errors, rfl⟩, Or.inr (Or.inr (Or.inl ?_))⟩
      rfl
    · exact ⟨s, bare .linkDown, Or.inl rfl, Or.inr (Or.inr (Or.inl rfl))⟩
  · cases hg : s.lt.generator
    · refine ⟨_, testAnswer s.lt, Or.inr ⟨s.lt.endReason, s.lt.endReason, s.lt.errors, rfl⟩, Or.inr (Or.inr (Or.inl ?_))⟩
      rfl
    · exact ⟨s, bare .linkDown, Or.inl rfl, Or.inr (Or.inr (Or.inl rfl))⟩
  · exact ⟨s, bare .linkDown, Or.inl rfl, Or.inr (Or.inr (Or.inr rfl))⟩
  · exact ⟨s, bare .linkDown, Or.inl rfl, Or.inr (Or.inl ⟨rfl, rfl⟩)⟩

theorem requestInv_testAtLoss (s : State) (h : RequestInv s) : RequestInv (testAtLoss s) := by
  have hd : ∀ u, RequestInv u → NoTesting u → RequestInv { endTest u with lt.releaseOwed := false } := fun u hu hn => requestInv_endTest u hu hn
  have ho : ∀ a u, RequestInv u → RequestInv (if u.lt.owner then completeOwner a u else u) ∧ NoTesting (if u.lt.owner then completeOwner a u else u) := by
    intro a u hu; split
    · exact ⟨requestInv_completeOwner _ _ hu, noTesting_completeOwner _ _ hu⟩
    · exact ⟨hu, noTesting_other hu (by simp_all)⟩
  obtain ⟨u, a, hu, h2⟩ := testAtLoss_eq s
  have hi : RequestInv u := by
    rcases hu with rfl | ⟨r, e, n, rfl⟩
    · exact h
    · simpa [RequestInv] using h
  rcases h2 with h2 | ⟨h2, hp⟩ | h2 | h2
  · rw [h2]; exact h
  · rw [h2]; apply hd _ hi
    refine noTesting_idle hi (Or.inr ?_)
    rcases hu with rfl | ⟨r, e, n, rfl⟩
    · exact hp
    · simpa using hp
  · rw [h2]; exact hd _ (ho _ _ hi).1 (ho _ _ hi).2
  · rw [h2]; exact hd _ (requestInv_completeOwner _ _ hi) (noTesting_completeOwner _ _ hi)

theorem requestInv_requestsAtLoss (s : State) (h : RequestInv s) : RequestInv (requestsAtLoss s) := by
  unfold requestsAtLoss
  apply requestInv_completeAll _ _ _ h (h.2.2.2.1.filter _)
  intro t ht
  have := (List.mem_filter.1 ht).2
  revert this
  cases s.rt.tags[t].state <;> simp [TagState.isFar, TagState.isPending]

theorem requestInv_loss (r) (s : State) (h : RequestInv s) : RequestInv (loss r s) := by
  unfold loss
  apply requestInv_select
  have h1 := requestInv_requestsAtLoss s h
  have h2 : RequestInv (linesAtLoss (leaseAtLoss (eventsAtLoss r (incomingAtLoss (requestsAtLoss s))))) := by
    simp only [RequestInv, linesAtLoss_frame, leaseAtLoss_frame, eventsAtLoss_frame, incomingAtLoss_frame] at h1 ⊢; exact h1
  have h3 := requestInv_testAtLoss _ h2
  generalize testAtLoss (linesAtLoss (leaseAtLoss (eventsAtLoss r (incomingAtLoss (requestsAtLoss s))))) = u at h3
  obtain ⟨h1, h2, h3, h4, h5, h6, h7, h8, h9, h10, h11, h12⟩ := h3
  refine ⟨by simpa using h1, by simpa using h2, by simpa using h3, by simpa using h4, by simpa using h5, by simpa using h6, by simpa using h7,
    by simpa using h8, by simpa using h9, ?_, ?_, by simpa using h12⟩ <;> simp [enterHoldoff, quiet, engineAtLoss, FrameEngine.reset]

theorem requestInv_plain (s u : State) (h : RequestInv s) (e1 : u.rt = s.rt) (e2 : u.da.localList = s.da.localList) (e3 : u.fe.cancelList = s.fe.cancelList ∨ u.fe.cancelList = [])
   (e4 : u.lt.owner = s.lt.owner) (e5 : u.lt.ownerTag = s.lt.ownerTag) (e6 : u.lt.phase = s.lt.phase) : RequestInv u := by
  obtain ⟨h1, h2, h3, h4, h5, h6, h7, h8, h9, h10, h11, h12⟩ := h
  rw [← e1] at h1 h2 h3 h4 h5 h6 h8 h9 h11 h12; rw [← e2] at h7 h8; rw [← e4, ← e5, ← e6] at h12
  refine ⟨h1, h2, h3, h4, h5, h6, h7, h8, h9, ?_, ?_, h12⟩
  · rcases e3 with e3 | e3 <;> rw [e3]
    · exact h10
    · simp
  · rcases e3 with e3 | e3 <;> rw [e3]
    · exact h11
    · simp

theorem requestInv_enterRunFromHello (c) (s : State) (h : RequestInv s) : RequestInv (enterRunFromHello c s) := by
  refine requestInv_plain s _ h (by simp) (by simp) (Or.inr ?_) (by simp) (by simp) (by simp)
  unfold enterRunFromHello startRun engineAtRun FrameEngine.reset
  dsimp only
  split <;> simp

theorem requestInv_enterRunFromRetrain (s : State) (h : RequestInv s) : RequestInv (enterRunFromRetrain s) := by
  unfold enterRunFromRetrain
  apply requestInv_settleTest
  exact requestInv_plain s _ h (by simp) (by simp) (Or.inr rfl) (by simp) (by simp) (by simp)

theorem requestInv_setSpanOff (v) (s : State) (h : RequestInv s) : RequestInv (setSpanOff v s) := by
  unfold setSpanOff
  dsimp only
  (repeat' split) <;> first | exact h | exact requestInv_loss _ _ h | simpa [RequestInv] using h

theorem requestInv_silenceLimit (s : State) (h : RequestInv s) : RequestInv (silenceLimit s) := by
  unfold silenceLimit; split
  · exact h
  · exact requestInv_loss _ _ h

theorem requestInv_retrainLimit (s : State) (h : RequestInv s) : RequestInv (retrainLimit s) := by
  unfold retrainLimit; split
  · exact h
  · exact requestInv_loss _ _ h

theorem requestInv_holdoffEnd (s : State) (h : RequestInv s) : RequestInv (holdoffEnd s) := by
  unfold holdoffEnd; dsimp only; (repeat' split) <;> (first | exact h | (simpa [RequestInv] using h))

theorem requestInv_trainingInterval (s : State) (h : RequestInv s) : RequestInv (trainingInterval s) := by
  unfold trainingInterval; split <;> (first | exact h | (simpa [RequestInv] using h))

theorem requestInv_helloInterval (s : State) (h : RequestInv s) : RequestInv (helloInterval s) := by
  unfold helloInterval; split <;> (first | exact h | (simpa [RequestInv] using h))

theorem requestInv_helloLimit (s : State) (h : RequestInv s) : RequestInv (helloLimit s) := by
  unfold helloLimit; split <;> (first | exact h | (simpa [RequestInv] using h))

theorem nextReq_state {s : State} {t} (h : nextReq s = some t) : s.rt.tags[t].state = .waitCredit := by
  have := List.find?_some h; simpa using this

theorem requestInv_buildReq (t) (s : State) (ht : s.rt.tags[t].state = .waitCredit) (h : RequestInv s) : RequestInv (buildReq t s) := by
  unfold buildReq
  dsimp only
  have hd : s.rt.tags[t].due.isSome = true := by rw [h.2.2.2.2.2.1 t, ht]; rfl
  have := requestInv_setPending s t { s.rt.tags[t] with state := .inFlight, due := s.rt.tags[t].due.map (· + Config.farGrace) } h
    (by rw [ht]; rfl) (by rw [ht]; decide) rfl (by simp) (by simpa [TagState.timed] using hd) rfl (by rw [ht]; intro e; cases e) (by simp)
  simp only [RequestInv, pushFrame_frame]
  exact this

theorem nextKind_testResult (s : State) (h : nextKind s = .testResult) : s.slc.state = .run ∧ s.lt.phase = .resultOut := by
  unfold nextKind at h
  dsimp only at h
  unfold handshake at h
  revert h
  cases s.slc.state <;> cases s.lt.phase <;> simp <;> (repeat' split) <;> (try simp_all) <;> (try grind)

theorem nextKind_testEnter (s : State) (h : nextKind s = .testEnter) : s.slc.state = .run ∧ s.lt.phase = .enterPending := by
  unfold nextKind at h
  dsimp only at h
  unfold handshake at h
  revert h
  cases s.slc.state <;> cases s.lt.phase <;> simp <;> (repeat' split) <;> (try simp_all) <;> (try grind)

theorem requestInv_pushFrame (k p i) (s : State) (h : RequestInv s) : RequestInv (pushFrame k p i s) := by
  simp only [RequestInv, pushFrame_frame]; exact h

theorem requestInv_buildFrame (s : State) (h : RequestInv s) : RequestInv (buildFrame (nextKind s) s) := by
  have h1 := nextKind_testResult s
  have h2 := nextKind_testEnter s
  unfold buildFrame
  split
  · apply requestInv_pushFrame; exact h
  · split
    · rename_i t g rest hc
      apply requestInv_pushFrame
      obtain ⟨g1, g2, g3, g4, g5, g6, g7, g8, g9, g10, g11, g12⟩ := h
      rw [hc, List.map_cons, List.nodup_cons] at g10
      exact ⟨g1, g2, g3, g4, g5, g6, g7, g8, g9, g10.2, fun x hx => g11 x (by rw [hc]; exact List.mem_cons_of_mem _ hx), g12⟩
    · exact h
  · apply requestInv_pushFrame
    exact requestInv_endTest _ h (noTesting_idle h (Or.inr (h1 (by assumption)).2))
  · apply requestInv_pushFrame; exact h
  · split
    · unfold buildRsp
      (repeat' split) <;> first | exact h | (apply requestInv_pushFrame; exact h)
    · exact h
  · apply requestInv_pushFrame
    exact requestInv_lt s _ h rfl rfl rfl rfl rfl (by simp)
  · apply requestInv_pushFrame; exact h
  · apply requestInv_pushFrame; exact h
  · split
    · exact requestInv_buildReq _ _ (nextReq_state (by assumption)) h
    · exact h
  · split
    · apply requestInv_pushFrame; exact h
    · exact h
  all_goals (simp only [RequestInv, buildIdle_frame]; exact h)

theorem requestInv_sendSelected (s : State) (h : RequestInv s) : RequestInv (sendSelected s) := by
  unfold sendSelected
  (repeat' split)
  · exact requestInv_buildFrame s h
  · exact h
  · exact requestInv_loss _ _ h
  · simpa [RequestInv] using h

theorem requestInv_turnOpen (s : State) (h : RequestInv s) : RequestInv (turnOpen s) := by
  unfold turnOpen
  split
  · exact requestInv_sendSelected _ h
  · exact h

theorem requestInv_followerReply (s : State) (h : RequestInv s) : RequestInv (followerReply s) := by
  unfold followerReply
  dsimp only
  (repeat' split) <;> first | exact h | exact requestInv_sendSelected _ h | simpa [RequestInv] using h

theorem requestInv_afterSend (s : State) (h : RequestInv s) : RequestInv (afterSend s) := by
  unfold afterSend
  split
  · exact requestInv_enterTest _ h
  · exact h

theorem requestInv_frameSent (s : State) (h : RequestInv s) : RequestInv (frameSent s) := by
  unfold frameSent
  dsimp only
  (repeat' split)
  · exact h
  · exact requestInv_afterSend _ h
  · exact requestInv_enterRunFromHello _ _ h
  · exact requestInv_afterSend _ h

theorem requestInv_missTurn (g) (s : State) (h : RequestInv s) : RequestInv (missTurn g s) := by
  unfold missTurn
  dsimp only
  split
  · exact requestInv_loss _ _ h
  · exact h

theorem requestInv_replyWindowEnd (s : State) (h : RequestInv s) : RequestInv (replyWindowEnd s) := by
  unfold replyWindowEnd
  dsimp only
  (repeat' split) <;> first | exact h | exact requestInv_missTurn _ _ h

theorem requestInv_badFrame (s : State) (h : RequestInv s) : RequestInv (badFrame s) := by
  unfold badFrame
  dsimp only
  (repeat' split) <;> first | exact h | exact requestInv_missTurn _ _ h

theorem requestInv_dropLease (o f) (s : State) (hf : ∀ st u, RequestInv u → u.rt = s.rt → RequestInv (f st u)) (h : RequestInv s) : RequestInv (dropLease o f s) := by
  have hl : RequestInv (leaseDrop o s).2 := by simpa [RequestInv] using h
  unfold dropLease
  dsimp only
  split
  · exact requestInv_select _ (hf _ _ hl (by simp))
  · exact hf _ _ hl (by simp)

theorem requestInv_answerSlot (i a) (s : State) (h : RequestInv s) : RequestInv (answerSlot i a s) := by simpa [RequestInv] using h

theorem requestInv_runRemote (i r) (s : State) (h : RequestInv s) : RequestInv (runRemote i r s) := by
  unfold runRemote
  dsimp only
  split
  case h_6 => exact requestInv_dropLease _ _ _ (fun st u hu _ => requestInv_answerSlot _ _ _ hu) h
  all_goals first | exact h | (apply requestInv_answerSlot; simpa [RequestInv] using h)

theorem requestInv_handleReq (i r) (s : State) (h : RequestInv s) : RequestInv (handleReq i r s) := by
  unfold handleReq
  (repeat' split) <;> first | exact requestInv_answerSlot _ _ _ h | exact requestInv_select _ h | exact requestInv_runRemote _ _ _ h

theorem requestInv_takeReq (p) (s t : State) (h : RequestInv s) (ht : takeReq p s = .next t) : RequestInv t := by
  unfold takeReq at ht
  split at ht
  · cases ht
  · cases ht; exact h
  · cases ht; exact requestInv_handleReq _ _ _ h

theorem requestInv_takeRsp (p) (s : State) (h : RequestInv s) : RequestInv (takeRsp p s) := by
  unfold takeRsp
  (repeat' split) <;> try exact h
  rename_i hh
  simp only [awaits, Bool.and_eq_true, Bool.or_eq_true, decide_eq_true_eq] at hh
  rcases hh.1 with e | e
  · exact requestInv_completeTag' _ _ _ h (by rw [e]; rfl) (by rw [e]; decide)
  · exact requestInv_completeTag' _ _ _ h (by rw [e]; rfl) (by rw [e]; decide)

theorem requestInv_takeReleaseAll (s : State) (h : RequestInv s) : RequestInv (takeReleaseAll s) := by
  unfold takeReleaseAll
  apply requestInv_select
  simpa [RequestInv] using h

theorem requestInv_deliver (k p) (s t : State) (h : RequestInv s) (ht : deliver k p s = .next t) : RequestInv t := by
  unfold deliver at ht
  split at ht <;> first | exact requestInv_takeReq _ _ _ h ht | skip
  all_goals cases ht
  all_goals first | exact h | exact requestInv_takeTestEnter _ _ h | exact requestInv_takeTestReady _ h | exact requestInv_takeTestGo _ h | exact requestInv_takeTestResult _ _ h | exact requestInv_takeRsp _ _ h | exact requestInv_takeReleaseAll _ h | simpa [RequestInv] using h

theorem requestInv_takeSequenced (k q p) (s t : State) (h : RequestInv s) (ht : takeSequenced k q p s = .next t) : RequestInv t := by
  unfold takeSequenced at ht
  split at ht <;> first | exact requestInv_deliver _ _ { s with fe.expected := s.fe.expected + 1 } _ h ht | (cases ht; exact h)

theorem requestInv_takeFrame (k hd p) (s t : State) (h : RequestInv s) (ht : takeFrame k hd p s = .next t) : RequestInv t := by
  unfold takeFrame at ht
  have h1 : RequestInv (takeHeader hd s) := by simpa [RequestInv] using h
  split at ht
  · cases ht; simpa [RequestInv] using h
  · obtain ⟨u, hu, rfl⟩ := thenDo_next ht
    have hu' : RequestInv u := by
      split at hu
      · exact requestInv_takeSequenced _ _ _ _ _ h1 hu
      · cases hu; exact h1
    split
    · exact requestInv_goAcknowledged _ hu'
    · exact hu'

theorem requestInv_takeTrainAck (hd) (s : State) (h : RequestInv s) : RequestInv (takeTrainAck hd s) := by
  unfold takeTrainAck
  dsimp only
  (repeat' split) <;> first | exact h | exact requestInv_enterRunFromRetrain _ h

theorem requestInv_leaderHello (hd p) (s : State) (h : RequestInv s) : RequestInv (leaderHello hd p s) := by
  unfold leaderHello
  split
  · exact requestInv_enterRunFromHello _ _ h
  · exact h

theorem requestInv_takeReady (b) (s : State) (h : RequestInv s) : RequestInv (takeReady b s) := by simpa [RequestInv] using h

theorem requestInv_roleClash (s : State) (h : RequestInv s) : RequestInv (roleClash s) := by simpa [RequestInv] using h

theorem requestInv_leaderTakes (k hd p) (s t : State) (h : RequestInv s) (ht : leaderTakes k hd p s = .next t) : RequestInv t := by
  unfold leaderTakes at ht
  dsimp only at ht
  (repeat' split at ht) <;> first | (cases ht; first | exact h | exact requestInv_roleClash _ h | exact requestInv_takeTrainAck _ _ h | exact requestInv_leaderHello _ _ _ h | exact requestInv_takeReady _ _ h | exact requestInv_takeTrainAck _ _ (requestInv_takeReady _ _ h)) | exact requestInv_takeFrame _ _ _ (turnAnswered k hd s) _ h ht

theorem requestInv_followerHello (hd p) (s : State) (h : RequestInv s) : RequestInv (followerHello hd p s) := by
  unfold followerHello
  split <;> exact h

theorem requestInv_followerTurn (k hd p) (s t : State) (h : RequestInv s) (ht : followerTurn k hd p s = .next t) : RequestInv t := by
  unfold followerTurn at ht
  split at ht
  · exact requestInv_takeFrame _ _ _ _ _ h ht
  · exact requestInv_takeFrame _ _ _ (restartSilence s) _ h ht
  · exact requestInv_takeFrame _ _ _ (oweReply _ (restartSilence s)) _ h ht

theorem requestInv_followerTakes (k hd p) (s t : State) (h : RequestInv s) (ht : followerTakes k hd p s = .next t) : RequestInv t := by
  unfold followerTakes at ht
  dsimp only at ht
  (repeat' split at ht) <;> first
    | (cases ht; first | exact h | exact requestInv_followerHello _ _ _ h | exact requestInv_followerHello _ _ (lock s) h | exact requestInv_loss _ _ (requestInv_takeReady _ _ h) | simpa [RequestInv] using h)
    | exact requestInv_followerTurn _ _ _ _ _ h ht | exact requestInv_followerTurn _ _ _ _ _ (requestInv_enterRunFromRetrain _ h) ht

theorem requestInv_receive (k hd p) (s t : State) (h : RequestInv s) (ht : receive k hd p s = .next t) : RequestInv t := by
  unfold receive at ht
  (repeat' split at ht)
  · cases ht; exact h
  · cases ht; exact requestInv_takeSymbols _ _ h
  · cases ht; exact requestInv_badFrame _ h
  · exact requestInv_leaderTakes _ _ _ _ _ h ht
  · exact requestInv_followerTakes _ _ _ _ _ h ht

theorem requestInv_receiveBad (raw) (s : State) (h : RequestInv s) : RequestInv (receiveBad raw s) := by
  unfold receiveBad
  (repeat' split)
  · exact h
  · exact requestInv_takeSymbols _ _ h
  · exact requestInv_badFrame _ h

theorem vput_vput {α : Type} {n : Nat} (v : Vector α n) (i : Fin n) (x y : α) : vput (vput v i x) i y = vput v i y := by
  apply vector_ext; intro j; simp only [vput_at]; split <;> rfl

/-- a FREE tag made pending, of any state and request -/

theorem requestInv_fresh (s u : State) (t : Tag) (e : TagEntry) (h : RequestInv s) (hf : s.rt.tags[t].state = .free)
   (h1 : u.rt.tags = vput s.rt.tags t e) (h2 : u.rt.order = s.rt.order ++ [t]) (h3 : u.rt.cq = s.rt.cq)
   (he : e.state.isPending = true) (hd : e.due.isSome = e.state.timed)
   (hc : u.fe.cancelList = s.fe.cancelList)
   (hL : (e.state ≠ .queued ∧ u.da.localList = s.da.localList) ∨ (e.state = .queued ∧ e.req.kind.isQueued = true ∧ u.da.localList = s.da.localList ++ [t]))
   (hlt : (e.state ≠ .testing ∧ u.lt = s.lt) ∨ (NoTesting s ∧ u.lt.owner = true ∧ u.lt.ownerTag = some (t, e.gen) ∧ u.lt.phase ≠ .idle ∧ u.lt.phase ≠ .resultOut)) :
   RequestInv u := by
  obtain ⟨g1, g2, g3, g4, g5, g6, g7, g8, g9, g10, g11, g12⟩ := h
  have hno : t ∉ s.rt.order := by rw [← g5, hf]; decide
  have hnc : t ∉ s.rt.cq.map (·.tag) := by rw [← g2, hf]; decide
  have hnl : t ∉ s.da.localList := by rw [← g8, hf]; decide
  refine ⟨?_, ?_, ?_, ?_, ?_, ?_, ?_, ?_, ?_, ?_, ?_, ?_⟩
  · rw [h3]; exact g1
  · intro v; rw [h1, h3, ← g2, vput_at]; split
    · rename_i hv; subst hv; rw [hf]; constructor
      · intro hh; rw [hh] at he; cases he
      · intro hh; cases hh
    · rfl
  · intro c hcq; rw [h3] at hcq; rw [h1, vput_at, if_neg]
    · exact g3 c hcq
    · rintro rfl; exact hnc (List.mem_map_of_mem hcq)
  · rw [h2, List.nodup_append]; exact ⟨g4, by simp, by rintro a ha b hb rfl; simp at hb; subst hb; exact hno ha⟩
  · intro v; rw [h1, h2, vput_at, List.mem_append, ← g5]; split
    · rename_i hv; subst hv; simp [he]
    · rename_i hv; simp [Ne.symm hv]
  · intro v; rw [h1, vput_at]; split
    · exact hd
    · exact g6 v
  · rcases hL with ⟨-, e⟩ | ⟨-, -, e⟩ <;> rw [e]
    · exact g7
    · rw [List.nodup_append]; exact ⟨g7, by simp, by rintro a ha b hb rfl; simp at hb; subst hb; exact hnl ha⟩
  · intro v; rw [h1, vput_at]; split
    · rename_i hv; subst hv
      rcases hL with ⟨a, e⟩ | ⟨a, -, e⟩ <;> rw [e]
      · exact ⟨fun x => absurd x a, fun x => absurd x hnl⟩
      · simp [a]
    · rename_i hv
      rcases hL with ⟨a, e⟩ | ⟨a, -, e⟩ <;> rw [e, g8]
      simp [Ne.symm hv]
  · intro v; rw [h1, vput_at]; split
    · intro x
      rcases hL with ⟨a, e⟩ | ⟨a, b, e⟩
      · exact absurd x a
      · exact b
    · exact g9 v
  · rw [hc]; exact g10
  · intro x hx; rw [hc] at hx; rw [h1, vput_at, if_neg]
    · exact g11 x hx
    · intro e2
      have := (g11 x hx).1
      obtain ⟨x1, x2⟩ := x
      simp only at e2 this; subst e2
      rw [hf] at this; cases this
  · intro v; rw [h1, vput_at]; split
    · rename_i hv; subst hv
      intro x
      rcases hlt with ⟨a, -⟩ | ⟨-, a⟩
      · exact absurd x a
      · exact a
    · rcases hlt with ⟨-, a⟩ | ⟨a, -⟩
      · rw [a]; exact g12 v
      · intro x; exact absurd x (a v)

theorem requestInv_acceptComplete (s u : State) (t : Tag) (r : Request) (st : TagState) (a : Answer) (h : RequestInv s) (hf : s.rt.tags[t].state = .free)
   (h1 : u.rt = (acceptTag t r st s).rt) (hc : u.fe.cancelList = s.fe.cancelList) (hL : u.da.localList = s.da.localList) (hlt : u.lt = s.lt) :
   RequestInv (completeTag t a u) := by
  have hv : RequestInv { u with rt.tags := vput s.rt.tags t ⟨.waitCredit, s.rt.tags[t].gen + 1, r, some 0⟩ } := by
    refine requestInv_fresh s _ t _ h hf rfl ?_ ?_ rfl rfl hc (Or.inl ⟨by simp, hL⟩) (Or.inl ⟨by simp, hlt⟩)
    · simp [h1, acceptTag]
    · simp [h1, acceptTag]
  have := requestInv_completeTag' _ t a hv (by simp [vput_at, TagState.isPending]) (by simp [vput_at])
  have e : completeTag t a u = completeTag t a { u with rt.tags := vput s.rt.tags t ⟨.waitCredit, s.rt.tags[t].gen + 1, r, some 0⟩ } := by
    simp only [completeTag, h1, acceptTag, vput_vput, vput_at, if_pos]
  rw [e]; exact this

theorem freeTag_state {s : State} {t} (h : freeTag s = some t) : s.rt.tags[t].state = .free := by
  have := List.find?_some h; simpa using this

theorem requestInv_submitFar (t r) (s : State) (hk : r.kind ≠ .testStart) (hf : s.rt.tags[t].state = .free) (h : RequestInv s) : RequestInv (submitFar t r s) := by
  unfold submitFar
  dsimp only
  split
  · exact requestInv_fresh s _ t _ h hf rfl rfl rfl rfl (by simp [acceptDue, hk, TagState.timed]) rfl (Or.inl ⟨by simp, rfl⟩) (Or.inl ⟨by simp, rfl⟩)
  · exact requestInv_acceptComplete s _ t r _ _ h hf rfl rfl rfl rfl

theorem requestInv_startTest (t r) (s : State) (hf : s.rt.tags[t].state = .free) (h : RequestInv s) : RequestInv (startTest t (acceptTag t r .queued s)) := by
  unfold startTest
  dsimp only
  split
  · split
    · rename_i hph _
      refine requestInv_fresh s _ t ⟨.testing, s.rt.tags[t].gen + 1, r, none⟩ h hf ?_ rfl rfl rfl rfl rfl (Or.inl ⟨by simp, rfl⟩) (Or.inr ⟨noTesting_idle h (Or.inl hph), rfl, ?_, by simp, by simp⟩)
      · simp only [setTag, acceptTag, vput_vput, vput_at, if_pos]
      · simp only [acceptTag, vput_at, if_pos]
    · exact requestInv_acceptComplete s _ t r _ _ h hf rfl rfl rfl rfl
  all_goals exact requestInv_acceptComplete s _ t r _ _ h hf rfl rfl rfl rfl

theorem requestInv_submitNear (t r) (s : State) (hf : s.rt.tags[t].state = .free) (h : RequestInv s) : RequestInv (submitNear t r s) := by
  have hq : ∀ k, r.kind = k → k.isQueued = true → RequestInv { acceptTag t r .queued s with da.localList := (acceptTag t r .queued s).da.localList ++ [t] } := by
    intro k hk hkq
    exact requestInv_fresh s _ t _ h hf rfl rfl rfl rfl (by cases k <;> simp_all [acceptDue, TagState.timed, ReqKind.isQueued]) rfl (Or.inr ⟨rfl, by rw [← hk] at hkq; exact hkq, rfl⟩) (Or.inl ⟨by simp, rfl⟩)
  unfold submitNear
  dsimp only
  split
  · exact requestInv_select _ (hq _ (by assumption) rfl)
  · exact requestInv_select _ (hq _ (by assumption) rfl)
  · exact requestInv_select _ (hq _ (by assumption) rfl)
  · exact requestInv_select _ (hq _ (by assumption) rfl)
  iterate 5 exact requestInv_acceptComplete s _ t r .queued _ h hf (by simp) (by simp) (by simp) (by simp)
  · unfold dropLease
    dsimp only
    split
    · exact requestInv_select _ (requestInv_acceptComplete s _ t r .queued _ h hf (by simp) (by simp) (by simp) (by simp))
    · exact (requestInv_acceptComplete s _ t r .queued _ h hf (by simp) (by simp) (by simp) (by simp))
  · exact requestInv_acceptComplete s _ t r .queued _ h hf rfl rfl rfl rfl
  · exact requestInv_startTest _ _ _ hf h

theorem staged_far {v} {r : Request} (h : stagedRequest v = some r) (hs : r.side = .far) : r.kind ≠ .testStart := by
  unfold stagedRequest at h
  (repeat' split at h) <;> cases h
  rename_i hn _
  intro hk
  exact hn ⟨hk, hs⟩

theorem requestInv_submit (s : State) (h : RequestInv s) : RequestInv (submit s) := by
  unfold submit
  split
  · exact h
  split
  · exact h
  split
  · exact requestInv_submitFar _ _ _ (staged_far (by assumption) (by assumption)) (freeTag_state (by assumption)) h
  · exact requestInv_submitNear _ _ _ (freeTag_state (by assumption)) h

theorem requestInv_cancelTag (t) (s : State) (h : RequestInv s) : RequestInv (cancelTag t s) := by
  unfold cancelTag
  dsimp only
  split
  · exact h
  · exact h
  · exact h
  · exact h
  · exact requestInv_completeTag { s with da.localList := s.da.localList.filter (· ≠ t) } t (bare .cancelled) s.da.localList h (by show s.rt.tags[t].state.isPending = true; rw [‹s.rt.tags[t].state = _›]; rfl) rfl
  · exact requestInv_completeTag' s t (bare .cancelled) h (by rw [‹s.rt.tags[t].state = _›]; rfl) (by show s.rt.tags[t].state ≠ _; rw [‹s.rt.tags[t].state = _›]; decide)
  · rename_i hs
    have hn := requestInv_setPending s t { s.rt.tags[t] with state := .cancelSent } h (by rw [hs]; rfl) (by rw [hs]; decide) rfl (by simp)
      (by have := h.2.2.2.2.2.1 t; rw [hs] at this; exact this) rfl (by rw [hs]; intro e; cases e) (by simp)
    obtain ⟨g1, g2, g3, g4, g5, g6, g7, g8, g9, g10, g11, g12⟩ := hn
    have hnm : t ∉ s.fe.cancelList.map (·.1) := by
      intro hm
      obtain ⟨x, hx, rfl⟩ := List.mem_map.1 hm
      have := (h.2.2.2.2.2.2.2.2.2.2.1 x hx).1
      rw [hs] at this; cases this
    refine ⟨g1, g2, g3, g4, g5, g6, g7, g8, g9, ?_, ?_, g12⟩
    · show ((s.fe.cancelList ++ [(t, s.rt.tags[t].gen)]).map (·.1)).Nodup
      rw [List.map_append, List.nodup_append]; exact ⟨g10, by simp, by rintro a ha b hb rfl; simp at hb; subst hb; exact hnm ha⟩
    · intro x hx
      rcases List.mem_append.1 hx with hx | hx
      · exact g11 x hx
      · simp at hx; subst hx
        simp only [cancelResult, setTag, vput_at, if_pos]
        exact ⟨trivial, rfl⟩
  · exact h

theorem requestInv_cancel (b) (s : State) (h : RequestInv s) : RequestInv (cancel b s) := by
  unfold cancel; split
  · exact requestInv_cancelTag _ _ h
  · exact h

theorem requestInv_deadlineExpiry (t) (s : State) (h : RequestInv s) : RequestInv (deadlineExpiry t s) := by
  unfold deadlineExpiry
  dsimp only
  split
  · exact h
  split
  · exact requestInv_completeTag { s.reach _ with da.localList := s.da.localList.filter (· ≠ t) } t (bare .timeout) s.da.localList h (by show s.rt.tags[t].state.isPending = true; rw [‹s.rt.tags[t].state = _›]; rfl) rfl
  · exact requestInv_completeTag' (s.reach _) t (bare .timeout) h (by show s.rt.tags[t].state.isPending = true; rw [‹s.rt.tags[t].state = _›]; rfl) (by show s.rt.tags[t].state ≠ _; rw [‹s.rt.tags[t].state = _›]; decide)
  · exact requestInv_completeTag' (s.reach _) t (bare .timeout) h (by show s.rt.tags[t].state.isPending = true; rw [‹s.rt.tags[t].state = _›]; rfl) (by show s.rt.tags[t].state ≠ _; rw [‹s.rt.tags[t].state = _›]; decide)
  · exact requestInv_completeTag' (s.reach _) t (bare .timeout) h (by show s.rt.tags[t].state.isPending = true; rw [‹s.rt.tags[t].state = _›]; rfl) (by show s.rt.tags[t].state ≠ _; rw [‹s.rt.tags[t].state = _›]; decide)
  all_goals exact h

theorem requestInv_completionPop (s : State) (h : RequestInv s) : RequestInv (completionPop s) := by
  unfold completionPop
  split
  · exact h
  · rename_i c rest hc
    obtain ⟨g1, g2, g3, g4, g5, g6, g7, g8, g9, g10, g11, g12⟩ := h
    rw [hc, List.map_cons, List.nodup_cons] at g1
    have hd : s.rt.tags[c.tag].state = .done := by rw [g2, hc]; simp
    refine ⟨g1.2, ?_, ?_, g4, ?_, ?_, g7, ?_, ?_, g10, ?_, ?_⟩ <;> simp only
    · intro u; rw [vput_at]; split
      · rename_i hu; subst hu; exact ⟨fun x => (by cases x), fun x => absurd x g1.1⟩
      · rename_i hu; rw [g2, hc, List.map_cons, List.mem_cons]; simp only [Ne.symm hu, false_or]
    · intro x hx; rw [vput_at, if_neg]
      · exact g3 x (by rw [hc]; exact List.mem_cons_of_mem _ hx)
      · intro e; apply g1.1; rw [e]; exact List.mem_map_of_mem hx
    · intro u; rw [vput_at, ← g5]; split
      · rename_i hu; subst hu; rw [hd]; rfl
      · rfl
    · intro u; rw [vput_at]; split
      · rename_i hu; subst hu
        have := g6 c.tag
        rw [hd] at this; exact this
      · exact g6 u
    · intro u; rw [vput_at, ← g8]; split
      · rename_i hu; subst hu; rw [hd]; simp
      · rfl
    · intro u; rw [vput_at]; split
      · intro x; cases x
      · exact g9 u
    · intro x hx; rw [vput_at, if_neg]
      · exact g11 x hx
      · intro e
        have := (g11 x hx).1
        obtain ⟨x1, x2⟩ := x
        simp only at e this; subst e
        rw [hd] at this; cases this
    · intro u; rw [vput_at]; split
      · intro x; cases x
      · exact g12 u

theorem requestInv_softReset (b) (s : State) (h : RequestInv s) : RequestInv (softReset b s) := by
  unfold softReset
  split
  · apply requestInv_select
    refine ⟨?_, ?_, ?_, ?_, ?_, ?_, ?_, ?_, ?_, ?_, ?_, ?_⟩ <;> simp [arbiterAtSoftReset, restAtSoftReset, requestsAtSoftReset, TagState.isPending, TagState.timed]
  · exact h

theorem requestInv_testAtSoftReset_dummy : True := trivial

theorem requestInv_writeAt (o b) (s : State) (h : RequestInv s) : RequestInv (writeAt o b s) := by
  unfold writeAt
  split
  · exact requestInv_setSpanOff _ _ h
  · exact requestInv_softReset _ _ h
  · unfold writePolicy; split
    · exact requestInv_setPolicy _ _ h
    · exact h
  · simpa [RequestInv] using h
  · exact h
  · simpa [RequestInv] using h
  · exact h
  · exact h
  · exact requestInv_submit _ h
  · exact requestInv_cancel _ _ h
  · exact requestInv_completionPop _ h
  · exact h
  · exact requestInv_testStop _ h
  · (repeat' split) <;> first | exact h | simpa [RequestInv] using h

theorem requestInv_portWrite (o b) (s : State) (h : RequestInv s) : RequestInv (portWrite o b s) :=
  requestInv_writeAt o b (beginWrite s) h

theorem requestInv_registerWrite (w) (s : State) (h : RequestInv s) : RequestInv (registerWrite w s) := by
  unfold registerWrite
  (repeat' split)
  · exact h
  · exact h
  · exact requestInv_portWrite _ _ _ h
  · exact h

theorem requestInv_reset (r e a p n) : RequestInv (State.cleared r e a p n) := by
  refine ⟨?_, ?_, ?_, ?_, ?_, ?_, ?_, ?_, ?_, ?_, ?_, ?_⟩ <;> simp [State.cleared, RequestTable.reset, Arbiter.reset, FrameEngine.reset, LinkTester.reset, TagState.isPending, TagState.timed]

theorem requestInv_rstnLow (c) (s : State) (h : RequestInv s) : RequestInv (rstnLow c s) := by
  unfold rstnLow
  dsimp only
  split
  · exact requestInv_reset .follower false 0x2C#7 0 s.now
  · exact h

theorem requestInv_rstnRelease (x p) (s : State) (h : RequestInv s) : RequestInv (rstnRelease x p s) := by
  unfold rstnRelease
  dsimp only
  (repeat' split)
  · have := requestInv_reset (strapRole x) x.spanEn (strapAddress x) p s.now
    simp only [RequestInv, enterListen_frame]
    exact this
  · exact requestInv_reset (strapRole x) x.spanEn (strapAddress x) p s.now
  · exact h

theorem keep_onChip {I : State → Prop} (f) (hf : ∀ s, I s → I (f s)) (s t : State) (h : I s) (ht : Host.Outcome.next (onChip f s) = (.next t : Host.Outcome State Fault Refusal)) : I t := by
  cases ht
  unfold onChip
  split
  · exact h
  · exact hf _ h

theorem keep_onPort {I : State → Prop} (f) (hf : ∀ s, I s → I (f s)) (s t : State) (h : I s) (ht : Host.Outcome.next (onPort f s) = (.next t : Host.Outcome State Fault Refusal)) : I t := by
  cases ht
  unfold onPort
  split
  · exact h
  · exact hf _ h

theorem requestInv_portRead (r p) (s : State) (h : RequestInv s) : RequestInv (portRead r p s) := by
  simp only [RequestInv, portRead_frame]; exact h

end Sys2Proof.Laws.RequestInv
end

