-- ==== Sys2Proof/Laws/IncomingInv.lean ====
section
/-! SUPPORT. Each operation keeps the Incoming Queue consistent (IncomingInv). -/
namespace Sys2Proof.Laws.IncomingInv
open Sys2Proof.Machine Sys2Proof.Laws.RequestInv
set_option maxHeartbeats 2000000

def II (q : IncomingQueue) (R W : List Slot) : Prop :=
  q.arrival.Nodup ∧
  (∀ i : Slot, q.slots[i].isSome = true ↔ i ∈ q.arrival) ∧
  R.Nodup ∧
  (∀ i : Slot, (∃ e due, q.slots[i] = some e ∧ e.state = .waiting due) ↔ i ∈ R) ∧
  (∀ (i : Slot) (e : SlotEntry), i ∈ R → q.slots[i] = some e → e.req.kind.isQueued = true) ∧
  q.answerOrder.Nodup ∧
  (∀ i : Slot, (∃ e a, q.slots[i] = some e ∧ e.state = .answered a) ↔ i ∈ q.answerOrder) ∧
  W.Nodup ∧
  (∀ i ∈ W, ∃ e a, q.slots[i] = some e ∧ e.state = .sent a)

def wslots (s : State) : List Slot := s.fe.window.filterMap (·.slot)

theorem ii_def (s : State) : IncomingInv s ↔ II s.iq s.da.remoteList (s.fe.window.filterMap (·.slot)) := Iff.rfl

theorem II_ext {q R W} (h : II q R W) (R' : List Slot) (hn : R'.Nodup) (hR : ∀ i, i ∈ R' ↔ i ∈ R) : II q R' W := by
  obtain ⟨h1, h2, h3, h4, h5, h6, h7, h8, h9⟩ := h
  exact ⟨h1, h2, hn, fun i => by rw [h4, hR], fun i e hi => h5 i e ((hR i).1 hi), h6, h7, h8, h9⟩

theorem II_win {q R W} (h : II q R W) (W' : List Slot) (hW : W'.Sublist W) : II q R W' := by
  obtain ⟨h1, h2, h3, h4, h5, h6, h7, h8, h9⟩ := h
  exact ⟨h1, h2, h3, h4, h5, h6, h7, h8.sublist hW, fun i hi => h9 i (hW.subset hi)⟩

theorem mem_filter_ne {i j : Slot} {L : List Slot} : j ∈ L.filter (· ≠ i) ↔ j ∈ L ∧ i ≠ j := by
  rw [List.mem_filter, decide_eq_true_eq]; exact and_congr_right fun _ => ⟨Ne.symm, Ne.symm⟩

theorem II_drop {q R W} (h : II q R W) (i : Slot) :
   II { slots := vput q.slots i none, arrival := q.arrival.filter (· ≠ i), answerOrder := q.answerOrder.filter (· ≠ i) } (R.filter (· ≠ i)) (W.filter (· ≠ i)) := by
  obtain ⟨h1, h2, h3, h4, h5, h6, h7, h8, h9⟩ := h
  refine ⟨h1.filter _, ?_, h3.filter _, ?_, ?_, h6.filter _, ?_, h8.filter _, ?_⟩ <;> (try simp only [vput_at, mem_filter_ne])
  · intro j; split
    · simp [*]
    · rename_i hj; simp only [h2, hj, not_false_eq_true, ne_eq, and_true]
  · intro j; split
    · simp [*]
    · rename_i hj; simp only [h4, hj, not_false_eq_true, ne_eq, and_true]
  · intro j e hj; rw [if_neg hj.2]; exact h5 j e hj.1
  · intro j; split
    · simp [*]
    · rename_i hj; simp only [h7, hj, not_false_eq_true, ne_eq, and_true]
  · intro j hj; rw [if_neg hj.2]; exact h9 j hj.1

theorem filter_ne_of_not_mem {i : Slot} {L : List Slot} (h : i ∉ L) : L.filter (· ≠ i) = L := by
  rw [List.filter_eq_self]; intro j hj; simp; rintro rfl; exact h hj

/-- a slot in WAITING or EXECUTING answered -/

theorem II_answer {q R W} (h : II q R W) (i : Slot) (e : SlotEntry) (a : Answer) (hi : q.slots[i] = some e) (he : e.state = .executing ∨ ∃ d, e.state = .waiting d) :
   II { slots := vput q.slots i (some { e with state := .answered a }), arrival := q.arrival, answerOrder := q.answerOrder ++ [i] } (R.filter (· ≠ i)) W := by
  obtain ⟨h1, h2, h3, h4, h5, h6, h7, h8, h9⟩ := h
  have hno : i ∉ q.answerOrder := by
    rw [← h7]; rintro ⟨e', a', h, h'⟩; rw [hi] at h; cases h; rcases he with he | ⟨d, he⟩ <;> rw [he] at h' <;> cases h'
  have hnw : i ∉ W := by
    intro hw; obtain ⟨e', a', h, h'⟩ := h9 i hw; rw [hi] at h; cases h; rcases he with he | ⟨d, he⟩ <;> rw [he] at h' <;> cases h'
  refine ⟨h1, ?_, h3.filter _, ?_, ?_, ?_, ?_, h8, ?_⟩ <;> (try simp only [vput_at, mem_filter_ne])
  · intro j; split
    · rename_i hj; subst hj; rw [← h2, hi]; simp
    · exact h2 j
  · intro j; split
    · rename_i hj; subst hj; simp
    · rename_i hj; simp only [h4, hj, not_false_eq_true, ne_eq, and_true]
  · intro j e hj; rw [if_neg hj.2]; exact h5 j e hj.1
  · rw [List.nodup_append]; exact ⟨h6, by simp, by rintro x hx y hy rfl; simp at hy; subst hy; exact hno hx⟩
  · intro j; rw [List.mem_append, List.mem_singleton]; split
    · rename_i hj; subst hj; simp
    · rename_i hj; simp only [h7, Ne.symm hj, or_false]
  · intro j hj; rw [if_neg]
    · exact h9 j hj
    · rintro rfl; exact hnw hj

/-- a new entry -/

theorem II_new {q R W} (h : II q R W) (i : Slot) (e : SlotEntry) (hi : q.slots[i] = none) (hk : e.req.kind.isQueued = true) (hd : ∃ d, e.state = .waiting d) :
   II { slots := vput q.slots i (some e), arrival := q.arrival ++ [i], answerOrder := q.answerOrder } (R ++ [i]) W := by
  obtain ⟨h1, h2, h3, h4, h5, h6, h7, h8, h9⟩ := h
  have hna : i ∉ q.arrival := by rw [← h2, hi]; simp
  have hnr : i ∉ R := by rw [← h4, hi]; simp
  have hno : i ∉ q.answerOrder := by rw [← h7, hi]; simp
  have hnw : i ∉ W := by intro hw; obtain ⟨e', a', h, h'⟩ := h9 i hw; rw [hi] at h; cases h
  obtain ⟨d, hd⟩ := hd
  refine ⟨?_, ?_, ?_, ?_, ?_, h6, ?_, h8, ?_⟩ <;> (try simp only [vput_at])
  · rw [List.nodup_append]; exact ⟨h1, by simp, by rintro x hx y hy rfl; simp at hy; subst hy; exact hna hx⟩
  · intro j; rw [List.mem_append, List.mem_singleton]; split
    · rename_i hj; subst hj; simp
    · rename_i hj; simp only [h2, Ne.symm hj, or_false]
  · rw [List.nodup_append]; exact ⟨h3, by simp, by rintro x hx y hy rfl; simp at hy; subst hy; exact hnr hx⟩
  · intro j; rw [List.mem_append, List.mem_singleton]; split
    · rename_i hj; subst hj; simp [hd]
    · rename_i hj; simp only [h4, Ne.symm hj, or_false]
  · intro j e' hj; split
    · intro e2; cases e2; exact hk
    · rename_i hj2; apply h5
      rcases List.mem_append.1 hj with h | h
      · exact h
      · simp at h; exact absurd h.symm hj2
  · intro j; split
    · rename_i hj; subst hj; simp [hd, hno]
    · exact h7 j
  · intro j hj; rw [if_neg]
    · exact h9 j hj
    · rintro rfl; exact hnw hj

/-- a new entry answered at once -/

theorem II_newAnswered {q R W} (h : II q R W) (i : Slot) (e : SlotEntry) (a : Answer) (hi : q.slots[i] = none) :
   II { slots := vput q.slots i (some { e with state := .answered a }), arrival := q.arrival ++ [i], answerOrder := q.answerOrder ++ [i] } R W := by
  obtain ⟨h1, h2, h3, h4, h5, h6, h7, h8, h9⟩ := h
  have hna : i ∉ q.arrival := by rw [← h2, hi]; simp
  have hnr : i ∉ R := by rw [← h4, hi]; simp
  have hno : i ∉ q.answerOrder := by rw [← h7, hi]; simp
  have hnw : i ∉ W := by intro hw; obtain ⟨e', a', h, h'⟩ := h9 i hw; rw [hi] at h; cases h
  refine ⟨?_, ?_, h3, ?_, ?_, ?_, ?_, h8, ?_⟩ <;> (try simp only [vput_at])
  · rw [List.nodup_append]; exact ⟨h1, by simp, by rintro x hx y hy rfl; simp at hy; subst hy; exact hna hx⟩
  · intro j; rw [List.mem_append, List.mem_singleton]; split
    · rename_i hj; subst hj; simp
    · rename_i hj; simp only [h2, Ne.symm hj, or_false]
  · intro j; split
    · rename_i hj; subst hj; simp [hnr]
    · exact h4 j
  · intro j e' hj; rw [if_neg]
    · exact h5 j e' hj
    · rintro rfl; exact hnr hj
  · rw [List.nodup_append]; exact ⟨h6, by simp, by rintro x hx y hy rfl; simp at hy; subst hy; exact hno hx⟩
  · intro j; rw [List.mem_append, List.mem_singleton]; split
    · rename_i hj; subst hj; simp
    · rename_i hj; simp only [h7, Ne.symm hj, or_false]
  · intro j hj; rw [if_neg]
    · exact h9 j hj
    · rintro rfl; exact hnw hj

theorem II_executing {q R W} (h : II q R W) (i : Slot) (e : SlotEntry) (hi : q.slots[i] = some e) (hR : i ∈ R) :
   II { slots := vput q.slots i (some { e with state := .executing }), arrival := q.arrival, answerOrder := q.answerOrder } (R.filter (· ≠ i)) W := by
  obtain ⟨h1, h2, h3, h4, h5, h6, h7, h8, h9⟩ := h
  obtain ⟨e', d, he, hd⟩ := (h4 i).2 hR
  rw [hi] at he; cases he
  have hno : i ∉ q.answerOrder := by rw [← h7, hi]; simp [hd]
  have hnw : i ∉ W := by intro hw; obtain ⟨e', a', h, h'⟩ := h9 i hw; rw [hi] at h; cases h; rw [hd] at h'; cases h'
  refine ⟨h1, ?_, h3.filter _, ?_, ?_, h6, ?_, h8, ?_⟩ <;> (try simp only [vput_at, mem_filter_ne])
  · intro j; split
    · rename_i hj; subst hj; rw [← h2, hi]; simp
    · exact h2 j
  · intro j; split
    · rename_i hj; subst hj; simp
    · rename_i hj; simp only [h4, hj, not_false_eq_true, ne_eq, and_true]
  · intro j e hj; rw [if_neg hj.2]; exact h5 j e hj.1
  · intro j; split
    · rename_i hj; subst hj; simp [hno]
    · exact h7 j
  · intro j hj; rw [if_neg]
    · exact h9 j hj
    · rintro rfl; exact hnw hj

theorem II_sent {q R W} (h : II q R W) (i : Slot) (e : SlotEntry) (a : Answer) (hi : q.slots[i] = some e) (ha : e.state = .answered a) :
   II { slots := vput q.slots i (some { e with state := .sent a }), arrival := q.arrival, answerOrder := q.answerOrder.filter (· ≠ i) } R (W ++ [i]) := by
  obtain ⟨h1, h2, h3, h4, h5, h6, h7, h8, h9⟩ := h
  have hnr : i ∉ R := by rw [← h4, hi]; simp [ha]
  have hnw : i ∉ W := by intro hw; obtain ⟨e', a', h, h'⟩ := h9 i hw; rw [hi] at h; cases h; rw [ha] at h'; cases h'
  refine ⟨h1, ?_, h3, ?_, ?_, h6.filter _, ?_, ?_, ?_⟩ <;> (try simp only [vput_at, mem_filter_ne])
  · intro j; split
    · rename_i hj; subst hj; rw [← h2, hi]; simp
    · exact h2 j
  · intro j; split
    · rename_i hj; subst hj; simp [hnr]
    · exact h4 j
  · intro j e' hj; rw [if_neg]
    · exact h5 j e' hj
    · rintro rfl; exact hnr hj
  · intro j; split
    · rename_i hj; subst hj; simp
    · rename_i hj; simp only [h7, hj, not_false_eq_true, ne_eq, and_true]
  · rw [List.nodup_append]; exact ⟨h8, by simp, by rintro x hx y hy rfl; simp at hy; subst hy; exact hnw hx⟩
  · intro j hj; split
    · rename_i hj2; subst hj2; exact ⟨_, a, rfl, rfl⟩
    · rename_i hj2
      rcases List.mem_append.1 hj with h | h
      · exact h9 j h
      · simp at h; exact absurd h.symm hj2

/-- entries lost or set aside -/

theorem II_keep {q R W} (h : II q R W) (f : SlotEntry → Option SlotEntry) (hf : ∀ e x, f e = some x → x.state = .detached) (q' : IncomingQueue)
  (hs : q'.slots = vtab fun i => q.slots[i].bind f) (ha : q'.arrival = q.arrival.filter fun i => (q.slots[i].bind f).isSome) (ho : q'.answerOrder = []) : II q' [] [] := by
  obtain ⟨h1, h2, h3, h4, h5, h6, h7, h8, h9⟩ := h
  have hx : ∀ (i : Slot) e, (q.slots[i].bind f) = some e → e.state = .detached := by
    intro i e he
    cases hq : q.slots[i] with
    | none => rw [hq] at he; cases he
    | some x => rw [hq] at he; exact hf x e he
  refine ⟨?_, ?_, by simp, ?_, by simp, by simp [ho], ?_, by simp, by simp⟩
  · rw [ha]; exact h1.filter _
  · intro i; rw [hs, ha, vtab_at, List.mem_filter, ← h2]
    constructor
    · intro x; refine ⟨?_, x⟩
      cases hq : q.slots[i] with
      | none => rw [hq] at x; cases x
      | some y => rfl
    · exact fun x => x.2
  · intro i; rw [hs, vtab_at]; simp only [List.not_mem_nil, iff_false]
    rintro ⟨e, d, he, hd⟩
    rw [hx i e he] at hd; cases hd
  · intro i; rw [hs, vtab_at, ho]; simp only [List.not_mem_nil, iff_false]
    rintro ⟨e, d, he, hd⟩
    rw [hx i e he] at hd; cases hd

theorem incomingInv_of {s : State} (q R W) (h : II q R W) (e1 : s.iq = q) (e2 : s.da.remoteList = R) (e3 : s.fe.window.filterMap (·.slot) = W) : IncomingInv s := by
  rw [ii_def, e1, e2, e3]; exact h

theorem incomingInv_plain (s u : State) (h : IncomingInv s) (e1 : u.iq = s.iq) (e2 : u.da.remoteList = s.da.remoteList) (e3 : (u.fe.window.filterMap (·.slot)).Sublist (s.fe.window.filterMap (·.slot))) : IncomingInv u := by
  rw [ii_def, e1, e2]; exact II_win h _ e3

theorem II_answerSlot (i a) (s : State) (L : List Slot) (h : II s.iq L (s.fe.window.filterMap (·.slot))) (hL : s.da.remoteList = L.filter (· ≠ i)) : IncomingInv (answerSlot i a s) := by
  have hno : (∀ e d, s.iq.slots[i] = some e → e.state ≠ .waiting d) → IncomingInv s := by
    intro hh
    rw [ii_def, hL, filter_ne_of_not_mem]
    · exact h
    · rw [← h.2.2.2.1 i]; rintro ⟨e, d, h1, h2⟩; exact hh e d h1 h2
  unfold answerSlot
  split
  · rename_i e he
    split
    · rename_i d hd
      exact incomingInv_of _ _ _ (II_answer h i e a he (Or.inr ⟨d, hd⟩)) rfl hL rfl
    · rename_i hd
      exact incomingInv_of _ _ _ (II_answer h i e a he (Or.inl hd)) rfl hL rfl
    all_goals
      apply hno; intro e' d he' hd; rw [he] at he'; cases he'; simp_all
  · rename_i he
    apply hno; intro e d he'; rw [he] at he'; cases he'

theorem incomingInv_answerSlot (i a) (s : State) (hi : i ∉ s.da.remoteList) (h : IncomingInv s) : IncomingInv (answerSlot i a s) :=
  II_answerSlot i a s s.da.remoteList h (filter_ne_of_not_mem hi).symm

theorem filter_head {i : Slot} {rest : List Slot} (h : (i :: rest).Nodup) : rest = (i :: rest).filter (· ≠ i) := by
  rw [List.nodup_cons] at h
  rw [List.filter_cons]; simp only [ne_eq, not_true_eq_false, decide_false, Bool.false_eq_true, if_false]
  exact (filter_ne_of_not_mem h.1).symm

theorem incomingInv_serveRemote (s : State) (i : Slot) (rest : List Slot) (tn : Origin) (h : IncomingInv s) (hl : s.da.remoteList = i :: rest) :
   IncomingInv (serveRemote i { s with da.remoteList := rest, da.turn := tn }) := by
  have h' : II s.iq (i :: rest) (s.fe.window.filterMap (·.slot)) := by rw [← hl]; exact h
  have hn := h'.2.2.1
  have hr := filter_head hn
  obtain ⟨e, d, he, hd⟩ := (h'.2.2.2.1 i).2 (by simp)
  unfold serveRemote
  simp only [he]
  split
  · exact II_answerSlot _ _ _ (i :: rest) h' hr
  split
  · exact II_answerSlot _ _ _ (i :: rest) h' hr
  split
  · exact II_answerSlot _ _ _ (i :: rest) h' hr
  · exact incomingInv_of _ _ _ (II_executing h' i e he (by simp)) rfl hr rfl

theorem incomingInv_serveHead (o) (s : State) (h : IncomingInv s) : IncomingInv (serveHead o s) := by
  unfold serveHead
  cases o
  · simp only; split
    · exact h
    · simpa [IncomingInv] using h
  · simp only; split
    · exact h
    · rename_i t rest hl
      exact incomingInv_serveRemote s t rest _ h hl

theorem not_waiting {s : State} {i : Slot} (h : IncomingInv s) {e} (he : s.iq.slots[i] = some e) (hd : ∀ d, e.state ≠ .waiting d) : i ∉ s.da.remoteList := by
  rw [← h.2.2.2.1 i]; rintro ⟨e', d, h1, h2⟩; rw [he] at h1; cases h1; exact hd d h2

theorem incomingInv_routeResult (r a) (s : State) (h : IncomingInv s) : IncomingInv (routeResult r a s) := by
  unfold routeResult
  split
  · split
    · simpa [IncomingInv] using h
    · exact h
  · split
    · exact h
    · rename_i i _ e he
      split
      · rename_i hs; exact incomingInv_answerSlot _ _ _ (not_waiting h he (by rw [hs]; simp)) h
      · rename_i hs
        refine incomingInv_of _ _ _ (II_drop h i) rfl ?_ ?_
        · exact (filter_ne_of_not_mem (not_waiting h he (by rw [hs]; simp))).symm
        · symm; apply filter_ne_of_not_mem
          intro hw; obtain ⟨e', a', h1, h2⟩ := h.2.2.2.2.2.2.2.2 i hw
          rw [he] at h1; cases h1; rw [hs] at h2; cases h2
      all_goals exact h

theorem answerSlot_iq (i a) (s u : State) (h : u.iq = s.iq) : (answerSlot i a u).iq = (answerSlot i a s).iq := by
  unfold answerSlot; rw [h]; split
  · split <;> simp [h]
  · exact h

theorem incomingInv_faultPurge (s : State) (h : IncomingInv s) : IncomingInv (faultPurge s) := by
  unfold faultPurge
  dsimp only
  have key : ∀ (is : List Slot) (u : State), is.Nodup → (∀ i ∈ is, i ∉ u.da.remoteList) →
      II u.iq (u.da.remoteList ++ is) (u.fe.window.filterMap (·.slot)) → IncomingInv (is.foldl (fun s i => answerSlot i (bare .busFaulted) s) u) := by
    intro is
    induction is with
    | nil => intro u _ _ h; rw [List.append_nil] at h; exact h
    | cons i is ih =>
      intro u hn hd hi
      rw [List.nodup_cons] at hn
      rw [List.foldl_cons]
      apply ih _ hn.2
      · intro x hx; simpa using hd x (List.mem_cons_of_mem _ hx)
      · have hfil : u.da.remoteList ++ is = (u.da.remoteList ++ i :: is).filter (· ≠ i) := by
          simp only [List.filter_append, List.filter_cons, ne_eq, not_true_eq_false, decide_false, Bool.false_eq_true, if_false]
          rw [filter_ne_of_not_mem (hd i (by simp)), filter_ne_of_not_mem hn.1]
        have := II_answerSlot i (bare .busFaulted) { u with da.remoteList := u.da.remoteList ++ is } (u.da.remoteList ++ i :: is) hi hfil
        have e : (answerSlot i (bare .busFaulted) { u with da.remoteList := u.da.remoteList ++ is }).iq = (answerSlot i (bare .busFaulted) u).iq := answerSlot_iq _ _ _ _ rfl
        rw [ii_def, e] at this
        simpa using this
  apply key _ _ (h.2.2.1.filter _)
  · intro i hi; simp [(List.mem_filter.1 hi).2]
  · have hp : (s.da.remoteList.filter (fun t => !remoteTransfer s t) ++ s.da.remoteList.filter (remoteTransfer s)).Perm s.da.remoteList :=
      (List.perm_append_comm).trans (List.filter_append_perm (remoteTransfer s) s.da.remoteList)
    show II _ _ _
    have := II_ext h (s.da.remoteList.filter (fun t => !remoteTransfer s t) ++ s.da.remoteList.filter (remoteTransfer s)) (hp.nodup_iff.2 h.2.2.1) (fun i => hp.mem_iff)
    simp only [completeAll_frame]; exact this

theorem incomingInv_withdrawSlot (i st) (s : State) (h : IncomingInv s) : IncomingInv (withdrawSlot i st s) := by
  unfold withdrawSlot
  exact II_answerSlot i _ _ s.da.remoteList h rfl

theorem incomingInv_takeCancel (p) (s : State) (h : IncomingInv s) : IncomingInv (takeCancel p s) := by
  unfold takeCancel; (repeat' split) <;> first | exact h | exact incomingInv_withdrawSlot _ _ _ h

theorem incomingInv_remoteDeadlineExpiry (i) (s : State) (h : IncomingInv s) : IncomingInv (remoteDeadlineExpiry i s) := by
  unfold remoteDeadlineExpiry; split
  · exact h
  · exact incomingInv_withdrawSlot _ _ _ h

theorem slotDue_iff (s : State) (i : Slot) : (slotDue s i).isSome = true ↔ ∃ e d, s.iq.slots[i] = some e ∧ e.state = .waiting d := by
  unfold slotDue
  cases hs : s.iq.slots[i] with
  | none => simp
  | some e => obtain ⟨t, g, r, st⟩ := e; cases st <;> simp

theorem II_dropFold (is : List Slot) (s : State) (R W : List Slot) (hn : is.Nodup)
   (h : II s.iq R W) : II (is.foldl (fun s i => freeWithCredit i s) s).iq (R.filter fun j => decide (j ∉ is)) (W.filter fun j => decide (j ∉ is)) := by
  induction is generalizing s R W with
  | nil => simp only [List.foldl_nil, List.not_mem_nil, not_false_eq_true, decide_true]; rw [List.filter_eq_self.2 (by simp), List.filter_eq_self.2 (by simp)]; exact h
  | cons i is ih =>
    rw [List.nodup_cons] at hn
    have := ih (freeWithCredit i s) _ _ hn.2 (II_drop h i)
    simp only [List.filter_filter] at this
    rw [List.foldl_cons]
    have e : (fun j : Slot => decide (j ∉ i :: is)) = fun j => (decide (j ∉ is) && decide (j ≠ i)) := by
      funext j; rw [Bool.eq_iff_iff]; simp [List.mem_cons, not_or, and_comm]
    rw [e]; exact this

theorem dropFold_frame (is : List Slot) (s : State) : (is.foldl (fun s i => freeWithCredit i s) s).da = s.da ∧ (is.foldl (fun s i => freeWithCredit i s) s).fe.window = s.fe.window := by
  induction is generalizing s with
  | nil => simp
  | cons i is ih => rw [List.foldl_cons]; have := ih (freeWithCredit i s); simpa [freeWithCredit, dropSlot] using this

theorem incomingInv_dropWaiting (s : State) (h : IncomingInv s) : IncomingInv (dropWaiting s) := by
  unfold dropWaiting
  have hn : ((List.finRange 8).filter fun i => (slotDue s i).isSome).Nodup := (List.nodup_finRange 8).filter _
  have := II_dropFold _ { s with da.remoteList := [] } s.da.remoteList (s.fe.window.filterMap (·.slot)) hn ((ii_def s).1 h)
  refine incomingInv_of _ _ _ this rfl ?_ ?_
  · rw [(dropFold_frame _ _).1]
    symm; rw [List.filter_eq_nil_iff]
    intro j hj; have := (slotDue_iff s j).2 ((h.2.2.2.1 j).2 hj); simp only [List.mem_filter, List.mem_finRange, true_and, this, not_true_eq_false, decide_false, Bool.false_eq_true, not_false_eq_true]
  · rw [(dropFold_frame _ _).2]
    symm; rw [List.filter_eq_self]
    intro j hj
    obtain ⟨e, a, h1, h2⟩ := h.2.2.2.2.2.2.2.2 j hj
    have hno : ¬ (slotDue s j).isSome = true := by rw [slotDue_iff]; rintro ⟨e', d, h3, h4⟩; rw [h1] at h3; cases h3; rw [h2] at h4; cases h4
    simp [List.mem_filter, hno]

theorem incomingInv_takeAck (q) (s : State) (h : IncomingInv s) : IncomingInv (takeAck q s) := by
  unfold takeAck
  split
  · exact h
  · rename_i n hn
    have hsp : s.fe.window.filterMap (·.slot) = (s.fe.window.take (n+1)).filterMap (·.slot) ++ (s.fe.window.drop (n+1)).filterMap (·.slot) := by
      rw [← List.filterMap_append, List.take_append_drop]
    have hnd := h.2.2.2.2.2.2.2.1
    rw [hsp, List.nodup_append] at hnd
    dsimp only
    have := II_dropFold ((s.fe.window.take (n+1)).filterMap (·.slot)) { s with
      fe.window := s.fe.window.drop (n+1), fe.goBack := s.fe.goBack.filter fun q => (s.fe.window.drop (n+1)).any fun f => decide (f.seq = q), fe.progress := true, fe.stall := 0 } s.da.remoteList (s.fe.window.filterMap (·.slot)) hnd.1 ((ii_def s).1 h)
    refine incomingInv_of _ _ _ this rfl ?_ ?_
    · rw [(dropFold_frame _ _).1]
      symm; rw [List.filter_eq_self]
      intro j hj
      obtain ⟨e, d, h1, h2⟩ := (h.2.2.2.1 j).2 hj
      rw [decide_eq_true_eq]
      intro hm
      obtain ⟨e', a, h3, h4⟩ := h.2.2.2.2.2.2.2.2 j (by rw [hsp]; exact List.mem_append_left _ hm)
      rw [h1] at h3; cases h3; rw [h2] at h4; cases h4
    · rw [(dropFold_frame _ _).2]
      show (s.fe.window.drop (n+1)).filterMap (·.slot) = _
      rw [hsp, List.filter_append]
      rw [List.filter_eq_nil_iff.2, List.nil_append, List.filter_eq_self.2]
      · intro j hj; rw [decide_eq_true_eq]; intro hm; exact hnd.2.2 j hm j hj rfl
      · intro j hj; simp only [decide_not, hj, decide_true, Bool.not_true, Bool.false_eq_true, not_false_eq_true]

theorem incomingInv_takeHeader (hd) (s : State) (h : IncomingInv s) : IncomingInv (takeHeader hd s) := by
  have h1 := incomingInv_takeAck hd.ack s h
  have h2 : IncomingInv (takeReady hd.hostReady (takeReturn hd.ret (takeAck hd.ack s))) := by
    simp only [IncomingInv, takeReady_frame, takeReturn_frame] at h1 ⊢; exact h1
  unfold takeHeader; dsimp only; split
  · exact h2
  · exact h2

theorem II_freeDetached (s : State) (R W) (h : II s.iq R W) : II (freeDetached s).iq R W := by
  obtain ⟨h1, h2, h3, h4, h5, h6, h7, h8, h9⟩ := h
  have hx : ∀ (i : Slot) e, (freeDetached s).iq.slots[i] = some e ↔ s.iq.slots[i] = some e ∧ e.state ≠ .detached := by
    intro i e
    simp only [freeDetached, vtab_at]
    cases hs : s.iq.slots[i] with
    | none => simp
    | some x =>
      simp only [Option.bind_some]
      split
      · rename_i hd; simp; rintro rfl; exact hd
      · rename_i hd; simp; rintro rfl; exact hd
  refine ⟨h1.filter _, ?_, h3, ?_, ?_, h6, ?_, h8, ?_⟩
  · intro i
    simp only [freeDetached, vtab_at, List.mem_filter, ← h2]
    constructor
    · intro x; refine ⟨?_, x⟩
      cases hq : s.iq.slots[i] with
      | none => rw [hq] at x; cases x
      | some y => rfl
    · exact fun x => x.2
  · intro i; rw [← h4]
    constructor
    · rintro ⟨e, d, a, b⟩; exact ⟨e, d, ((hx i e).1 a).1, b⟩
    · rintro ⟨e, d, a, b⟩; exact ⟨e, d, (hx i e).2 ⟨a, by rw [b]; simp⟩, b⟩
  · intro i e hi he; exact h5 i e hi ((hx i e).1 he).1
  · intro i; show _ ↔ i ∈ s.iq.answerOrder; rw [← h7]
    constructor
    · rintro ⟨e, d, a, b⟩; exact ⟨e, d, ((hx i e).1 a).1, b⟩
    · rintro ⟨e, d, a, b⟩; exact ⟨e, d, (hx i e).2 ⟨a, by rw [b]; simp⟩, b⟩
  · intro i hi
    obtain ⟨e, d, a, b⟩ := h9 i hi
    exact ⟨e, d, (hx i e).2 ⟨a, by rw [b]; simp⟩, b⟩

theorem noteSend_window (b s) : (noteSend b s).fe.window = s.fe.window := by
  unfold noteSend goBack; dsimp only; (repeat' split) <;> rfl

theorem pushFrame_window (k p i s) : (pushFrame k p i s).fe.window = s.fe.window ++ [⟨k, s.fe.txSeq, p, 1, i⟩] := by
  unfold pushFrame
  dsimp only
  rw [noteSend_window]; rfl

theorem buildIdle_window (s) : (buildIdle s).fe.window = s.fe.window := by unfold buildIdle; rw [noteSend_window]; rfl

theorem pushFrame_iq (k p i s) : (pushFrame k p i s).iq = s.iq ∧ (pushFrame k p i s).da = s.da := by simp

theorem resend_window (f rest s) : (resendFrame f rest s).fe.window.filterMap (·.slot) = s.fe.window.filterMap (·.slot) := by
  have : (resendFrame f rest s).fe.window = s.fe.window.map fun g => if g.seq = f.seq then { g with sends := g.sends + 1 } else g := by
    unfold resendFrame
    dsimp only
    rw [noteSend_window]; rfl
  rw [this, List.filterMap_map]
  congr 1; funext g; simp only [Function.comp]; split <;> rfl

theorem incomingInv_pushFrame (k p) (s : State) (h : IncomingInv s) : IncomingInv (pushFrame k p none s) := by
  refine incomingInv_plain s _ h (by simp) (by simp) ?_
  rw [pushFrame_window]; simp

theorem incomingInv_selectLoop (n) (s : State) (h : IncomingInv s) : IncomingInv (selectLoop n s) := by
  induction n generalizing s with
  | zero => exact h
  | succ n ih =>
    unfold selectLoop
    (repeat' split) <;> first | exact h | exact ih _ (incomingInv_serveHead _ _ h)

theorem incomingInv_select (s : State) (h : IncomingInv s) : IncomingInv (select s) := incomingInv_selectLoop _ _ h

theorem incomingInv_endWork (a c) (s : State) (h : IncomingInv s) : IncomingInv (endWork a c s) := by
  apply endWork_keep IncomingInv incomingInv_select incomingInv_faultPurge
  · intro s c h; simpa [IncomingInv] using h
  · have : IncomingInv (returned a s) := by
      unfold returned; split
      · exact incomingInv_routeResult _ _ _ h
      · exact h
    exact this

theorem incomingInv_transactionEnd (a r) (s : State) (h : IncomingInv s) : IncomingInv (transactionEnd a r s) := by
  unfold transactionEnd
  split
  · exact incomingInv_endWork _ _ _ h
  · exact h

theorem incomingInv_endRecovery (c) (s : State) (h : IncomingInv s) : IncomingInv (endRecovery c s) := by
  unfold endRecovery
  split
  · exact incomingInv_endWork _ _ _ h
  · exact h

theorem incomingInv_stretchLimit (a r) (s : State) (h : IncomingInv s) : IncomingInv (stretchLimit a r s) := by
  unfold stretchLimit
  dsimp only
  (repeat' split) <;> first | exact h | exact incomingInv_endRecovery _ (s.reach _) h

theorem incomingInv_recoveryEnd (x) (s : State) (h : IncomingInv s) : IncomingInv (recoveryEnd x s) := by
  unfold recoveryEnd
  split
  · exact incomingInv_endRecovery _ _ h
  · exact h

theorem incomingInv_leaseExpiry (s : State) (h : IncomingInv s) : IncomingInv (leaseExpiry s) := by
  unfold leaseExpiry
  split
  · exact h
  · apply incomingInv_select; simpa [IncomingInv] using h

theorem incomingInv_setPolicy (p) (s : State) (h : IncomingInv s) : IncomingInv (setPolicy p s) := by
  unfold setPolicy
  (repeat' split) <;> first | exact h | (apply incomingInv_select; simpa [IncomingInv] using h)

theorem incomingInv_completeOwner (a) (s : State) (h : IncomingInv s) : IncomingInv (completeOwner a s) := by simpa [IncomingInv] using h

theorem incomingInv_endTest  (s : State) (h : IncomingInv s) : IncomingInv (endTest s) := by simpa [IncomingInv] using h

theorem incomingInv_drainLimit  (s : State) (h : IncomingInv s) : IncomingInv (drainLimit s) := by simpa [IncomingInv] using h

theorem incomingInv_becomeNonOwner (p) (s : State) (h : IncomingInv s) : IncomingInv (becomeNonOwner p s) := by simpa [IncomingInv] using h

theorem incomingInv_takeTestEnter (p) (s : State) (h : IncomingInv s) : IncomingInv (takeTestEnter p s) := by simpa [IncomingInv] using h

theorem incomingInv_takeTestReady  (s : State) (h : IncomingInv s) : IncomingInv (takeTestReady s) := by simpa [IncomingInv] using h

theorem incomingInv_takeTestGo  (s : State) (h : IncomingInv s) : IncomingInv (takeTestGo s) := by simpa [IncomingInv] using h

theorem incomingInv_enterTest  (s : State) (h : IncomingInv s) : IncomingInv (enterTest s) := by simpa [IncomingInv] using h

theorem incomingInv_goAcknowledged  (s : State) (h : IncomingInv s) : IncomingInv (goAcknowledged s) := by simpa [IncomingInv] using h

theorem incomingInv_takeSymbol (d st) (s : State) (h : IncomingInv s) : IncomingInv (takeSymbol d st s) := by simpa [IncomingInv] using h

theorem incomingInv_takeSymbols (bs) (s : State) (h : IncomingInv s) : IncomingInv (takeSymbols bs s) := by simpa [IncomingInv] using h

theorem incomingInv_leaveTest (r) (s : State) (h : IncomingInv s) : IncomingInv (leaveTest r s) := by simpa [IncomingInv] using h

theorem incomingInv_testDuration  (s : State) (h : IncomingInv s) : IncomingInv (testDuration s) := by simpa [IncomingInv] using h

theorem incomingInv_checkerDuration  (s : State) (h : IncomingInv s) : IncomingInv (checkerDuration s) := by simpa [IncomingInv] using h

theorem incomingInv_patternLost  (s : State) (h : IncomingInv s) : IncomingInv (patternLost s) := by simpa [IncomingInv] using h

theorem incomingInv_patternStart  (s : State) (h : IncomingInv s) : IncomingInv (patternStart s) := by simpa [IncomingInv] using h

theorem incomingInv_testStop  (s : State) (h : IncomingInv s) : IncomingInv (testStop s) := by simpa [IncomingInv] using h

theorem incomingInv_settleTest  (s : State) (h : IncomingInv s) : IncomingInv (settleTest s) := by simpa [IncomingInv] using h

theorem incomingInv_takeTestResult (p) (s : State) (h : IncomingInv s) : IncomingInv (takeTestResult p s) := by simpa [IncomingInv] using h

theorem incomingInv_resultLimit  (s : State) (h : IncomingInv s) : IncomingInv (resultLimit s) := by simpa [IncomingInv] using h

theorem incomingInv_testAtLoss  (s : State) (h : IncomingInv s) : IncomingInv (testAtLoss s) := by simpa [IncomingInv] using h

theorem incomingInv_requestsAtLoss  (s : State) (h : IncomingInv s) : IncomingInv (requestsAtLoss s) := by simpa [IncomingInv] using h

theorem incomingInv_loss (r) (s : State) (h : IncomingInv s) : IncomingInv (loss r s) := by
  unfold loss
  apply incomingInv_select
  have h1 : IncomingInv (requestsAtLoss s) := by simpa [IncomingInv] using h
  have : II (incomingAtLoss (requestsAtLoss s)).iq [] [] := by
    refine II_keep h1 slotAtLoss ?_ _ rfl rfl rfl
    intro e x hx; unfold slotAtLoss at hx; split at hx <;> cases hx <;> rfl
  refine incomingInv_of _ _ _ this ?_ ?_ ?_
  · simp
  · simp [incomingAtLoss]
  · simp [enterHoldoff, quiet, engineAtLoss, FrameEngine.reset]

theorem incomingInv_enterRunFromHello (c) (s : State) (h : IncomingInv s) : IncomingInv (enterRunFromHello c s) := by
  have h1 := II_win (II_freeDetached s _ _ h) [] (List.nil_sublist _)
  refine incomingInv_of _ _ _ h1 ?_ ?_ ?_
  · unfold enterRunFromHello; dsimp only; split <;> simp
  · simp
  · unfold enterRunFromHello startRun engineAtRun FrameEngine.reset; dsimp only; split <;> simp

theorem incomingInv_enterRunFromRetrain (s : State) (h : IncomingInv s) : IncomingInv (enterRunFromRetrain s) := by
  unfold enterRunFromRetrain
  apply incomingInv_settleTest
  exact incomingInv_plain s _ h (by simp) (by simp) (List.nil_sublist _)

theorem incomingInv_setSpanOff (v) (s : State) (h : IncomingInv s) : IncomingInv (setSpanOff v s) := by
  unfold setSpanOff
  dsimp only
  (repeat' split) <;> first | exact h | exact incomingInv_loss _ _ h | simpa [IncomingInv] using h

theorem incomingInv_silenceLimit (s : State) (h : IncomingInv s) : IncomingInv (silenceLimit s) := by
  unfold silenceLimit; split
  · exact h
  · exact incomingInv_loss _ _ h

theorem incomingInv_retrainLimit (s : State) (h : IncomingInv s) : IncomingInv (retrainLimit s) := by
  unfold retrainLimit; split
  · exact h
  · exact incomingInv_loss _ _ h

theorem incomingInv_holdoffEnd (s : State) (h : IncomingInv s) : IncomingInv (holdoffEnd s) := by
  unfold holdoffEnd; dsimp only; (repeat' split) <;> first | exact h | (simpa [IncomingInv] using h)

theorem incomingInv_trainingInterval (s : State) (h : IncomingInv s) : IncomingInv (trainingInterval s) := by
  unfold trainingInterval; split <;> first | exact h | (simpa [IncomingInv] using h)

theorem incomingInv_helloInterval (s : State) (h : IncomingInv s) : IncomingInv (helloInterval s) := by
  unfold helloInterval; split <;> first | exact h | (simpa [IncomingInv] using h)

theorem incomingInv_helloLimit (s : State) (h : IncomingInv s) : IncomingInv (helloLimit s) := by
  unfold helloLimit; split <;> first | exact h | (simpa [IncomingInv] using h)

theorem incomingInv_buildReq (t) (s : State) (h : IncomingInv s) : IncomingInv (buildReq t s) := by
  unfold buildReq
  dsimp only
  apply incomingInv_pushFrame
  exact h

theorem incomingInv_buildRsp (i) (s : State) (h : IncomingInv s) : IncomingInv (buildRsp i s) := by
  unfold buildRsp
  split
  · rename_i e he
    split
    · rename_i a ha
      refine incomingInv_of _ _ _ (II_sent h i e a he ha) ?_ ?_ ?_
      · rw [(pushFrame_iq _ _ _ _).1]; rfl
      · rw [(pushFrame_iq _ _ _ _).2]; rfl
      · rw [pushFrame_window]; simp
    all_goals exact h
  · exact h

theorem incomingInv_buildFrame (k) (s : State) (h : IncomingInv s) : IncomingInv (buildFrame k s) := by
  unfold buildFrame
  split
  · apply incomingInv_pushFrame; exact h
  · split
    · apply incomingInv_pushFrame; exact h
    · exact h
  · apply incomingInv_pushFrame; exact h
  · apply incomingInv_pushFrame; exact h
  · split
    · exact incomingInv_buildRsp _ _ h
    · exact h
  · apply incomingInv_pushFrame; exact h
  · apply incomingInv_pushFrame; exact h
  · apply incomingInv_pushFrame; exact h
  · split
    · exact incomingInv_buildReq _ _ h
    · exact h
  · split
    · apply incomingInv_pushFrame; exact h
    · exact h
  all_goals
    refine incomingInv_plain s _ h (by simp) (by simp) ?_
    rw [buildIdle_window] <;> exact List.Sublist.refl _

theorem incomingInv_sendSelected (s : State) (h : IncomingInv s) : IncomingInv (sendSelected s) := by
  unfold sendSelected
  (repeat' split)
  · exact incomingInv_buildFrame _ s h
  · exact h
  · exact incomingInv_loss _ _ h
  · refine incomingInv_plain s _ h (by simp) (by simp) ?_
    rw [resend_window] <;> exact List.Sublist.refl _

theorem incomingInv_turnOpen (s : State) (h : IncomingInv s) : IncomingInv (turnOpen s) := by
  unfold turnOpen
  split
  · exact incomingInv_sendSelected _ h
  · exact h

theorem incomingInv_followerReply (s : State) (h : IncomingInv s) : IncomingInv (followerReply s) := by
  unfold followerReply
  dsimp only
  (repeat' split) <;> first | exact h | exact incomingInv_sendSelected _ h | simpa [IncomingInv] using h

theorem incomingInv_afterSend (s : State) (h : IncomingInv s) : IncomingInv (afterSend s) := by
  unfold afterSend
  split
  · exact incomingInv_enterTest _ h
  · exact h

theorem incomingInv_frameSent (s : State) (h : IncomingInv s) : IncomingInv (frameSent s) := by
  unfold frameSent
  dsimp only
  (repeat' split)
  · exact h
  · exact incomingInv_afterSend _ h
  · exact incomingInv_enterRunFromHello _ _ h
  · exact incomingInv_afterSend _ h

theorem incomingInv_missTurn (g) (s : State) (h : IncomingInv s) : IncomingInv (missTurn g s) := by
  unfold missTurn
  dsimp only
  split
  · exact incomingInv_loss _ _ h
  · exact h

theorem incomingInv_replyWindowEnd (s : State) (h : IncomingInv s) : IncomingInv (replyWindowEnd s) := by
  unfold replyWindowEnd
  dsimp only
  (repeat' split) <;> first | exact h | exact incomingInv_missTurn _ _ h

theorem incomingInv_badFrame (s : State) (h : IncomingInv s) : IncomingInv (badFrame s) := by
  unfold badFrame
  dsimp only
  (repeat' split) <;> first | exact h | exact incomingInv_missTurn _ _ h

theorem incomingInv_dropLease (o f) (s : State) (hf : ∀ st u, IncomingInv u → u.da.remoteList = s.da.remoteList → IncomingInv (f st u)) (h : IncomingInv s) : IncomingInv (dropLease o f s) := by
  have hl : IncomingInv (leaseDrop o s).2 := by simpa [IncomingInv] using h
  unfold dropLease
  dsimp only
  split
  · exact incomingInv_select _ (hf _ _ hl (by simp))
  · exact hf _ _ hl (by simp)

theorem carried_state {p r} (h : carriedRequest p = some r) : True := trivial

/-- an entry just made, answered -/

theorem answerNew (i a) (s u : State) (e : SlotEntry) (d) (h : IncomingInv s) (hi : s.iq.slots[i] = none) (he : e.state = .waiting d)
   (hu : u.iq = { slots := vput s.iq.slots i (some e), arrival := s.iq.arrival ++ [i], answerOrder := s.iq.answerOrder })
   (hr : u.da.remoteList = s.da.remoteList) (hw : u.fe.window = s.fe.window) : IncomingInv (answerSlot i a u) := by
  have hs : u.iq.slots[i] = some e := by rw [hu]; simp [vput_at]
  unfold answerSlot
  rw [hs]
  simp only [he]
  have := II_newAnswered h i e a hi
  refine incomingInv_of _ _ _ this ?_ hr (by rw [← hw])
  simp only [hu, vput_vput]

theorem incomingInv_takeReq (p) (s t : State) (h : IncomingInv s) (ht : takeReq p s = .next t) : IncomingInv t := by
  unfold takeReq at ht
  split at ht
  · cases ht
  · cases ht; exact h
  · rename_i i r hfs _
    have hi : s.iq.slots[i] = none := by
      have := List.find?_some hfs; simpa using this
    cases ht
    unfold handleReq
    have ans : ∀ a u, u.iq = { slots := vput s.iq.slots i (some ⟨p.getD 0 0, p.getD 1 0, r, .waiting (carriedDue s.now r)⟩), arrival := s.iq.arrival ++ [i], answerOrder := s.iq.answerOrder } →
       u.da.remoteList = s.da.remoteList → u.fe.window = s.fe.window → IncomingInv (answerSlot i a u) := fun a u h1 h2 h3 => answerNew i a s u _ _ h hi rfl h1 h2 h3
    split
    · exact ans _ _ rfl rfl rfl
    split
    · exact ans _ _ rfl rfl rfl
    split
    · exact ans _ _ rfl rfl rfl
    split
    · rename_i hq
      apply incomingInv_select
      exact incomingInv_of _ _ _ (II_new h i ⟨p.getD 0 0, p.getD 1 0, r, .waiting (carriedDue s.now r)⟩ hi hq ⟨_, rfl⟩) rfl rfl rfl
    · rename_i hts hq
      unfold runRemote
      dsimp only
      split
      iterate 5 (refine ans _ _ ?_ ?_ ?_ <;> simp [setSlot])
      · unfold dropLease
        dsimp only
        split
        · apply incomingInv_select
          refine ans _ _ ?_ ?_ ?_ <;> simp [setSlot]
        · refine ans _ _ ?_ ?_ ?_ <;> simp [setSlot]
      · refine ans _ _ ?_ ?_ ?_ <;> simp [setSlot]
      · simp_all [ReqKind.isQueued]
      · simp_all [ReqKind.isQueued]
      · simp_all [ReqKind.isQueued]
      · simp_all [ReqKind.isQueued]
      · simp_all

theorem incomingInv_takeRsp (p) (s : State) (h : IncomingInv s) : IncomingInv (takeRsp p s) := by simpa [IncomingInv] using h

theorem incomingInv_takeReleaseAll (s : State) (h : IncomingInv s) : IncomingInv (takeReleaseAll s) := by
  unfold takeReleaseAll
  apply incomingInv_select
  have := incomingInv_dropWaiting s h
  simpa [IncomingInv] using this

theorem incomingInv_deliver (k p) (s t : State) (h : IncomingInv s) (ht : deliver k p s = .next t) : IncomingInv t := by
  unfold deliver at ht
  split at ht <;> first | exact incomingInv_takeReq _ _ _ h ht | skip
  all_goals cases ht
  all_goals first | exact h | exact incomingInv_takeTestEnter _ _ h | exact incomingInv_takeTestReady _ h | exact incomingInv_takeTestGo _ h | exact incomingInv_takeTestResult _ _ h | exact incomingInv_takeRsp _ _ h | exact incomingInv_takeReleaseAll _ h | exact incomingInv_takeCancel _ _ h | simpa [IncomingInv] using h

theorem incomingInv_takeSequenced (k q p) (s t : State) (h : IncomingInv s) (ht : takeSequenced k q p s = .next t) : IncomingInv t := by
  unfold takeSequenced at ht
  split at ht <;> first | exact incomingInv_deliver _ _ { s with fe.expected := s.fe.expected + 1 } _ h ht | (cases ht; exact h)

theorem incomingInv_takeFrame (k hd p) (s t : State) (h : IncomingInv s) (ht : takeFrame k hd p s = .next t) : IncomingInv t := by
  unfold takeFrame at ht
  have h1 : IncomingInv (takeHeader hd s) := incomingInv_takeHeader _ _ h
  split at ht
  · cases ht; simpa [IncomingInv] using h
  · obtain ⟨u, hu, rfl⟩ := thenDo_next ht
    have hu' : IncomingInv u := by
      split at hu
      · exact incomingInv_takeSequenced _ _ _ _ _ h1 hu
      · cases hu; exact h1
    split
    · exact incomingInv_goAcknowledged _ hu'
    · exact hu'

theorem incomingInv_takeTrainAck (hd) (s : State) (h : IncomingInv s) : IncomingInv (takeTrainAck hd s) := by
  unfold takeTrainAck
  dsimp only
  (repeat' split) <;> first | exact h | exact incomingInv_enterRunFromRetrain _ h

theorem incomingInv_leaderHello (hd p) (s : State) (h : IncomingInv s) : IncomingInv (leaderHello hd p s) := by
  unfold leaderHello
  split
  · exact incomingInv_enterRunFromHello _ _ h
  · exact h

theorem incomingInv_takeReady (b) (s : State) (h : IncomingInv s) : IncomingInv (takeReady b s) := by simpa [IncomingInv] using h

theorem incomingInv_roleClash (s : State) (h : IncomingInv s) : IncomingInv (roleClash s) := by simpa [IncomingInv] using h

theorem incomingInv_leaderTakes (k hd p) (s t : State) (h : IncomingInv s) (ht : leaderTakes k hd p s = .next t) : IncomingInv t := by
  unfold leaderTakes at ht
  dsimp only at ht
  (repeat' split at ht) <;> first | (cases ht; first | exact h | exact incomingInv_roleClash _ h | exact incomingInv_takeTrainAck _ _ h | exact incomingInv_leaderHello _ _ _ h | exact incomingInv_takeReady _ _ h | exact incomingInv_takeTrainAck _ _ (incomingInv_takeReady _ _ h)) | exact incomingInv_takeFrame _ _ _ (turnAnswered k hd s) _ h ht

theorem incomingInv_followerHello (hd p) (s : State) (h : IncomingInv s) : IncomingInv (followerHello hd p s) := by
  unfold followerHello
  split <;> exact h

theorem incomingInv_followerTurn (k hd p) (s t : State) (h : IncomingInv s) (ht : followerTurn k hd p s = .next t) : IncomingInv t := by
  unfold followerTurn at ht
  split at ht
  · exact incomingInv_takeFrame _ _ _ _ _ h ht
  · exact incomingInv_takeFrame _ _ _ (restartSilence s) _ h ht
  · exact incomingInv_takeFrame _ _ _ (oweReply _ (restartSilence s)) _ h ht

theorem incomingInv_followerTakes (k hd p) (s t : State) (h : IncomingInv s) (ht : followerTakes k hd p s = .next t) : IncomingInv t := by
  unfold followerTakes at ht
  dsimp only at ht
  (repeat' split at ht) <;> first
    | (cases ht; first | exact h | exact incomingInv_followerHello _ _ _ h | exact incomingInv_followerHello _ _ (lock s) h | exact incomingInv_loss _ _ (incomingInv_takeReady _ _ h) | simpa [IncomingInv] using h)
    | exact incomingInv_followerTurn _ _ _ _ _ h ht | exact incomingInv_followerTurn _ _ _ _ _ (incomingInv_enterRunFromRetrain _ h) ht

theorem incomingInv_receive (k hd p) (s t : State) (h : IncomingInv s) (ht : receive k hd p s = .next t) : IncomingInv t := by
  unfold receive at ht
  (repeat' split at ht)
  · cases ht; exact h
  · cases ht; exact incomingInv_takeSymbols _ _ h
  · cases ht; exact incomingInv_badFrame _ h
  · exact incomingInv_leaderTakes _ _ _ _ _ h ht
  · exact incomingInv_followerTakes _ _ _ _ _ h ht

theorem incomingInv_receiveBad (raw) (s : State) (h : IncomingInv s) : IncomingInv (receiveBad raw s) := by
  unfold receiveBad
  (repeat' split)
  · exact h
  · exact incomingInv_takeSymbols _ _ h
  · exact incomingInv_badFrame _ h

theorem incomingInv_submitFar (t r) (s : State) (h : IncomingInv s) : IncomingInv (submitFar t r s) := by simpa [IncomingInv] using h

theorem incomingInv_startTest (t) (s : State) (h : IncomingInv s) : IncomingInv (startTest t s) := by simpa [IncomingInv] using h

theorem incomingInv_submitNear (t r) (s : State) (h : IncomingInv s) : IncomingInv (submitNear t r s) := by
  unfold submitNear
  dsimp only
  split
  iterate 4 (apply incomingInv_select; exact h)
  iterate 5 (simpa [IncomingInv] using h)
  · exact incomingInv_dropLease _ _ _ (fun st u hu _ => by simpa [IncomingInv] using hu) h
  · simpa [IncomingInv] using h
  · simpa [IncomingInv] using h

theorem incomingInv_submit (s : State) (h : IncomingInv s) : IncomingInv (submit s) := by
  unfold submit
  (repeat' split) <;> first | exact h | exact incomingInv_submitFar _ _ _ h | exact incomingInv_submitNear _ _ _ h

theorem incomingInv_cancelTag (t) (s : State) (h : IncomingInv s) : IncomingInv (cancelTag t s) := by simpa [IncomingInv] using h

theorem incomingInv_cancel (b) (s : State) (h : IncomingInv s) : IncomingInv (cancel b s) := by
  unfold cancel; split
  · exact incomingInv_cancelTag _ _ h
  · exact h

theorem incomingInv_deadlineExpiry (t) (s : State) (h : IncomingInv s) : IncomingInv (deadlineExpiry t s) := by simpa [IncomingInv] using h

theorem incomingInv_completionPop  (s : State) (h : IncomingInv s) : IncomingInv (completionPop s) := by simpa [IncomingInv] using h

theorem incomingInv_softReset (b) (s : State) (h : IncomingInv s) : IncomingInv (softReset b s) := by
  unfold softReset
  split
  · apply incomingInv_select; simpa [IncomingInv, arbiterAtSoftReset] using h
  · exact h

theorem incomingInv_writeAt (o b) (s : State) (h : IncomingInv s) : IncomingInv (writeAt o b s) := by
  unfold writeAt
  split
  · exact incomingInv_setSpanOff _ _ h
  · exact incomingInv_softReset _ _ h
  · unfold writePolicy; split
    · exact incomingInv_setPolicy _ _ h
    · exact h
  · simpa [IncomingInv] using h
  · exact h
  · simpa [IncomingInv] using h
  · exact h
  · exact h
  · exact incomingInv_submit _ h
  · exact incomingInv_cancel _ _ h
  · exact incomingInv_completionPop _ h
  · exact h
  · exact incomingInv_testStop _ h
  · (repeat' split) <;> first | exact h | simpa [IncomingInv] using h

theorem incomingInv_portWrite (o b) (s : State) (h : IncomingInv s) : IncomingInv (portWrite o b s) :=
  incomingInv_writeAt o b (beginWrite s) h

theorem incomingInv_registerWrite (w) (s : State) (h : IncomingInv s) : IncomingInv (registerWrite w s) := by
  unfold registerWrite
  (repeat' split)
  · exact h
  · exact h
  · exact incomingInv_portWrite _ _ _ h
  · exact h

theorem incomingInv_reset (r e a p n) : IncomingInv (State.cleared r e a p n) := by
  refine ⟨?_, ?_, ?_, ?_, ?_, ?_, ?_, ?_, ?_⟩ <;> simp [State.cleared, IncomingQueue.reset, Arbiter.reset, FrameEngine.reset]

theorem incomingInv_rstnLow (c) (s : State) (h : IncomingInv s) : IncomingInv (rstnLow c s) := by
  unfold rstnLow
  dsimp only
  split
  · exact incomingInv_reset .follower false 0x2C#7 0 s.now
  · exact h

theorem incomingInv_rstnRelease (x p) (s : State) (h : IncomingInv s) : IncomingInv (rstnRelease x p s) := by
  unfold rstnRelease
  dsimp only
  (repeat' split)
  · have := incomingInv_reset (strapRole x) x.spanEn (strapAddress x) p s.now
    simp only [IncomingInv, enterListen_frame]
    exact this
  · exact incomingInv_reset (strapRole x) x.spanEn (strapAddress x) p s.now
  · exact h

theorem incomingInv_portRead (r p) (s : State) (h : IncomingInv s) : IncomingInv (portRead r p s) := by
  simp only [IncomingInv, portRead_frame]; exact h

end Sys2Proof.Laws.IncomingInv
end

