-- ==== Sys2Proof/Laws/BusInv.lean ====
section
/-! SUPPORT. Each operation keeps the bus work with its requester (BusInv). -/
namespace Sys2Proof.Laws.BusInv
open Sys2Proof.Machine Sys2Proof.Laws.RequestInv Sys2Proof.Laws.IncomingInv
set_option maxHeartbeats 2000000

def KI (s : State) : Prop := (∀ t ∈ s.da.localList, s.rt.tags[t].req.kind.isQueued = true) ∧
  (∀ i ∈ s.da.remoteList, ∀ e, s.iq.slots[i] = some e → e.req.kind.isQueued = true)

def BK (s : State) : Prop := BusInv s ∧ KI s
structure Less (u s : State) : Prop where
  dbc : u.dbc = s.dbc
  tags : ∀ t : Tag, u.rt.tags[t].state = .executing → s.rt.tags[t].state = .executing ∧ u.rt.tags[t].gen = s.rt.tags[t].gen
  slots : ∀ (i : Slot) e, u.iq.slots[i] = some e → (e.state = .executing ∨ e.state = .detached) → ∃ e', s.iq.slots[i] = some e' ∧ (e'.state = .executing ∨ e'.state = .detached)
  ll : ∀ t ∈ u.da.localList, t ∈ s.da.localList ∧ u.rt.tags[t].req.kind = s.rt.tags[t].req.kind
  rl : ∀ i ∈ u.da.remoteList, i ∈ s.da.remoteList ∧ ∀ e, u.iq.slots[i] = some e → ∃ e', s.iq.slots[i] = some e' ∧ e'.req = e.req

theorem Less.refl (s) : Less s s := ⟨rfl, fun _ h => ⟨h, rfl⟩, fun _ e h h2 => ⟨e, h, h2⟩, fun _ h => ⟨h, rfl⟩, fun _ h => ⟨h, fun e he => ⟨e, he, rfl⟩⟩⟩

theorem Less.trans {a b c : State} (h1 : Less a b) (h2 : Less b c) : Less a c := by
  refine ⟨h1.dbc.trans h2.dbc, ?_, ?_, ?_, ?_⟩
  · intro t h; obtain ⟨a1, a2⟩ := h1.tags t h; obtain ⟨b1, b2⟩ := h2.tags t a1; exact ⟨b1, a2.trans b2⟩
  · intro i e h hs; obtain ⟨e', a1, a2⟩ := h1.slots i e h hs; exact h2.slots i e' a1 a2
  · intro t h; obtain ⟨a1, a2⟩ := h1.ll t h; obtain ⟨b1, b2⟩ := h2.ll t a1; exact ⟨b1, a2.trans b2⟩
  · intro i h; obtain ⟨a1, a2⟩ := h1.rl i h; obtain ⟨b1, b2⟩ := h2.rl i a1
    refine ⟨b1, fun e he => ?_⟩
    obtain ⟨e', c1, c2⟩ := a2 e he; obtain ⟨e2, d1, d2⟩ := b2 e' c1; exact ⟨e2, d1, d2.trans c2⟩

theorem less_eq {u s : State} (e1 : u.dbc = s.dbc) (e2 : u.rt = s.rt) (e3 : u.iq = s.iq) (e4 : u.da.localList = s.da.localList) (e5 : u.da.remoteList = s.da.remoteList) : Less u s := by
  refine ⟨e1, ?_, ?_, ?_, ?_⟩ <;> (try rw [e2]) <;> (try rw [e3]) <;> (try rw [e4]) <;> (try rw [e5])
  · exact fun _ h => ⟨h, rfl⟩
  · exact fun _ e h h2 => ⟨e, h, h2⟩
  · exact fun _ h => ⟨h, rfl⟩
  · exact fun _ h => ⟨h, fun e he => ⟨e, he, rfl⟩⟩

theorem busInv_less {u s : State} (hl : Less u s) (h : BK s) : BK u := by
  obtain ⟨⟨h1, h2, h3, h4, h5, h6, h7, h8, h9⟩, k1, k2⟩ := h
  refine ⟨⟨?_, ?_, ?_, ?_, ?_, ?_, ?_, ?_, ?_⟩, ?_, ?_⟩ <;> (try rw [hl.dbc]) <;> (try assumption)
  · intro t ht; obtain ⟨a, b⟩ := hl.tags t ht; rw [b]; exact h8 t a
  · intro i e he hs; obtain ⟨e', a, b⟩ := hl.slots i e he hs; exact h9 i e' a b
  · intro t ht; obtain ⟨a, b⟩ := hl.ll t ht; rw [b]; exact k1 t a
  · intro i hi e he; obtain ⟨a, b⟩ := hl.rl i hi; obtain ⟨e', c, d⟩ := b e he; rw [← d]; exact k2 i a e' c

theorem less_completeTag (t a) (s : State) : Less (completeTag t a s) s := by
  refine ⟨rfl, ?_, ?_, ?_, ?_⟩ <;> simp only [completeTag]
  · intro u; rw [vput_at]; split
    · intro h; cases h
    · exact fun h => ⟨h, rfl⟩
  · exact fun _ e h h2 => ⟨e, h, h2⟩
  · intro u hu; refine ⟨hu, ?_⟩; rw [vput_at]; split
    · rename_i h; subst h; rfl
    · rfl
  · exact fun _ h => ⟨h, fun e he => ⟨e, he, rfl⟩⟩

theorem less_completeAll (ts st) (s : State) : Less (completeAll ts st s) s := by
  unfold completeAll
  induction ts generalizing s with
  | nil => exact Less.refl s
  | cons t ts ih => exact (ih _).trans (less_completeTag _ _ _)

theorem less_answerSlot (i a) (s : State) : Less (answerSlot i a s) s := by
  unfold answerSlot
  split
  · rename_i e he
    have : Less { s with iq.slots := vput s.iq.slots i (some { e with state := .answered a }), iq.answerOrder := s.iq.answerOrder ++ [i] } s := by
      refine ⟨rfl, fun _ h => ⟨h, rfl⟩, ?_, fun _ h => ⟨h, rfl⟩, ?_⟩ <;> simp only [vput_at]
      · intro j e' h hs; split at h
        · cases h; rcases hs with x | x <;> cases x
        · exact ⟨e', h, hs⟩
      · intro j hj; refine ⟨hj, fun e' h => ?_⟩
        split at h
        · rename_i x; subst x; cases h; exact ⟨e, he, rfl⟩
        · exact ⟨e', h, rfl⟩
    split <;> first | exact this | exact Less.refl s
  · exact Less.refl s

theorem less_dropSlot (i) (s : State) : Less (dropSlot i s) s := by
  refine ⟨rfl, fun _ h => ⟨h, rfl⟩, ?_, fun _ h => ⟨h, rfl⟩, ?_⟩ <;> simp only [dropSlot, vput_at]
  · intro j e' h hs; split at h
    · cases h
    · exact ⟨e', h, hs⟩
  · intro j hj; refine ⟨hj, fun e' h => ?_⟩
    split at h
    · cases h
    · exact ⟨e', h, rfl⟩

theorem less_freeWithCredit (i) (s : State) : Less (freeWithCredit i s) s := Less.trans (b := dropSlot i s) (less_eq rfl rfl rfl rfl rfl) (less_dropSlot i s)

theorem less_foldl {α} (f : State → α → State) (hf : ∀ s a, Less (f s a) s) (l : List α) (s : State) : Less (l.foldl f s) s := by
  induction l generalizing s with
  | nil => exact Less.refl s
  | cons a l ih => exact (ih _).trans (hf _ _)

theorem less_lists {u s : State} (e1 : u.dbc = s.dbc) (e2 : u.rt = s.rt) (e3 : u.iq = s.iq) (e4 : ∀ t ∈ u.da.localList, t ∈ s.da.localList) (e5 : ∀ i ∈ u.da.remoteList, i ∈ s.da.remoteList) : Less u s := by
  refine ⟨e1, ?_, ?_, ?_, ?_⟩ <;> (try rw [e2]) <;> (try rw [e3])
  · exact fun _ h => ⟨h, rfl⟩
  · exact fun _ e h h2 => ⟨e, h, h2⟩
  · exact fun _ h => ⟨e4 _ h, rfl⟩
  · exact fun _ h => ⟨e5 _ h, fun e he => ⟨e, he, rfl⟩⟩

theorem less_setTag (t e) (s : State) (h1 : e.state ≠ .executing) (h2 : e.req.kind = s.rt.tags[t].req.kind) : Less (setTag t e s) s := by
  refine ⟨rfl, ?_, fun _ e h h2 => ⟨e, h, h2⟩, ?_, fun _ h => ⟨h, fun e he => ⟨e, he, rfl⟩⟩⟩ <;> simp only [setTag]
  · intro u; rw [vput_at]; split
    · intro h; exact absurd h h1
    · exact fun h => ⟨h, rfl⟩
  · intro u hu; refine ⟨hu, ?_⟩; rw [vput_at]; split
    · rename_i h; subst h; exact h2
    · rfl

theorem busInv_idle {s : State} (h : BK s) (ha : s.dbc.state.accepts = true) : s.dbc.work = none ∧ s.dbc.stretch = none ∧ (∀ t : Tag, s.rt.tags[t].state ≠ .executing) ∧
   (∀ (i : Slot) e, s.iq.slots[i] = some e → e.state ≠ .executing ∧ e.state ≠ .detached) := by
  obtain ⟨⟨h1, h2, h3, h4, h5, h6, h7, h8, h9⟩, k1, k2⟩ := h
  have hw : s.dbc.work = none := by
    cases hw : s.dbc.work with
    | none => rfl
    | some w =>
      have := h1.1 (by rw [hw]; rfl)
      rcases this with e | e <;> rw [e] at ha <;> cases ha
  refine ⟨hw, ?_, ?_, ?_⟩
  · rw [hw] at h2; simpa using h2
  · intro t ht; obtain ⟨w, a, _⟩ := h8 t ht; rw [hw] at a; cases a
  · intro i e he; constructor <;> intro hs
    · obtain ⟨w, a, _⟩ := h9 i e he (Or.inl hs); rw [hw] at a; cases a
    · obtain ⟨w, a, _⟩ := h9 i e he (Or.inr hs); rw [hw] at a; cases a

theorem accepts_cases {x : BusState} (h : x.accepts = true) : x = .idle ∨ x = .faulted := by cases x <;> simp_all [BusState.accepts]

/-- the work is handed over in a state v that differs from s in one tag or slot -/

theorem busInv_handOver (ref r) (v : State) (ha : v.dbc.state.accepts = true) (hq : r.kind.isQueued = true) (hnl : r.kind ≠ .leaseTake) (hf : r.kind.isTransfer = true → v.dbc.state ≠ .faulted)
   (hB : (v.dbc.state = .faulted → v.dbc.cause.isSome = true) ∧ (v.dbc.state = .idle → v.dbc.cause = none)) 
   (ht : ∀ t : Tag, v.rt.tags[t].state = .executing → ref = .tag t v.rt.tags[t].gen) (hs : ∀ (i : Slot) e, v.iq.slots[i] = some e → (e.state = .executing ∨ e.state = .detached) → ref = .slot i)
   (hk : KI v) : BK (handOver ref r v) := by
  refine ⟨⟨?_, ?_, ?_, ?_, ?_, ?_, ?_, ?_, ?_⟩, hk⟩ <;> simp only [handOver]
  · by_cases hb : r.kind = .busRecover <;> simp [hb]
  · simp
  · intro h w hw; cases hw
    simp only
    split at h
    · cases h
    · cases hrk : r.kind <;> simp_all [ReqKind.isTransfer, ReqKind.isQueued]
  · intro h w hw; cases hw
    simp only
    split at h
    · exact Or.inr (by assumption)
    · cases h
  · intro h; split at h <;> cases h
  · intro h
    have : ¬ r.kind = .busRecover := by intro e; rw [if_pos e] at h; rcases h with h | h <;> cases h
    have htr : r.kind.isTransfer = true := by cases hrk : r.kind <;> simp_all [ReqKind.isTransfer, ReqKind.isQueued]
    rcases accepts_cases ha with e | e
    · exact hB.2 e
    · exact absurd e (hf htr)
  · intro h
    have hfa : v.dbc.state = .faulted := by simpa using h
    split
    · rfl
    · exfalso
      have htr : r.kind.isTransfer = true := by cases hrk : r.kind <;> simp_all [ReqKind.isTransfer, ReqKind.isQueued]
      exact hf htr hfa
  · intro t h; exact ⟨_, rfl, ht t h⟩
  · intro i e h h2; exact ⟨_, rfl, hs i e h h2⟩

theorem busInv_serveHead (o) (s : State) (ha : s.dbc.state.accepts = true) (h : BK s) : BK (serveHead o s) := by
  obtain ⟨hw, hst, hnt, hns⟩ := busInv_idle h ha
  have hB : (s.dbc.state = .faulted → s.dbc.cause.isSome = true) ∧ (s.dbc.state = .idle → s.dbc.cause = none) :=
    ⟨h.1.2.2.2.2.1, fun e => h.1.2.2.2.2.2.1 (Or.inl e)⟩
  unfold serveHead
  cases o
  · simp only; split
    · exact h
    · rename_i t rest hl
      have hq : s.rt.tags[t].req.kind.isQueued = true := h.2.1 t (by rw [hl]; simp)
      have hL : ∀ v : State, v.dbc = s.dbc → v.rt = s.rt → v.iq = s.iq → v.da.localList = rest → v.da.remoteList = s.da.remoteList → BK v := by
        intro v e1 e2 e3 e4 e5
        exact busInv_less (less_lists e1 e2 e3 (by rw [e4, hl]; exact fun t h => List.mem_cons_of_mem _ h) (by rw [e5]; exact fun _ h => h)) h
      unfold serveLocal
      dsimp only
      split
      · exact busInv_less (less_completeTag _ _ _) (hL _ rfl rfl rfl rfl rfl)
      split
      · exact busInv_less (less_completeTag _ _ _) (hL _ rfl rfl rfl rfl rfl)
      · rename_i hnl hnf
        apply busInv_handOver
        · exact ha
        · exact hq
        · exact hnl
        · intro htr hfa; exact hnf ⟨htr, hfa⟩
        · exact hB
        · intro u; simp only [setTag]; rw [vput_at]; split
          · rename_i e; subst e; intro _; rfl
          · intro hx; exact absurd hx (hnt u)
        · intro i e he hs; have := hns i e he; rcases hs with hs | hs
          · exact absurd hs this.1
          · exact absurd hs this.2
        · refine ⟨?_, h.2.2⟩
          intro u hu; simp only [setTag]; rw [vput_at]; split
          · exact hq
          · exact h.2.1 u (by rw [hl]; exact List.mem_cons_of_mem _ hu)
  · simp only; split
    · exact h
    · rename_i i rest hl
      have hL : ∀ v : State, v.dbc = s.dbc → v.rt = s.rt → v.iq = s.iq → v.da.localList = s.da.localList → v.da.remoteList = rest → BK v := by
        intro v e1 e2 e3 e4 e5
        exact busInv_less (less_lists e1 e2 e3 (by rw [e4]; exact fun _ h => h) (by rw [e5, hl]; exact fun t h => List.mem_cons_of_mem _ h)) h
      unfold serveRemote
      split
      · exact hL _ rfl rfl rfl rfl rfl
      · rename_i e he
        have hq : e.req.kind.isQueued = true := h.2.2 i (by rw [hl]; simp) e he
        split
        · exact busInv_less (less_answerSlot _ _ _) (hL _ rfl rfl rfl rfl rfl)
        split
        · exact busInv_less (less_answerSlot _ _ _) (hL _ rfl rfl rfl rfl rfl)
        split
        · exact busInv_less (less_answerSlot _ _ _) (hL _ rfl rfl rfl rfl rfl)
        · rename_i hnl hnf
          apply busInv_handOver
          · exact ha
          · exact hq
          · exact hnl
          · intro htr hfa; exact hnf ⟨htr, hfa⟩
          · exact hB
          · intro u hx; exact absurd hx (hnt u)
          · intro j e' he' hs; simp only [setSlot] at he'; rw [vput_at] at he'; split at he'
            · rename_i x; subst x; rfl
            · have := hns j e' he'; rcases hs with hs | hs
              · exact absurd hs this.1
              · exact absurd hs this.2
          · refine ⟨h.2.1, ?_⟩
            intro j hj e' he'; simp only [setSlot] at he'; rw [vput_at] at he'; split at he'
            · cases he'; exact hq
            · exact h.2.2 j (by rw [hl]; exact List.mem_cons_of_mem _ hj) e' he'

theorem busInv_selectLoop (n) (s : State) (h : BK s) : BK (selectLoop n s) := by
  induction n generalizing s with
  | zero => exact h
  | succ n ih =>
    unfold selectLoop
    split
    · split
      · exact h
      · exact ih _ (busInv_serveHead _ _ (by assumption) h)
    · exact h

theorem busInv_select (s : State) (h : BK s) : BK (select s) := busInv_selectLoop _ _ h

theorem less_routeResult (r a) (s : State) : Less (routeResult r a s) s := by
  unfold routeResult
  split
  · split
    · exact less_completeTag _ _ _
    · exact Less.refl s
  · split
    · exact Less.refl s
    · split <;> first | exact less_answerSlot _ _ _ | exact less_dropSlot _ _ | exact Less.refl s

theorem less_faultPurge (s : State) : Less (faultPurge s) s := by
  unfold faultPurge
  dsimp only
  refine (less_foldl _ (fun s i => less_answerSlot _ _ _) _ _).trans ((less_completeAll _ _ _).trans ?_)
  exact less_lists rfl rfl rfl (fun t h => (List.mem_filter.1 h).1) (fun t h => (List.mem_filter.1 h).1)

theorem answerSlot_self (i a) (s : State) (e) (he : s.iq.slots[i] = some e) (hx : e.state = .executing) : (answerSlot i a s).iq.slots[i] = some { e with state := .answered a } := by
  unfold answerSlot; rw [he]; simp [hx, vput_at]

/-- no tag or entry is on the bus once its result is returned -/

theorem returned_clear (a) (s : State) (h : BK s) : (∀ t : Tag, (returned a s).rt.tags[t].state ≠ .executing) ∧
   (∀ (i : Slot) e, (returned a s).iq.slots[i] = some e → e.state ≠ .executing ∧ e.state ≠ .detached) := by
  obtain ⟨⟨h1, h2, h3, h4, h5, h6, h7, h8, h9⟩, k1, k2⟩ := h
  have key : ∀ u : State, Less u s → (∀ t : Tag, (∃ w, s.dbc.work = some w ∧ w.ref = .tag t s.rt.tags[t].gen) → u.rt.tags[t].state ≠ .executing) →
     (∀ i : Slot, (∃ w, s.dbc.work = some w ∧ w.ref = .slot i) → ∀ e, u.iq.slots[i] = some e → e.state ≠ .executing ∧ e.state ≠ .detached) →
     (∀ t : Tag, u.rt.tags[t].state ≠ .executing) ∧ (∀ (i : Slot) e, u.iq.slots[i] = some e → e.state ≠ .executing ∧ e.state ≠ .detached) := by
    intro u hl ht hs
    constructor
    · intro t hx; exact ht t (h8 t (hl.tags t hx).1) hx
    · intro i e he
      constructor <;> intro hx
      · obtain ⟨e', b, c⟩ := hl.slots i e he (Or.inl hx); exact (hs i (h9 i e' b c) e he).1 hx
      · obtain ⟨e', b, c⟩ := hl.slots i e he (Or.inr hx); exact (hs i (h9 i e' b c) e he).2 hx
  cases hw : s.dbc.work with
  | none =>
    have : returned a s = s := by unfold returned; rw [hw]
    rw [this]
    apply key s (Less.refl s)
    · rintro t ⟨w, hx, _⟩; rw [hw] at hx; cases hx
    · rintro t ⟨w, hx, _⟩; rw [hw] at hx; cases hx
  | some w =>
    have : returned a s = routeResult w.ref a s := by unfold returned; rw [hw]
    rw [this]
    apply key _ (less_routeResult _ _ _)
    · rintro t ⟨w', hx, hr⟩
      rw [hw] at hx; cases hx
      rw [hr]; unfold routeResult; simp only
      split
      · rw [completeTag_self]; simp
      · rename_i hh; intro hx; exact hh ⟨hx, trivial⟩
    · rintro i ⟨w', hx, hr⟩ e he
      rw [hw] at hx; cases hx
      rw [hr] at he; unfold routeResult at he; simp only at he
      cases hs : s.iq.slots[i] with
      | none => simp only [hs] at he; cases he
      | some x =>
        simp only [hs] at he
        cases hxs : x.state <;> simp only [hxs] at he
        · rw [hs] at he; cases he; simp [hxs]
        · rw [answerSlot_self i a s x hs hxs] at he; cases he; simp
        · rw [hs] at he; cases he; simp [hxs]
        · rw [hs] at he; cases he; simp [hxs]
        · simp [dropSlot] at he

theorem busInv_endWork (a c) (s : State) (h : BK s) : BK (endWork a c s) := by
  apply endWork_keep BK busInv_select (fun s h => busInv_less (less_faultPurge s) h)
  · intro s c h; exact busInv_less (less_eq (by simp) (by simp) (by simp) (by simp) (by simp)) h
  · obtain ⟨ct, cs⟩ := returned_clear a s h
    have hl : Less (returned a s) s := by unfold returned; split; exact less_routeResult _ _ _; exact Less.refl s
    have hk := (busInv_less hl h).2
    refine ⟨⟨?_, ?_, ?_, ?_, ?_, ?_, ?_, ?_, ?_⟩, hk⟩
    · simp [dbcAfter]; split <;> simp
    · rfl
    · intro h; simp [dbcAfter] at h; split at h <;> cases h
    · intro h; simp [dbcAfter] at h; split at h <;> cases h
    · simp only [dbcAfter]; split
      · intro _; assumption
      · intro h; cases h
    · simp only [dbcAfter]; split
      · rintro (h | h) <;> cases h
      · intro _; simpa using ‹¬ c.isSome = true›
    · intro h; cases h
    · intro t ht; exact absurd ht (ct t)
    · intro i e he hs
      have := cs i e he
      rcases hs with hs | hs
      · exact absurd hs this.1
      · exact absurd hs this.2

theorem busInv_startRecovery (c) (w w' : Work) (s : State) (h : BK s) (hs : s.dbc.state = .active) (hw : s.dbc.work = some w) (e1 : w'.req = w.req) (e2 : w'.ref = w.ref) : BK (startRecovery c w' s) := by
  obtain ⟨⟨h1, h2, h3, h4, h5, h6, h7, h8, h9⟩, k⟩ := h
  refine ⟨⟨?_, ?_, ?_, ?_, ?_, ?_, ?_, ?_, ?_⟩, k⟩ <;> simp only [startRecovery]
  · simp
  · simp
  · intro h; cases h
  · intro _ x hx; cases hx; rw [e1]; exact Or.inl (h3 hs w hw)
  · intro h; cases h
  · rintro (h | h) <;> cases h
  · intro h; cases h
  · intro t ht; obtain ⟨x, a, b⟩ := h8 t ht; rw [hw] at a; cases a; exact ⟨w', rfl, e2.trans b⟩
  · intro i e he hs; obtain ⟨x, a, b⟩ := h9 i e he hs; rw [hw] at a; cases a; exact ⟨w', rfl, e2.trans b⟩

theorem busInv_stuckAtStart (s : State) (h : BK s) : BK (stuckAtStart s) := by
  unfold stuckAtStart; split
  · rename_i w h1 h2; exact busInv_startRecovery _ w _ _ h (by assumption) (by assumption) rfl rfl
  · exact h

theorem less_withdrawSlot (i st) (s : State) : Less (withdrawSlot i st s) s :=
  (less_answerSlot _ _ _).trans (less_lists rfl rfl rfl (fun _ h => h) (fun _ h => (List.mem_filter.1 h).1))

theorem busInv_takeCancel (p) (s : State) (h : BK s) : BK (takeCancel p s) := by
  unfold takeCancel; (repeat' split) <;> first | exact h | exact busInv_less (less_withdrawSlot _ _ _) h

theorem busInv_remoteDeadlineExpiry (i) (s : State) (h : BK s) : BK (remoteDeadlineExpiry i s) := by
  unfold remoteDeadlineExpiry; split
  · exact h
  · exact busInv_less (less_withdrawSlot _ _ _) h

theorem busInv_eq {u s : State} (h : BK s) (e1 : u.dbc = s.dbc) (e2 : u.rt = s.rt) (e3 : u.iq = s.iq) (e4 : u.da.localList = s.da.localList) (e5 : u.da.remoteList = s.da.remoteList) : BK u := busInv_less (less_eq e1 e2 e3 e4 e5) h

theorem less_completeOwner (a) (s : State) : Less (completeOwner a s) s := by
  unfold completeOwner; (repeat' split) <;> first | exact less_completeTag _ _ _ | exact Less.refl s

theorem less_takeAck (q) (s : State) : Less (takeAck q s) s := by
  unfold takeAck; split
  · exact Less.refl s
  · exact (less_foldl _ (fun s i => less_freeWithCredit _ _) _ _).trans (less_eq rfl rfl rfl rfl rfl)

theorem less_takeHeader (hd) (s : State) : Less (takeHeader hd s) s := by
  have h1 : Less (takeReady hd.hostReady (takeReturn hd.ret (takeAck hd.ack s))) s := (less_eq (by simp) (by simp) (by simp) (by simp) (by simp)).trans (less_takeAck hd.ack s)
  unfold takeHeader; dsimp only; split
  · exact Less.trans (b := takeReady hd.hostReady (takeReturn hd.ret (takeAck hd.ack s))) (less_eq rfl rfl rfl rfl rfl) h1
  · exact h1

theorem less_freeDetached (s : State) : Less (freeDetached s) s := by
  have hx : ∀ (i : Slot) e, (freeDetached s).iq.slots[i] = some e → s.iq.slots[i] = some e := by
    intro i e
    simp only [freeDetached, vtab_at]
    cases hs : s.iq.slots[i] with
    | none => simp
    | some x =>
      simp only [Option.bind_some]
      split
      · intro h; cases h
      · exact fun h => h
  exact ⟨rfl, fun _ h => ⟨h, rfl⟩, fun i e h h2 => ⟨e, hx i e h, h2⟩, fun _ h => ⟨h, rfl⟩, fun i h => ⟨h, fun e he => ⟨e, hx i e he, rfl⟩⟩⟩

theorem less_incomingAtLoss (s : State) : Less (incomingAtLoss s) s := by
  refine ⟨rfl, fun _ h => ⟨h, rfl⟩, ?_, fun _ h => ⟨h, rfl⟩, ?_⟩
  · intro i e
    simp only [incomingAtLoss, vtab_at]
    cases hs : s.iq.slots[i] with
    | none => simp
    | some x =>
      simp only [Option.bind_some]
      intro h _
      refine ⟨x, rfl, ?_⟩
      unfold slotAtLoss at h
      cases hx : x.state <;> simp [hx] at h <;> simp
  · intro i hi; simp [incomingAtLoss] at hi

theorem less_dropWaiting (s : State) : Less (dropWaiting s) s :=
  (less_foldl _ (fun s i => less_freeWithCredit _ _) _ _).trans (less_lists rfl rfl rfl (fun _ h => h) (fun _ h => by cases h))

theorem less_testAtLoss (s : State) : Less (testAtLoss s) s := by
  obtain ⟨u, a, hu, h2⟩ := testAtLoss_eq s
  have hl : Less u s := by
    rcases hu with rfl | ⟨r, e, n, rfl⟩
    · exact Less.refl _
    · exact less_eq (by simp) (by simp) (by simp) (by simp) (by simp)
  rcases h2 with h2 | ⟨h2, hp⟩ | h2 | h2 <;> rw [h2]
  · exact Less.refl s
  · exact Less.trans (b := u) (less_eq rfl rfl rfl rfl rfl) hl
  · refine Less.trans (b := if u.lt.owner then completeOwner a u else u) (less_eq rfl rfl rfl rfl rfl) (Less.trans ?_ hl)
    split
    · exact less_completeOwner _ _
    · exact Less.refl _
  · exact Less.trans (b := completeOwner a u) (less_eq rfl rfl rfl rfl rfl) ((less_completeOwner _ _).trans hl)

theorem busInv_pushFrame (k p i) (s : State) (h : BK s) : BK (pushFrame k p i s) := busInv_eq h (by simp) (by simp) (by simp) (by simp) (by simp)

theorem busInv_transactionEnd (a r) (s : State) (h : BK s) : BK (transactionEnd a r s) := by
  unfold transactionEnd
  split
  · exact busInv_endWork _ _ _ h
  · exact h

theorem busInv_endRecovery (c) (s : State) (h : BK s) : BK (endRecovery c s) := by
  unfold endRecovery
  split
  · exact busInv_endWork _ _ _ h
  · exact h

theorem busInv_stretchLimit (a r) (s : State) (h : BK s) : BK (stretchLimit a r s) := by
  unfold stretchLimit
  dsimp only
  split
  · split
    · exact busInv_startRecovery _ ‹Work› _ (s.reach _) (busInv_eq h rfl rfl rfl rfl rfl) (by assumption) (by assumption) rfl rfl
    · exact busInv_startRecovery _ ‹Work› _ (s.reach _) (busInv_eq h rfl rfl rfl rfl rfl) (by assumption) (by assumption) rfl rfl
  · exact busInv_endRecovery _ _ (busInv_eq h rfl rfl rfl rfl rfl)
  · exact h

theorem busInv_recoveryEnd (x) (s : State) (h : BK s) : BK (recoveryEnd x s) := by
  unfold recoveryEnd
  split
  · exact busInv_endRecovery _ _ h
  · exact h

theorem busInv_leaseExpiry  (s : State) (h : BK s) : BK (leaseExpiry s) := by
  unfold leaseExpiry; split
  · exact h
  · apply busInv_select; exact busInv_eq h (by simp) (by simp) (by simp) (by simp) (by simp)

theorem busInv_setPolicy (p) (s : State) (h : BK s) : BK (setPolicy p s) := by
  unfold setPolicy; (repeat' split) <;> first | exact busInv_eq h rfl rfl rfl rfl rfl | (apply busInv_select; exact busInv_eq h (by simp) (by simp) (by simp) (by simp) (by simp))

theorem busInv_completeOwner (a) (s : State) (h : BK s) : BK (completeOwner a s) := by
  exact busInv_less (less_completeOwner _ _) h

theorem busInv_endTest  (s : State) (h : BK s) : BK (endTest s) := busInv_eq h (by simp) (by simp) (by simp) (by simp) (by simp)

theorem busInv_drainLimit  (s : State) (h : BK s) : BK (drainLimit s) := by
  unfold drainLimit returnToRun
  split
  · exact h
  · rename_i due _
    dsimp only; split
    · exact busInv_eq (busInv_completeOwner (bare .drainTimeout) (s.reach due) (busInv_eq h rfl rfl rfl rfl rfl)) (by simp) (by simp) (by simp) (by simp) (by simp)
    · exact busInv_eq h (by simp) (by simp) (by simp) (by simp) (by simp)

theorem busInv_becomeNonOwner (p) (s : State) (h : BK s) : BK (becomeNonOwner p s) := busInv_eq h (by simp) (by simp) (by simp) (by simp) (by simp)

theorem busInv_takeTestEnter (p) (s : State) (h : BK s) : BK (takeTestEnter p s) := by
  unfold takeTestEnter
  (repeat' split) <;> first | exact h | exact busInv_becomeNonOwner _ _ (busInv_completeOwner _ _ h) | exact busInv_becomeNonOwner _ _ h

theorem busInv_takeTestReady  (s : State) (h : BK s) : BK (takeTestReady s) := busInv_eq h (by simp) (by simp) (by simp) (by simp) (by simp)

theorem busInv_takeTestGo  (s : State) (h : BK s) : BK (takeTestGo s) := busInv_eq h (by simp) (by simp) (by simp) (by simp) (by simp)

theorem busInv_enterTest  (s : State) (h : BK s) : BK (enterTest s) := busInv_eq h (by simp) (by simp) (by simp) (by simp) (by simp)

theorem busInv_goAcknowledged  (s : State) (h : BK s) : BK (goAcknowledged s) := by
  unfold goAcknowledged returnToRun
  (repeat' split) <;> first | exact h | exact busInv_enterTest s h | exact busInv_eq (busInv_completeOwner (bare .drainTimeout) s h) (by simp) (by simp) (by simp) (by simp) (by simp)

theorem busInv_takeSymbol (d st) (s : State) (h : BK s) : BK (takeSymbol d st s) := busInv_eq h (by simp) (by simp) (by simp) (by simp) (by simp)

theorem busInv_takeSymbols (bs) (s : State) (h : BK s) : BK (takeSymbols bs s) := busInv_eq h (by simp) (by simp) (by simp) (by simp) (by simp)

theorem busInv_leaveTest (r) (s : State) (h : BK s) : BK (leaveTest r s) := busInv_eq h (by simp) (by simp) (by simp) (by simp) (by simp)

theorem busInv_testDuration  (s : State) (h : BK s) : BK (testDuration s) := busInv_eq h (by simp) (by simp) (by simp) (by simp) (by simp)

theorem busInv_checkerDuration  (s : State) (h : BK s) : BK (checkerDuration s) := busInv_eq h (by simp) (by simp) (by simp) (by simp) (by simp)

theorem busInv_patternLost  (s : State) (h : BK s) : BK (patternLost s) := busInv_eq h (by simp) (by simp) (by simp) (by simp) (by simp)

theorem busInv_patternStart  (s : State) (h : BK s) : BK (patternStart s) := busInv_eq h (by simp) (by simp) (by simp) (by simp) (by simp)

theorem busInv_testStop  (s : State) (h : BK s) : BK (testStop s) := busInv_eq h (by simp) (by simp) (by simp) (by simp) (by simp)

theorem busInv_settleTest  (s : State) (h : BK s) : BK (settleTest s) := by
  unfold settleTest
  dsimp only
  generalize hu : (if s.lt.releaseOwed then ({ s with fe.releaseAll := true, lt.releaseOwed := false } : State) else s) = u
  have h : BK u := by rw [← hu]; split <;> first | exact h | exact busInv_eq h rfl rfl rfl rfl rfl
  (repeat' split)
  · exact h
  · exact busInv_eq (busInv_completeOwner (testAnswer u.lt) u h) (by simp) (by simp) (by simp) (by simp) (by simp)
  all_goals exact busInv_eq h (by simp) (by simp) (by simp) (by simp) (by simp)

theorem busInv_takeTestResult (p) (s : State) (h : BK s) : BK (takeTestResult p s) := by
  unfold takeTestResult
  dsimp only
  split
  · exact h
  · apply busInv_endTest
    refine busInv_eq (busInv_completeOwner _ _ ?_) (raiseTestDone_frame _ _ _).2.2.2.2.2.2.2.2.1 (raiseTestDone_frame _ _ _).2.2.2.2.2.1 (raiseTestDone_frame _ _ _).2.2.2.2.2.2.1 (by rw [(raiseTestDone_frame _ _ _).2.2.2.2.2.2.2.1]) (by rw [(raiseTestDone_frame _ _ _).2.2.2.2.2.2.2.1])
    exact busInv_eq h rfl rfl rfl rfl rfl

theorem busInv_resultLimit  (s : State) (h : BK s) : BK (resultLimit s) := by
  unfold resultLimit
  split
  · exact busInv_endTest _ (busInv_completeOwner _ _ (busInv_eq h rfl rfl rfl rfl rfl))
  · exact h

theorem busInv_testAtLoss  (s : State) (h : BK s) : BK (testAtLoss s) := by
  exact busInv_less (less_testAtLoss s) h

theorem busInv_requestsAtLoss  (s : State) (h : BK s) : BK (requestsAtLoss s) := by
  exact busInv_less (less_completeAll _ _ _) h

theorem busInv_loss (r) (s : State) (h : BK s) : BK (loss r s) := by
  unfold loss
  apply busInv_select
  have h1 := busInv_less (less_incomingAtLoss _) (busInv_requestsAtLoss s h)
  have h2 : BK (linesAtLoss (leaseAtLoss (eventsAtLoss r (incomingAtLoss (requestsAtLoss s))))) := busInv_eq h1 (by simp) (by simp) (by simp) (by simp) (by simp)
  exact busInv_eq (busInv_testAtLoss _ h2) (by simp) (by simp) (by simp) (by simp) (by simp)

theorem busInv_enterRunFromHello (c) (s : State) (h : BK s) : BK (enterRunFromHello c s) := by
  have h1 := busInv_less (less_freeDetached s) h
  refine busInv_eq h1 ?_ ?_ ?_ ?_ ?_
  all_goals (unfold enterRunFromHello; dsimp only; split <;> simp)

theorem busInv_enterRunFromRetrain  (s : State) (h : BK s) : BK (enterRunFromRetrain s) := by
  exact busInv_settleTest _ (busInv_eq h rfl rfl rfl rfl rfl)

theorem busInv_setSpanOff (v) (s : State) (h : BK s) : BK (setSpanOff v s) := by
  have h1 : BK { s with hp.spanOff := v } := busInv_eq h rfl rfl rfl rfl rfl
  have hl : BK (loss .localOff { s with hp.spanOff := v }) := busInv_loss _ _ h1
  unfold setSpanOff
  dsimp only
  split
  · exact h
  split
  · exact h1
  · exact h1
  · exact busInv_eq h1 (by simp) (by simp) (by simp) (by simp) (by simp)
  · exact busInv_eq h1 (by simp) (by simp) (by simp) (by simp) (by simp)
  iterate 4 exact hl
  · split
    · exact busInv_eq h1 (by simp) (by simp) (by simp) (by simp) (by simp)
    · exact h1
  all_goals exact h1

theorem busInv_silenceLimit  (s : State) (h : BK s) : BK (silenceLimit s) := by
  unfold silenceLimit; split
  · exact h
  · exact busInv_loss _ _ (busInv_eq h rfl rfl rfl rfl rfl)

theorem busInv_retrainLimit  (s : State) (h : BK s) : BK (retrainLimit s) := by
  unfold retrainLimit; split
  · exact h
  · exact busInv_loss _ _ (busInv_eq h rfl rfl rfl rfl rfl)

theorem busInv_holdoffEnd  (s : State) (h : BK s) : BK (holdoffEnd s) := busInv_eq h (by simp) (by simp) (by simp) (by simp) (by simp)

theorem busInv_trainingInterval  (s : State) (h : BK s) : BK (trainingInterval s) := busInv_eq h (by simp) (by simp) (by simp) (by simp) (by simp)

theorem busInv_helloInterval  (s : State) (h : BK s) : BK (helloInterval s) := busInv_eq h (by simp) (by simp) (by simp) (by simp) (by simp)

theorem busInv_helloLimit  (s : State) (h : BK s) : BK (helloLimit s) := busInv_eq h (by simp) (by simp) (by simp) (by simp) (by simp)

theorem busInv_buildReq (t) (s : State) (h : BK s) : BK (buildReq t s) := by
  unfold buildReq; dsimp only
  apply busInv_pushFrame
  exact busInv_eq (busInv_less (less_setTag t { s.rt.tags[t] with state := .inFlight, due := s.rt.tags[t].due.map (· + Config.farGrace) } s (by simp) rfl) h) rfl rfl rfl rfl rfl

theorem less_setSlotSent (i : Slot) (e : SlotEntry) (a) (s : State) (he : s.iq.slots[i] = some e) : Less (setSlot i (some { e with state := .sent a }) s) s := by
  refine ⟨rfl, fun _ h => ⟨h, rfl⟩, ?_, fun _ h => ⟨h, rfl⟩, ?_⟩ <;> simp only [setSlot, vput_at]
  · intro j e' h hs; split at h
    · cases h; rcases hs with x | x <;> cases x
    · exact ⟨e', h, hs⟩
  · intro j hj; refine ⟨hj, fun e' h => ?_⟩
    split at h
    · rename_i x; subst x; cases h; exact ⟨e, he, rfl⟩
    · exact ⟨e', h, rfl⟩

theorem less_order {u s : State} (e1 : u.dbc = s.dbc) (e2 : u.rt = s.rt) (e3 : u.iq.slots = s.iq.slots) (e4 : u.da.localList = s.da.localList) (e5 : u.da.remoteList = s.da.remoteList) : Less u s := by
  refine ⟨e1, ?_, ?_, ?_, ?_⟩ <;> (try rw [e2]) <;> (try rw [e3]) <;> (try rw [e4]) <;> (try rw [e5])
  · exact fun _ h => ⟨h, rfl⟩
  · exact fun _ e h h2 => ⟨e, h, h2⟩
  · exact fun _ h => ⟨h, rfl⟩
  · exact fun _ h => ⟨h, fun e he => ⟨e, he, rfl⟩⟩

theorem busInv_buildRsp (i) (s : State) (h : BK s) : BK (buildRsp i s) := by
  unfold buildRsp
  split
  · rename_i e he
    split
    · rename_i a ha
      apply busInv_pushFrame
      exact busInv_less (Less.trans (b := setSlot i (some { e with state := .sent a }) s) (less_order rfl rfl rfl rfl rfl) (less_setSlotSent i e a s he)) h
    all_goals exact h
  · exact h

theorem busInv_buildFrame (k) (s : State) (h : BK s) : BK (buildFrame k s) := by
  unfold buildFrame
  split
  · apply busInv_pushFrame; exact busInv_eq h rfl rfl rfl rfl rfl
  · split
    · apply busInv_pushFrame; exact busInv_eq h rfl rfl rfl rfl rfl
    · exact h
  · apply busInv_pushFrame; exact busInv_eq h rfl rfl rfl rfl rfl
  · apply busInv_pushFrame; exact busInv_eq h rfl rfl rfl rfl rfl
  · split
    · exact busInv_buildRsp _ _ h
    · exact h
  · apply busInv_pushFrame; exact busInv_eq h rfl rfl rfl rfl rfl
  · apply busInv_pushFrame; exact busInv_eq h rfl rfl rfl rfl rfl
  · apply busInv_pushFrame; exact busInv_eq h rfl rfl rfl rfl rfl
  · split
    · exact busInv_buildReq _ _ h
    · exact h
  · split
    · apply busInv_pushFrame; exact busInv_eq h rfl rfl rfl rfl rfl
    · exact h
  all_goals exact busInv_eq h (by simp) (by simp) (by simp) (by simp) (by simp)

theorem busInv_sendSelected  (s : State) (h : BK s) : BK (sendSelected s) := by
  unfold sendSelected
  (repeat' split)
  · exact busInv_buildFrame _ s h
  · exact h
  · exact busInv_loss _ _ h
  · exact busInv_eq h (by simp) (by simp) (by simp) (by simp) (by simp)

theorem busInv_turnOpen  (s : State) (h : BK s) : BK (turnOpen s) := by
  unfold turnOpen
  split
  · exact busInv_sendSelected _ (busInv_eq h rfl rfl rfl rfl rfl)
  · exact h

theorem busInv_followerReply  (s : State) (h : BK s) : BK (followerReply s) := by
  unfold followerReply
  dsimp only
  (repeat' split) <;> first
    | exact h
    | exact busInv_sendSelected _ (busInv_eq h rfl rfl rfl rfl rfl)
    | exact busInv_eq h (by simp) (by simp) (by simp) (by simp) (by simp)

theorem busInv_afterSend  (s : State) (h : BK s) : BK (afterSend s) := busInv_eq h (by simp) (by simp) (by simp) (by simp) (by simp)

theorem busInv_frameSent  (s : State) (h : BK s) : BK (frameSent s) := by
  unfold frameSent
  dsimp only
  (repeat' split)
  · exact h
  · exact busInv_afterSend _ (busInv_eq h rfl rfl rfl rfl rfl)
  · exact busInv_enterRunFromHello _ _ (busInv_eq h rfl rfl rfl rfl rfl)
  · exact busInv_afterSend _ (busInv_eq h rfl rfl rfl rfl rfl)

theorem busInv_missTurn (g) (s : State) (h : BK s) : BK (missTurn g s) := by
  unfold missTurn
  dsimp only
  split
  · exact busInv_loss _ _ (busInv_eq h rfl rfl rfl rfl rfl)
  · exact busInv_eq h rfl rfl rfl rfl rfl

theorem busInv_replyWindowEnd  (s : State) (h : BK s) : BK (replyWindowEnd s) := by
  unfold replyWindowEnd
  dsimp only
  (repeat' split) <;> first | exact h | exact busInv_missTurn _ _ (busInv_eq h rfl rfl rfl rfl rfl) | exact busInv_eq h rfl rfl rfl rfl rfl

theorem busInv_badFrame  (s : State) (h : BK s) : BK (badFrame s) := by
  unfold badFrame
  dsimp only
  (repeat' split) <;> first | exact h | exact busInv_missTurn _ _ (busInv_eq h rfl rfl rfl rfl rfl) | exact busInv_eq h rfl rfl rfl rfl rfl

theorem busInv_dropLease (o f) (s : State) (hf : ∀ st, BK (f st (leaseDrop o s).2)) : BK (dropLease o f s) := by
  unfold dropLease
  dsimp only
  split
  · exact busInv_select _ (hf _)
  · exact hf _

theorem busInv_answerSlot (i a) (s : State) (h : BK s) : BK (answerSlot i a s) := by
  exact busInv_less (less_answerSlot _ _ _) h

/-- a new entry -/

theorem less_newSlot (i : Slot) (e : SlotEntry) (s u : State) (hi : s.iq.slots[i] = none) (hn : i ∉ s.da.remoteList) (h1 : u.iq.slots = vput s.iq.slots i (some e)) (hw : e.state ≠ .executing ∧ e.state ≠ .detached)
  (e1 : u.dbc = s.dbc) (e2 : u.rt = s.rt) (e4 : u.da.localList = s.da.localList) (e5 : u.da.remoteList = s.da.remoteList) : Less u s := by
  refine ⟨e1, ?_, ?_, ?_, ?_⟩ <;> (try rw [e2]) <;> (try rw [e4]) <;> (try rw [e5])
  · exact fun _ h => ⟨h, rfl⟩
  · intro j e'; rw [h1, vput_at]; split
    · intro h hs; cases h; rcases hs with x | x
      · exact absurd x hw.1
      · exact absurd x hw.2
    · exact fun h hs => ⟨e', h, hs⟩
  · exact fun _ h => ⟨h, rfl⟩
  · intro j hj; refine ⟨hj, fun e' => ?_⟩; rw [h1, vput_at, if_neg]
    · exact fun h => ⟨e', h, rfl⟩
    · rintro rfl; exact hn hj

theorem busInv_takeReq (p) (s t : State) (hq : IncomingInv s) (h : BK s) (ht : takeReq p s = .next t) : BK t := by
  unfold takeReq at ht
  split at ht
  · cases ht
  · cases ht; exact h
  · rename_i i r hfs _
    have hi : s.iq.slots[i] = none := by
      have := List.find?_some hfs; simpa using this
    have hn : i ∉ s.da.remoteList := by
      rw [← hq.2.2.2.1 i, hi]; simp
    cases ht
    dsimp only
    have hs1 : ∀ u : State, u.iq.slots = vput s.iq.slots i (some ⟨p.getD 0 0, p.getD 1 0, r, .waiting (carriedDue s.now r)⟩) → u.dbc = s.dbc → u.rt = s.rt → u.da.localList = s.da.localList →
       u.da.remoteList = s.da.remoteList → BK u := fun u e1 e2 e3 e4 e5 => busInv_less (less_newSlot i _ s u hi hn e1 (by simp) e2 e3 e4 e5) h
    unfold handleReq
    split
    · exact busInv_answerSlot _ _ _ (hs1 _ rfl rfl rfl rfl rfl)
    split
    · exact busInv_answerSlot _ _ _ (hs1 _ rfl rfl rfl rfl rfl)
    split
    · exact busInv_answerSlot _ _ _ (hs1 _ rfl rfl rfl rfl rfl)
    split
    · rename_i hqd
      apply busInv_select
      have hb := hs1 { s with iq := { slots := vput s.iq.slots i (some ⟨p.getD 0 0, p.getD 1 0, r, .waiting (carriedDue s.now r)⟩), arrival := s.iq.arrival ++ [i], answerOrder := s.iq.answerOrder } } rfl rfl rfl rfl rfl
      refine ⟨hb.1, hb.2.1, ?_⟩
      intro j hj e he
      rcases List.mem_append.1 hj with hj | hj
      · exact hb.2.2 j hj e he
      · simp at hj; subst hj
        simp [setSlot] at he; subst he; exact hqd
    · unfold runRemote
      dsimp only
      split
      iterate 5 (apply busInv_answerSlot; refine hs1 _ ?_ ?_ ?_ ?_ ?_ <;> simp [setSlot])
      · apply busInv_dropLease; intro st; apply busInv_answerSlot; refine hs1 _ ?_ ?_ ?_ ?_ ?_ <;> simp [setSlot]
      · apply busInv_answerSlot; refine hs1 _ ?_ ?_ ?_ ?_ ?_ <;> simp [setSlot]
      all_goals (refine hs1 _ ?_ ?_ ?_ ?_ ?_ <;> simp [setSlot])

theorem busInv_takeRsp (p) (s : State) (h : BK s) : BK (takeRsp p s) := by
  unfold takeRsp
  (repeat' split) <;> first | exact busInv_less (less_completeTag _ _ _) h | exact h

theorem busInv_takeReleaseAll  (s : State) (h : BK s) : BK (takeReleaseAll s) := by
  unfold takeReleaseAll
  apply busInv_select
  exact busInv_eq (busInv_less (less_dropWaiting s) h) (by simp) (by simp) (by simp) (by simp) (by simp)

theorem busInv_deliver (k p) (s t : State) (hq : IncomingInv s) (h : BK s) (ht : deliver k p s = .next t) : BK t := by
  unfold deliver at ht
  split at ht
  · exact busInv_takeReq _ _ _ hq h ht
  all_goals cases ht
  · exact busInv_takeRsp _ _ h
  · exact busInv_takeCancel _ _ h
  · exact busInv_eq h (by simp) (by simp) (by simp) (by simp) (by simp)
  · exact busInv_eq h (by simp) (by simp) (by simp) (by simp) (by simp)
  · exact busInv_takeReleaseAll _ h
  · exact busInv_takeTestEnter _ _ h
  · exact busInv_takeTestReady _ h
  · exact busInv_takeTestGo _ h
  · exact busInv_takeTestResult _ _ h
  all_goals exact h

theorem busInv_takeSequenced (k q p) (s t : State) (hq : IncomingInv s) (h : BK s) (ht : takeSequenced k q p s = .next t) : BK t := by
  unfold takeSequenced at ht
  split at ht <;> first | exact busInv_deliver _ _ { s with fe.expected := s.fe.expected + 1 } _ hq (busInv_eq h rfl rfl rfl rfl rfl) ht | (cases ht; first | exact h | exact busInv_eq h rfl rfl rfl rfl rfl)

theorem busInv_takeReady (b) (s : State) (h : BK s) : BK (takeReady b s) := busInv_eq h (by simp) (by simp) (by simp) (by simp) (by simp)

theorem busInv_takeFrame (k hd p) (s t : State) (hq : IncomingInv s) (h : BK s) (ht : takeFrame k hd p s = .next t) : BK t := by
  unfold takeFrame at ht
  have h1 : BK (takeHeader hd s) := busInv_less (less_takeHeader _ _) h
  split at ht
  · cases ht; exact busInv_takeReady _ _ h
  · obtain ⟨u, hu, rfl⟩ := thenDo_next ht
    have hu' : BK u := by
      split at hu
      · exact busInv_takeSequenced _ _ _ _ _ (incomingInv_takeHeader _ _ hq) h1 hu
      · cases hu; exact h1
    split
    · exact busInv_goAcknowledged _ hu'
    · exact hu'

theorem busInv_takeTrainAck (hd) (s : State) (h : BK s) : BK (takeTrainAck hd s) := by
  unfold takeTrainAck
  dsimp only
  (repeat' split) <;> first | exact busInv_enterRunFromRetrain _ (busInv_eq h rfl rfl rfl rfl rfl) | exact busInv_eq h rfl rfl rfl rfl rfl | exact busInv_eq h (by simp) (by simp) (by simp) (by simp) (by simp)

theorem busInv_leaderHello (hd p) (s : State) (h : BK s) : BK (leaderHello hd p s) := by
  unfold leaderHello
  split
  · exact busInv_enterRunFromHello _ _ (busInv_eq h rfl rfl rfl rfl rfl)
  · exact busInv_eq h (by simp) (by simp) (by simp) (by simp) (by simp)

theorem busInv_roleClash  (s : State) (h : BK s) : BK (roleClash s) := busInv_eq h (by simp) (by simp) (by simp) (by simp) (by simp)

theorem busInv_leaderTakes (k hd p) (s t : State) (hq : IncomingInv s) (h : BK s) (ht : leaderTakes k hd p s = .next t) : BK t := by
  unfold leaderTakes at ht
  dsimp only at ht
  (repeat' split at ht) <;> first | (cases ht; first | exact busInv_roleClash _ h | exact busInv_takeTrainAck _ _ h | exact busInv_leaderHello _ _ _ h | exact busInv_takeReady _ _ h | exact busInv_takeTrainAck _ _ (busInv_takeReady _ _ h) | exact h) | exact busInv_takeFrame _ _ _ (turnAnswered k hd s) _ hq (busInv_eq h rfl rfl rfl rfl rfl) ht

theorem busInv_followerHello (hd p) (s : State) (h : BK s) : BK (followerHello hd p s) := by
  unfold followerHello
  split <;> exact busInv_eq h (by simp) (by simp) (by simp) (by simp) (by simp)

theorem busInv_followerTurn (k hd p) (s t : State) (hq : IncomingInv s) (h : BK s) (ht : followerTurn k hd p s = .next t) : BK t := by
  unfold followerTurn at ht
  split at ht
  · exact busInv_takeFrame _ _ _ _ _ hq h ht
  · exact busInv_takeFrame _ _ _ (restartSilence s) _ hq (busInv_eq h rfl rfl rfl rfl rfl) ht
  · exact busInv_takeFrame _ _ _ (oweReply _ (restartSilence s)) _ hq (busInv_eq h rfl rfl rfl rfl rfl) ht

theorem busInv_followerTakes (k hd p) (s t : State) (hq : IncomingInv s) (h : BK s) (ht : followerTakes k hd p s = .next t) : BK t := by
  have pl : ∀ u : State, u.dbc = s.dbc → u.rt = s.rt → u.iq = s.iq → u.da = s.da → BK u := fun u e1 e2 e3 e4 => busInv_eq h e1 e2 e3 (by rw [e4]) (by rw [e4])
  unfold followerTakes at ht
  dsimp only at ht
  split at ht
  · cases ht; exact h
  split at ht
  · (repeat' split at ht) <;> cases ht
    · exact pl _ (by simp) (by simp) (by simp) (by simp)
    · exact pl _ (by simp) (by simp) (by simp) (by simp)
    · exact pl _ (by simp) (by simp) (by simp) (by simp)
    · exact h
  · (repeat' split at ht) <;> cases ht
    · exact pl _ (by simp) (by simp) (by simp) (by simp)
    · exact pl _ (by simp) (by simp) (by simp) (by simp)
    · exact h
  · (repeat' split at ht)
    · cases ht; exact pl _ (by simp) (by simp) (by simp) (by simp)
    · cases ht; exact busInv_loss _ _ (busInv_takeReady _ _ h)
    · exact busInv_followerTurn _ _ _ _ _ (incomingInv_enterRunFromRetrain _ hq) (busInv_enterRunFromRetrain _ h) ht
  · exact busInv_followerTurn _ _ _ _ _ hq h ht
  · exact busInv_followerTurn _ _ _ _ _ hq h ht
  all_goals cases ht; exact h

theorem busInv_receive (k hd p) (s t : State) (hq : IncomingInv s) (h : BK s) (ht : receive k hd p s = .next t) : BK t := by
  unfold receive at ht
  (repeat' split at ht)
  · cases ht; exact h
  · cases ht; exact busInv_takeSymbols _ _ h
  · cases ht; exact busInv_badFrame _ h
  · exact busInv_leaderTakes _ _ _ _ _ hq h ht
  · exact busInv_followerTakes _ _ _ _ _ hq h ht

theorem busInv_receiveBad (raw) (s : State) (h : BK s) : BK (receiveBad raw s) := by
  unfold receiveBad
  (repeat' split)
  · exact h
  · exact busInv_takeSymbols _ _ h
  · exact busInv_badFrame _ h

theorem less_accept (t r st) (s u : State) (hf : t ∉ s.da.localList) (hst : st ≠ .executing) (h1 : u.rt.tags = (acceptTag t r st s).rt.tags) (e1 : u.dbc = s.dbc) (e3 : u.iq = s.iq) (e4 : u.da.localList = s.da.localList) (e5 : u.da.remoteList = s.da.remoteList) : Less u s := by
  refine ⟨e1, ?_, ?_, ?_, ?_⟩ <;> (try rw [h1]) <;> (try rw [e3]) <;> (try rw [e4]) <;> (try rw [e5]) <;> (try simp only [acceptTag])
  · intro v; rw [vput_at]; split
    · intro h; exact absurd h hst
    · exact fun h => ⟨h, rfl⟩
  · exact fun _ e h h2 => ⟨e, h, h2⟩
  · intro v hv; refine ⟨hv, ?_⟩; rw [vput_at, if_neg]; rintro rfl; exact hf hv
  · exact fun _ h => ⟨h, fun e he => ⟨e, he, rfl⟩⟩

theorem busInv_submitFar (t r) (s : State) (hf : t ∉ s.da.localList) (h : BK s) : BK (submitFar t r s) := by
  have h1 := busInv_less (less_accept t r .waitCredit s (acceptTag t r .waitCredit s) hf (by simp) rfl rfl rfl rfl rfl) h
  unfold submitFar
  dsimp only
  split
  · exact h1
  · exact busInv_less (less_completeTag _ _ _) h1

theorem busInv_startTest (t) (s : State) (h : BK s) : BK (startTest t s) := by
  unfold startTest
  dsimp only
  (repeat' split) <;> first | exact busInv_less (less_completeTag _ _ _) h | skip
  exact busInv_eq (busInv_less (less_setTag t { s.rt.tags[t] with state := .testing, due := none } s (by simp) rfl) h) rfl rfl rfl rfl rfl

theorem busInv_submitNear (t r) (s : State) (hf : t ∉ s.da.localList) (h : BK s) : BK (submitNear t r s) := by
  have h1 := busInv_less (less_accept t r .queued s (acceptTag t r .queued s) hf (by simp) rfl rfl rfl rfl rfl) h
  have hq : ∀ k, r.kind = k → k.isQueued = true → BK { acceptTag t r .queued s with da.localList := (acceptTag t r .queued s).da.localList ++ [t] } := by
    intro k hk hkq
    refine ⟨h1.1, ?_, h1.2.2⟩
    intro v hv
    rcases List.mem_append.1 hv with hv | hv
    · exact h1.2.1 v hv
    · simp at hv; subst hv; simp only [acceptTag, vput_at, if_pos]; rw [hk]; exact hkq
  unfold submitNear
  dsimp only
  split
  · exact busInv_select _ (hq _ (by assumption) rfl)
  · exact busInv_select _ (hq _ (by assumption) rfl)
  · exact busInv_select _ (hq _ (by assumption) rfl)
  · exact busInv_select _ (hq _ (by assumption) rfl)
  iterate 5 exact busInv_less (less_completeTag _ _ _) (busInv_eq h1 (by simp) (by simp) (by simp) (by simp) (by simp))
  · apply busInv_dropLease; intro st; exact busInv_less (less_completeTag _ _ _) (busInv_eq h1 (by simp) (by simp) (by simp) (by simp) (by simp))
  · exact busInv_less (less_completeTag _ _ _) h1
  · exact busInv_startTest _ _ h1

theorem busInv_submit (s : State) (hr : RequestInv s) (h : BK s) : BK (submit s) := by
  unfold submit
  split
  · exact busInv_eq h rfl rfl rfl rfl rfl
  split
  · exact busInv_eq h rfl rfl rfl rfl rfl
  · rename_i t ht
    have hf : t ∉ s.da.localList := by
      rw [← hr.2.2.2.2.2.2.2.1, freeTag_state ht]; decide
    split
    · exact busInv_submitFar _ _ _ hf h
    · exact busInv_submitNear _ _ _ hf h

theorem busInv_cancelTag (t) (s : State) (h : BK s) : BK (cancelTag t s) := by
  have hc : ∀ x u, BK u → BK (cancelResult x u) := fun x u hu => busInv_eq hu rfl rfl rfl rfl rfl
  unfold cancelTag
  dsimp only
  split
  · exact hc _ _ h
  · exact hc _ _ h
  · exact hc _ _ h
  · exact hc _ _ h
  · exact hc _ _ (busInv_less (less_completeTag _ _ _) (busInv_less (less_lists (s := s) (u := { s with da.localList := s.da.localList.filter (· ≠ t) }) rfl rfl rfl (fun _ h => (List.mem_filter.1 h).1) (fun _ h => h)) h))
  · exact hc _ _ (busInv_less (less_completeTag _ _ _) h)
  · exact hc _ _ (busInv_eq (busInv_less (less_setTag t { s.rt.tags[t] with state := .cancelSent } s (by simp) rfl) h) rfl rfl rfl rfl rfl)
  · exact hc _ _ h

theorem busInv_cancel (b) (s : State) (h : BK s) : BK (cancel b s) := by
  unfold cancel; split
  · exact busInv_cancelTag _ _ h
  · exact busInv_eq h rfl rfl rfl rfl rfl

theorem busInv_deadlineExpiry (t) (s : State) (h : BK s) : BK (deadlineExpiry t s) := by
  unfold deadlineExpiry
  dsimp only
  split
  · exact h
  · rename_i due _
    have h1 : BK (s.reach due) := busInv_eq h rfl rfl rfl rfl rfl
    split
    · exact busInv_less (less_completeTag _ _ _) (busInv_less (less_lists (s := s.reach due) (u := { s.reach due with da.localList := (s.reach due).da.localList.filter (· ≠ t) }) rfl rfl rfl (fun _ h => (List.mem_filter.1 h).1) (fun _ h => h)) h1)
    iterate 3 exact busInv_less (less_completeTag _ _ _) h1
    all_goals exact h

theorem busInv_completionPop (s : State) (hr : RequestInv s) (h : BK s) : BK (completionPop s) := by
  unfold completionPop; split
  · exact h
  · rename_i c rest hc
    have hd : s.rt.tags[c.tag].state = .done := by rw [hr.2.1, hc]; simp
    have hn : c.tag ∉ s.da.localList := by rw [← hr.2.2.2.2.2.2.2.1, hd]; decide
    refine busInv_less ?_ h
    refine ⟨rfl, ?_, fun _ e h h2 => ⟨e, h, h2⟩, ?_, fun _ h => ⟨h, fun e he => ⟨e, he, rfl⟩⟩⟩ <;> simp only
    · intro u; rw [vput_at]; split
      · intro h; cases h
      · exact fun h => ⟨h, rfl⟩
    · intro u hu; refine ⟨hu, ?_⟩; rw [vput_at, if_neg]; intro e; rw [e] at hn; exact hn hu

theorem busInv_softReset (b) (s : State) (h : BK s) : BK (softReset b s) := by
  unfold softReset
  split
  · apply busInv_select
    refine busInv_less ?_ h
    refine ⟨by simp [arbiterAtSoftReset], ?_, ?_, ?_, ?_⟩
    · intro t ht; simp [arbiterAtSoftReset, restAtSoftReset, requestsAtSoftReset] at ht
    · intro i e he hs; exact ⟨e, by simpa [arbiterAtSoftReset] using he, hs⟩
    · intro t ht; simp [arbiterAtSoftReset] at ht
    · intro i hi; exact ⟨by simpa [arbiterAtSoftReset] using hi, fun e he => ⟨e, by simpa [arbiterAtSoftReset] using he, rfl⟩⟩
  · exact h

theorem busInv_writeAt (o b) (s : State) (hr : RequestInv s) (h : BK s) : BK (writeAt o b s) := by
  unfold writeAt
  split
  · exact busInv_setSpanOff _ _ (busInv_eq h rfl rfl rfl rfl rfl)
  · exact busInv_softReset _ _ h
  · unfold writePolicy; split
    · exact busInv_setPolicy _ _ h
    · exact h
  · exact busInv_eq h (by simp) (by simp) (by simp) (by simp) (by simp)
  · exact busInv_eq h rfl rfl rfl rfl rfl
  · exact busInv_eq h (by simp) (by simp) (by simp) (by simp) (by simp)
  · exact busInv_eq h rfl rfl rfl rfl rfl
  · exact busInv_eq h rfl rfl rfl rfl rfl
  · exact busInv_submit _ hr h
  · exact busInv_cancel _ _ h
  · exact busInv_completionPop _ hr h
  · exact busInv_eq h rfl rfl rfl rfl rfl
  · exact busInv_testStop _ h
  · (repeat' split) <;> first | exact h | exact busInv_eq h (by simp) (by simp) (by simp) (by simp) (by simp)

theorem busInv_portWrite (o b) (s : State) (hr : RequestInv s) (h : BK s) : BK (portWrite o b s) :=
  busInv_eq (busInv_writeAt o b (beginWrite s) hr (busInv_eq h rfl rfl rfl rfl rfl)) rfl rfl rfl rfl rfl

theorem busInv_registerWrite (w) (s : State) (hr : RequestInv s) (h : BK s) : BK (registerWrite w s) := by
  unfold registerWrite
  (repeat' split)
  · exact busInv_eq h rfl rfl rfl rfl rfl
  · exact busInv_eq h rfl rfl rfl rfl rfl
  · exact busInv_portWrite _ _ _ hr h
  · exact h

theorem busInv_reset (r e a p n) : BK (State.cleared r e a p n) := by
  refine ⟨⟨?_, ?_, ?_, ?_, ?_, ?_, ?_, ?_, ?_⟩, ?_, ?_⟩ <;> simp [State.cleared, IncomingQueue.reset, Arbiter.reset, BusController.reset, RequestTable.reset]

theorem busInv_rstnLow (c) (s : State) (h : BK s) : BK (rstnLow c s) := by
  unfold rstnLow
  dsimp only
  split
  · exact busInv_eq (busInv_reset .follower false 0x2C#7 0 s.now) rfl rfl rfl rfl rfl
  · exact busInv_eq h rfl rfl rfl rfl rfl

theorem busInv_rstnRelease (x p) (s : State) (h : BK s) : BK (rstnRelease x p s) := by
  unfold rstnRelease
  dsimp only
  (repeat' split)
  · exact busInv_eq (busInv_reset (strapRole x) x.spanEn (strapAddress x) p s.now) (by simp) (by simp) (by simp) (by simp) (by simp)
  · exact busInv_eq (busInv_reset (strapRole x) x.spanEn (strapAddress x) p s.now) rfl rfl rfl rfl rfl
  · exact h

theorem busInv_portRead (r p) (s : State) (h : BK s) : BK (portRead r p s) := busInv_eq h (by simp) (by simp) (by simp) (by simp) (by simp)

theorem keep_onPort2 (f) (s t : State) (hr : RequestInv s) (hf : ∀ s, RequestInv s → BK s → BK (f s)) (h : BK s) (ht : Host.Outcome.next (onPort f s) = (.next t : Host.Outcome State Fault Refusal)) : BK t := by
  cases ht
  unfold onPort
  split
  · exact h
  · exact hf _ hr h

theorem busInv_pinChange (l v) (s : State) (h : BK s) : BK (pinChange l v s) := busInv_eq h (by simp) (by simp) (by simp) (by simp) (by simp)

theorem busInv_debounceEnd (l) (s : State) (h : BK s) : BK (debounceEnd l s) := busInv_eq h (by simp) (by simp) (by simp) (by simp) (by simp)

theorem busInv_testFlagPulseEnd (s : State) (h : BK s) : BK (testFlagPulseEnd s) := by unfold testFlagPulseEnd; split <;> exact busInv_eq h rfl rfl rfl rfl rfl

end Sys2Proof.Laws.BusInv
end

