-- ==== Sys2Proof/Laws/EventInv.lean ====
section
/-! SUPPORT. Each operation keeps the event queues in form (EventInv). -/
namespace Sys2Proof.Laws.EventInv
open Sys2Proof.Machine
set_option maxHeartbeats 2000000

theorem same_iff (a b : EventRecord) : sameEvent a b = true ↔ a.kind = b.kind ∧ a.source = b.source ∧ a.detail = b.detail := by
  simp [sameEvent, and_assoc]

def key (a : EventRecord) : EventKind × Origin × Byte := (a.kind, a.source, a.detail)

theorem same_key (a b : EventRecord) : sameEvent a b = decide (key a = key b) := by
  unfold sameEvent key
  simp only [Prod.mk.injEq, Bool.decide_and, Bool.and_assoc]

theorem isOverflow_key (a : EventRecord) : isOverflow a = decide ((key a).1 = .overflow) := rfl

/-- form only depends on keys and counts -/

theorem queueForm_map (cap) (q : List EventRecord) (f : EventRecord → EventRecord) (hk : ∀ r, key (f r) = key r)
   (hc : ∀ r, 1 ≤ r.count ∧ r.count ≤ 255 → 1 ≤ (f r).count ∧ (f r).count ≤ 255) (h : queueForm cap q) : queueForm cap (q.map f) := by
  obtain ⟨h1, h2, h3, h4, h5⟩ := h
  have hov : ∀ r, isOverflow (f r) = isOverflow r := fun r => by simp [isOverflow_key, hk]
  refine ⟨by simpa using h1, ?_, ?_, ?_, ?_⟩
  · simpa [List.any_map, Function.comp_def, hov] using h2
  · simpa [List.pairwise_map, same_key, hk] using h3
  · simpa [List.pairwise_map, hov] using h4
  · intro r hr
    obtain ⟨x, hx, rfl⟩ := List.mem_map.1 hr
    exact hc x (h5 x hx)

theorem queueForm_insert (cap) (q) (r : EventRecord) (h0 : 2 ≤ cap) (hr : 1 ≤ r.count) (hr2 : r.count ≤ 255) (h : queueForm cap q) : queueForm cap (insertEvent cap q r) := by
  unfold insertEvent
  split
  · apply queueForm_map _ _ _ _ _ h
    · intro x; split <;> rfl
    · intro x hx; split <;> constructor <;> (try dsimp only) <;> omega
  split
  · apply queueForm_map _ _ _ _ _ h
    · intro x; split <;> rfl
    · intro x hx; split <;> constructor <;> (try dsimp only) <;> omega
  rename_i hs ho
  obtain ⟨h1, h2, h3, h4, h5⟩ := h
  simp only [List.any_eq_true, not_exists, not_and, Bool.not_eq_true] at hs ho
  split
  · refine ⟨by simp; omega, by simp; omega, ?_, ?_, ?_⟩
    · simp [List.pairwise_append, h3]; exact hs
    · simp [List.pairwise_append, h4]; exact fun a ha => ho a ha
    · simp; rintro x (hx | rfl)
      · exact h5 x hx
      · omega
  · have hlt : q.length < cap := by
      refine Nat.lt_of_le_of_ne h1 fun e => ?_
      have := h2 e
      simp only [List.any_eq_true] at this
      obtain ⟨x, hx, hx2⟩ := this
      simp [ho x hx] at hx2
    refine ⟨by simp; omega, ?_, ?_, ?_, ?_⟩
    · simp [overflowRecord, isOverflow]
    · simp [List.pairwise_append, h3]
      intro a ha
      have := ho a ha
      simp [isOverflow] at this
      simp [sameEvent, overflowRecord, this]
    · simp [List.pairwise_append, h4]; exact fun a ha => ho a ha
    · simp; rintro x (hx | rfl)
      · exact h5 x hx
      · simp [overflowRecord]; omega

theorem queueForm_carried (q) (r : EventRecord) (hr : 1 ≤ r.count) (hr2 : r.count ≤ 255) (h : queueForm 16 q) : queueForm 16 (insertCarried q r) := by
  unfold insertCarried
  split
  · rename_i hs
    obtain ⟨h1, h2, h3, h4, h5⟩ := h
    obtain ⟨-, -, ho⟩ := hs
    simp only [List.any_eq_true, not_exists, not_and, Bool.not_eq_true] at ho
    have hlt : q.length < 16 := by
      refine Nat.lt_of_le_of_ne h1 fun e => ?_
      have := h2 e
      simp only [List.any_eq_true] at this
      obtain ⟨x, hx, hx2⟩ := this
      simp [ho x hx] at hx2
    refine ⟨by simp; omega, ?_, ?_, ?_, ?_⟩
    · simp [overflowRecord, isOverflow]
    · simp [List.pairwise_append, h3]
      intro a ha
      have := ho a ha
      simp [isOverflow] at this
      simp [sameEvent, overflowRecord, this]
    · simp [List.pairwise_append, h4]; exact fun a ha => ho a ha
    · simp; rintro x (hx | rfl)
      · exact h5 x hx
      · simp [overflowRecord]; omega
  · exact queueForm_insert 16 q r (by omega) hr hr2 h

theorem queueForm_tail (cap) (r q) (h : queueForm cap (r :: q)) (h0 : 0 < cap): queueForm cap q := by
  obtain ⟨h1, h2, h3, h4, h5⟩ := h
  simp at h1 h3 h4 h5
  refine ⟨by omega, ?_, h3.2, h4.2, h5.2⟩
  intro e; omega

theorem queueForm_nil (cap) (h0 : 0 < cap) : queueForm cap [] := by
  simp [queueForm]; omega

theorem insert_source (cap q r) (hr : r.source = .localHost) (h : ∀ x ∈ q, x.source = .localHost) : ∀ x ∈ insertEvent cap q r, x.source = .localHost := by
  unfold insertEvent coalesce countOverflow
  intro x hx
  (repeat' split at hx) <;> simp at hx
  · obtain ⟨a, ha, rfl⟩ := hx
    split <;> exact h a ha
  · obtain ⟨a, ha, rfl⟩ := hx
    split <;> exact h a ha
  · rcases hx with hx | rfl
    · exact h x hx
    · exact hr
  · rcases hx with hx | rfl
    · exact h x hx
    · rfl

def evOk (u : EventUnit) : Prop := queueForm 16 u.eventQueue ∧ queueForm 8 u.outbox ∧ (∀ r ∈ u.outbox, r.source = .localHost)

theorem EventInv_eq (s : State) : EventInv s = evOk s.eu := rfl

@[simp] theorem eventInv_raiseLocal (k d a) (s : State) (h : evOk s.eu) : evOk (raiseLocal k d a s).eu := by
  obtain ⟨h1, h2, h3⟩ := h
  exact ⟨queueForm_insert 16 _ _ (by omega) (by simp) (by simp) h1, h2, h3⟩

@[simp] theorem eventInv_raiseRemote (k d a) (s : State) (h : evOk s.eu) : evOk (raiseRemote k d a s).eu := by
  unfold raiseRemote
  split
  · obtain ⟨h1, h2, h3⟩ := h
    exact ⟨h1, queueForm_insert 8 _ _ (by omega) (by simp) (by simp) h2, insert_source _ _ _ rfl h3⟩
  · exact h

@[simp] theorem eventInv_raiseFor (o k d a) (s : State) (h : evOk s.eu) : evOk (raiseFor o k d a s).eu := by
  unfold raiseFor
  (try dsimp only)
  (repeat' split) <;> simp [*]

@[simp] theorem eventInv_reportChange (r l v) (s : State) (h : evOk s.eu) : evOk (reportChange r l v s).eu := by
  unfold reportChange
  (try dsimp only)
  (repeat' split) <;> simp [*]

@[simp] theorem eventInv_takeLevel (l v) (s : State) (h : evOk s.eu) : evOk (takeLevel l v s).eu := by
  unfold takeLevel
  (try dsimp only)
  (repeat' split) <;> simp [*]

@[simp] theorem eventInv_pinChange (l v) (s : State) (h : evOk s.eu) : evOk (pinChange l v s).eu := by
  unfold pinChange
  (try dsimp only)
  (repeat' split) <;> simp [*]

@[simp] theorem eventInv_debounceEnd (l) (s : State) (h : evOk s.eu) : evOk (debounceEnd l s).eu := by
  unfold debounceEnd
  (try dsimp only)
  (repeat' split) <;> simp [*]

@[simp] theorem eventInv_retime (l o) (s : State) (h : evOk s.eu) : evOk (retime l o s).eu := by
  unfold retime
  (try dsimp only)
  (repeat' split) <;> simp [*]

@[simp] theorem eventInv_lineConfig (o c) (s : State) (h : evOk s.eu) : evOk ((lineConfig o c s).2).eu := by
  unfold lineConfig
  (try dsimp only)
  (repeat' split) <;> simp [*]

@[simp] theorem eventInv_runLine (o r) (s : State) (h : evOk s.eu) : evOk ((runLine o r s).2).eu := by
  unfold runLine
  (try dsimp only)
  (repeat' split) <;> simp [*]

@[simp] theorem eventInv_applyPair (b) (s : State) (h : evOk s.eu) : evOk (applyPair s b).eu := by
  unfold applyPair
  (try dsimp only)
  (repeat' split) <;> simp [*]

@[simp] theorem eventInv_applyPairs (p) (s : State) (h : evOk s.eu) : evOk (applyPairs p s).eu := by
  induction p generalizing s with
  | nil => simpa [applyPairs]
  | cons b p ih => simpa [applyPairs] using ih (applyPair s b) (by simp [*])

@[simp] theorem eventInv_lostFold (ls : List LineNo) (s : State) (h : evOk s.eu) : evOk (ls.foldl (fun s l => raiseRemote .lineLost (toByte l.val) 0 s) s).eu := by
  induction ls generalizing s with
  | nil => exact h
  | cons b p ih => exact ih _ (by simp [*])

@[simp] theorem eventInv_setRemoteLines (m) (s : State) (h : evOk s.eu) : evOk (setRemoteLines m s).eu := by
  unfold setRemoteLines
  apply eventInv_lostFold; simp [*]

@[simp] theorem eventInv_leaseExpiry  (s : State) (h : evOk s.eu) : evOk (leaseExpiry s).eu := by
  unfold leaseExpiry
  (try dsimp only)
  (repeat' split) <;> simp [*]

@[simp] theorem eventInv_setPolicy (p) (s : State) (h : evOk s.eu) : evOk (setPolicy p s).eu := by
  unfold setPolicy
  (try dsimp only)
  (repeat' split) <;> simp [*]

@[simp] theorem eventInv_endWork (a c) (s : State) (h : evOk s.eu) : evOk (endWork a c s).eu := by
  unfold endWork
  (try dsimp only)
  (repeat' split) <;> simp [*]

@[simp] theorem eventInv_transactionEnd (a c) (s : State) (h : evOk s.eu) : evOk (transactionEnd a c s).eu := by
  unfold transactionEnd
  (try dsimp only)
  (repeat' split) <;> simp [*]

@[simp] theorem eventInv_endRecovery (c) (s : State) (h : evOk s.eu) : evOk (endRecovery c s).eu := by
  unfold endRecovery
  (try dsimp only)
  (repeat' split) <;> simp [*]

@[simp] theorem eventInv_stretchLimit (a c) (s : State) (h : evOk s.eu) : evOk (stretchLimit a c s).eu := by
  unfold stretchLimit
  (try dsimp only)
  (repeat' split) <;> simp [*]

@[simp] theorem eventInv_recoveryEnd (c) (s : State) (h : evOk s.eu) : evOk (recoveryEnd c s).eu := by
  unfold recoveryEnd
  (try dsimp only)
  (repeat' split) <;> simp [*]

@[simp] theorem eventInv_raiseTestDone (a c) (s : State) (h : evOk s.eu) : evOk (raiseTestDone a c s).eu := by
  unfold raiseTestDone
  (try dsimp only)
  (repeat' split) <;> simp [*]

@[simp] theorem eventInv_settleTest  (s : State) (h : evOk s.eu) : evOk (settleTest s).eu := by
  unfold settleTest
  (try dsimp only)
  (repeat' split) <;> simp [*]

@[simp] theorem eventInv_takeTestResult (p) (s : State) (h : evOk s.eu) : evOk (takeTestResult p s).eu := by
  unfold takeTestResult
  (try dsimp only)
  (repeat' split) <;> simp [*]

@[simp] theorem eventInv_testAtLoss  (s : State) (h : evOk s.eu) : evOk (testAtLoss s).eu := by
  unfold testAtLoss
  dsimp only
  (repeat' split) <;> first | exact h | simp [*]

@[simp] theorem eventInv_roleClash  (s : State) (h : evOk s.eu) : evOk (roleClash s).eu := by
  unfold roleClash
  (try dsimp only)
  (repeat' split) <;> simp [*]

@[simp] theorem eventInv_eventsAtLoss (r) (s : State) (h : evOk s.eu) : evOk (eventsAtLoss r s).eu := by
  obtain ⟨h1, h2, h3⟩ := h
  exact ⟨queueForm_insert 16 _ _ (by omega) (by simp) (by simp) h1, queueForm_nil 8 (by omega), by intro r hr; cases hr⟩

@[simp] theorem eventInv_leaseAtLoss  (s : State) (h : evOk s.eu) : evOk (leaseAtLoss s).eu := by
  unfold leaseAtLoss
  split <;> first | exact h | exact eventInv_raiseLocal _ _ _ _ h

@[simp] theorem eventInv_loss (r) (s : State) (h : evOk s.eu) : evOk (loss r s).eu := by
  unfold loss
  simp (maxDischargeDepth := 8) [*]

@[simp] theorem eventInv_enterRunFromHello (r) (s : State) (h : evOk s.eu) : evOk (enterRunFromHello r s).eu := by
  unfold enterRunFromHello
  (try dsimp only)
  (repeat' split) <;> simp [*]

@[simp] theorem eventInv_enterRunFromRetrain  (s : State) (h : evOk s.eu) : evOk (enterRunFromRetrain s).eu := by
  unfold enterRunFromRetrain
  (try dsimp only)
  (repeat' split) <;> simp [*]

@[simp] theorem eventInv_setSpanOff (r) (s : State) (h : evOk s.eu) : evOk (setSpanOff r s).eu := by
  unfold setSpanOff
  (try dsimp only)
  (repeat' split) <;> simp [*]

@[simp] theorem eventInv_silenceLimit  (s : State) (h : evOk s.eu) : evOk (silenceLimit s).eu := by
  unfold silenceLimit
  (try dsimp only)
  (repeat' split) <;> simp [*]

@[simp] theorem eventInv_retrainLimit  (s : State) (h : evOk s.eu) : evOk (retrainLimit s).eu := by
  unfold retrainLimit
  (try dsimp only)
  (repeat' split) <;> simp [*]

@[simp] theorem eventInv_runRemote (i r) (s : State) (h : evOk s.eu) : evOk (runRemote i r s).eu := by
  unfold runRemote
  (try dsimp only)
  (repeat' split) <;> (try simp [*, dropLease]) <;> (try split) <;> simp [*]

@[simp] theorem eventInv_handleReq (i r) (s : State) (h : evOk s.eu) : evOk (handleReq i r s).eu := by
  unfold handleReq
  (try dsimp only)
  (repeat' split) <;> simp [*]

@[simp] theorem eventInv_takeEvent (p) (s : State) (h : evOk s.eu) : evOk (takeEvent p s).eu := by
  unfold takeEvent
  obtain ⟨h1, h2, h3⟩ := h
  split
  · exact ⟨h1, h2, h3⟩
  · refine ⟨queueForm_carried _ _ ?_ ?_ h1, h2, h3⟩
    · simp <;> omega
    · simp <;> omega

@[simp] theorem eventInv_buildFrame (k) (s : State) (h : evOk s.eu) : evOk (buildFrame k s).eu := by
  unfold buildFrame
  (repeat' split) <;> simp [*]
  rename_i r rest hr
  obtain ⟨h1, h2, h3⟩ := h
  rw [hr] at h2 h3
  exact ⟨h1, queueForm_tail 8 _ _ h2 (by omega), fun x hx => h3 x (by simp [hx])⟩

@[simp] theorem eventInv_sendSelected  (s : State) (h : evOk s.eu) : evOk (sendSelected s).eu := by
  unfold sendSelected
  (try dsimp only)
  (repeat' split) <;> simp [*]

@[simp] theorem eventInv_turnOpen  (s : State) (h : evOk s.eu) : evOk (turnOpen s).eu := by
  unfold turnOpen
  (try dsimp only)
  (repeat' split) <;> simp [*]

@[simp] theorem eventInv_followerReply  (s : State) (h : evOk s.eu) : evOk (followerReply s).eu := by
  unfold followerReply
  (try dsimp only)
  (repeat' split) <;> simp [*]

@[simp] theorem eventInv_frameSent  (s : State) (h : evOk s.eu) : evOk (frameSent s).eu := by
  unfold frameSent
  (try dsimp only)
  (repeat' split) <;> simp [*]

@[simp] theorem eventInv_missTurn (g) (s : State) (h : evOk s.eu) : evOk (missTurn g s).eu := by
  unfold missTurn
  (try dsimp only)
  (repeat' split) <;> simp [*]

@[simp] theorem eventInv_replyWindowEnd  (s : State) (h : evOk s.eu) : evOk (replyWindowEnd s).eu := by
  unfold replyWindowEnd
  (try dsimp only)
  (repeat' split) <;> simp [*]

@[simp] theorem eventInv_badFrame  (s : State) (h : evOk s.eu) : evOk (badFrame s).eu := by
  unfold badFrame
  (try dsimp only)
  (repeat' split) <;> simp [*]

@[simp] theorem eventInv_takeReady (r) (s : State) (h : evOk s.eu) : evOk (takeReady r s).eu := by
  unfold takeReady
  (try dsimp only)
  (repeat' split) <;> simp [*]

@[simp] theorem eventInv_takeHeader (hd) (s : State) (h : evOk s.eu) : evOk (takeHeader hd s).eu := by
  unfold takeHeader
  (try dsimp only)
  (repeat' split) <;> simp [*]

@[simp] theorem eventInv_takeTrainAck (hd) (s : State) (h : evOk s.eu) : evOk (takeTrainAck hd s).eu := by
  unfold takeTrainAck
  (try dsimp only)
  (repeat' split) <;> simp [*]

@[simp] theorem eventInv_leaderHello (hd p) (s : State) (h : evOk s.eu) : evOk (leaderHello hd p s).eu := by
  unfold leaderHello
  (try dsimp only)
  (repeat' split) <;> simp [*]

@[simp] theorem eventInv_receiveBad (hd) (s : State) (h : evOk s.eu) : evOk (receiveBad hd s).eu := by
  unfold receiveBad
  (try dsimp only)
  (repeat' split) <;> simp [*]

@[simp] theorem eventInv_submitNear (t r) (s : State) (h : evOk s.eu) : evOk (submitNear t r s).eu := by
  unfold submitNear
  (try dsimp only)
  (repeat' split) <;> (try simp [*, dropLease]) <;> (try split) <;> simp [*]

@[simp] theorem eventInv_submit  (s : State) (h : evOk s.eu) : evOk (submit s).eu := by
  unfold submit
  (try dsimp only)
  (repeat' split) <;> simp [*]

@[simp] theorem eventInv_eventPop  (s : State) (h : evOk s.eu) : evOk (eventPop s).eu := by
  unfold eventPop
  obtain ⟨h1, h2, h3⟩ := h
  refine ⟨?_, h2, h3⟩
  cases hq : s.eu.eventQueue with
  | nil => simpa [hq] using h1
  | cons r q => rw [hq] at h1; exact queueForm_tail 16 _ _ h1 (by omega)

@[simp] theorem eventInv_restAtSoftReset  (s : State) (h : evOk s.eu) : evOk (restAtSoftReset s).eu := by
  obtain ⟨h1, h2, h3⟩ := h
  exact ⟨queueForm_nil 16 (by omega), h2, h3⟩

@[simp] theorem eventInv_softReset (b) (s : State) (h : evOk s.eu) : evOk (softReset b s).eu := by
  unfold softReset
  (try dsimp only)
  (repeat' split) <;> simp [*]

@[simp] theorem eventInv_writeHostCtrl (b) (s : State) (h : evOk s.eu) : evOk (writeHostCtrl b s).eu := by
  unfold writeHostCtrl
  (try dsimp only)
  (repeat' split) <;> simp [*]

@[simp] theorem eventInv_writePolicy (b) (s : State) (h : evOk s.eu) : evOk (writePolicy b s).eu := by
  unfold writePolicy
  (try dsimp only)
  (repeat' split) <;> simp [*]

@[simp] theorem eventInv_writeRemoteLines (b) (s : State) (h : evOk s.eu) : evOk (writeRemoteLines b s).eu := by
  unfold writeRemoteLines
  (try dsimp only)
  (repeat' split) <;> simp [*]

@[simp] theorem eventInv_writeAt (o b) (s : State) (h : evOk s.eu) : evOk (writeAt o b s).eu := by
  unfold writeAt
  (try dsimp only)
  (repeat' split) <;> simp [*]

@[simp] theorem eventInv_portWrite (o b) (s : State) (h : evOk s.eu) : evOk (portWrite o b s).eu := by
  unfold portWrite
  (try dsimp only)
  (repeat' split) <;> simp [*]

@[simp] theorem eventInv_registerWrite (w) (s : State) (h : evOk s.eu) : evOk (registerWrite w s).eu := by
  unfold registerWrite
  (try dsimp only)
  (repeat' split) <;> simp [*]

theorem evOk_nil : evOk EventUnit.reset := ⟨queueForm_nil 16 (by omega), queueForm_nil 8 (by omega), by simp [EventUnit.reset]⟩

@[simp] theorem eventInv_rstnLow (c) (s : State) (h : evOk s.eu) : evOk (rstnLow c s).eu := by
  unfold rstnLow
  dsimp only
  split
  · exact evOk_nil
  · exact h

@[simp] theorem eventInv_rstnRelease (x p) (s : State) (h : evOk s.eu) : evOk (rstnRelease x p s).eu := by
  unfold rstnRelease
  dsimp only
  (repeat' split)
  · simp; exact evOk_nil
  · exact evOk_nil
  · exact h

theorem eventInv_takeReq (p) (s t : State) (h : evOk s.eu) (ht : takeReq p s = .next t) : evOk t.eu := by
  unfold takeReq at ht
  split at ht <;> cases ht <;> simp [*]

theorem eventInv_deliver (k p) (s t : State) (h : evOk s.eu) (ht : deliver k p s = .next t) : evOk t.eu := by
  unfold deliver at ht
  split at ht <;> first | exact eventInv_takeReq _ _ _ h ht | skip
  all_goals cases ht
  all_goals simp [*]

theorem eventInv_takeSequenced (k q p) (s t : State) (h : evOk s.eu) (ht : takeSequenced k q p s = .next t) : evOk t.eu := by
  unfold takeSequenced at ht
  split at ht <;> first | exact eventInv_deliver _ _ { s with fe.expected := s.fe.expected + 1 } _ h ht | (cases ht; exact h)

theorem eventInv_takeFrame (k hd p) (s t : State) (h : evOk s.eu) (ht : takeFrame k hd p s = .next t) : evOk t.eu := by
  unfold takeFrame at ht
  have h1 : evOk (takeHeader hd s).eu := by simp [*]
  split at ht
  · cases ht; simp [*]
  · simp only [thenDo] at ht
    split at ht
    · rename_i u hu
      have hu' : evOk u.eu := by
        split at hu
        · exact eventInv_takeSequenced _ _ _ _ _ h1 hu
        · cases hu; exact h1
      cases ht
      split
      · simp [*]
      · exact hu'
    · cases ht
    · cases ht

theorem eventInv_leaderTakes (k hd p) (s t : State) (h : evOk s.eu) (ht : leaderTakes k hd p s = .next t) : evOk t.eu := by
  unfold leaderTakes at ht
  dsimp only at ht
  (repeat' split at ht) <;> first | (exact eventInv_takeFrame _ _ _ (turnAnswered k hd s) _ (by simpa) ht) | (cases ht; simp [*])

theorem eventInv_followerTurn (k hd p) (s t : State) (h : evOk s.eu) (ht : followerTurn k hd p s = .next t) : evOk t.eu := by
  unfold followerTurn at ht
  (repeat' split at ht) <;> first | (cases ht; simp [*]; done) | exact eventInv_takeFrame _ _ _ _ _ (by simpa) ht

theorem eventInv_followerTakes (k hd p) (s t : State) (h : evOk s.eu) (ht : followerTakes k hd p s = .next t) : evOk t.eu := by
  unfold followerTakes at ht
  dsimp only at ht
  (repeat' split at ht) <;> first | (cases ht; simp [*]; done) | exact eventInv_followerTurn _ _ _ _ _ (by simp [*]) ht

theorem eventInv_receive (k hd p) (s t : State) (h : evOk s.eu) (ht : receive k hd p s = .next t) : evOk t.eu := by
  unfold receive at ht
  (repeat' split at ht) <;> first | (cases ht; simp [*]; done) | exact eventInv_leaderTakes _ _ _ _ _ h ht | exact eventInv_followerTakes _ _ _ _ _ h ht

@[simp] theorem eventInv_onChip (f : State → State) (s : State) (hf : evOk (f s).eu) (h : evOk s.eu) : evOk (onChip f s).eu := by
  unfold onChip; split <;> assumption

@[simp] theorem eventInv_onPort (f : State → State) (s : State) (hf : evOk (f s).eu) (h : evOk s.eu) : evOk (onPort f s).eu := by
  unfold onPort; split <;> assumption

@[simp] theorem eventInv_pulse (s : State) (h : evOk s.eu) : evOk (testFlagPulseEnd s).eu := by
  unfold testFlagPulseEnd; split <;> simp [*]

end Sys2Proof.Laws.EventInv
end

