-- ==== Sys2Proof/Laws/LinkInv.lean ====
section
/-! SUPPORT. Each operation keeps timers and phases fitting the link state (LinkInv). -/
namespace Sys2Proof.Laws.LinkInv
open Sys2Proof.Machine Sys2Proof.Laws.RequestInv
set_option maxHeartbeats 2000000

theorem linkInv_drainLimit (s : State) (h : LinkInv s) : LinkInv (drainLimit s) := by
  unfold drainLimit
  split
  · exact h
  · rename_i due hd
    simp only [LinkInv] at h ⊢
    obtain ⟨h1, h2, h3, h4, h5⟩ := h
    have hp := h3.1 (by simp [hd])
    rw [hp] at h2
    simp only [phaseFits] at h2
    split <;> (first | done | (simp_all [LinkInv, timersFit, phaseFits, testTimersFit, Config.lockCount, Config.missedLimit, endTest, becomeNonOwner, returnToRun, enterTest, leaveTest]; done) | (cases hst : s.slc.state <;> cases hph : s.lt.phase <;> simp_all [LinkInv, timersFit, phaseFits, testTimersFit, Config.lockCount, Config.missedLimit, endTest, becomeNonOwner, returnToRun, enterTest, leaveTest]; done) | (cases hst : s.slc.state <;> cases hph : s.lt.phase <;> simp_all [LinkInv, timersFit, phaseFits, testTimersFit, Config.lockCount, Config.missedLimit, endTest, becomeNonOwner, returnToRun, enterTest, leaveTest] <;> omega))

theorem linkInv_startTest (t : Tag) (s : State) (h : LinkInv s) : LinkInv (startTest t s) := by
  unfold startTest
  simp only
  (repeat' split) <;> (first | done | (simp_all [LinkInv, timersFit, phaseFits, testTimersFit, Config.lockCount, Config.missedLimit, endTest, becomeNonOwner, returnToRun, enterTest, leaveTest]; done) | (cases hst : s.slc.state <;> cases hph : s.lt.phase <;> simp_all [LinkInv, timersFit, phaseFits, testTimersFit, Config.lockCount, Config.missedLimit, endTest, becomeNonOwner, returnToRun, enterTest, leaveTest]; done) | (cases hst : s.slc.state <;> cases hph : s.lt.phase <;> simp_all [LinkInv, timersFit, phaseFits, testTimersFit, Config.lockCount, Config.missedLimit, endTest, becomeNonOwner, returnToRun, enterTest, leaveTest] <;> omega))

theorem linkInv_takeTestEnter (p) (s : State) (hs : s.slc.state.hasTurns = true) (h : LinkInv s) : LinkInv (takeTestEnter p s) := by
  unfold takeTestEnter
  (repeat' split) <;> cases hst : s.slc.state <;> simp_all [LinkInv, timersFit, phaseFits, testTimersFit, becomeNonOwner, LinkState.hasTurns]

theorem linkInv_takeTestReady (s : State) (h : LinkInv s) : LinkInv (takeTestReady s) := by
  unfold takeTestReady
  (repeat' split) <;> (first | done | (simp_all [LinkInv, timersFit, phaseFits, testTimersFit, Config.lockCount, Config.missedLimit, endTest, becomeNonOwner, returnToRun, enterTest, leaveTest]; done) | (cases hst : s.slc.state <;> cases hph : s.lt.phase <;> simp_all [LinkInv, timersFit, phaseFits, testTimersFit, Config.lockCount, Config.missedLimit, endTest, becomeNonOwner, returnToRun, enterTest, leaveTest]; done) | (cases hst : s.slc.state <;> cases hph : s.lt.phase <;> simp_all [LinkInv, timersFit, phaseFits, testTimersFit, Config.lockCount, Config.missedLimit, endTest, becomeNonOwner, returnToRun, enterTest, leaveTest] <;> omega))

theorem linkInv_takeTestGo (s : State) (h : LinkInv s) : LinkInv (takeTestGo s) := by
  unfold takeTestGo
  (repeat' split) <;> (first | done | (simp_all [LinkInv, timersFit, phaseFits, testTimersFit, Config.lockCount, Config.missedLimit, endTest, becomeNonOwner, returnToRun, enterTest, leaveTest]; done) | (cases hst : s.slc.state <;> cases hph : s.lt.phase <;> simp_all [LinkInv, timersFit, phaseFits, testTimersFit, Config.lockCount, Config.missedLimit, endTest, becomeNonOwner, returnToRun, enterTest, leaveTest]; done) | (cases hst : s.slc.state <;> cases hph : s.lt.phase <;> simp_all [LinkInv, timersFit, phaseFits, testTimersFit, Config.lockCount, Config.missedLimit, endTest, becomeNonOwner, returnToRun, enterTest, leaveTest] <;> omega))

theorem linkInv_enterTest (s : State) (hp : s.lt.phase = .draining) (h : LinkInv s) : LinkInv (enterTest s) := by
  cases hg : s.lt.generator <;> (first | done | (simp_all [LinkInv, timersFit, phaseFits, testTimersFit, Config.lockCount, Config.missedLimit, endTest, becomeNonOwner, returnToRun, enterTest, leaveTest]; done) | (cases hst : s.slc.state <;> cases hph : s.lt.phase <;> simp_all [LinkInv, timersFit, phaseFits, testTimersFit, Config.lockCount, Config.missedLimit, endTest, becomeNonOwner, returnToRun, enterTest, leaveTest]; done) | (cases hst : s.slc.state <;> cases hph : s.lt.phase <;> simp_all [LinkInv, timersFit, phaseFits, testTimersFit, Config.lockCount, Config.missedLimit, endTest, becomeNonOwner, returnToRun, enterTest, leaveTest] <;> omega))

theorem linkInv_goAcknowledged (s : State) (h : LinkInv s) : LinkInv (goAcknowledged s) := by
  unfold goAcknowledged
  split
  · split
    · exact linkInv_enterTest s (by simp_all) h
    · (first | done | (simp_all [LinkInv, timersFit, phaseFits, testTimersFit, Config.lockCount, Config.missedLimit, endTest, becomeNonOwner, returnToRun, enterTest, leaveTest]; done) | (cases hst : s.slc.state <;> cases hph : s.lt.phase <;> simp_all [LinkInv, timersFit, phaseFits, testTimersFit, Config.lockCount, Config.missedLimit, endTest, becomeNonOwner, returnToRun, enterTest, leaveTest]; done) | (cases hst : s.slc.state <;> cases hph : s.lt.phase <;> simp_all [LinkInv, timersFit, phaseFits, testTimersFit, Config.lockCount, Config.missedLimit, endTest, becomeNonOwner, returnToRun, enterTest, leaveTest] <;> omega))
  · exact h

theorem linkInv_leaveTest (r) (s : State) (hs : s.slc.state = .test) (h : LinkInv s) : LinkInv (leaveTest r s) := by
  unfold leaveTest
  have : s.lt.phase = .running := by
    obtain ⟨-, h, -⟩ := h
    cases hp : s.lt.phase <;> simp_all [phaseFits]
  (first | done | (simp_all [LinkInv, timersFit, phaseFits, testTimersFit, Config.lockCount, Config.missedLimit, endTest, becomeNonOwner, returnToRun, enterTest, leaveTest]; done) | (cases hst : s.slc.state <;> cases hph : s.lt.phase <;> simp_all [LinkInv, timersFit, phaseFits, testTimersFit, Config.lockCount, Config.missedLimit, endTest, becomeNonOwner, returnToRun, enterTest, leaveTest]; done) | (cases hst : s.slc.state <;> cases hph : s.lt.phase <;> simp_all [LinkInv, timersFit, phaseFits, testTimersFit, Config.lockCount, Config.missedLimit, endTest, becomeNonOwner, returnToRun, enterTest, leaveTest] <;> omega))

theorem gen_state {s : State} (h : generating s = true) : s.slc.state = .test := by simp_all [generating]

theorem chk_state {s : State} (h : checking s = true) : s.slc.state = .test := by simp_all [checking]

theorem linkInv_reach (s : State) (t) (h : LinkInv s) : LinkInv (s.reach t) := by simpa [LinkInv, timersFit] using h

theorem linkInv_testDuration (s : State) (h : LinkInv s) : LinkInv (testDuration s) := by
  unfold testDuration
  (repeat' split) <;> try exact h
  exact linkInv_leaveTest _ _ (by simp [gen_state, *]) (linkInv_reach _ _ h)

theorem linkInv_checkerDuration (s : State) (h : LinkInv s) : LinkInv (checkerDuration s) := by
  unfold checkerDuration
  (repeat' split) <;> (first | done | (simp_all [LinkInv, timersFit, phaseFits, testTimersFit, Config.lockCount, Config.missedLimit, endTest, becomeNonOwner, returnToRun, enterTest, leaveTest]; done) | (cases hst : s.slc.state <;> cases hph : s.lt.phase <;> simp_all [LinkInv, timersFit, phaseFits, testTimersFit, Config.lockCount, Config.missedLimit, endTest, becomeNonOwner, returnToRun, enterTest, leaveTest]; done) | (cases hst : s.slc.state <;> cases hph : s.lt.phase <;> simp_all [LinkInv, timersFit, phaseFits, testTimersFit, Config.lockCount, Config.missedLimit, endTest, becomeNonOwner, returnToRun, enterTest, leaveTest] <;> omega))

theorem linkInv_patternLost (s : State) (h : LinkInv s) : LinkInv (patternLost s) := by
  unfold patternLost
  (repeat' split) <;> try exact h
  exact linkInv_leaveTest _ _ (by simp [chk_state, *]) (linkInv_reach _ _ h)

theorem linkInv_testStop (s : State) (h : LinkInv s) : LinkInv (testStop s) := by
  unfold testStop
  (repeat' split)
  · have := linkInv_leaveTest .stopped s (by simp [gen_state, *]) h
    simpa [LinkInv, timersFit, phaseFits, testTimersFit] using this
  · (first | done | (simp_all [LinkInv, timersFit, phaseFits, testTimersFit, Config.lockCount, Config.missedLimit, endTest, becomeNonOwner, returnToRun, enterTest, leaveTest]; done) | (cases hst : s.slc.state <;> cases hph : s.lt.phase <;> simp_all [LinkInv, timersFit, phaseFits, testTimersFit, Config.lockCount, Config.missedLimit, endTest, becomeNonOwner, returnToRun, enterTest, leaveTest]; done) | (cases hst : s.slc.state <;> cases hph : s.lt.phase <;> simp_all [LinkInv, timersFit, phaseFits, testTimersFit, Config.lockCount, Config.missedLimit, endTest, becomeNonOwner, returnToRun, enterTest, leaveTest] <;> omega))
  · (first | done | (simp_all [LinkInv, timersFit, phaseFits, testTimersFit, Config.lockCount, Config.missedLimit, endTest, becomeNonOwner, returnToRun, enterTest, leaveTest]; done) | (cases hst : s.slc.state <;> cases hph : s.lt.phase <;> simp_all [LinkInv, timersFit, phaseFits, testTimersFit, Config.lockCount, Config.missedLimit, endTest, becomeNonOwner, returnToRun, enterTest, leaveTest]; done) | (cases hst : s.slc.state <;> cases hph : s.lt.phase <;> simp_all [LinkInv, timersFit, phaseFits, testTimersFit, Config.lockCount, Config.missedLimit, endTest, becomeNonOwner, returnToRun, enterTest, leaveTest] <;> omega))

theorem linkInv_patternStart (s : State) (h : LinkInv s) : LinkInv (patternStart s) := by
  unfold patternStart
  (repeat' split) <;> (first | done | (simp_all [LinkInv, timersFit, phaseFits, testTimersFit, Config.lockCount, Config.missedLimit, endTest, becomeNonOwner, returnToRun, enterTest, leaveTest]; done) | (cases hst : s.slc.state <;> cases hph : s.lt.phase <;> simp_all [LinkInv, timersFit, phaseFits, testTimersFit, Config.lockCount, Config.missedLimit, endTest, becomeNonOwner, returnToRun, enterTest, leaveTest]; done) | (cases hst : s.slc.state <;> cases hph : s.lt.phase <;> simp_all [LinkInv, timersFit, phaseFits, testTimersFit, Config.lockCount, Config.missedLimit, endTest, becomeNonOwner, returnToRun, enterTest, leaveTest] <;> omega))

theorem linkInv_settleTest (s : State) (hs : s.slc.state = .run) (hp : s.lt.phase = .returning ∨ phaseFits .run s.lt.phase) (h1 : timersFit s.slc) (h2 : testTimersFit s.lt) (h3 : s.fe.helloTaken = none) (h4 : s.slc.good ≤ 16 ∧ s.slc.missed < 16) : LinkInv (settleTest s) := by
  unfold settleTest
  dsimp only
  (repeat' split) <;> (first | done | (simp_all [LinkInv, timersFit, phaseFits, testTimersFit, Config.lockCount, Config.missedLimit, endTest, becomeNonOwner, returnToRun, enterTest, leaveTest]; done) | (cases hst : s.slc.state <;> cases hph : s.lt.phase <;> simp_all [LinkInv, timersFit, phaseFits, testTimersFit, Config.lockCount, Config.missedLimit, endTest, becomeNonOwner, returnToRun, enterTest, leaveTest]; done) | (cases hst : s.slc.state <;> cases hph : s.lt.phase <;> simp_all [LinkInv, timersFit, phaseFits, testTimersFit, Config.lockCount, Config.missedLimit, endTest, becomeNonOwner, returnToRun, enterTest, leaveTest] <;> omega)) <;> cases s.lt.phase <;> simp_all

theorem linkInv_takeTestResult (p) (s : State) (h : LinkInv s) : LinkInv (takeTestResult p s) := by
  unfold takeTestResult
  (repeat' split) <;> (first | done | (simp_all [LinkInv, timersFit, phaseFits, testTimersFit, Config.lockCount, Config.missedLimit, endTest, becomeNonOwner, returnToRun, enterTest, leaveTest]; done) | (cases hst : s.slc.state <;> cases hph : s.lt.phase <;> simp_all [LinkInv, timersFit, phaseFits, testTimersFit, Config.lockCount, Config.missedLimit, endTest, becomeNonOwner, returnToRun, enterTest, leaveTest]; done) | (cases hst : s.slc.state <;> cases hph : s.lt.phase <;> simp_all [LinkInv, timersFit, phaseFits, testTimersFit, Config.lockCount, Config.missedLimit, endTest, becomeNonOwner, returnToRun, enterTest, leaveTest] <;> omega))

theorem linkInv_resultLimit (s : State) (h : LinkInv s) : LinkInv (resultLimit s) := by
  unfold resultLimit
  (repeat' split) <;> (first | done | (simp_all [LinkInv, timersFit, phaseFits, testTimersFit, Config.lockCount, Config.missedLimit, endTest, becomeNonOwner, returnToRun, enterTest, leaveTest]; done) | (cases hst : s.slc.state <;> cases hph : s.lt.phase <;> simp_all [LinkInv, timersFit, phaseFits, testTimersFit, Config.lockCount, Config.missedLimit, endTest, becomeNonOwner, returnToRun, enterTest, leaveTest]; done) | (cases hst : s.slc.state <;> cases hph : s.lt.phase <;> simp_all [LinkInv, timersFit, phaseFits, testTimersFit, Config.lockCount, Config.missedLimit, endTest, becomeNonOwner, returnToRun, enterTest, leaveTest] <;> omega))

theorem testAtLoss_phase (s : State) (h : testTimersFit s.lt) : testTimersFit (testAtLoss s).lt ∧ (testAtLoss s).lt.phase = .idle := by
  unfold testAtLoss
  dsimp only
  (repeat' split) <;> simp_all [testTimersFit, endTest]

theorem linkInv_testAtSoftReset (s : State) (h : LinkInv s) : LinkInv (testAtSoftReset s) := by
  unfold testAtSoftReset
  dsimp only
  (repeat' split) <;> (first | done | (simp_all [LinkInv, timersFit, phaseFits, testTimersFit, Config.lockCount, Config.missedLimit, endTest, becomeNonOwner, returnToRun, enterTest, leaveTest]; done) | (cases hst : s.slc.state <;> cases hph : s.lt.phase <;> simp_all [LinkInv, timersFit, phaseFits, testTimersFit, Config.lockCount, Config.missedLimit, endTest, becomeNonOwner, returnToRun, enterTest, leaveTest]; done) | (cases hst : s.slc.state <;> cases hph : s.lt.phase <;> simp_all [LinkInv, timersFit, phaseFits, testTimersFit, Config.lockCount, Config.missedLimit, endTest, becomeNonOwner, returnToRun, enterTest, leaveTest] <;> omega))

theorem linkInv_symbol {s t : State} (h : LinkInv s) (hp : s.lt.phase = .running ∧ s.lt.generator = false) (e1 : t.slc = s.slc)
    (e2 : t.fe.helloTaken = s.fe.helloTaken) (e3 : t.lt.phase = s.lt.phase) (e4 : t.lt.generator = s.lt.generator)
    (e5 : t.lt.drainDue = s.lt.drainDue) (e6 : t.lt.goTaken = s.lt.goTaken) (e7 : t.lt.durationDue = s.lt.durationDue)
    (e8 : t.lt.patternDue = s.lt.patternDue) (e9 : t.lt.genStart = s.lt.genStart) (e10 : t.lt.resultDue = s.lt.resultDue) :
    LinkInv t := by
  obtain ⟨h1, h2, ⟨a1, a2, a3, a4, a5, a6, a7⟩, h4, h5, h6⟩ := h
  refine ⟨by rw [e1]; exact h1, by rw [e1, e3]; exact h2, ⟨?_, ?_, ?_, ?_, ?_, ?_, ?_⟩, ?_, ?_, ?_⟩
  · rw [e3, e5]; exact a1
  · rw [e3, e6]; exact a2
  · rw [e3, e7]; exact a3
  · rw [e3, e4]; exact fun _ => hp
  · rw [e3, e4, e8]; exact a5
  · rw [e3, e4, e9]; exact a6
  · rw [e3, e10]; exact a7
  · rw [e1, e2]; exact h4
  · rw [e1]; exact h5
  · rw [e1]; exact h6

theorem countSymbol_keeps (n now) (t : LinkTester) :
    (countSymbol n now t).phase = t.phase ∧ (countSymbol n now t).generator = t.generator ∧
    (countSymbol n now t).drainDue = t.drainDue ∧ (countSymbol n now t).goTaken = t.goTaken ∧
    (countSymbol n now t).durationDue = t.durationDue ∧ (countSymbol n now t).patternDue = t.patternDue ∧
    (countSymbol n now t).genStart = t.genStart ∧ (countSymbol n now t).resultDue = t.resultDue :=
  ⟨rfl, rfl, rfl, rfl, rfl, rfl, rfl, rfl⟩

theorem flagError_lt (s : State) : (flagError s).lt = s.lt := rfl

set_option maxHeartbeats 2000000 in
theorem takeSymbol_keeps (d st) (s : State) :
    (takeSymbol d st s).lt.phase = s.lt.phase ∧ (takeSymbol d st s).lt.generator = s.lt.generator ∧
    (takeSymbol d st s).lt.drainDue = s.lt.drainDue ∧ (takeSymbol d st s).lt.goTaken = s.lt.goTaken ∧
    (takeSymbol d st s).lt.durationDue = s.lt.durationDue ∧ (takeSymbol d st s).lt.patternDue = s.lt.patternDue ∧
    (takeSymbol d st s).lt.genStart = s.lt.genStart ∧ (takeSymbol d st s).lt.resultDue = s.lt.resultDue := by
  unfold takeSymbol
  dsimp only
  (repeat' split) <;> exact ⟨rfl, rfl, rfl, rfl, rfl, rfl, rfl, rfl⟩

theorem linkInv_takeSymbol (d st) (s : State) (h : LinkInv s) : LinkInv (takeSymbol d st s) := by
  by_cases hc : checking s = true
  · have : s.lt.phase = .running ∧ s.lt.generator = false := by
      unfold checking at hc; simp at hc; exact ⟨hc.1.2, hc.2⟩
    obtain ⟨k3, k4, k5, k6, k7, k8, k9, k10⟩ := takeSymbol_keeps d st s
    exact linkInv_symbol h this (by simp) (by simp) k3 k4 k5 k6 k7 k8 k9 k10
  · unfold takeSymbol; simp [hc, h]

theorem linkInv_takeSymbols (bs) (s : State) (h : LinkInv s) : LinkInv (takeSymbols bs s) := by
  unfold takeSymbols
  induction bs generalizing s with
  | nil => exact h
  | cons b bs ih => exact ih _ (linkInv_takeSymbol _ _ _ h)

theorem linkInv_startFrame (f) (s : State) (h : LinkInv s) : LinkInv (startFrame f s) := by
  simpa [LinkInv, timersFit] using h

theorem linkInv_enterListen (s : State) (h1 : timersFit { s.slc with state := .listen}) (h2 : s.lt.phase = .idle) (h3 : testTimersFit s.lt) (h4 : s.fe.helloTaken = none) (h5 : s.slc.missed < 16) : LinkInv (enterListen s) := by
  unfold enterListen
  dsimp only
  split <;> simp_all [LinkInv, timersFit, phaseFits]

theorem linkInv_enterHoldoff (r n) (s : State) (h2 : s.lt.phase = .idle) (h3 : testTimersFit s.lt) : LinkInv (enterHoldoff r n s) := by
  unfold enterHoldoff quiet
  simp_all [LinkInv, timersFit, phaseFits]

theorem linkInv_idle {s : State} (h : LinkInv s) (hs : s.slc.state.isUp = false) : s.lt.phase = .idle := by
  obtain ⟨-, h, -⟩ := h
  cases hp : s.lt.phase <;> simp_all [phaseFits, LinkState.isUp]

theorem linkInv_failBringUp (r) (s : State) (h : LinkInv s) (hs : s.slc.state.isUp = false) : LinkInv (failBringUp r s) :=
  linkInv_enterHoldoff _ _ _ (linkInv_idle h hs) h.2.2.1

theorem linkInv_roleClash (s : State) (h : LinkInv s) (hs : s.slc.state.isUp = false) : LinkInv (roleClash s) := by
  apply linkInv_enterHoldoff <;> simp [linkInv_idle h hs, h.2.2.1]

theorem linkInv_select (s : State) (h : LinkInv s) : LinkInv (select s) := by simpa [LinkInv, timersFit] using h

theorem linkInv_loss (r) (s : State) (h : LinkInv s) : LinkInv (loss r s) := by
  unfold loss
  have := testAtLoss_phase (linesAtLoss (leaseAtLoss (eventsAtLoss r (incomingAtLoss (requestsAtLoss s))))) (by simp [h.2.2.1])
  apply linkInv_select
  apply linkInv_enterHoldoff <;> simp_all

theorem linkInv_lock (s : State) (hs : s.slc.state = .listen) (h : LinkInv s) : LinkInv (lock s) := by
  unfold lock
  have := linkInv_idle h (by simp [hs, LinkState.isUp])
  (first | done | (simp_all [LinkInv, timersFit, phaseFits, testTimersFit, Config.lockCount, Config.missedLimit, endTest, becomeNonOwner, returnToRun, enterTest, leaveTest]; done) | (cases hst : s.slc.state <;> cases hph : s.lt.phase <;> simp_all [LinkInv, timersFit, phaseFits, testTimersFit, Config.lockCount, Config.missedLimit, endTest, becomeNonOwner, returnToRun, enterTest, leaveTest]; done) | (cases hst : s.slc.state <;> cases hph : s.lt.phase <;> simp_all [LinkInv, timersFit, phaseFits, testTimersFit, Config.lockCount, Config.missedLimit, endTest, becomeNonOwner, returnToRun, enterTest, leaveTest] <;> omega))

theorem linkInv_enterRunFromHello (c) (s : State) (hs : s.slc.state = .hello) (h : LinkInv s) : LinkInv (enterRunFromHello c s) := by
  unfold enterRunFromHello startRun engineAtRun freeDetached FrameEngine.reset
  have := linkInv_idle h (by simp [hs, LinkState.isUp])
  dsimp only
  split <;> (first | done | (simp_all [LinkInv, timersFit, phaseFits, testTimersFit, Config.lockCount, Config.missedLimit, endTest, becomeNonOwner, returnToRun, enterTest, leaveTest]; done) | (cases hst : s.slc.state <;> cases hph : s.lt.phase <;> simp_all [LinkInv, timersFit, phaseFits, testTimersFit, Config.lockCount, Config.missedLimit, endTest, becomeNonOwner, returnToRun, enterTest, leaveTest]; done) | (cases hst : s.slc.state <;> cases hph : s.lt.phase <;> simp_all [LinkInv, timersFit, phaseFits, testTimersFit, Config.lockCount, Config.missedLimit, endTest, becomeNonOwner, returnToRun, enterTest, leaveTest] <;> omega))

theorem linkInv_enterRunFromRetrain (s : State) (hs : s.slc.state = .retrain) (h : LinkInv s) : LinkInv (enterRunFromRetrain s) := by
  unfold enterRunFromRetrain
  have : s.lt.phase = .returning := by
    obtain ⟨-, h, -⟩ := h
    cases hp : s.lt.phase <;> simp_all [phaseFits]
  apply linkInv_settleTest <;> simp_all [startRun, engineAtRun, FrameEngine.reset, LinkInv, timersFit]

theorem linkInv_setSpanOff (v) (s : State) (h : LinkInv s) : LinkInv (setSpanOff v s) := by
  unfold setSpanOff
  dsimp only
  (repeat' split) <;> try exact h
  · have := linkInv_idle h (by simp [*, LinkState.isUp])
    simp_all [LinkInv, timersFit, phaseFits, quiet]
  · exact linkInv_failBringUp _ _ h (by simp [*, LinkState.isUp])
  all_goals first | exact linkInv_loss _ _ h | skip
  have := linkInv_idle h (by simp [*, LinkState.isUp])
  apply linkInv_enterListen <;> simp_all [LinkInv, timersFit]

theorem linkInv_trainingInterval (s : State) (h : LinkInv s) : LinkInv (trainingInterval s) := by
  unfold trainingInterval
  split
  · exact h
  · (first | done | (simp_all [LinkInv, timersFit, phaseFits, testTimersFit, Config.lockCount, Config.missedLimit, endTest, becomeNonOwner, returnToRun, enterTest, leaveTest]; done) | (cases hst : s.slc.state <;> cases hph : s.lt.phase <;> simp_all [LinkInv, timersFit, phaseFits, testTimersFit, Config.lockCount, Config.missedLimit, endTest, becomeNonOwner, returnToRun, enterTest, leaveTest]; done) | (cases hst : s.slc.state <;> cases hph : s.lt.phase <;> simp_all [LinkInv, timersFit, phaseFits, testTimersFit, Config.lockCount, Config.missedLimit, endTest, becomeNonOwner, returnToRun, enterTest, leaveTest] <;> omega))

theorem linkInv_helloInterval (s : State) (h : LinkInv s) : LinkInv (helloInterval s) := by
  unfold helloInterval
  split
  · exact h
  · rename_i due hd
    have := h.1.2.1 (by simp [hd])
    simp_all [LinkInv, timersFit]

theorem linkInv_helloLimit (s : State) (h : LinkInv s) : LinkInv (helloLimit s) := by
  unfold helloLimit
  split
  · exact h
  · rename_i due hd
    have : s.slc.state = .hello := h.1.2.2.1 (by simp [hd])
    apply linkInv_failBringUp
    · exact linkInv_reach _ _ h
    · simp [this, LinkState.isUp]

theorem linkInv_silenceLimit (s : State) (h : LinkInv s) : LinkInv (silenceLimit s) := by
  unfold silenceLimit
  split
  · exact h
  · exact linkInv_loss _ _ (linkInv_reach _ _ h)

theorem linkInv_retrainLimit (s : State) (h : LinkInv s) : LinkInv (retrainLimit s) := by
  unfold retrainLimit
  split
  · exact h
  · exact linkInv_loss _ _ (linkInv_reach _ _ h)

theorem linkInv_holdoffEnd (s : State) (h : LinkInv s) : LinkInv (holdoffEnd s) := by
  unfold holdoffEnd
  split
  · exact h
  · rename_i due hd
    have hs : s.slc.state = .holdoff := h.1.2.2.2.2.2 (by simp [hd])
    have := linkInv_idle h (by simp [hs, LinkState.isUp])
    dsimp only
    split
    · simp_all [LinkInv, timersFit, phaseFits]
    · apply linkInv_enterListen <;> simp_all [LinkInv, timersFit]

theorem linkInv_pushFrame (k p i) (s : State) (h : LinkInv s) : LinkInv (pushFrame k p i s) := by simpa [LinkInv, timersFit] using h

theorem nextKind_testEnter (s : State) (h : nextKind s = .testEnter) : s.slc.state = .run ∧ s.lt.phase = .enterPending := by
  unfold nextKind at h
  dsimp only at h
  unfold handshake at h
  revert h
  cases s.slc.state <;> cases s.lt.phase <;> simp <;> (repeat' split) <;> (try simp_all) <;> (try grind)

theorem nextKind_testResult (s : State) (h : nextKind s = .testResult) : s.slc.state = .run ∧ s.lt.phase = .resultOut := by
  unfold nextKind at h
  dsimp only at h
  unfold handshake at h
  revert h
  cases s.slc.state <;> cases s.lt.phase <;> simp <;> (repeat' split) <;> (try simp_all) <;> (try grind)

theorem nextKind_testGo (s : State) (h : nextKind s = .testGo) : s.lt.phase = .draining := by
  unfold nextKind at h
  dsimp only at h
  unfold handshake at h
  revert h
  cases s.slc.state <;> cases s.lt.phase <;> simp <;> (repeat' split) <;> (try simp_all) <;> (try grind)

theorem linkInv_buildFrame (s : State) (h : LinkInv s) : LinkInv (buildFrame (nextKind s) s) := by
  have h1 := nextKind_testEnter s
  have h2 := nextKind_testResult s
  have h3 := nextKind_testGo s
  unfold buildFrame
  (repeat' split) <;> (first | done | (simp_all [LinkInv, timersFit, phaseFits, testTimersFit, Config.lockCount, Config.missedLimit, endTest, becomeNonOwner, returnToRun, enterTest, leaveTest]; done) | (cases hst : s.slc.state <;> cases hph : s.lt.phase <;> simp_all [LinkInv, timersFit, phaseFits, testTimersFit, Config.lockCount, Config.missedLimit, endTest, becomeNonOwner, returnToRun, enterTest, leaveTest]; done) | (cases hst : s.slc.state <;> cases hph : s.lt.phase <;> simp_all [LinkInv, timersFit, phaseFits, testTimersFit, Config.lockCount, Config.missedLimit, endTest, becomeNonOwner, returnToRun, enterTest, leaveTest] <;> omega))

theorem linkInv_sendSelected (s : State) (h : LinkInv s) : LinkInv (sendSelected s) := by
  unfold sendSelected
  (repeat' split)
  · exact linkInv_buildFrame s h
  · exact h
  · exact linkInv_loss _ _ h
  · simpa [LinkInv, timersFit] using h

theorem linkInv_turnOpen (s : State) (h : LinkInv s) : LinkInv (turnOpen s) := by
  unfold turnOpen
  split
  · apply linkInv_sendSelected
    simpa [LinkInv, timersFit] using h
  · exact h

theorem linkInv_followerReply (s : State) (h : LinkInv s) : LinkInv (followerReply s) := by
  unfold followerReply
  dsimp only
  (repeat' split) <;> first
    | exact h
    | exact linkInv_sendSelected _ (by simpa [LinkInv, timersFit] using h)
    | simpa [LinkInv, timersFit] using h

theorem linkInv_afterSend (s : State) (h : LinkInv s) : LinkInv (afterSend s) := by
  unfold afterSend
  split
  · exact linkInv_enterTest _ (h.2.2.1.2.1 (by simp_all)) h
  · exact h

theorem linkInv_frameSent (s : State) (h : LinkInv s) : LinkInv (frameSent s) := by
  unfold frameSent
  dsimp only
  (repeat' split)
  · exact h
  · apply linkInv_afterSend; simpa [LinkInv, timersFit] using h
  · apply linkInv_enterRunFromHello
    · have := h.2.2.2.1; simp_all
    · simp_all [LinkInv]
  · apply linkInv_afterSend; simpa [LinkInv, timersFit] using h

theorem linkInv_missTurn (g) (s : State) (h : LinkInv s) : LinkInv (missTurn g s) := by
  unfold missTurn
  dsimp only
  split
  · have := testAtLoss_phase
    have h' : LinkInv { s with slc.missed := 0, fe.awaitReply := none } := by simp_all [LinkInv, timersFit]
    unfold loss
    apply linkInv_select
    have := testAtLoss_phase (linesAtLoss (leaseAtLoss (eventsAtLoss .turnLoss (incomingAtLoss (requestsAtLoss { s with fe.awaitReply := none, fe.earliest := s.now + g, fe.hurry := true, slc.missed := s.slc.missed + 1 }))))) (by simp [h.2.2.1])
    apply linkInv_enterHoldoff <;> simp_all
  · (first | done | (simp_all [LinkInv, timersFit, phaseFits, testTimersFit, Config.lockCount, Config.missedLimit, endTest, becomeNonOwner, returnToRun, enterTest, leaveTest]; done) | (cases hst : s.slc.state <;> cases hph : s.lt.phase <;> simp_all [LinkInv, timersFit, phaseFits, testTimersFit, Config.lockCount, Config.missedLimit, endTest, becomeNonOwner, returnToRun, enterTest, leaveTest]; done) | (cases hst : s.slc.state <;> cases hph : s.lt.phase <;> simp_all [LinkInv, timersFit, phaseFits, testTimersFit, Config.lockCount, Config.missedLimit, endTest, becomeNonOwner, returnToRun, enterTest, leaveTest] <;> omega))

theorem linkInv_replyWindowEnd (s : State) (h : LinkInv s) : LinkInv (replyWindowEnd s) := by
  unfold replyWindowEnd
  dsimp only
  (repeat' split) <;> first | exact h | exact linkInv_missTurn _ _ (linkInv_reach _ _ h) | (simp_all [LinkInv, timersFit, missExchange])

theorem linkInv_badFrame (s : State) (h : LinkInv s) : LinkInv (badFrame s) := by
  unfold badFrame
  dsimp only
  (repeat' split) <;> first | exact h | (apply linkInv_missTurn; simpa [LinkInv, timersFit] using h) | (simp_all [LinkInv, timersFit, missExchange])

theorem linkInv_takeReq (p) (s t : State) (h : LinkInv s) (ht : takeReq p s = .next t) : LinkInv t := by
  unfold takeReq at ht
  split at ht
  · cases ht
  · cases ht; exact h
  · cases ht; simpa [LinkInv, timersFit] using h

theorem linkInv_deliver (k p) (s t : State) (hs : s.slc.state.hasTurns = true) (h : LinkInv s) (ht : deliver k p s = .next t) : LinkInv t := by
  unfold deliver at ht
  split at ht <;> first | exact linkInv_takeReq _ _ _ h ht | skip
  all_goals cases ht
  all_goals first | exact h | exact linkInv_takeTestEnter _ _ hs h | exact linkInv_takeTestReady _ h | exact linkInv_takeTestGo _ h | exact linkInv_takeTestResult _ _ h | simpa [LinkInv, timersFit] using h

theorem linkInv_takeSequenced (k q p) (s t : State) (hs : s.slc.state.hasTurns = true) (h : LinkInv s) (ht : takeSequenced k q p s = .next t) : LinkInv t := by
  unfold takeSequenced at ht
  split at ht <;> first | exact linkInv_deliver _ _ { s with fe.expected := s.fe.expected + 1 } _ hs h ht | (cases ht; exact h)

theorem linkInv_takeFrame (k hd p) (s t : State) (hs : s.slc.state.hasTurns = true) (h : LinkInv s) (ht : takeFrame k hd p s = .next t) : LinkInv t := by
  unfold takeFrame at ht
  have h1 : LinkInv (takeHeader hd s) := by simpa [LinkInv, timersFit] using h
  split at ht
  · cases ht; simpa [LinkInv, timersFit] using h
  · simp only [thenDo] at ht
    split at ht
    · rename_i u hu
      have hu' : LinkInv u := by
        split at hu
        · exact linkInv_takeSequenced _ _ _ _ _ (by simpa using hs) h1 hu
        · cases hu; exact h1
      cases ht
      split
      · exact linkInv_goAcknowledged _ hu'
      · exact hu'
    · cases ht
    · cases ht

theorem linkInv_takeTrainAck (hd) (s : State) (h : LinkInv s) : LinkInv (takeTrainAck hd s) := by
  unfold takeTrainAck
  have h1 : LinkInv { s with slc.good := min Config.lockCount (s.slc.good + 1), fe.awaitReply := none } := by
    simp_all [LinkInv, timersFit, Config.lockCount] <;> omega
  dsimp only
  (repeat' split)
  · exact linkInv_lock _ (by simpa) h1
  · exact h1
  · exact linkInv_enterRunFromRetrain _ (by simpa) h1
  · exact h1
  · simp_all [LinkInv, timersFit]
  · exact h

theorem linkInv_leaderHello (hd p) (s : State) (hs : s.slc.state = .hello) (h : LinkInv s) : LinkInv (leaderHello hd p s) := by
  unfold leaderHello
  split
  · exact linkInv_enterRunFromHello _ _ hs h
  · exact linkInv_failBringUp _ _ h (by simp [hs, LinkState.isUp])

theorem linkInv_leaderTakes (k hd p) (s t : State) (h : LinkInv s) (ht : leaderTakes k hd p s = .next t) : LinkInv t := by
  unfold leaderTakes at ht
  dsimp only at ht
  split at ht
  · (repeat' split at ht) <;> cases ht
    · exact linkInv_roleClash _ h (by simp [*, LinkState.isUp])
    · exact linkInv_takeTrainAck _ _ h
    · exact h
  · (repeat' split at ht) <;> cases ht
    · exact linkInv_roleClash _ h (by simp [*, LinkState.isUp])
    · exact linkInv_leaderHello _ _ _ (by assumption) h
    · exact h
  · (repeat' split at ht) <;> cases ht
    · exact h
    · exact linkInv_takeTrainAck _ _ (by simpa [LinkInv, timersFit] using h)
    · simpa [LinkInv, timersFit] using h
  · split at ht
    · cases ht; exact h
    · exact linkInv_takeFrame _ _ _ (turnAnswered k hd s) _ (by simp [*, LinkState.hasTurns]) (by simp_all [LinkInv, turnAnswered, timersFit]) ht
  · split at ht
    · cases ht; exact h
    · exact linkInv_takeFrame _ _ _ (turnAnswered k hd s) _ (by simp [*, LinkState.hasTurns]) (by simp_all [LinkInv, turnAnswered, timersFit]) ht
  all_goals cases ht; exact h

theorem linkInv_answerTrain (s : State) (h : LinkInv s) : LinkInv (answerTrain s) := by
  unfold answerTrain
  simp_all [LinkInv, timersFit, Config.lockCount] <;> omega

theorem linkInv_followerHello (hd p) (s : State) (hr : s.slc.role = .follower) (hs : s.slc.state = .hello) (h : LinkInv s) : LinkInv (followerHello hd p s) := by
  unfold followerHello
  split
  · simp_all [LinkInv, timersFit]
  · exact linkInv_failBringUp _ _ h (by simp [hs, LinkState.isUp])

theorem linkInv_restartSilence (s : State) (hr : s.slc.role = .follower) (hs : s.slc.state.hasTurns = true) (h : LinkInv s) : LinkInv (restartSilence s) := by
  unfold restartSilence
  cases hst : s.slc.state <;> simp_all [LinkInv, timersFit, LinkState.hasTurns]

theorem linkInv_followerTurn (k hd p) (s t : State) (hr : s.slc.role = .follower) (hs : s.slc.state.hasTurns = true) (h : LinkInv s) (ht : followerTurn k hd p s = .next t) : LinkInv t := by
  unfold followerTurn at ht
  have h1 := linkInv_restartSilence s hr hs h
  split at ht
  · exact linkInv_takeFrame _ _ _ _ _ hs h ht
  · exact linkInv_takeFrame _ _ _ _ _ (by simpa using hs) h1 ht
  · exact linkInv_takeFrame _ _ _ (oweReply _ (restartSilence s)) _ (by simpa using hs) (by simpa [LinkInv, timersFit] using h1) ht

theorem startRun_state (n s) : (startRun n s).slc.state = .run := rfl

theorem enterRunFromRetrain_state (s) : (enterRunFromRetrain s).slc.state = .run := by simp [enterRunFromRetrain, startRun]

theorem linkInv_followerTakes (k hd p) (s t : State) (hr : s.slc.role = .follower) (h : LinkInv s) (ht : followerTakes k hd p s = .next t) : LinkInv t := by
  unfold followerTakes at ht
  dsimp only at ht
  split at ht
  · cases ht; exact h
  split at ht
  · (repeat' split at ht) <;> cases ht
    · exact linkInv_lock _ (by simpa [answerTrain]) (linkInv_answerTrain _ h)
    · exact (linkInv_answerTrain _ h)
    · exact linkInv_followerHello _ _ _ (by simpa using hr) rfl (linkInv_lock _ (by assumption) h)
    · exact h
  · (repeat' split at ht) <;> cases ht
    · simp_all [LinkInv, timersFit]
    · exact linkInv_followerHello _ _ _ hr (by assumption) h
    · exact h
  · (repeat' split at ht)
    · cases ht; exact linkInv_answerTrain _ (by simpa [LinkInv, timersFit] using h)
    · cases ht; exact linkInv_loss _ _ (by simpa [LinkInv, timersFit] using h)
    · exact linkInv_followerTurn _ _ _ _ _ (by simpa using hr) (by simp [enterRunFromRetrain_state, LinkState.hasTurns]) (linkInv_enterRunFromRetrain _ (by assumption) h) ht
  · exact linkInv_followerTurn _ _ _ _ _ hr (by simp [*, LinkState.hasTurns]) h ht
  · exact linkInv_followerTurn _ _ _ _ _ hr (by simp [*, LinkState.hasTurns]) h ht
  all_goals cases ht; exact h

theorem linkInv_receive (k hd p) (s t : State) (h : LinkInv s) (ht : receive k hd p s = .next t) : LinkInv t := by
  unfold receive at ht
  (repeat' split at ht)
  · cases ht; exact h
  · cases ht; exact linkInv_takeSymbols _ _ h
  · cases ht; exact linkInv_badFrame _ h
  · exact linkInv_leaderTakes _ _ _ _ _ h ht
  · exact linkInv_followerTakes _ _ _ _ _ (by assumption) h ht

theorem linkInv_receiveBad (raw) (s : State) (h : LinkInv s) : LinkInv (receiveBad raw s) := by
  unfold receiveBad
  (repeat' split)
  · exact h
  · exact linkInv_takeSymbols _ _ h
  · exact linkInv_badFrame _ h

theorem linkInv_submit (s : State) (h : LinkInv s) : LinkInv (submit s) := by
  unfold submit
  (repeat' split) <;> try exact h
  · simpa [LinkInv, timersFit] using h
  · unfold submitNear dropLease
    dsimp only
    (repeat' split) <;> first | (apply linkInv_startTest; simpa [LinkInv, timersFit] using h) | simpa [LinkInv, timersFit] using h

theorem linkInv_softReset (b) (s : State) (h : LinkInv s) : LinkInv (softReset b s) := by
  unfold softReset
  split
  · have := linkInv_testAtSoftReset (releaseOwned .localHost allLines (requestsAtSoftReset s)) (by simpa [LinkInv, timersFit] using h)
    simpa [LinkInv, timersFit] using this
  · exact h

theorem linkInv_writeAt (o b) (s : State) (h : LinkInv s) : LinkInv (writeAt o b s) := by
  unfold writeAt
  (repeat' split) <;> first | exact h | exact linkInv_softReset _ _ h | exact linkInv_submit _ h | exact linkInv_testStop _ h | exact linkInv_setSpanOff _ _ h | simpa [LinkInv, timersFit] using h

theorem linkInv_portWrite (o b) (s : State) (h : LinkInv s) : LinkInv (portWrite o b s) := by
  have := linkInv_writeAt o b (beginWrite s) h
  simpa [LinkInv, timersFit, portWrite] using this

theorem linkInv_rstnLow (c) (s : State) (h : LinkInv s) : LinkInv (rstnLow c s) := by
  unfold rstnLow
  dsimp only
  split
  · simp [LinkInv, timersFit, phaseFits, testTimersFit, heldInReset, State.cleared, LinkController.reset, LinkTester.reset, FrameEngine.reset]
  · exact h

theorem linkInv_rstnRelease (x p) (s : State) (h : LinkInv s) : LinkInv (rstnRelease x p s) := by
  unfold rstnRelease
  dsimp only
  (repeat' split)
  · apply linkInv_enterListen <;> simp [LinkInv, timersFit, phaseFits, testTimersFit, heldInReset, State.cleared, LinkController.reset, LinkTester.reset, FrameEngine.reset]
  · simp [LinkInv, timersFit, phaseFits, testTimersFit, heldInReset, State.cleared, LinkController.reset, LinkTester.reset, FrameEngine.reset]
  · exact h

theorem linkInv_onChip (f) (hf : ∀ s, LinkInv s → LinkInv (f s)) (s t : State) (h : LinkInv s) (ht : Host.Outcome.next (onChip f s) = (.next t : Host.Outcome State Fault Refusal)) : LinkInv t := by
  cases ht
  unfold onChip
  split
  · exact h
  · exact hf _ h

theorem linkInv_onPort (f) (hf : ∀ s, LinkInv s → LinkInv (f s)) (s t : State) (h : LinkInv s) (ht : Host.Outcome.next (onPort f s) = (.next t : Host.Outcome State Fault Refusal)) : LinkInv t := by
  cases ht
  unfold onPort
  split
  · exact h
  · exact hf _ h

theorem linkInv_registerWrite (w) (s : State) (h : LinkInv s) : LinkInv (registerWrite w s) := by
  unfold registerWrite
  (repeat' split)
  · simpa [LinkInv, timersFit] using h
  · simpa [LinkInv, timersFit] using h
  · exact linkInv_portWrite _ _ _ h
  · exact h

end Sys2Proof.Laws.LinkInv
end

