-- ==== Sys2Proof/Laws/QuietInv.lean ====
section
/-! SUPPORT. Each operation keeps a link that is down quiet (QuietInv). -/
namespace Sys2Proof.Laws.QuietInv
open Sys2Proof.Machine Sys2Proof.Laws.RequestInv Sys2Proof.Laws.IncomingInv Sys2Proof.Laws.BusInv
set_option maxHeartbeats 2000000

theorem gen_state {s : State} (h : generating s = true) : s.slc.state = .test := by simp_all [generating]

theorem chk_state {s : State} (h : checking s = true) : s.slc.state = .test := by simp_all [checking]

def Q (s : State) : Prop :=
  (s.fe.window = [] ∧ s.fe.goBack = [] ∧ s.fe.credits = 0 ∧ s.fe.retCount = 0 ∧ s.fe.cancelList = [] ∧
      s.fe.releaseAll = false ∧ s.fe.runLines = false ∧ s.slc.peerReady = false) ∧
    (∀ t : Tag, s.rt.tags[t].state.isFar = false) ∧
    (∀ i : Slot, ∀ e, s.iq.slots[i] = some e → e.state = .detached) ∧
    s.iq.answerOrder = [] ∧ s.da.remoteList = [] ∧
    (∀ l, s.da.lease = some l → l.holder = .localHost) ∧
    (∀ l : LineNo, s.lb.lines[l].owner ≠ some .remoteHost) ∧
    s.eu.outbox = []

theorem quietInv_def (s : State) : QuietInv s ↔ (s.slc.state.isUp = false → Q s) := Iff.rfl

theorem quietInv_up {s : State} (h : s.slc.state.isUp = true) : QuietInv s := by intro h'; rw [h] at h'; cases h'

theorem quietInv_mk {s u : State} (h : QuietInv s) (e : u.slc.state = s.slc.state) (hq : s.slc.state.isUp = false → Q s → Q u) : QuietInv u := by
  intro h'; rw [e] at h'; exact hq h' (h h')

theorem quietInv_down {s u : State} (h : QuietInv s) (e : s.slc.state.isUp = false) (hq : Q s → Q u) : QuietInv u := fun _ => hq (h e)

/-- the frame part of Q -/

theorem q_eq {s u : State} (h : Q s) (e1 : u.fe.window = s.fe.window ∧ u.fe.goBack = s.fe.goBack ∧ u.fe.credits = s.fe.credits ∧ u.fe.retCount = s.fe.retCount ∧ u.fe.cancelList = s.fe.cancelList ∧ u.fe.releaseAll = s.fe.releaseAll ∧ u.fe.runLines = s.fe.runLines) (e2 : u.slc.peerReady = s.slc.peerReady)
   (e3 : u.rt.tags = s.rt.tags) (e4 : u.iq = s.iq) (e5 : u.da.remoteList = s.da.remoteList) (e6 : u.da.lease = s.da.lease) (e7 : u.lb.lines = s.lb.lines) (e8 : u.eu.outbox = s.eu.outbox) : Q u := by
  obtain ⟨a1, a2, a3, a4, a5, a6, a7⟩ := e1
  unfold Q at *
  rw [a1, a2, a3, a4, a5, a6, a7, e2, e3, e4, e5, e6, e7, e8]; exact h

theorem q_tags {s u : State} (h : Q s) (ht : ∀ t : Tag, u.rt.tags[t].state.isFar = true → s.rt.tags[t].state.isFar = true) (hc : s.fe.cancelList = [] → u.fe.cancelList = [])
   (e1 : u.fe.window = s.fe.window ∧ u.fe.goBack = s.fe.goBack ∧ u.fe.credits = s.fe.credits ∧ u.fe.retCount = s.fe.retCount ∧ u.fe.releaseAll = s.fe.releaseAll ∧ u.fe.runLines = s.fe.runLines) (e2 : u.slc.peerReady = s.slc.peerReady)
   (e4 : u.iq = s.iq) (e5 : u.da.remoteList = s.da.remoteList) (e6 : u.da.lease = s.da.lease) (e7 : u.lb.lines = s.lb.lines) (e8 : u.eu.outbox = s.eu.outbox) : Q u := by
  obtain ⟨a1, a2, a3, a4, a6, a7⟩ := e1
  obtain ⟨⟨b1, b2, b3, b4, b5, b6, b7, b8⟩, b9, b10, b11, b12, b13, b14, b15⟩ := h
  unfold Q
  rw [a1, a2, a3, a4, a6, a7, e2, e4, e5, e6, e7, e8]
  refine ⟨⟨b1, b2, b3, b4, hc b5, b6, b7, b8⟩, ?_, b10, b11, b12, b13, b14, b15⟩
  intro t
  cases hx : u.rt.tags[t].state.isFar with
  | false => rfl
  | true => have := ht t hx; rw [b9] at this; cases this

theorem q_completeTag (t a) (s : State) (h : Q s) : Q (completeTag t a s) := by
  refine q_tags h ?_ ?_ (by simp) rfl rfl rfl rfl rfl rfl
  · intro u; simp only [completeTag]; rw [vput_at]; split
    · intro h; cases h
    · exact id
  · intro e; simp [completeTag, e]

theorem q_completeAll (ts st) (s : State) (h : Q s) : Q (completeAll ts st s) := by
  unfold completeAll
  induction ts generalizing s with
  | nil => exact h
  | cons t ts ih => exact ih _ (q_completeTag _ _ _ h)

theorem q_raiseLocal (k d a) (s : State) (h : Q s) : Q (raiseLocal k d a s) := q_eq h (by simp) rfl rfl rfl rfl rfl rfl rfl

theorem raiseRemote_down (k d a) (s : State) (h : s.slc.state.isUp = false) : raiseRemote k d a s = s := by unfold raiseRemote; simp [h]

theorem q_setTag (t e) (s : State) (h : Q s) (he : e.state.isFar = false) : Q (setTag t e s) := by
  refine q_tags h ?_ id (by simp) rfl rfl rfl rfl rfl rfl
  intro u; simp only [setTag]; rw [vput_at]; split
  · intro h; rw [he] at h; cases h
  · exact id

theorem q_lists {s u : State} (h : Q s) (e1 : u.fe = s.fe) (e2 : u.slc.peerReady = s.slc.peerReady)
   (e3 : u.rt = s.rt) (e4 : u.iq = s.iq) (e5 : s.da.remoteList = [] → u.da.remoteList = []) (e6 : ∀ l, u.da.lease = some l → l.holder = .localHost ∨ s.da.lease = some l) (e7 : u.lb.lines = s.lb.lines) (e8 : u.eu.outbox = s.eu.outbox) : Q u := by
  obtain ⟨b1, b9, b10, b11, b12, b13, b14, b15⟩ := h
  unfold Q
  rw [e1, e2, e3, e4, e7, e8]
  refine ⟨b1, b9, b10, b11, e5 b12, ?_, b14, b15⟩
  intro l hl
  rcases e6 l hl with h | h
  · exact h
  · exact b13 l h

theorem q_lines {s u : State} (h : Q s) (e1 : u.fe = s.fe) (e2 : u.slc.peerReady = s.slc.peerReady)
   (e3 : u.rt = s.rt) (e4 : u.iq = s.iq) (e5 : u.da = s.da) (e7 : ∀ l : LineNo, u.lb.lines[l].owner = some .remoteHost → s.lb.lines[l].owner = some .remoteHost) (e8 : u.eu.outbox = s.eu.outbox) : Q u := by
  obtain ⟨b1, b9, b10, b11, b12, b13, b14, b15⟩ := h
  unfold Q
  rw [e1, e2, e3, e4, e5, e8]
  exact ⟨b1, b9, b10, b11, b12, b13, fun l hl => b14 l (e7 l hl), b15⟩

theorem q_serveHead (o) (s : State) (h : Q s) : Q (serveHead o s) := by
  unfold serveHead
  cases o
  · simp only; split
    · exact h
    · rename_i t rest hl
      have h1 : ∀ tn, Q { s with da.localList := rest, da.turn := tn } := fun tn => q_lists h rfl rfl rfl rfl (fun e => e) (fun l hl => Or.inr hl) rfl rfl
      unfold serveLocal
      dsimp only
      split
      · apply q_completeTag
        exact q_lists (h1 (turnAfter .localHost s.da)) rfl rfl rfl rfl (fun e => e) (fun l hl => by cases hl; exact Or.inl rfl) rfl rfl
      split
      · exact q_completeTag _ _ _ (h1 _)
      · have := q_setTag t { s.rt.tags[t] with state := .executing, due := none } _ (h1 (turnAfter .localHost s.da)) rfl
        exact q_eq this (by simp [handOver]) rfl rfl rfl rfl rfl rfl rfl
  · simp only; split
    · exact h
    · rename_i i rest hl
      rw [h.2.2.2.2.1] at hl; cases hl

theorem q_selectLoop (n) (s : State) (h : Q s) : Q (selectLoop n s) := by
  induction n generalizing s with
  | zero => exact h
  | succ n ih =>
    unfold selectLoop
    (repeat' split) <;> first | exact h | exact ih _ (q_serveHead _ _ h)

theorem q_select (s : State) (h : Q s) : Q (select s) := q_selectLoop _ _ h

theorem quietInv_select (s : State) (h : QuietInv s) : QuietInv (select s) := quietInv_mk h (by simp) fun _ hq => q_select s hq

theorem q_routeResult (r a) (s : State) (h : Q s) : Q (routeResult r a s) := by
  unfold routeResult
  split
  · split
    · exact q_completeTag _ _ _ h
    · exact h
  · split
    · exact h
    · rename_i i _ e he
      have hd := h.2.2.1 i e he
      rw [hd]
      simp only
      obtain ⟨b1, b9, b10, b11, b12, b13, b14, b15⟩ := h
      refine ⟨b1, b9, ?_, ?_, b12, b13, b14, b15⟩
      · intro j e'; simp only [dropSlot]; rw [vput_at]; split
        · intro h; cases h
        · exact b10 j e'
      · simp only [dropSlot, b11]; rfl

theorem q_faultPurge (s : State) (h : Q s) : Q (faultPurge s) := by
  unfold faultPurge
  simp only [h.2.2.2.2.1, List.filter_nil, List.foldl_nil]
  apply q_completeAll
  exact q_lists h rfl rfl rfl rfl (fun _ => rfl) (fun l hl => Or.inr hl) rfl rfl

theorem q_endWork (a c) (s : State) (hs : s.slc.state.isUp = false) (h : Q s) : Q (endWork a c s) := by
  have hk := endWork_keep (fun u => u.slc.state = s.slc.state ∧ Q u) (fun u hu => ⟨by simpa using hu.1, q_select _ hu.2⟩) (fun u hu => ⟨by simpa using hu.1, q_faultPurge _ hu.2⟩)
    (fun u c hu => by
      rw [raiseRemote_down _ _ _ _ (by simpa [hu.1] using hs)]
      exact ⟨by simpa using hu.1, q_raiseLocal _ _ _ _ hu.2⟩) a c s
  refine (hk ?_).2
  have : Q (returned a s) ∧ (returned a s).slc.state = s.slc.state := by
    unfold returned; split
    · exact ⟨q_routeResult _ _ _ h, by simp⟩
    · exact ⟨h, rfl⟩
  exact ⟨this.2, q_eq this.1 (by simp) rfl rfl rfl rfl rfl rfl rfl⟩

theorem quietInv_endWork (a c) (s : State) (h : QuietInv s) : QuietInv (endWork a c s) := quietInv_mk h (by simp) fun hs hq => q_endWork a c s hs hq

theorem quietInv_of {s u : State} (h : QuietInv s) (e : u.slc.state = s.slc.state) (e1 : u.fe.window = s.fe.window ∧ u.fe.goBack = s.fe.goBack ∧ u.fe.credits = s.fe.credits ∧ u.fe.retCount = s.fe.retCount ∧ u.fe.cancelList = s.fe.cancelList ∧ u.fe.releaseAll = s.fe.releaseAll ∧ u.fe.runLines = s.fe.runLines) (e2 : u.slc.peerReady = s.slc.peerReady)
   (e3 : u.rt.tags = s.rt.tags) (e4 : u.iq = s.iq) (e5 : u.da.remoteList = s.da.remoteList) (e6 : u.da.lease = s.da.lease) (e7 : u.lb.lines = s.lb.lines) (e8 : u.eu.outbox = s.eu.outbox) : QuietInv u :=
  quietInv_mk h e fun _ hq => q_eq hq e1 e2 e3 e4 e5 e6 e7 e8

theorem quietInv_transactionEnd (a r) (s : State) (h : QuietInv s) : QuietInv (transactionEnd a r s) := by
  unfold transactionEnd
  split
  · exact quietInv_endWork _ _ _ h
  · exact h

theorem quietInv_endRecovery (c) (s : State) (h : QuietInv s) : QuietInv (endRecovery c s) := by
  unfold endRecovery
  split
  · exact quietInv_endWork _ _ _ h
  · exact h

theorem quietInv_stretchLimit (a r) (s : State) (h : QuietInv s) : QuietInv (stretchLimit a r s) := by
  unfold stretchLimit
  dsimp only
  split
  · split <;> exact h
  · exact quietInv_endRecovery _ (s.reach _) h
  · exact h

theorem quietInv_recoveryEnd (x) (s : State) (h : QuietInv s) : QuietInv (recoveryEnd x s) := by
  unfold recoveryEnd
  split
  · exact quietInv_endRecovery _ _ h
  · exact h

theorem q_noLease {s : State} (h : Q s) : Q { s with da.lease := none } := q_lists h rfl rfl rfl rfl id (fun l hl => by cases hl) rfl rfl

theorem quietInv_leaseExpiry (s : State) (h : QuietInv s) : QuietInv (leaseExpiry s) := by
  unfold leaseExpiry
  split
  · exact h
  · rename_i l hl
    apply quietInv_select
    refine quietInv_mk h (by simp) fun hs hq => ?_
    have h1 : Q { s.reach l.due with da.lease := none } := q_noLease hq
    unfold raiseFor; split
    · exact q_raiseLocal _ _ _ _ h1
    · rw [raiseRemote_down]
      · exact h1
      · exact hs

theorem quietInv_setPolicy (p) (s : State) (h : QuietInv s) : QuietInv (setPolicy p s) := by
  unfold setPolicy
  dsimp only
  split
  · split
    · apply quietInv_select
      refine quietInv_mk h (by simp) fun hs hq => ?_
      rw [raiseRemote_down]
      · exact q_noLease hq
      · exact hs
    · exact h
  · exact h

theorem quietInv_completeTag (t a) (s : State) (h : QuietInv s) : QuietInv (completeTag t a s) := quietInv_mk h rfl fun _ hq => q_completeTag t a s hq

theorem quietInv_completeOwner (a) (s : State) (h : QuietInv s) : QuietInv (completeOwner a s) := by
  unfold completeOwner
  (repeat' split) <;> first | exact quietInv_completeTag _ _ _ h | exact h

theorem quietInv_drainLimit (s : State) (h : QuietInv s) : QuietInv (drainLimit s) := by
  unfold drainLimit
  split
  · exact h
  · exact quietInv_up rfl

theorem quietInv_takeSymbol (d st) (s : State) (h : QuietInv s) : QuietInv (takeSymbol d st s) := by
  by_cases hc : checking s = true
  · apply quietInv_up; have := chk_state hc; simp [this, LinkState.isUp]
  · unfold takeSymbol; simp [hc, h]

theorem quietInv_takeSymbols (bs) (s : State) (h : QuietInv s) : QuietInv (takeSymbols bs s) := by
  unfold takeSymbols
  induction bs generalizing s with
  | nil => exact h
  | cons b bs ih => exact ih _ (quietInv_takeSymbol _ _ _ h)

theorem quietInv_leaveTest (r) (s : State) : QuietInv (leaveTest r s) := quietInv_up rfl

theorem quietInv_testDuration (s : State) (h : QuietInv s) : QuietInv (testDuration s) := by
  unfold testDuration
  (repeat' split) <;> first | exact h | exact quietInv_leaveTest _ _

theorem quietInv_checkerDuration (s : State) (h : QuietInv s) : QuietInv (checkerDuration s) := by
  unfold checkerDuration
  (repeat' split) <;> exact h

theorem quietInv_patternLost (s : State) (h : QuietInv s) : QuietInv (patternLost s) := by
  unfold patternLost
  (repeat' split) <;> first | exact h | exact quietInv_leaveTest _ _

theorem quietInv_patternStart (s : State) (h : QuietInv s) : QuietInv (patternStart s) := by
  unfold patternStart
  (repeat' split) <;> exact h

theorem quietInv_testStop (s : State) (h : QuietInv s) : QuietInv (testStop s) := by
  unfold testStop
  (repeat' split)
  · exact quietInv_up rfl
  · exact h
  · exact h

theorem quietInv_resultLimit (s : State) (h : QuietInv s) : QuietInv (resultLimit s) := by
  unfold resultLimit
  split
  · rename_i due _
    exact (quietInv_completeOwner (bare .linkDown) (s.reach due) h)
  · exact h
/-! loss -/

theorem far_gone (s : State) (h : RequestInv s) (t : Tag) : (requestsAtLoss s).rt.tags[t].state.isFar = false := by
  have key : ∀ (ts : List Tag) (u : State), (completeAll ts .linkDown u).rt.tags[t].state.isFar = true → u.rt.tags[t].state.isFar = true ∧ t ∉ ts := by
    intro ts
    induction ts with
    | nil => intro u h; exact ⟨h, by simp⟩
    | cons x ts ih =>
      intro u h
      obtain ⟨a, b⟩ := ih (completeTag x (bare .linkDown) u) h
      simp only [completeTag] at a; rw [vput_at] at a; split at a
      · cases a
      · rename_i hne; exact ⟨a, by simp [b, Ne.symm hne]⟩
  unfold requestsAtLoss
  cases hx : (completeAll (s.rt.order.filter fun t => s.rt.tags[t].state.isFar) .linkDown s).rt.tags[t].state.isFar with
  | false => rfl
  | true =>
    obtain ⟨a, b⟩ := key _ _ hx
    exfalso; apply b
    rw [List.mem_filter]
    refine ⟨(h.2.2.2.2.1 t).1 ?_, a⟩
    revert a; cases s.rt.tags[t].state <;> simp [TagState.isFar, TagState.isPending]

theorem far_completeOwner (a) (s : State) (t : Tag) (h : s.rt.tags[t].state.isFar = false) : (completeOwner a s).rt.tags[t].state.isFar = false := by
  unfold completeOwner
  (repeat' split) <;> first | exact h | skip
  simp only [completeTag]; rw [vput_at]; split
  · rfl
  · exact h

theorem far_testAtLoss (s : State) (t : Tag) (h : s.rt.tags[t].state.isFar = false) : (testAtLoss s).rt.tags[t].state.isFar = false := by
  obtain ⟨u, a, hu, h2⟩ := testAtLoss_eq s
  have hi : u.rt.tags[t].state.isFar = false := by
    rcases hu with rfl | ⟨r, e, n, rfl⟩
    · exact h
    · simpa using h
  rcases h2 with h2 | ⟨h2, hp⟩ | h2 | h2 <;> rw [h2]
  · exact h
  · exact hi
  · show (if u.lt.owner then completeOwner a u else u).rt.tags[t].state.isFar = false
    split
    · exact far_completeOwner _ _ _ hi
    · exact hi
  · exact far_completeOwner _ _ _ hi

theorem quietInv_loss (r) (s : State) (hr : RequestInv s) : QuietInv (loss r s) := by
  unfold loss
  apply quietInv_select
  intro _
  have hfe : (enterHoldoff r Config.holdoff (engineAtLoss (clearFlags (testAtLoss (linesAtLoss (leaseAtLoss (eventsAtLoss r (incomingAtLoss (requestsAtLoss s)))))))) ).fe = { FrameEngine.reset with crcErrors := s.fe.crcErrors } := by
    simp [enterHoldoff, quiet, engineAtLoss, FrameEngine.reset, requestsAtLoss]
  refine ⟨?_, ?_, ?_, ?_, ?_, ?_, ?_, ?_⟩
  · rw [hfe]; refine ⟨rfl, rfl, rfl, rfl, rfl, rfl, rfl, ?_⟩
    simp [engineAtLoss]
  · intro t
    simp only [enterHoldoff_frame, engineAtLoss_frame, clearFlags_frame]
    apply far_testAtLoss
    simp only [linesAtLoss_frame, leaseAtLoss_frame, eventsAtLoss_frame, incomingAtLoss_frame]
    exact far_gone s hr t
  · intro i e
    simp only [enterHoldoff_frame, engineAtLoss_frame, clearFlags_frame, testAtLoss_frame, linesAtLoss_frame, leaseAtLoss_frame, eventsAtLoss_frame]
    simp only [incomingAtLoss, vtab_at]
    cases hs : (requestsAtLoss s).iq.slots[i] with
    | none => simp
    | some x =>
      simp only [Option.bind_some]
      intro h; unfold slotAtLoss at h; split at h <;> cases h <;> rfl
  · simp [incomingAtLoss]
  · simp [incomingAtLoss]
  · intro l
    simp only [enterHoldoff_frame, engineAtLoss_frame, clearFlags_frame, testAtLoss_frame, linesAtLoss_frame]
    unfold leaseAtLoss
    split
    · simp
    · rename_i hne
      intro hl
      obtain ⟨o, d⟩ := l
      cases o
      · rfl
      · exact absurd hl (hne d)
  · intro l
    simp only [enterHoldoff_frame, engineAtLoss_frame]
    simp only [clearFlags, mapLines, vtab_at, testAtLoss_frame, linesAtLoss, releaseOwned]
    have hm : ∀ r : LineRecord, (mirrorFallback r).owner = r.owner := by
      intro r; unfold mirrorFallback; (repeat' split) <;> rfl
    have hrel : ∀ (b : Bool) (r : LineRecord), (if allLines.getLsbD l.val = true ∧ r.owner = some .remoteHost then releasedRecord b r else r).owner ≠ some .remoteHost := by
      intro b r
      have hall : allLines.getLsbD l.val = true := by revert l; decide
      split
      · unfold releasedRecord; split <;> simp
      · rename_i h; intro h2; exact h ⟨hall, h2⟩
    rw [hm]; exact hrel _ _
  · simp [eventsAtLoss]

theorem quietInv_plainDown {s u : State} (hd : s.slc.state.isUp = false) (h : QuietInv s) (e1 : u.fe.window = s.fe.window ∧ u.fe.goBack = s.fe.goBack ∧ u.fe.credits = s.fe.credits ∧ u.fe.retCount = s.fe.retCount ∧ u.fe.cancelList = s.fe.cancelList ∧ u.fe.releaseAll = s.fe.releaseAll ∧ u.fe.runLines = s.fe.runLines) (e2 : u.slc.peerReady = s.slc.peerReady)
   (e3 : u.rt.tags = s.rt.tags) (e4 : u.iq = s.iq) (e5 : u.da.remoteList = s.da.remoteList) (e6 : u.da.lease = s.da.lease) (e7 : u.lb.lines = s.lb.lines) (e8 : u.eu.outbox = s.eu.outbox) : QuietInv u :=
  fun _ => q_eq (h hd) e1 e2 e3 e4 e5 e6 e7 e8

theorem quietInv_enterListen (s : State) (hd : s.slc.state.isUp = false) (h : QuietInv s) : QuietInv (enterListen s) :=
  quietInv_plainDown hd h (by simp) (by simp) (by simp) (by simp) (by simp) (by simp) (by simp) (by simp)

theorem quietInv_enterHoldoff (r n) (s : State) (hd : s.slc.state.isUp = false) (h : QuietInv s) : QuietInv (enterHoldoff r n s) :=
  quietInv_plainDown hd h (by simp) (by simp) (by simp) (by simp) (by simp) (by simp) (by simp) (by simp)

theorem quietInv_roleClash (s : State) (hd : s.slc.state.isUp = false) (h : QuietInv s) : QuietInv (roleClash s) :=
  quietInv_plainDown hd h (by simp) (by simp) (by simp) (by simp) (by simp) (by simp) (by simp) (by simp)

theorem quietInv_failBringUp (r) (s : State) (hd : s.slc.state.isUp = false) (h : QuietInv s) : QuietInv (failBringUp r s) := quietInv_enterHoldoff _ _ _ hd h

theorem quietInv_setSpanOff (v) (s : State) (hr : RequestInv s) (h : QuietInv s) : QuietInv (setSpanOff v s) := by
  have h1 : QuietInv { s with hp.spanOff := v } := h
  have hl : QuietInv (loss .localOff { s with hp.spanOff := v }) := quietInv_loss _ _ hr
  unfold setSpanOff
  dsimp only
  split
  · exact h
  split
  · exact h1
  · exact h1
  · exact quietInv_plainDown (s := s) (by rw [‹s.slc.state = _›]; rfl) h (by simp) (by simp) (by simp) (by simp) (by simp) (by simp) (by simp) (by simp)
  · exact quietInv_failBringUp _ { s with hp.spanOff := true } (by show s.slc.state.isUp = false; rw [‹s.slc.state = _›]; rfl) h1
  iterate 4 exact hl
  · split
    · exact quietInv_enterListen { s with hp.spanOff := false } (by show s.slc.state.isUp = false; rw [‹s.slc.state = _›]; rfl) h1
    · exact h1
  all_goals exact h1

theorem quietInv_trainingInterval (s : State) (h : QuietInv s) : QuietInv (trainingInterval s) := by
  unfold trainingInterval; split <;> exact h

theorem quietInv_helloInterval (s : State) (h : QuietInv s) : QuietInv (helloInterval s) := by
  unfold helloInterval; split <;> exact h

theorem quietInv_helloLimit (s : State) (hl : LinkInv s) (h : QuietInv s) : QuietInv (helloLimit s) := by
  unfold helloLimit; split
  · exact h
  · rename_i due hd
    have : s.slc.state = .hello := hl.1.2.2.1 (by rw [hd]; rfl)
    exact quietInv_failBringUp _ (s.reach due) (by show s.slc.state.isUp = false; rw [this]; rfl) h

theorem quietInv_silenceLimit (s : State) (hr : RequestInv s) (h : QuietInv s) : QuietInv (silenceLimit s) := by
  unfold silenceLimit; split
  · exact h
  · rename_i due _; exact quietInv_loss _ (s.reach due) hr

theorem quietInv_retrainLimit (s : State) (hr : RequestInv s) (h : QuietInv s) : QuietInv (retrainLimit s) := by
  unfold retrainLimit; split
  · exact h
  · rename_i due _; exact quietInv_loss _ (s.reach due) hr

theorem quietInv_holdoffEnd (s : State) (hl : LinkInv s) (h : QuietInv s) : QuietInv (holdoffEnd s) := by
  unfold holdoffEnd; split
  · exact h
  · rename_i due hd
    have : s.slc.state = .holdoff := hl.1.2.2.2.2.2 (by rw [hd]; rfl)
    have hdn : s.slc.state.isUp = false := by rw [this]; rfl
    dsimp only; split
    · exact quietInv_plainDown (s := s) hdn h (by simp) (by simp) (by simp) (by simp) (by simp) (by simp) (by simp) (by simp)
    · exact quietInv_enterListen { s.reach due with slc.holdoff := none } hdn h

theorem up_turns {s : State} (h : s.slc.state.hasTurns = true) : s.slc.state.isUp = true := by cases hs : s.slc.state <;> simp_all [LinkState.hasTurns, LinkState.isUp]

theorem quietInv_buildFrame (k) (s : State) (hu : s.slc.state.isUp = true) : QuietInv (buildFrame k s) := by
  apply quietInv_up
  unfold buildFrame
  split
  · simpa using hu
  · split <;> simpa using hu
  · simpa using hu
  · simpa using hu
  · split <;> simpa using hu
  · simp [LinkState.isUp]
  · simpa using hu
  · simpa using hu
  · split <;> simpa using hu
  · split <;> simpa using hu
  all_goals simpa using hu

theorem quietInv_sendSelected (s : State) (hu : s.slc.state.isUp = true) (hr : RequestInv s) : QuietInv (sendSelected s) := by
  unfold sendSelected
  (repeat' split)
  · exact quietInv_buildFrame _ s hu
  · exact quietInv_up hu
  · exact quietInv_loss _ _ hr
  · apply quietInv_up; simpa using hu

theorem quietInv_turnOpen (s : State) (hr : RequestInv s) (h : QuietInv s) : QuietInv (turnOpen s) := by
  unfold turnOpen
  split
  · rename_i hh; exact quietInv_sendSelected _ (up_turns hh.2.1) hr
  · exact h

theorem quietInv_followerReply (s : State) (hr : RequestInv s) (h : QuietInv s) : QuietInv (followerReply s) := by
  unfold followerReply
  split
  · exact h
  · split
    · rename_i hh
      dsimp only
      split
      · exact quietInv_up (by simpa using up_turns hh.2.1)
      · exact quietInv_sendSelected _ (up_turns hh.2.1) hr
    · exact h

theorem quietInv_afterSend (s : State) (h : QuietInv s) : QuietInv (afterSend s) := by
  unfold afterSend
  split
  · exact quietInv_up rfl
  · exact h

theorem quietInv_frameSent (s : State) (h : QuietInv s) : QuietInv (frameSent s) := by
  unfold frameSent
  dsimp only
  split
  · exact h
  · split
    · exact quietInv_afterSend _ h
    · apply quietInv_up; simp [enterRunFromHello, startRun]; split <;> simp [LinkState.isUp]
    · exact quietInv_afterSend _ h

theorem quietInv_missTurn (g) (s : State) (hr : RequestInv s) (h : QuietInv s) : QuietInv (missTurn g s) := by
  unfold missTurn
  dsimp only
  split
  · exact quietInv_loss _ _ hr
  · exact h

theorem quietInv_replyWindowEnd (s : State) (hr : RequestInv s) (h : QuietInv s) : QuietInv (replyWindowEnd s) := by
  unfold replyWindowEnd
  split
  · exact h
  · rename_i due _
    have h1 : QuietInv (s.reach due) := h
    have hr1 : RequestInv (s.reach due) := hr
    dsimp only
    split
    · exact quietInv_missTurn _ _ hr1 h1
    · exact quietInv_missTurn _ _ hr1 h1
    all_goals exact h1

theorem quietInv_badFrame (s : State) (hr : RequestInv s) (h : QuietInv s) : QuietInv (badFrame s) := by
  unfold badFrame
  dsimp only
  split
  · split
    · exact quietInv_missTurn _ _ hr h
    · exact h
  · split
    · exact quietInv_missTurn _ _ hr h
    · exact h
  · exact h
  · exact h
  · split <;> exact h
  · split <;> exact h
  all_goals exact h
/-! taking frames: the link stays up -/

theorem up_deliver (k p) (s t : State) (hu : s.slc.state.isUp = true) (ht : deliver k p s = .next t) : t.slc.state.isUp = true := by
  unfold deliver at ht
  split at ht
  · unfold takeReq at ht; split at ht <;> cases ht
    · exact hu
    · simpa using hu
  all_goals cases ht
  · simpa using hu
  · simpa using hu
  · simpa using hu
  · simpa using hu
  · simpa using hu
  · unfold takeTestEnter; (repeat' split) <;> first | exact hu | simp [becomeNonOwner, LinkState.isUp]
  · simpa using hu
  · simpa using hu
  · simpa using hu
  all_goals exact hu

theorem up_takeFrame (k hd p) (s t : State) (hu : s.slc.state.isUp = true) (ht : takeFrame k hd p s = .next t) : t.slc.state.isUp = true := by
  unfold takeFrame at ht
  have h1 : (takeHeader hd s).slc.state.isUp = true := by simpa using hu
  split at ht
  · cases ht; simpa using hu
  · obtain ⟨u, hu', rfl⟩ := thenDo_next ht
    have hu2 : u.slc.state.isUp = true := by
      split at hu'
      · unfold takeSequenced at hu'
        split at hu' <;> first | exact up_deliver _ _ { takeHeader hd s with fe.expected := (takeHeader hd s).fe.expected + 1 } _ h1 hu' | (cases hu'; exact h1)
      · cases hu'; exact h1
    split
    · unfold goAcknowledged; (repeat' split)
      · rfl
      · rfl
      · exact hu2
    · exact hu2

theorem up_run (s : State) : (enterRunFromRetrain s).slc.state.isUp = true := by simp [enterRunFromRetrain, startRun, LinkState.isUp]

theorem quietInv_takeTrainAck (hd) (s : State) (h : QuietInv s) : QuietInv (takeTrainAck hd s) := by
  unfold takeTrainAck
  dsimp only
  split
  · rename_i hs
    split
    · refine quietInv_plainDown (s := s) (by rw [hs]; rfl) h (by simp) (by simp) (by simp) (by simp) (by simp) (by simp) (by simp) (by simp)
    · exact h
  · split
    · split
      · exact quietInv_up (up_run _)
      · exact h
    · exact h
  · exact h

theorem quietInv_takeReady (b) (s : State) (hu : s.slc.state.isUp = true) : QuietInv (takeReady b s) := by apply quietInv_up; simpa using hu

theorem quietInv_leaderTakes (k hd p) (s t : State) (h : QuietInv s) (ht : leaderTakes k hd p s = .next t) : QuietInv t := by
  unfold leaderTakes at ht
  dsimp only at ht
  split at ht
  · rename_i hs
    have hdn : s.slc.state.isUp = false := by rw [hs]; rfl
    (repeat' split at ht) <;> cases ht
    · exact quietInv_roleClash _ hdn h
    · exact quietInv_takeTrainAck _ _ h
    · exact h
  · rename_i hs
    have hdn : s.slc.state.isUp = false := by rw [hs]; rfl
    (repeat' split at ht) <;> cases ht
    · exact quietInv_roleClash _ hdn h
    · unfold leaderHello; split
      · apply quietInv_up; simp [enterRunFromHello, startRun]; split <;> simp [LinkState.isUp]
      · exact quietInv_failBringUp _ _ hdn h
    · exact h
  · rename_i hs
    have hup : s.slc.state.isUp = true := by rw [hs]; rfl
    (repeat' split at ht) <;> cases ht
    · exact h
    · exact quietInv_takeTrainAck _ _ (quietInv_takeReady _ _ hup)
    · exact quietInv_takeReady _ _ hup
  · rename_i hs
    split at ht
    · cases ht; exact h
    · exact quietInv_up (up_takeFrame _ _ _ (turnAnswered k hd s) _ (by show s.slc.state.isUp = true; rw [hs]; rfl) ht)
  · rename_i hs
    split at ht
    · cases ht; exact h
    · exact quietInv_up (up_takeFrame _ _ _ (turnAnswered k hd s) _ (by show s.slc.state.isUp = true; rw [hs]; rfl) ht)
  all_goals cases ht; exact h

theorem quietInv_followerHello (hd p) (s : State) (hdn : s.slc.state.isUp = false) (h : QuietInv s) : QuietInv (followerHello hd p s) := by
  unfold followerHello
  split
  · exact h
  · exact quietInv_failBringUp _ _ hdn h

theorem quietInv_followerTurn (k hd p) (s t : State) (hu : s.slc.state.isUp = true) (ht : followerTurn k hd p s = .next t) : QuietInv t := by
  unfold followerTurn at ht
  split at ht
  · exact quietInv_up (up_takeFrame _ _ _ _ _ hu ht)
  · exact quietInv_up (up_takeFrame _ _ _ (restartSilence s) _ hu ht)
  · exact quietInv_up (up_takeFrame _ _ _ (oweReply _ (restartSilence s)) _ hu ht)

theorem quietInv_followerTakes (k hd p) (s t : State) (hr : RequestInv s) (h : QuietInv s) (ht : followerTakes k hd p s = .next t) : QuietInv t := by
  unfold followerTakes at ht
  dsimp only at ht
  split at ht
  · cases ht; exact h
  split at ht
  · rename_i hs
    have hdn : s.slc.state.isUp = false := by rw [hs]; rfl
    (repeat' split at ht) <;> cases ht
    · exact quietInv_plainDown (s := s) hdn h (by simp) (by simp) (by simp) (by simp) (by simp) (by simp) (by simp) (by simp)
    · exact h
    · exact quietInv_followerHello _ _ (lock s) rfl (quietInv_plainDown (s := s) hdn h (by simp) (by simp) (by simp) (by simp) (by simp) (by simp) (by simp) (by simp))
    · exact h
  · rename_i hs
    have hdn : s.slc.state.isUp = false := by rw [hs]; rfl
    (repeat' split at ht) <;> cases ht
    · exact h
    · exact quietInv_followerHello _ _ _ hdn h
    · exact h
  · rename_i hs
    have hup : s.slc.state.isUp = true := by rw [hs]; rfl
    (repeat' split at ht)
    · cases ht; apply quietInv_up; simpa [answerTrain] using hup
    · cases ht; exact quietInv_loss _ _ (requestInv_takeReady _ _ hr)
    · exact quietInv_followerTurn _ _ _ _ _ (up_run _) ht
  · rename_i hs; exact quietInv_followerTurn _ _ _ _ _ (by rw [hs]; rfl) ht
  · rename_i hs; exact quietInv_followerTurn _ _ _ _ _ (by rw [hs]; rfl) ht
  all_goals cases ht; exact h

theorem quietInv_receive (k hd p) (s t : State) (hr : RequestInv s) (h : QuietInv s) (ht : receive k hd p s = .next t) : QuietInv t := by
  unfold receive at ht
  (repeat' split at ht)
  · cases ht; exact h
  · cases ht; exact quietInv_takeSymbols _ _ h
  · cases ht; exact quietInv_badFrame _ hr h
  · exact quietInv_leaderTakes _ _ _ _ _ h ht
  · exact quietInv_followerTakes _ _ _ _ _ hr h ht

theorem quietInv_receiveBad (raw) (s : State) (hr : RequestInv s) (h : QuietInv s) : QuietInv (receiveBad raw s) := by
  unfold receiveBad
  (repeat' split)
  · exact h
  · exact quietInv_takeSymbols _ _ h
  · exact quietInv_badFrame _ hr h

theorem quietInv_remoteDeadlineExpiry (i) (s : State) (h : QuietInv s) : QuietInv (remoteDeadlineExpiry i s) := by
  unfold remoteDeadlineExpiry; split
  · exact h
  · rename_i due hd
    refine quietInv_mk h (by simp) fun _ hq => ?_
    exfalso
    have : (slotDue s i).isSome = true := by rw [hd]; rfl
    rw [slotDue_iff] at this
    obtain ⟨e, d, h1, h2⟩ := this
    rw [hq.2.2.1 i e h1] at h2; cases h2
/-! lines -/

theorem q_takeLevel (l v) (s : State) (hs : s.slc.state.isUp = false) (h : Q s) : Q (takeLevel l v s) := by
  have h1 : Q (setLine l { s.lb.lines[l] with level := v, timing := none } s) := by
    refine q_lines h rfl rfl rfl rfl rfl ?_ rfl
    intro k; simp only [setLine]; rw [vput_at]; split
    · rename_i e; subst e; exact id
    · exact id
  unfold takeLevel
  dsimp only
  split
  · exact h1
  · have h2 : ∀ r, Q (reportChange r l v (setLine l { s.lb.lines[l] with level := v, timing := none } s)) := by
      intro r
      unfold reportChange
      split
      · exact h1
      · exact q_raiseLocal _ _ _ _ h1
      · rw [raiseRemote_down _ _ _ _ (by simpa using hs)]; exact h1
      · rw [raiseRemote_down _ _ _ _ (by simpa using hs)]; exact q_raiseLocal _ _ _ _ h1
    split
    · exact q_lines (h2 s.lb.lines[l].report) rfl rfl rfl rfl rfl (fun _ e => e) rfl
    · exact h2 _

theorem q_setLine (l r) (s : State) (h : Q s) (hr : r.owner = some .remoteHost → s.lb.lines[l].owner = some .remoteHost) : Q (setLine l r s) := by
  refine q_lines h rfl rfl rfl rfl rfl ?_ rfl
  intro k; simp only [setLine]; rw [vput_at]; split
  · rename_i e; subst e; exact hr
  · exact id

theorem quietInv_pinChange (l v) (s : State) (h : QuietInv s) : QuietInv (pinChange l v s) := by
  unfold pinChange
  dsimp only
  split
  · exact h
  split
  · exact quietInv_mk h rfl fun _ hq => q_setLine _ _ _ hq id
  split
  · refine quietInv_mk h (by simp) fun hs hq => ?_
    exact q_takeLevel _ _ (setLine l { s.lb.lines[l] with pin := v } s) hs (q_setLine _ _ _ hq id)
  · exact quietInv_mk h rfl fun _ hq => q_setLine _ _ _ hq id

theorem quietInv_debounceEnd (l) (s : State) (h : QuietInv s) : QuietInv (debounceEnd l s) := by
  unfold debounceEnd
  split
  · exact h
  · rename_i due _
    exact quietInv_mk h (by simp) fun hs hq => q_takeLevel _ _ (s.reach due) hs hq

theorem q_releaseOwned (o m) (s : State) (h : Q s) : Q (releaseOwned o m s) := by
  refine q_lines h rfl rfl rfl rfl rfl ?_ rfl
  intro k; simp only [releaseOwned, mapLines]; rw [vtab_at]; split
  · unfold releasedRecord; split <;> (intro e; cases e)
  · exact id

theorem quietInv_setRemoteLines (m) (s : State) (h : QuietInv s) : QuietInv (setRemoteLines m s) := by
  refine quietInv_mk h (by simp) fun hs hq => ?_
  unfold setRemoteLines
  dsimp only
  refine (List.foldlRecOn (motive := fun u => u.slc.state = s.slc.state ∧ Q u) _ _ ?_ ?_).2
  · exact ⟨rfl, q_lines (q_releaseOwned .remoteHost (s.lb.remoteLines &&& ~~~m) s hq) rfl rfl rfl rfl rfl (fun _ e => e) rfl⟩
  · intro u hu l _
    rw [raiseRemote_down _ _ _ _ (by rw [hu.1]; exact hs)]; exact hu

theorem q_lineConfig (o c) (s : State) (hs : s.slc.state.isUp = false) (h : Q s) : Q (lineConfig o c s).2 := by
  unfold lineConfig
  dsimp only
  split
  · exact h
  · generalize hs1 : setLine c.line { s.lb.lines[c.line] with mode := c.mode, debounce := c.debounce, report := c.report, fallback := c.fallback, partner := c.partner, style := c.style } s = s1
    have h1 : Q s1 ∧ s1.slc.state = s.slc.state := by rw [← hs1]; exact ⟨q_setLine _ _ _ h id, rfl⟩
    have h2 : Q (retime c.line s.lb.lines[c.line].debounce s1) := by
      unfold retime; dsimp only
      (repeat' split)
      · exact h1.1
      · exact q_takeLevel _ _ _ (by rw [h1.2]; exact hs) h1.1
      · exact q_setLine _ _ _ h1.1 id
    have h3 : Q (setLine c.line (enterMode s.lb.lines[c.line].mode (retime c.line s.lb.lines[c.line].debounce s1).lb.lines[c.line]) (retime c.line s.lb.lines[c.line].debounce s1)) := by
      refine q_setLine _ _ _ h2 ?_
      unfold enterMode; (repeat' split) <;> exact id
    split
    · exact q_lines h3 rfl rfl rfl rfl rfl (fun _ e => e) rfl
    · exact h3

theorem q_runLine (r) (s : State) (hs : s.slc.state.isUp = false) (h : Q s) : Q (runLine .localHost r s).2 := by
  unfold runLine
  split
  · unfold lineClaim; dsimp only; (repeat' split) <;> first | exact h | skip
    refine q_lines h rfl rfl rfl rfl rfl ?_ rfl
    intro k; simp only [mapLines]; rw [vtab_at]; split
    · intro e; cases e
    · exact id
  · exact q_releaseOwned _ _ _ h
  · unfold lineSet; dsimp only; (repeat' split) <;> first | exact h | skip
    refine q_lines h rfl rfl rfl rfl rfl ?_ rfl
    intro k; simp only [mapLines]; rw [vtab_at]; split <;> exact id
  · split
    · exact q_lineConfig _ _ _ hs h
    · exact h
  · exact h
/-! the host port -/

theorem q_accept (t r st) (s : State) (hst : st.isFar = false) (h : Q s) : Q (acceptTag t r st s) := by
  refine q_tags h ?_ id (by simp) rfl rfl rfl rfl rfl rfl
  intro u; simp only [acceptTag]; rw [vput_at]; split
  · intro e; rw [hst] at e; cases e
  · exact id

theorem quietInv_submitFar (t r) (s : State) (h : QuietInv s) : QuietInv (submitFar t r s) := by
  unfold submitFar
  dsimp only
  split
  · rename_i hh
    apply quietInv_up
    show s.slc.state.isUp = true
    revert hh; cases s.slc.state <;> simp [LinkState.acceptsFar, LinkState.isUp]
  · refine quietInv_mk h rfl fun _ hq => ?_
    have := q_completeTag t (bare .linkDown) _ (q_accept t r .queued s rfl hq)
    have e : completeTag t (bare .linkDown) (acceptTag t r .waitCredit s) = completeTag t (bare .linkDown) (acceptTag t r .queued s) := by
      simp only [completeTag, acceptTag, vput_vput, vput_at, if_pos]
    rw [e]; exact this

theorem q_leaseDrop (o) (s : State) (h : Q s) : Q (leaseDrop o s).2 := by
  unfold leaseDrop; (repeat' split) <;> first | exact h | exact q_noLease h

theorem quietInv_submitNear (t r) (s : State) (h : QuietInv s) : QuietInv (submitNear t r s) := by
  refine quietInv_mk h (by simp) fun hs hq => ?_
  have h1 := q_accept t r .queued s rfl hq
  have hL : Q { acceptTag t r .queued s with da.localList := (acceptTag t r .queued s).da.localList ++ [t] } := q_lists h1 rfl rfl rfl rfl id (fun l e => Or.inr e) rfl rfl
  unfold submitNear
  dsimp only
  split
  iterate 4 exact q_select _ hL
  iterate 5 exact q_completeTag _ _ _ (q_runLine r (acceptTag t r .queued s) hs h1)
  · unfold dropLease
    dsimp only
    split
    · exact q_select _ (q_completeTag _ _ _ (q_leaseDrop _ _ h1))
    · exact q_completeTag _ _ _ (q_leaseDrop _ _ h1)
  · exact q_completeTag _ _ _ h1
  · unfold startTest
    dsimp only
    (repeat' split) <;> first | exact q_completeTag _ _ _ h1 | skip
    exact q_eq (q_setTag t _ _ h1 rfl) (by simp) rfl rfl rfl rfl rfl rfl rfl

theorem quietInv_submit (s : State) (h : QuietInv s) : QuietInv (submit s) := by
  unfold submit
  (repeat' split) <;> first | exact h | exact quietInv_submitFar _ _ _ h | exact quietInv_submitNear _ _ _ h

theorem quietInv_cancelTag (t) (s : State) (h : QuietInv s) : QuietInv (cancelTag t s) := by
  unfold cancelTag
  dsimp only
  split
  · exact h
  · exact h
  · exact h
  · exact h
  · exact quietInv_completeTag t (bare .cancelled) { s with da.localList := s.da.localList.filter (· ≠ t) } h
  · exact quietInv_completeTag t (bare .cancelled) s h
  · rename_i hs
    refine quietInv_mk h rfl fun _ hq => ?_
    have := hq.2.1 t
    rw [hs] at this; cases this
  · exact h

theorem quietInv_cancel (b) (s : State) (h : QuietInv s) : QuietInv (cancel b s) := by
  unfold cancel; split
  · exact quietInv_cancelTag _ _ h
  · exact h

theorem quietInv_deadlineExpiry (t) (s : State) (h : QuietInv s) : QuietInv (deadlineExpiry t s) := by
  unfold deadlineExpiry
  dsimp only
  split
  · exact h
  · rename_i due _
    split
    · exact quietInv_completeTag t (bare .timeout) { s.reach due with da.localList := (s.reach due).da.localList.filter (· ≠ t) } h
    iterate 3 exact quietInv_completeTag t (bare .timeout) (s.reach due) h
    all_goals exact h

theorem quietInv_completionPop (s : State) (h : QuietInv s) : QuietInv (completionPop s) := by
  unfold completionPop; split
  · exact h
  · refine quietInv_mk h rfl fun _ hq => ?_
    refine q_tags hq ?_ id (by simp) rfl rfl rfl rfl rfl rfl
    intro u; simp only; rw [vput_at]; split
    · intro e; cases e
    · exact id

theorem quietInv_softReset (b) (s : State) (h : QuietInv s) : QuietInv (softReset b s) := by
  unfold softReset
  split
  · apply quietInv_select
    refine quietInv_mk h (by simp [arbiterAtSoftReset]) fun hs hq => ?_
    have ht : s.slc.state.hasTurns = false := by revert hs; cases s.slc.state <;> simp [LinkState.isUp, LinkState.hasTurns]
    obtain ⟨⟨b1, b2, b3, b4, b5, b6, b7, b8⟩, b9, b10, b11, b12, b13, b14, b15⟩ := hq
    refine ⟨⟨?_, ?_, ?_, ?_, ?_, ?_, ?_, ?_⟩, ?_, ?_, ?_, ?_, ?_, ?_, ?_⟩
    · simpa [arbiterAtSoftReset] using b1
    · simpa [arbiterAtSoftReset] using b2
    · simpa [arbiterAtSoftReset] using b3
    · simpa [arbiterAtSoftReset] using b4
    · simp [arbiterAtSoftReset, restAtSoftReset, requestsAtSoftReset]
    · simp [arbiterAtSoftReset, restAtSoftReset, ht, b6]
    · simpa [arbiterAtSoftReset] using b7
    · simpa [arbiterAtSoftReset] using b8
    · intro t; simp [arbiterAtSoftReset, requestsAtSoftReset, TagState.isFar]
    · simpa [arbiterAtSoftReset] using b10
    · simpa [arbiterAtSoftReset] using b11
    · simpa [arbiterAtSoftReset] using b12
    · intro l hl
      simp only [arbiterAtSoftReset, endLease] at hl
      revert hl
      split
      · split
        · intro e; cases e
        · intro e; exact b13 l (by simpa using e)
      · intro e; exact b13 l (by simpa using e)
    · intro l
      have : (arbiterAtSoftReset (restAtSoftReset (testAtSoftReset (releaseOwned .localHost allLines (requestsAtSoftReset s))))).lb = (releaseOwned .localHost allLines (requestsAtSoftReset s)).lb := by
        simp [arbiterAtSoftReset]
      rw [this]
      simp only [releaseOwned, mapLines]; rw [vtab_at]; split
      · unfold releasedRecord; split <;> (intro e; cases e)
      · exact b14 l
    · simpa [arbiterAtSoftReset] using b15
  · exact h

theorem quietInv_writeAt (o b) (s : State) (hr : RequestInv s) (h : QuietInv s) : QuietInv (writeAt o b s) := by
  unfold writeAt
  split
  · exact quietInv_setSpanOff _ { s with hp.hostReady := b.getLsbD 0, hp.alertCq := b.getLsbD 1, hp.alertEq := b.getLsbD 2 } hr h
  · exact quietInv_softReset _ _ h
  · unfold writePolicy; split
    · exact quietInv_setPolicy _ _ h
    · exact h
  · unfold writeSpeed; split <;> exact h
  · exact h
  · exact quietInv_setRemoteLines _ _ h
  · exact h
  · exact h
  · exact quietInv_submit _ h
  · exact quietInv_cancel _ _ h
  · exact quietInv_completionPop _ h
  · exact h
  · exact quietInv_testStop _ h
  · (repeat' split) <;> first | exact h | (unfold writeStaging; split <;> exact h)

theorem quietInv_portWrite (o b) (s : State) (hr : RequestInv s) (h : QuietInv s) : QuietInv (portWrite o b s) :=
  quietInv_writeAt o b (beginWrite s) hr h

theorem quietInv_registerWrite (w) (s : State) (hr : RequestInv s) (h : QuietInv s) : QuietInv (registerWrite w s) := by
  unfold registerWrite
  (repeat' split)
  · exact h
  · exact h
  · exact quietInv_portWrite _ _ _ hr h
  · exact h

theorem q_reset (r e a p n) : Q (State.cleared r e a p n) := by
  have hl : (State.cleared r e a p n).lb.lines = vtab fun l => LineRecord.reset l (p.getLsbD l.val) := rfl
  refine ⟨⟨?_, ?_, ?_, ?_, ?_, ?_, ?_, ?_⟩, ?_, ?_, ?_, ?_, ?_, fun l => by rw [hl, vtab_at]; simp [LineRecord.reset], ?_⟩ <;> simp [State.cleared, IncomingQueue.reset, Arbiter.reset, RequestTable.reset, FrameEngine.reset, LinkController.reset, LineBlock.reset, LineRecord.reset, EventUnit.reset, TagState.isFar]

theorem quietInv_rstnLow (c) (s : State) (h : QuietInv s) : QuietInv (rstnLow c s) := by
  unfold rstnLow
  dsimp only
  split
  · exact fun _ => q_reset .follower false 0x2C#7 0 s.now
  · exact h

theorem quietInv_rstnRelease (x p) (s : State) (h : QuietInv s) : QuietInv (rstnRelease x p s) := by
  unfold rstnRelease
  dsimp only
  (repeat' split)
  · exact quietInv_enterListen _ rfl (fun _ => q_reset (strapRole x) x.spanEn (strapAddress x) p s.now)
  · exact fun _ => q_reset (strapRole x) x.spanEn (strapAddress x) p s.now
  · exact h

theorem quietInv_portRead (r p) (s : State) (h : QuietInv s) : QuietInv (portRead r p s) := quietInv_of h (by simp) (by simp) (by simp) (by simp) (by simp) (by simp) (by simp) (by simp) (by simp)

theorem quietInv_onPort (f) (s t : State) (hr : RequestInv s) (hf : ∀ s, RequestInv s → QuietInv s → QuietInv (f s)) (h : QuietInv s) (ht : Host.Outcome.next (onPort f s) = (.next t : Host.Outcome State Fault Refusal)) : QuietInv t := by
  cases ht
  unfold onPort
  split
  · exact h
  · exact hf _ hr h

theorem quietInv_onChip (f) (s t : State) (hf : QuietInv s → QuietInv (f s)) (h : QuietInv s) (ht : Host.Outcome.next (onChip f s) = (.next t : Host.Outcome State Fault Refusal)) : QuietInv t := by
  cases ht
  unfold onChip
  split
  · exact h
  · exact hf h

theorem quietInv_stuckAtStart (s : State) (h : QuietInv s) : QuietInv (stuckAtStart s) := by unfold stuckAtStart; split <;> exact h

theorem quietInv_testFlagPulseEnd (s : State) (h : QuietInv s) : QuietInv (testFlagPulseEnd s) := by
  unfold testFlagPulseEnd; split <;> exact h

theorem quietInv_hostPortStartUp (s : State) (h : QuietInv s) : QuietInv (hostPortStartUp s) := by
  unfold hostPortStartUp; split <;> exact h

end Sys2Proof.Laws.QuietInv
end

