-- ==== Sys2Proof/Laws/SelectedInv.lean ====
section
/-! SUPPORT. Each operation leaves nothing unselected (SelectedInv). -/
namespace Sys2Proof.Laws.SelectedInv
open Sys2Proof.Machine Sys2Proof.Laws.RequestInv
set_option maxHeartbeats 2000000

theorem selectedInv_iff (s : State) : SelectedInv s ↔ (s.dbc.state.accepts = true → nextOrigin s.da = none) := by
  have e1 : s.dbc.state.accepts = true ↔ (s.dbc.state = .idle ∨ s.dbc.state = .faulted) := by cases s.dbc.state <;> simp [BusState.accepts]
  have e2 : nextOrigin s.da = none ↔ ((s.da.lease = none → s.da.localList = [] ∧ s.da.remoteList = []) ∧
    (∀ due, s.da.lease = some ⟨.localHost, due⟩ → s.da.localList = []) ∧
    (∀ due, s.da.lease = some ⟨.remoteHost, due⟩ → s.da.remoteList = [])) := by
    unfold nextOrigin
    cases hl : s.da.lease with
    | none => cases s.da.localList <;> cases s.da.remoteList <;> simp
    | some l => obtain ⟨o, d⟩ := l; cases o <;> cases s.da.localList <;> cases s.da.remoteList <;> simp
  unfold SelectedInv; rw [e1, e2]

theorem nextOrigin_nil {a : Arbiter} (h1 : a.localList = []) (h2 : a.remoteList = []) : nextOrigin a = none := by
  unfold nextOrigin; rw [h1, h2]; simp; split <;> (try rfl); split <;> rfl

theorem nextOrigin_local {a : Arbiter} (h : nextOrigin a = some .localHost) : ∃ t rest, a.localList = t :: rest := by
  unfold nextOrigin at h
  cases hl : a.localList with
  | cons t r => exact ⟨t, r, rfl⟩
  | nil =>
    rw [hl] at h
    cases he : a.lease with
    | none => rw [he] at h; simp at h
    | some l => obtain ⟨o, d⟩ := l; rw [he] at h; cases o <;> simp at h

theorem nextOrigin_remote {a : Arbiter} (h : nextOrigin a = some .remoteHost) : ∃ t rest, a.remoteList = t :: rest := by
  unfold nextOrigin at h
  cases hl : a.remoteList with
  | cons t r => exact ⟨t, r, rfl⟩
  | nil =>
    rw [hl] at h
    cases he : a.lease with
    | none => rw [he] at h; simp at h
    | some l => obtain ⟨o, d⟩ := l; rw [he] at h; cases o <;> simp at h

theorem selectedInv_selectLoop (n) (s : State) (hn : s.da.localList.length + s.da.remoteList.length ≤ n) : SelectedInv (selectLoop n s) := by
  rw [selectedInv_iff]
  induction n generalizing s with
  | zero =>
    intro _
    apply nextOrigin_nil
    · exact List.length_eq_zero_iff.1 (by simp only [selectLoop]; omega)
    · exact List.length_eq_zero_iff.1 (by simp only [selectLoop]; omega)
  | succ n ih =>
    unfold selectLoop
    split
    · split
      · intro _; assumption
      · rename_i o ho
        apply ih
        have hlen : (serveHead o s).da.localList.length + (serveHead o s).da.remoteList.length + 1 = s.da.localList.length + s.da.remoteList.length := by
          cases o
          · obtain ⟨t, rest, e⟩ := nextOrigin_local ho
            unfold serveHead; simp only [e]; simp; omega
          · obtain ⟨t, rest, e⟩ := nextOrigin_remote ho
            unfold serveHead; simp only [e]; simp; omega
        omega
    · intro h; contradiction

theorem selectedInv_select' (s : State) : SelectedInv (select s) := selectedInv_selectLoop _ _ (Nat.le_refl _)

theorem selectedInv_select (s : State) (_ : True) : SelectedInv (select s) := selectedInv_selectLoop _ _ (Nat.le_refl _)

theorem selectedInv_endWork (a c) (s : State) (_ : SelectedInv s) : SelectedInv (endWork a c s) := by
  cases c with
  | none => rw [endWork_none]; exact selectedInv_select' _
  | some c => rw [endWork_some]; split <;> exact selectedInv_select' _

/-- fewer waiting entries -/

theorem selectedInv_fewer (s u : State) (h : SelectedInv s) (e1 : u.dbc.state = s.dbc.state) (e2 : u.da.lease = s.da.lease)
  (e3 : s.da.localList = [] → u.da.localList = []) (e4 : s.da.remoteList = [] → u.da.remoteList = []) : SelectedInv u := by
  unfold SelectedInv at *
  rw [e1, e2]
  intro hs
  obtain ⟨a, b, c⟩ := h hs
  exact ⟨fun x => ⟨e3 (a x).1, e4 (a x).2⟩, fun d x => e3 (b d x), fun d x => e4 (c d x)⟩

theorem selectedInv_busy (s : State) (h : s.dbc.state = .active ∨ s.dbc.state = .recovering) : SelectedInv s := by
  intro hs; rcases h with h | h <;> rw [h] at hs <;> rcases hs with e | e <;> cases e

theorem selectedInv_stuckAtStart (s : State) (h : SelectedInv s) : SelectedInv (stuckAtStart s) := by
  unfold stuckAtStart; split
  · exact selectedInv_busy _ (Or.inr rfl)
  · exact h

theorem selectedInv_withdrawSlot (i st) (s : State) (h : SelectedInv s) : SelectedInv (withdrawSlot i st s) := by
  unfold withdrawSlot
  refine selectedInv_fewer s _ h (by simp) (by simp) (by simp) (fun e => by simp [e])

theorem selectedInv_takeCancel (p) (s : State) (h : SelectedInv s) : SelectedInv (takeCancel p s) := by
  unfold takeCancel; (repeat' split) <;> first | exact h | exact selectedInv_withdrawSlot _ _ _ h

theorem selectedInv_remoteDeadlineExpiry (i) (s : State) (h : SelectedInv s) : SelectedInv (remoteDeadlineExpiry i s) := by
  unfold remoteDeadlineExpiry; split
  · exact h
  · exact selectedInv_withdrawSlot _ _ _ h

theorem selectedInv_transactionEnd (a r) (s : State) (h : SelectedInv s) : SelectedInv (transactionEnd a r s) := by
  unfold transactionEnd
  split
  · exact selectedInv_endWork _ _ _ h
  · exact h

theorem selectedInv_endRecovery (c) (s : State) (h : SelectedInv s) : SelectedInv (endRecovery c s) := by
  unfold endRecovery
  split
  · exact selectedInv_endWork _ _ _ h
  · exact h

theorem selectedInv_stretchLimit (a r) (s : State) (h : SelectedInv s) : SelectedInv (stretchLimit a r s) := by
  unfold stretchLimit
  dsimp only
  (repeat' split) <;> first | exact h | exact selectedInv_endRecovery _ _ h | exact selectedInv_busy _ (Or.inr rfl)

theorem selectedInv_recoveryEnd (x) (s : State) (h : SelectedInv s) : SelectedInv (recoveryEnd x s) := by
  unfold recoveryEnd
  split
  · exact selectedInv_endRecovery _ _ h
  · exact h

theorem selectedInv_leaseExpiry (s : State) (h : SelectedInv s) : SelectedInv (leaseExpiry s) := by
  unfold leaseExpiry; split
  · exact h
  · exact selectedInv_select' _

theorem selectedInv_setPolicy (p) (s : State) (h : SelectedInv s) : SelectedInv (setPolicy p s) := by
  unfold setPolicy; (repeat' split) <;> first | exact h | exact selectedInv_select' _

theorem selectedInv_completeOwner (a) (s : State) (h : SelectedInv s) : SelectedInv (completeOwner a s) := by simpa [SelectedInv] using h

theorem selectedInv_endTest  (s : State) (h : SelectedInv s) : SelectedInv (endTest s) := by simpa [SelectedInv] using h

theorem selectedInv_drainLimit  (s : State) (h : SelectedInv s) : SelectedInv (drainLimit s) := by simpa [SelectedInv] using h

theorem selectedInv_becomeNonOwner (p) (s : State) (h : SelectedInv s) : SelectedInv (becomeNonOwner p s) := by simpa [SelectedInv] using h

theorem selectedInv_takeTestEnter (p) (s : State) (h : SelectedInv s) : SelectedInv (takeTestEnter p s) := by simpa [SelectedInv] using h

theorem selectedInv_takeTestReady  (s : State) (h : SelectedInv s) : SelectedInv (takeTestReady s) := by simpa [SelectedInv] using h

theorem selectedInv_takeTestGo  (s : State) (h : SelectedInv s) : SelectedInv (takeTestGo s) := by simpa [SelectedInv] using h

theorem selectedInv_enterTest  (s : State) (h : SelectedInv s) : SelectedInv (enterTest s) := by simpa [SelectedInv] using h

theorem selectedInv_goAcknowledged  (s : State) (h : SelectedInv s) : SelectedInv (goAcknowledged s) := by simpa [SelectedInv] using h

theorem selectedInv_takeSymbol (d st) (s : State) (h : SelectedInv s) : SelectedInv (takeSymbol d st s) := by simpa [SelectedInv] using h

theorem selectedInv_takeSymbols (bs) (s : State) (h : SelectedInv s) : SelectedInv (takeSymbols bs s) := by simpa [SelectedInv] using h

theorem selectedInv_leaveTest (r) (s : State) (h : SelectedInv s) : SelectedInv (leaveTest r s) := by simpa [SelectedInv] using h

theorem selectedInv_testDuration  (s : State) (h : SelectedInv s) : SelectedInv (testDuration s) := by simpa [SelectedInv] using h

theorem selectedInv_checkerDuration  (s : State) (h : SelectedInv s) : SelectedInv (checkerDuration s) := by simpa [SelectedInv] using h

theorem selectedInv_patternLost  (s : State) (h : SelectedInv s) : SelectedInv (patternLost s) := by simpa [SelectedInv] using h

theorem selectedInv_patternStart  (s : State) (h : SelectedInv s) : SelectedInv (patternStart s) := by simpa [SelectedInv] using h

theorem selectedInv_testStop  (s : State) (h : SelectedInv s) : SelectedInv (testStop s) := by simpa [SelectedInv] using h

theorem selectedInv_settleTest  (s : State) (h : SelectedInv s) : SelectedInv (settleTest s) := by simpa [SelectedInv] using h

theorem selectedInv_takeTestResult (p) (s : State) (h : SelectedInv s) : SelectedInv (takeTestResult p s) := by simpa [SelectedInv] using h

theorem selectedInv_resultLimit  (s : State) (h : SelectedInv s) : SelectedInv (resultLimit s) := by simpa [SelectedInv] using h

theorem selectedInv_testAtLoss  (s : State) (h : SelectedInv s) : SelectedInv (testAtLoss s) := by simpa [SelectedInv] using h

theorem selectedInv_requestsAtLoss  (s : State) (h : SelectedInv s) : SelectedInv (requestsAtLoss s) := by simpa [SelectedInv] using h

theorem selectedInv_loss (r) (s : State) (_ : SelectedInv s) : SelectedInv (loss r s) := by unfold loss; exact selectedInv_select' _

theorem selectedInv_enterRunFromHello (c) (s : State) (h : SelectedInv s) : SelectedInv (enterRunFromHello c s) := by simpa [SelectedInv] using h

theorem selectedInv_enterRunFromRetrain  (s : State) (h : SelectedInv s) : SelectedInv (enterRunFromRetrain s) := by simpa [SelectedInv] using h

theorem selectedInv_setSpanOff (v) (s : State) (h : SelectedInv s) : SelectedInv (setSpanOff v s) := by
  unfold setSpanOff
  dsimp only
  (repeat' split) <;> first | exact h | exact selectedInv_loss _ _ h | simpa [SelectedInv] using h

theorem selectedInv_silenceLimit (s : State) (h : SelectedInv s) : SelectedInv (silenceLimit s) := by
  unfold silenceLimit; split
  · exact h
  · exact selectedInv_loss _ _ h

theorem selectedInv_retrainLimit (s : State) (h : SelectedInv s) : SelectedInv (retrainLimit s) := by
  unfold retrainLimit; split
  · exact h
  · exact selectedInv_loss _ _ h

theorem selectedInv_holdoffEnd (s : State) (h : SelectedInv s) : SelectedInv (holdoffEnd s) := by
  unfold holdoffEnd; dsimp only; (repeat' split) <;> first | exact h | (simpa [SelectedInv] using h)

theorem selectedInv_trainingInterval (s : State) (h : SelectedInv s) : SelectedInv (trainingInterval s) := by
  unfold trainingInterval; split <;> first | exact h | (simpa [SelectedInv] using h)

theorem selectedInv_helloInterval (s : State) (h : SelectedInv s) : SelectedInv (helloInterval s) := by
  unfold helloInterval; split <;> first | exact h | (simpa [SelectedInv] using h)

theorem selectedInv_helloLimit (s : State) (h : SelectedInv s) : SelectedInv (helloLimit s) := by
  unfold helloLimit; split <;> first | exact h | (simpa [SelectedInv] using h)

theorem selectedInv_buildReq (t) (s : State) (h : SelectedInv s) : SelectedInv (buildReq t s) := by simpa [SelectedInv] using h

theorem selectedInv_pushFrame (k p i) (s : State) (h : SelectedInv s) : SelectedInv (pushFrame k p i s) := by simpa [SelectedInv] using h

theorem selectedInv_buildFrame (k) (s : State) (h : SelectedInv s) : SelectedInv (buildFrame k s) := by simpa [SelectedInv] using h

theorem selectedInv_sendSelected (s : State) (h : SelectedInv s) : SelectedInv (sendSelected s) := by
  unfold sendSelected
  (repeat' split)
  · exact selectedInv_buildFrame _ s h
  · exact h
  · exact selectedInv_loss _ _ h
  · simpa [SelectedInv] using h

theorem selectedInv_turnOpen (s : State) (h : SelectedInv s) : SelectedInv (turnOpen s) := by
  unfold turnOpen
  split
  · exact selectedInv_sendSelected _ h
  · exact h

theorem selectedInv_followerReply (s : State) (h : SelectedInv s) : SelectedInv (followerReply s) := by
  unfold followerReply
  dsimp only
  (repeat' split) <;> first | exact h | exact selectedInv_sendSelected _ h | simpa [SelectedInv] using h

theorem selectedInv_afterSend (s : State) (h : SelectedInv s) : SelectedInv (afterSend s) := by
  unfold afterSend
  split
  · exact selectedInv_enterTest _ h
  · exact h

theorem selectedInv_frameSent (s : State) (h : SelectedInv s) : SelectedInv (frameSent s) := by
  unfold frameSent
  dsimp only
  (repeat' split)
  · exact h
  · exact selectedInv_afterSend _ h
  · exact selectedInv_enterRunFromHello _ _ h
  · exact selectedInv_afterSend _ h

theorem selectedInv_missTurn (g) (s : State) (h : SelectedInv s) : SelectedInv (missTurn g s) := by
  unfold missTurn
  dsimp only
  split
  · exact selectedInv_loss _ _ h
  · exact h

theorem selectedInv_replyWindowEnd (s : State) (h : SelectedInv s) : SelectedInv (replyWindowEnd s) := by
  unfold replyWindowEnd
  dsimp only
  (repeat' split) <;> first | exact h | exact selectedInv_missTurn _ _ h

theorem selectedInv_badFrame (s : State) (h : SelectedInv s) : SelectedInv (badFrame s) := by
  unfold badFrame
  dsimp only
  (repeat' split) <;> first | exact h | exact selectedInv_missTurn _ _ h

theorem selectedInv_dropLease (o f) (s : State) (hf : ∀ st u, (f st u).da = u.da ∧ (f st u).dbc = u.dbc) (h : SelectedInv s) : SelectedInv (dropLease o f s) := by
  unfold dropLease
  dsimp only
  split
  · exact selectedInv_select' _
  · rename_i hh
    have : (leaseDrop o s).2 = s := by
      unfold leaseDrop; split
      · rfl
      · rename_i l hl; simp [holdsLease, hl] at hh; simp [hh]
    rw [this]
    unfold SelectedInv at *; rw [(hf _ _).1, (hf _ _).2]; exact h

theorem selectedInv_answerSlot (i a) (s : State) (h : SelectedInv s) : SelectedInv (answerSlot i a s) := by simpa [SelectedInv] using h

theorem selectedInv_runRemote (i r) (s : State) (h : SelectedInv s) : SelectedInv (runRemote i r s) := by
  unfold runRemote
  dsimp only
  split
  case h_6 => exact selectedInv_dropLease _ _ _ (fun st u => by simp) h
  all_goals first | exact h | (apply selectedInv_answerSlot; simpa [SelectedInv] using h)

theorem selectedInv_handleReq (i r) (s : State) (h : SelectedInv s) : SelectedInv (handleReq i r s) := by
  unfold handleReq
  (repeat' split) <;> first | exact selectedInv_answerSlot _ _ _ h | exact selectedInv_select' _ | exact selectedInv_runRemote _ _ _ h

theorem selectedInv_takeReq (p) (s t : State) (h : SelectedInv s) (ht : takeReq p s = .next t) : SelectedInv t := by
  unfold takeReq at ht
  split at ht
  · cases ht
  · cases ht; exact h
  · cases ht; exact selectedInv_handleReq _ _ _ h

theorem selectedInv_takeRsp (p) (s : State) (h : SelectedInv s) : SelectedInv (takeRsp p s) := by simpa [SelectedInv] using h

theorem selectedInv_takeReleaseAll (s : State) (_ : SelectedInv s) : SelectedInv (takeReleaseAll s) := by
  unfold takeReleaseAll; exact selectedInv_select' _

theorem selectedInv_deliver (k p) (s t : State) (h : SelectedInv s) (ht : deliver k p s = .next t) : SelectedInv t := by
  unfold deliver at ht
  split at ht <;> first | exact selectedInv_takeReq _ _ _ h ht | skip
  all_goals cases ht
  all_goals first | exact h | exact selectedInv_takeTestEnter _ _ h | exact selectedInv_takeTestReady _ h | exact selectedInv_takeTestGo _ h | exact selectedInv_takeTestResult _ _ h | exact selectedInv_takeRsp _ _ h | exact selectedInv_takeReleaseAll _ h | exact selectedInv_takeCancel _ _ h | simpa [SelectedInv] using h

theorem selectedInv_takeSequenced (k q p) (s t : State) (h : SelectedInv s) (ht : takeSequenced k q p s = .next t) : SelectedInv t := by
  unfold takeSequenced at ht
  split at ht <;> first | exact selectedInv_deliver _ _ { s with fe.expected := s.fe.expected + 1 } _ h ht | (cases ht; exact h)

theorem selectedInv_takeFrame (k hd p) (s t : State) (h : SelectedInv s) (ht : takeFrame k hd p s = .next t) : SelectedInv t := by
  unfold takeFrame at ht
  have h1 : SelectedInv (takeHeader hd s) := by simpa [SelectedInv] using h
  split at ht
  · cases ht; simpa [SelectedInv] using h
  · obtain ⟨u, hu, rfl⟩ := thenDo_next ht
    have hu' : SelectedInv u := by
      split at hu
      · exact selectedInv_takeSequenced _ _ _ _ _ h1 hu
      · cases hu; exact h1
    split
    · exact selectedInv_goAcknowledged _ hu'
    · exact hu'

theorem selectedInv_takeTrainAck (hd) (s : State) (h : SelectedInv s) : SelectedInv (takeTrainAck hd s) := by
  unfold takeTrainAck
  dsimp only
  (repeat' split) <;> first | exact h | exact selectedInv_enterRunFromRetrain _ h

theorem selectedInv_leaderHello (hd p) (s : State) (h : SelectedInv s) : SelectedInv (leaderHello hd p s) := by
  unfold leaderHello
  split
  · exact selectedInv_enterRunFromHello _ _ h
  · exact h

theorem selectedInv_takeReady (b) (s : State) (h : SelectedInv s) : SelectedInv (takeReady b s) := by simpa [SelectedInv] using h

theorem selectedInv_roleClash (s : State) (h : SelectedInv s) : SelectedInv (roleClash s) := by simpa [SelectedInv] using h

theorem selectedInv_leaderTakes (k hd p) (s t : State) (h : SelectedInv s) (ht : leaderTakes k hd p s = .next t) : SelectedInv t := by
  unfold leaderTakes at ht
  dsimp only at ht
  (repeat' split at ht) <;> first | (cases ht; first | exact h | exact selectedInv_roleClash _ h | exact selectedInv_takeTrainAck _ _ h | exact selectedInv_leaderHello _ _ _ h | exact selectedInv_takeReady _ _ h | exact selectedInv_takeTrainAck _ _ (selectedInv_takeReady _ _ h)) | exact selectedInv_takeFrame _ _ _ (turnAnswered k hd s) _ h ht

theorem selectedInv_followerHello (hd p) (s : State) (h : SelectedInv s) : SelectedInv (followerHello hd p s) := by
  unfold followerHello
  split <;> exact h

theorem selectedInv_followerTurn (k hd p) (s t : State) (h : SelectedInv s) (ht : followerTurn k hd p s = .next t) : SelectedInv t := by
  unfold followerTurn at ht
  split at ht
  · exact selectedInv_takeFrame _ _ _ _ _ h ht
  · exact selectedInv_takeFrame _ _ _ (restartSilence s) _ h ht
  · exact selectedInv_takeFrame _ _ _ (oweReply _ (restartSilence s)) _ h ht

theorem selectedInv_followerTakes (k hd p) (s t : State) (h : SelectedInv s) (ht : followerTakes k hd p s = .next t) : SelectedInv t := by
  unfold followerTakes at ht
  dsimp only at ht
  (repeat' split at ht) <;> first
    | (cases ht; first | exact h | exact selectedInv_followerHello _ _ _ h | exact selectedInv_followerHello _ _ (lock s) h | exact selectedInv_loss _ _ (selectedInv_takeReady _ _ h) | simpa [SelectedInv] using h)
    | exact selectedInv_followerTurn _ _ _ _ _ h ht | exact selectedInv_followerTurn _ _ _ _ _ (selectedInv_enterRunFromRetrain _ h) ht

theorem selectedInv_receive (k hd p) (s t : State) (h : SelectedInv s) (ht : receive k hd p s = .next t) : SelectedInv t := by
  unfold receive at ht
  (repeat' split at ht)
  · cases ht; exact h
  · cases ht; exact selectedInv_takeSymbols _ _ h
  · cases ht; exact selectedInv_badFrame _ h
  · exact selectedInv_leaderTakes _ _ _ _ _ h ht
  · exact selectedInv_followerTakes _ _ _ _ _ h ht

theorem selectedInv_receiveBad (raw) (s : State) (h : SelectedInv s) : SelectedInv (receiveBad raw s) := by
  unfold receiveBad
  (repeat' split)
  · exact h
  · exact selectedInv_takeSymbols _ _ h
  · exact selectedInv_badFrame _ h

theorem selectedInv_submitFar (t r) (s : State) (h : SelectedInv s) : SelectedInv (submitFar t r s) := by simpa [SelectedInv] using h

theorem selectedInv_startTest (t) (s : State) (h : SelectedInv s) : SelectedInv (startTest t s) := by simpa [SelectedInv] using h

theorem selectedInv_submitNear (t r) (s : State) (h : SelectedInv s) : SelectedInv (submitNear t r s) := by
  unfold submitNear
  dsimp only
  split
  · exact selectedInv_select' _
  · exact selectedInv_select' _
  · exact selectedInv_select' _
  · exact selectedInv_select' _
  iterate 5 simpa [SelectedInv] using h
  · exact selectedInv_dropLease _ _ _ (fun st u => by simp) h
  · simpa [SelectedInv] using h
  · simpa [SelectedInv] using h

theorem selectedInv_submit (s : State) (h : SelectedInv s) : SelectedInv (submit s) := by
  unfold submit
  (repeat' split) <;> first | exact h | exact selectedInv_submitFar _ _ _ h | exact selectedInv_submitNear _ _ _ h

theorem selectedInv_cancelTag (t) (s : State) (h : SelectedInv s) : SelectedInv (cancelTag t s) := by
  unfold cancelTag
  dsimp only
  split <;> first | exact h | exact selectedInv_fewer s _ h (by simp) (by simp) (fun e => by simp [e]) (by simp)

theorem selectedInv_cancel (b) (s : State) (h : SelectedInv s) : SelectedInv (cancel b s) := by
  unfold cancel; split
  · exact selectedInv_cancelTag _ _ h
  · exact h

theorem selectedInv_deadlineExpiry (t) (s : State) (h : SelectedInv s) : SelectedInv (deadlineExpiry t s) := by
  unfold deadlineExpiry
  dsimp only
  (repeat' split) <;> first | exact h | exact selectedInv_fewer s _ h (by simp) (by simp) (fun e => by simp [e]) (by simp)

theorem selectedInv_completionPop  (s : State) (h : SelectedInv s) : SelectedInv (completionPop s) := by simpa [SelectedInv] using h

theorem selectedInv_softReset (b) (s : State) (h : SelectedInv s) : SelectedInv (softReset b s) := by
  unfold softReset
  split
  · exact selectedInv_select' _
  · exact h

theorem selectedInv_writeAt (o b) (s : State) (h : SelectedInv s) : SelectedInv (writeAt o b s) := by
  unfold writeAt
  split
  · exact selectedInv_setSpanOff _ _ h
  · exact selectedInv_softReset _ _ h
  · unfold writePolicy; split
    · exact selectedInv_setPolicy _ _ h
    · exact h
  · simpa [SelectedInv] using h
  · exact h
  · simpa [SelectedInv] using h
  · exact h
  · exact h
  · exact selectedInv_submit _ h
  · exact selectedInv_cancel _ _ h
  · exact selectedInv_completionPop _ h
  · exact h
  · exact selectedInv_testStop _ h
  · (repeat' split) <;> first | exact h | simpa [SelectedInv] using h

theorem selectedInv_portWrite (o b) (s : State) (h : SelectedInv s) : SelectedInv (portWrite o b s) :=
  selectedInv_writeAt o b (beginWrite s) h

theorem selectedInv_registerWrite (w) (s : State) (h : SelectedInv s) : SelectedInv (registerWrite w s) := by
  unfold registerWrite
  (repeat' split)
  · exact h
  · exact h
  · exact selectedInv_portWrite _ _ _ h
  · exact h

theorem selectedInv_reset (r e a p n) : SelectedInv (State.cleared r e a p n) := by
  intro _; simp [State.cleared, Arbiter.reset]

theorem selectedInv_rstnLow (c) (s : State) (h : SelectedInv s) : SelectedInv (rstnLow c s) := by
  unfold rstnLow
  dsimp only
  split
  · exact selectedInv_reset .follower false 0x2C#7 0 s.now
  · exact h

theorem selectedInv_rstnRelease (x p) (s : State) (h : SelectedInv s) : SelectedInv (rstnRelease x p s) := by
  unfold rstnRelease
  dsimp only
  (repeat' split)
  · have := selectedInv_reset (strapRole x) x.spanEn (strapAddress x) p s.now
    simp only [SelectedInv, enterListen_frame]
    exact this
  · exact selectedInv_reset (strapRole x) x.spanEn (strapAddress x) p s.now
  · exact h

theorem selectedInv_portRead (r p) (s : State) (h : SelectedInv s) : SelectedInv (portRead r p s) := by
  simp only [SelectedInv, portRead_frame]; exact h

end Sys2Proof.Laws.SelectedInv
end

