-- ==== Sys2Proof/Laws/Transfer.lean ====
section
/-! SUPPORT. What a WRITE or READ puts on the bus, item by item (R57 to R60), and line by line (R54). -/
namespace Sys2Proof.Machine

/-- Bytes alone are sent as they are. -/
theorem sent_bytes (l : List Byte) : l.filterMap (BusItem.sent ∘ BusItem.byte) = l := by
  induction l with
  | nil => rfl
  | cons b l ih => simp [BusItem.sent, ih]

/-- Receiving sends nothing. -/
theorem sent_receive (n : Nat) : (receiveItems n).filterMap BusItem.sent = [] := by
  simp [receiveItems, BusItem.sent]

/-- R57: the bytes a WRITE sends. -/
theorem sentBytes_write {r : Request} (h : r.kind = .write) :
    r.sentBytes = addressByte r.target false :: (r.offsets ++ r.dataBytes) := by
  simp [Request.sentBytes, Request.transfer, h, List.filterMap_append, List.filterMap_cons, sent_bytes, BusItem.sent]

/-- R59: the bytes a READ sends. -/
theorem sentBytes_read {r : Request} (h : r.kind ≠ .write) :
    r.sentBytes = if r.offsets = [] then [addressByte r.target true]
      else addressByte r.target false :: (r.offsets ++ [addressByte r.target true]) := by
  by_cases ho : r.offsets = [] <;>
    simp [Request.sentBytes, Request.transfer, h, ho, List.filterMap_append, List.filterMap_cons, sent_bytes,
      sent_receive, BusItem.sent]

/-- The number of bytes a WRITE sends. -/
theorem bytesSent_write {r : Request} (h : r.kind = .write) : r.bytesSent = 1 + r.offsetsSent + r.length.toNat := by
  simp [Request.bytesSent, sentBytes_write h, Request.offsetsSent, Request.dataBytes]; omega

/-- The number of bytes a READ sends. -/
theorem bytesSent_read {r : Request} (h : r.kind ≠ .write) :
    r.bytesSent = if r.offsetsSent = 0 then 1 else r.offsetsSent + 2 := by
  by_cases ho : r.offsets = [] <;> simp [Request.bytesSent, sentBytes_read h, Request.offsetsSent, ho]

/-- A refusal falls behind a START. -/
theorem refusedAfter_start (n : Nat) (l : List BusItem) : refusedAfter n (.start :: l) = .start :: refusedAfter n l := by
  cases n <;> rfl

/-- A refusal falls behind a STOP. -/
theorem refusedAfter_stop (n : Nat) (l : List BusItem) : refusedAfter n (.stop :: l) = .stop :: refusedAfter n l := by
  cases n <;> rfl

/-- A refusal falls behind received bytes. -/
theorem refusedAfter_receive (n m : Nat) (l : List BusItem) :
    refusedAfter n (receiveItems m ++ l) = receiveItems m ++ refusedAfter n l := by
  have one : ∀ (b : Bool) (l : List BusItem), refusedAfter n (.receive b :: l) = .receive b :: refusedAfter n l := by
    intro b l; cases n <;> rfl
  have many : ∀ (k : Nat) (l : List BusItem),
      refusedAfter n (List.replicate k (.receive true) ++ l) = List.replicate k (.receive true) ++ refusedAfter n l := by
    intro k l
    induction k with
    | zero => rfl
    | succ k ih => simp [List.replicate_succ, one, ih]
  simp [receiveItems, many, one]

/-- Among bytes sent one after the other, a refusal ends them behind the refused one. -/
theorem refusedAfter_bytes (bytes : List Byte) : ∀ (n : Nat) (l : List BusItem),
    refusedAfter n (bytes.map .byte ++ l) =
      if n < bytes.length then (bytes.take (n + 1)).map .byte ++ [.stop]
      else bytes.map .byte ++ refusedAfter (n - bytes.length) l := by
  induction bytes with
  | nil => intro n l; simp
  | cons b bytes ih =>
    intro n l
    cases n with
    | zero => simp [refusedAfter]
    | succ n =>
      simp only [List.map_cons, List.cons_append, refusedAfter, ih, List.length_cons, List.take_succ_cons]
      by_cases h : n < bytes.length <;> simp [h]

/-- Nothing on the bus drives nothing. -/
@[simp] theorem busDrives_nil : busDrives [] = [] := rfl

/-- Items drive the lines one after the other. -/
@[simp] theorem busDrives_cons (x : BusItem) (l : List BusItem) : busDrives (x :: l) = x.drives ++ busDrives l := rfl

/-- Items drive the lines one after the other. -/
@[simp] theorem busDrives_append (k l : List BusItem) : busDrives (k ++ l) = busDrives k ++ busDrives l := by
  simp [busDrives]

/-- R54: behind a STOP both lines are released. -/
theorem busDrives_stop_released (l : List BusItem) : (busDrives (l ++ [.stop])).getLast? = some ⟨true, true⟩ := by
  simp [BusItem.drives, List.getLast?_append]

/-- R62: a recovery procedure that runs to its end leaves both lines released. -/
theorem recoveryDrives_released (x : RecoverySamples) : (recoveryDrives x).getLast? = some ⟨true, true⟩ := by
  unfold recoveryDrives recoveryItems
  cases recoveryPulses x with
  | none => rfl
  | some n =>
    rw [← List.singleton_append, List.getLast?_append, busDrives_stop_released]
    rfl

end Sys2Proof.Machine
end

