-- ==== Sys2Proof/Laws/WindowInv.lean ====
section
/-! SUPPORT. Each operation keeps the window and its counts in form (WindowInv). -/
namespace Sys2Proof.Laws.WindowInv
open Sys2Proof.Machine Sys2Proof.Laws.RequestInv Sys2Proof.Laws.IncomingInv Sys2Proof.Laws.BusInv Sys2Proof.Laws.QuietInv
set_option maxHeartbeats 2000000

theorem windowSeqs_succ (q : Seq) (n : Nat) : windowSeqs (q + 1) (n + 1) = windowSeqs q n ++ [q] := by
  unfold windowSeqs
  rw [List.range_succ, List.map_append]
  congr 1
  · apply List.map_congr_left
    intro k hk
    have : BitVec.ofNat 3 (n + 1) = BitVec.ofNat 3 n + 1 := by
      apply BitVec.eq_of_toNat_eq; simp [BitVec.toNat_add]
    rw [this]; grind
  · simp only [List.map_cons, List.map_nil]
    have : BitVec.ofNat 3 (n + 1) = BitVec.ofNat 3 n + 1 := by
      apply BitVec.eq_of_toNat_eq; simp [BitVec.toNat_add]
    rw [this]; congr 1; grind

theorem windowSeqs_drop (q : Seq) (n k : Nat) (h : k ≤ n) : (windowSeqs q n).drop k = windowSeqs q (n - k) := by
  obtain ⟨m, rfl⟩ := Nat.exists_eq_add_of_le h
  induction k generalizing m with
  | zero => simp
  | succ k ih => 
    have := ih (m + 1) (by omega)
    rw [show k + 1 + m = k + (m + 1) by omega, show k + (m+1) - (k+1) = m by omega]
    rw [show k + (m + 1) - k = m + 1 by omega] at this
    rw [← List.drop_drop, this]
    unfold windowSeqs
    rw [List.range_succ_eq_map]
    simp only [List.map_cons, List.map_map, List.drop_succ_cons, List.drop_zero]
    apply List.map_congr_left
    intro j hj
    have e1 : BitVec.ofNat 3 (m + 1) = BitVec.ofNat 3 m + 1 := by
      apply BitVec.eq_of_toNat_eq; simp [BitVec.toNat_add]
    have e2 : BitVec.ofNat 3 (j + 1) = BitVec.ofNat 3 j + 1 := by
      apply BitVec.eq_of_toNat_eq; simp [BitVec.toNat_add]
    simp only [Function.comp]
    rw [e1, e2]; grind

theorem windowSeqs_nodup : ∀ (q : Seq) (n : Fin 5), (windowSeqs q n.val).Nodup := by decide +kernel

def W (fe : FrameEngine) (cap : Nat) : Prop :=
  fe.window.length ≤ 4 ∧
  fe.window.map (·.seq) = windowSeqs fe.txSeq fe.window.length ∧
  (∀ f ∈ fe.window, 1 ≤ f.sends ∧ f.sends ≤ 4) ∧
  (∀ q ∈ fe.goBack, q ∈ fe.window.map (·.seq)) ∧
  fe.stall ≤ 2 ∧ fe.credits ≤ cap ∧ cap ≤ 8 ∧
  (∀ h, fe.helloTaken = some h → h.capacity ≤ 8) ∧
  fe.lastRet ≤ 8 ∧ fe.retCount ≤ 8 ∧ fe.crcErrors ≤ 65535

theorem windowInv_W (s : State) : WindowInv s = W s.fe s.slc.peerCap := rfl

/-- a new engine whose nine fields of interest are these -/

theorem W_key {fe fe' : FrameEngine} {cap} (h : W fe cap) (e1 : fe'.txSeq = fe.txSeq) (e2 : fe'.window = fe.window) (e3 : fe'.goBack = fe.goBack) (e4 : fe'.stall = fe.stall)
   (e5 : fe'.credits = fe.credits) (e6 : fe'.helloTaken = fe.helloTaken) (e7 : fe'.lastRet = fe.lastRet) (e8 : fe'.retCount = fe.retCount) (e9 : fe'.crcErrors = fe.crcErrors) : W fe' cap := by
  unfold W at *; rw [e1, e2, e3, e4, e5, e6, e7, e8, e9]; exact h

theorem windowInv_freeWithCredit (i) (s : State) (h : WindowInv s) : WindowInv (freeWithCredit i s) := by
  obtain ⟨h1, h2, h3, h4, h5, h6, h7, h8, h9, h10, h11⟩ := h
  refine ⟨h1, h2, h3, h4, h5, h6, h7, h8, h9, ?_, h11⟩
  show (s.fe.retCount + 1) % 9 ≤ 8
  omega

theorem windowInv_freeAll (is : List Slot) (s : State) (h : WindowInv s) : WindowInv (is.foldl (fun s i => freeWithCredit i s) s) :=
  List.foldlRecOn (motive := WindowInv) _ _ h (fun u hu i _ => windowInv_freeWithCredit i u hu)

theorem windowInv_goBack (s : State) (h : WindowInv s) : WindowInv (goBack s) := by
  obtain ⟨h1, h2, h3, h4, h5, h6, h7, h8, h9, h10, h11⟩ := h
  exact ⟨h1, h2, h3, fun q hq => hq, Nat.zero_le _, h6, h7, h8, h9, h10, h11⟩

theorem windowInv_noteSend (b) (s : State) (h : WindowInv s) : WindowInv (noteSend b s) := by
  obtain ⟨h1, h2, h3, h4, h5, h6, h7, h8, h9, h10, h11⟩ := h
  unfold noteSend
  generalize hn : (if b = true ∧ s.fe.progress = false then s.fe.stall + 1 else s.fe.stall) = n
  dsimp only
  split
  · exact ⟨h1, h2, h3, fun q hq => hq, Nat.zero_le _, h6, h7, h8, h9, h10, h11⟩
  · exact ⟨h1, h2, h3, h4, by show n ≤ 2; omega, h6, h7, h8, h9, h10, h11⟩

theorem windowInv_pushFrame (k p i) (s : State) (hl : s.fe.window.length < 4) (h : WindowInv s) : WindowInv (pushFrame k p i s) := by
  obtain ⟨h1, h2, h3, h4, h5, h6, h7, h8, h9, h10, h11⟩ := h
  unfold pushFrame
  apply windowInv_noteSend
  refine ⟨?_, ?_, ?_, ?_, h5, h6, h7, h8, h9, h10, h11⟩
  · show (s.fe.window ++ [_]).length ≤ 4
    rw [List.length_append]; simp; omega
  · show (s.fe.window ++ [_]).map _ = windowSeqs (s.fe.txSeq + 1) (s.fe.window ++ [_]).length
    rw [List.length_append, List.map_append, h2]; exact (windowSeqs_succ _ _).symm
  · intro f hf
    have hf : f ∈ s.fe.window ++ [_] := hf
    rw [List.mem_append] at hf
    rcases hf with hf | hf
    · exact h3 f hf
    · rw [List.mem_singleton] at hf; rw [hf]; exact ⟨Nat.le_refl 1, (by omega : (1:Nat) ≤ 4)⟩
  · intro q hq
    show q ∈ (s.fe.window ++ [_]).map _
    rw [List.map_append, List.mem_append]; exact Or.inl (h4 q hq)

theorem nextKind_room (s : State) (h : nextKind s ≠ .idle) : s.fe.window.length < 4 := by
  unfold nextKind at h
  apply Nat.lt_of_not_le
  intro hc
  apply h
  dsimp only
  rw [if_pos (show Config.windowSize ≤ s.fe.window.length by unfold Config.windowSize; omega)]

theorem windowInv_buildIdle (s : State) (h : WindowInv s) : WindowInv (buildIdle s) := by
  unfold buildIdle; exact windowInv_noteSend _ _ h

theorem windowInv_cred (s : State) (h : WindowInv s) : WindowInv { s with fe.credits := s.fe.credits - 1 } := by
  obtain ⟨h1, h2, h3, h4, h5, h6, h7, h8, h9, h10, h11⟩ := h
  exact ⟨h1, h2, h3, h4, h5, by show s.fe.credits - 1 ≤ s.slc.peerCap; omega, h7, h8, h9, h10, h11⟩

theorem windowInv_quiet (s : State) (h : WindowInv s) : WindowInv (quiet s) := by
  obtain ⟨h1, h2, h3, h4, h5, h6, h7, h8, h9, h10, h11⟩ := h
  exact ⟨h1, h2, h3, h4, h5, h6, h7, (by intro _ e; cases e), h9, h10, h11⟩

theorem windowInv_enterHoldoff (r n) (s : State) (h : WindowInv s) : WindowInv (enterHoldoff r n s) := by
  unfold enterHoldoff; exact windowInv_quiet s h

theorem windowInv_fresh (fe : FrameEngine) (cap : Nat) (h1 : fe.window = []) (h2 : fe.goBack = []) (h3 : fe.stall = 0) (h4 : fe.credits ≤ cap) (h5 : cap ≤ 8)
   (h6 : fe.helloTaken = none) (h7 : fe.lastRet = 0) (h8 : fe.retCount = 0) (h9 : fe.crcErrors ≤ 65535) : W fe cap := by
  unfold W; rw [h1, h2, h3, h6, h7, h8]
  refine ⟨by simp, by simp [windowSeqs], by simp, by simp, by simp, h4, h5, by simp, by simp, by simp, h9⟩

theorem nodup_inj {α β} {f : α → β} {l : List α} (h : (l.map f).Nodup) {a b : α} (ha : a ∈ l) (hb : b ∈ l) (e : f a = f b) : a = b := by
  induction l with
  | nil => cases ha
  | cons x xs ih =>
    rw [List.map_cons, List.nodup_cons] at h
    rcases List.mem_cons.1 ha with ha | ha <;> rcases List.mem_cons.1 hb with hb | hb
    · rw [ha, hb]
    · exact absurd (List.mem_map.2 ⟨b, hb, by rw [← e, ha]⟩) h.1
    · exact absurd (List.mem_map.2 ⟨a, ha, by rw [e, hb]⟩) h.1
    · exact ih h.2 ha hb

theorem windowInv_resendFrame (f : WindowFrame) (q rest) (s : State) (hg : s.fe.goBack = q :: rest) (hf : s.fe.window.find? (fun f => decide (f.seq = q)) = some f) (hs : f.sends < 4) (h : WindowInv s) : WindowInv (resendFrame f rest s) := by
  obtain ⟨h1, h2, h3, h4, h5, h6, h7, h8, h9, h10, h11⟩ := h
  unfold resendFrame
  apply windowInv_noteSend
  have hfq : f.seq = q := by have := List.find?_some hf; simpa using this
  have hmem : f ∈ s.fe.window := List.mem_of_find?_eq_some hf
  have hnd : (s.fe.window.map (·.seq)).Nodup := by rw [h2]; exact windowSeqs_nodup _ ⟨s.fe.window.length, by omega⟩
  have hmap : (s.fe.window.map fun g => if g.seq = f.seq then { g with sends := g.sends + 1 } else g).map (·.seq) = s.fe.window.map (·.seq) := by
    rw [List.map_map]; congr 1; funext g; simp only [Function.comp]; split <;> rfl
  refine ⟨?_, ?_, ?_, ?_, h5, h6, h7, h8, h9, h10, h11⟩
  · show (s.fe.window.map _).length ≤ 4
    rw [List.length_map]; exact h1
  · show (s.fe.window.map _).map _ = windowSeqs s.fe.txSeq (s.fe.window.map _).length
    rw [hmap, List.length_map]; exact h2
  · intro g hg2
    have hg2 : g ∈ s.fe.window.map _ := hg2
    obtain ⟨g0, hg0, rfl⟩ := List.mem_map.1 hg2
    split
    · rename_i he
      have : g0 = f := nodup_inj hnd hg0 hmem he
      subst this
      exact ⟨by show 1 ≤ g0.sends + 1; omega, by show g0.sends + 1 ≤ 4; omega⟩
    · exact h3 g0 hg0
  · intro x hx
    show x ∈ (s.fe.window.map _).map _
    rw [hmap]; exact h4 x (by rw [hg]; exact List.mem_cons_of_mem _ hx)

theorem windowInv_takeAck (a) (s : State) (h : WindowInv s) : WindowInv (takeAck a s) := by
  unfold takeAck
  split
  · exact h
  · rename_i n hn
    apply windowInv_freeAll
    obtain ⟨h1, h2, h3, h4, h5, h6, h7, h8, h9, h10, h11⟩ := h
    obtain ⟨hlt, _⟩ := List.findIdx?_eq_some_iff_getElem.1 hn
    refine ⟨?_, ?_, ?_, ?_, Nat.zero_le _, h6, h7, h8, h9, h10, h11⟩
    · show (s.fe.window.drop (n+1)).length ≤ 4
      rw [List.length_drop]; omega
    · show (s.fe.window.drop (n+1)).map _ = windowSeqs s.fe.txSeq (s.fe.window.drop (n+1)).length
      rw [List.map_drop, h2, List.length_drop, windowSeqs_drop _ _ _ (by omega)]
    · intro f hf
      exact h3 f (List.mem_of_mem_drop hf)
    · intro q hq
      have hq := (List.mem_filter.1 hq).2
      show q ∈ (s.fe.window.drop (n+1)).map _
      simp only [List.any_eq_true, decide_eq_true_eq] at hq
      exact List.mem_map.2 hq

theorem windowInv_takeReturn (r : Byte) (hr : r.toNat ≤ 8) (s : State) (h : WindowInv s) : WindowInv (takeReturn r s) := by
  obtain ⟨h1, h2, h3, h4, h5, h6, h7, h8, h9, h10, h11⟩ := h
  exact ⟨h1, h2, h3, h4, h5, Nat.min_le_left _ _, h7, h8, hr, h10, h11⟩

theorem windowInv_takeReady' (b) (s : State) (h : WindowInv s) : WindowInv (takeReady b s) := by simpa [WindowInv] using h

theorem windowInv_takeHeader (hd : FrameHeader) (hr : hd.ret.toNat ≤ 8) (s : State) (h : WindowInv s) : WindowInv (takeHeader hd s) := by
  unfold takeHeader
  have := windowInv_takeReady' hd.hostReady _ (windowInv_takeReturn hd.ret hr _ (windowInv_takeAck hd.ack s h))
  dsimp only
  split
  · exact windowInv_goBack _ this
  · exact this

theorem windowInv_dropWaiting (s : State) (h : WindowInv s) : WindowInv (dropWaiting s) := by
  unfold dropWaiting; exact windowInv_freeAll _ { s with da.remoteList := [] } h

theorem windowInv_countBad (s : State) (h : WindowInv s) : WindowInv (countBad s) := by
  obtain ⟨h1, h2, h3, h4, h5, h6, h7, h8, h9, h10, h11⟩ := h
  exact ⟨h1, h2, h3, h4, h5, h6, h7, h8, h9, h10, Nat.min_le_left _ _⟩

theorem windowInv_clearCrcErrors (s : State) (h : WindowInv s) : WindowInv (clearCrcErrors s) := by
  obtain ⟨h1, h2, h3, h4, h5, h6, h7, h8, h9, h10, h11⟩ := h
  exact ⟨h1, h2, h3, h4, h5, h6, h7, h8, h9, h10, Nat.zero_le _⟩

theorem helloContent_cap {hd p c} (h : helloContent hd p = some c) : c.capacity ≤ 8 := by
  unfold helloContent at h; dsimp only at h; split at h
  · rename_i hc; cases h; exact hc.2
  · cases h

theorem windowInv_endTest' (s : State) (h : WindowInv s) : WindowInv (endTest s) := h

theorem frameGood_ret {k hd p} (h : frameGood k hd p = true) : hd.ret.toNat ≤ 8 := by
  unfold frameGood at h; simp at h; exact h.1.1

theorem windowInv_serveLocal (t) (s : State) (h : WindowInv s) : WindowInv (serveLocal t s) := by simpa [WindowInv] using h

theorem windowInv_serveHead (o) (s : State) (h : WindowInv s) : WindowInv (serveHead o s) := by simpa [WindowInv] using h

theorem windowInv_selectLoop (n) (s : State) (h : WindowInv s) : WindowInv (selectLoop n s) := by simpa [WindowInv] using h

theorem windowInv_select  (s : State) (h : WindowInv s) : WindowInv (select s) := by simpa [WindowInv] using h

theorem windowInv_routeResult (r a) (s : State) (h : WindowInv s) : WindowInv (routeResult r a s) := by simpa [WindowInv] using h

theorem windowInv_faultPurge  (s : State) (h : WindowInv s) : WindowInv (faultPurge s) := by simpa [WindowInv] using h

theorem windowInv_endWork (a c) (s : State) (h : WindowInv s) : WindowInv (endWork a c s) := by simpa [WindowInv] using h

theorem windowInv_transactionEnd (a r) (s : State) (h : WindowInv s) : WindowInv (transactionEnd a r s) := by simpa [WindowInv] using h

theorem windowInv_endRecovery (c) (s : State) (h : WindowInv s) : WindowInv (endRecovery c s) := by simpa [WindowInv] using h

theorem windowInv_stretchLimit (a r) (s : State) (h : WindowInv s) : WindowInv (stretchLimit a r s) := by simpa [WindowInv] using h

theorem windowInv_recoveryEnd (x) (s : State) (h : WindowInv s) : WindowInv (recoveryEnd x s) := by simpa [WindowInv] using h

theorem windowInv_leaseExpiry  (s : State) (h : WindowInv s) : WindowInv (leaseExpiry s) := by simpa [WindowInv] using h

theorem windowInv_setPolicy (p) (s : State) (h : WindowInv s) : WindowInv (setPolicy p s) := by simpa [WindowInv] using h

theorem windowInv_completeOwner (a) (s : State) (h : WindowInv s) : WindowInv (completeOwner a s) := by simpa [WindowInv] using h

theorem windowInv_endTest  (s : State) (h : WindowInv s) : WindowInv (endTest s) := by simpa [WindowInv] using h

theorem windowInv_drainLimit  (s : State) (h : WindowInv s) : WindowInv (drainLimit s) := by simpa [WindowInv] using h

theorem windowInv_becomeNonOwner (p) (s : State) (h : WindowInv s) : WindowInv (becomeNonOwner p s) := by simpa [WindowInv] using h

theorem windowInv_takeTestEnter (p) (s : State) (h : WindowInv s) : WindowInv (takeTestEnter p s) := by simpa [WindowInv] using h

theorem windowInv_takeTestReady  (s : State) (h : WindowInv s) : WindowInv (takeTestReady s) := by simpa [WindowInv] using h

theorem windowInv_takeTestGo  (s : State) (h : WindowInv s) : WindowInv (takeTestGo s) := by simpa [WindowInv] using h

theorem windowInv_enterTest  (s : State) (h : WindowInv s) : WindowInv (enterTest s) := by simpa [WindowInv] using h

theorem windowInv_goAcknowledged  (s : State) (h : WindowInv s) : WindowInv (goAcknowledged s) := by simpa [WindowInv] using h

theorem windowInv_takeSymbol (d st) (s : State) (h : WindowInv s) : WindowInv (takeSymbol d st s) := by simpa [WindowInv] using h

theorem windowInv_takeSymbols (bs) (s : State) (h : WindowInv s) : WindowInv (takeSymbols bs s) := by simpa [WindowInv] using h

theorem windowInv_leaveTest (r) (s : State) (h : WindowInv s) : WindowInv (leaveTest r s) := by simpa [WindowInv] using h

theorem windowInv_testDuration  (s : State) (h : WindowInv s) : WindowInv (testDuration s) := by simpa [WindowInv] using h

theorem windowInv_checkerDuration  (s : State) (h : WindowInv s) : WindowInv (checkerDuration s) := by simpa [WindowInv] using h

theorem windowInv_patternLost  (s : State) (h : WindowInv s) : WindowInv (patternLost s) := by simpa [WindowInv] using h

theorem windowInv_patternStart  (s : State) (h : WindowInv s) : WindowInv (patternStart s) := by simpa [WindowInv] using h

theorem windowInv_testStop  (s : State) (h : WindowInv s) : WindowInv (testStop s) := by simpa [WindowInv] using h

theorem windowInv_settleTest  (s : State) (h : WindowInv s) : WindowInv (settleTest s) := by simpa [WindowInv] using h

theorem windowInv_takeTestResult (p) (s : State) (h : WindowInv s) : WindowInv (takeTestResult p s) := by simpa [WindowInv] using h

theorem windowInv_resultLimit  (s : State) (h : WindowInv s) : WindowInv (resultLimit s) := by simpa [WindowInv] using h

theorem windowInv_testAtLoss  (s : State) (h : WindowInv s) : WindowInv (testAtLoss s) := by simpa [WindowInv] using h

theorem windowInv_requestsAtLoss  (s : State) (h : WindowInv s) : WindowInv (requestsAtLoss s) := by simpa [WindowInv] using h

theorem windowInv_loss (r) (s : State) (h : WindowInv s) : WindowInv (loss r s) := by
  unfold loss
  dsimp only
  apply windowInv_select
  have hu : WindowInv (clearFlags (testAtLoss (linesAtLoss (leaseAtLoss (eventsAtLoss r (incomingAtLoss (requestsAtLoss s))))))) := by
    simpa [WindowInv] using h
  generalize (clearFlags (testAtLoss (linesAtLoss (leaseAtLoss (eventsAtLoss r (incomingAtLoss (requestsAtLoss s))))))) = u at *
  apply windowInv_enterHoldoff
  obtain ⟨h1, h2, h3, h4, h5, h6, h7, h8, h9, h10, h11⟩ := hu
  exact windowInv_fresh _ _ rfl rfl rfl (Nat.zero_le _) h7 rfl rfl rfl h11

theorem windowInv_enterRunFromHello (c : HelloTaken) (hc : c.capacity ≤ 8) (s : State) (h : WindowInv s) : WindowInv (enterRunFromHello c s) := by
  have key : (enterRunFromHello c s).fe = engineAtRun c.capacity s.now s.fe := by
    unfold enterRunFromHello startRun; dsimp only; split <;> simp [freeDetached, raiseLocal]
  have kc : (enterRunFromHello c s).slc.peerCap = c.capacity := by
    unfold enterRunFromHello startRun; dsimp only; split <;> simp [raiseLocal]
  rw [windowInv_W, key, kc]
  obtain ⟨h1, h2, h3, h4, h5, h6, h7, h8, h9, h10, h11⟩ := h
  exact windowInv_fresh _ _ rfl rfl rfl (Nat.le_refl _) hc rfl rfl rfl h11

theorem windowInv_enterRunFromRetrain (s : State) (h : WindowInv s) : WindowInv (enterRunFromRetrain s) := by
  unfold enterRunFromRetrain
  apply windowInv_settleTest
  obtain ⟨h1, h2, h3, h4, h5, h6, h7, h8, h9, h10, h11⟩ := h
  exact windowInv_fresh _ _ rfl rfl rfl (Nat.le_refl _) h7 rfl rfl rfl h11

theorem windowInv_setSpanOff (v) (s : State) (h : WindowInv s) : WindowInv (setSpanOff v s) := by
  have h1 : WindowInv { s with hp.spanOff := v } := h
  unfold setSpanOff
  generalize ({ s with hp.spanOff := v } : State) = u at *
  dsimp only
  split
  · exact h
  split
  · exact h1
  · exact h1
  · exact windowInv_quiet u h1
  · exact windowInv_enterHoldoff _ _ u h1
  · exact windowInv_loss _ u h1
  · exact windowInv_loss _ u h1
  · exact windowInv_loss _ u h1
  · exact windowInv_loss _ u h1
  · split
    · simpa [WindowInv] using h1
    · exact h1
  all_goals exact h1

theorem windowInv_silenceLimit (s : State) (h : WindowInv s) : WindowInv (silenceLimit s) := by
  unfold silenceLimit; split
  · exact h
  · exact windowInv_loss _ _ h

theorem windowInv_retrainLimit (s : State) (h : WindowInv s) : WindowInv (retrainLimit s) := by
  unfold retrainLimit; split
  · exact h
  · exact windowInv_loss _ _ h

theorem windowInv_holdoffEnd (s : State) (h : WindowInv s) : WindowInv (holdoffEnd s) := by
  unfold holdoffEnd; dsimp only; (repeat' split) <;> first | exact h | (simpa [WindowInv] using h)

theorem windowInv_trainingInterval (s : State) (h : WindowInv s) : WindowInv (trainingInterval s) := by
  unfold trainingInterval; split <;> first | exact h | (simpa [WindowInv] using h)

theorem windowInv_helloInterval (s : State) (h : WindowInv s) : WindowInv (helloInterval s) := by
  unfold helloInterval; split <;> first | exact h | (simpa [WindowInv] using h)

theorem windowInv_helloLimit (s : State) (h : WindowInv s) : WindowInv (helloLimit s) := by
  unfold helloLimit; split
  · exact h
  · exact windowInv_enterHoldoff _ _ _ h

theorem windowInv_buildReq (t) (s : State) (hl : s.fe.window.length < 4) (h : WindowInv s) : WindowInv (buildReq t s) := by
  unfold buildReq; exact windowInv_pushFrame _ _ _ _ hl (windowInv_cred s h)

theorem windowInv_buildFrame (k) (s : State) (hl : k ≠ .idle → s.fe.window.length < 4) (h : WindowInv s) : WindowInv (buildFrame k s) := by
  unfold buildFrame
  split
  · exact windowInv_pushFrame _ _ _ _ (hl (by simp)) h
  · split
    · exact windowInv_pushFrame _ _ _ _ (hl (by simp)) h
    · exact h
  · exact windowInv_pushFrame _ _ _ _ (hl (by simp)) h
  · exact windowInv_pushFrame _ _ _ _ (hl (by simp)) h
  · split
    · unfold buildRsp
      (repeat' split) <;> first | exact h | exact windowInv_pushFrame _ _ _ _ (hl (by simp)) h
    · exact h
  · exact windowInv_pushFrame _ _ _ _ (hl (by simp)) h
  · exact windowInv_pushFrame _ _ _ _ (hl (by simp)) h
  · exact windowInv_pushFrame _ _ _ _ (hl (by simp)) h
  · split
    · exact windowInv_buildReq _ _ (hl (by simp)) h
    · exact h
  · split
    · exact windowInv_pushFrame _ _ _ _ (hl (by simp)) h
    · exact h
  all_goals exact windowInv_buildIdle _ h

theorem windowInv_sendSelected (s : State) (h : WindowInv s) : WindowInv (sendSelected s) := by
  unfold sendSelected
  split
  · exact windowInv_buildFrame _ s (nextKind_room s) h
  · rename_i q rest hg
    split
    · exact h
    · rename_i f hf
      split
      · exact windowInv_loss _ _ h
      · rename_i hs
        exact windowInv_resendFrame f q rest s hg hf (by unfold Config.maxSends at hs; omega) h

theorem windowInv_turnOpen (s : State) (h : WindowInv s) : WindowInv (turnOpen s) := by
  unfold turnOpen
  split
  · exact windowInv_sendSelected _ h
  · exact h

theorem windowInv_followerReply (s : State) (h : WindowInv s) : WindowInv (followerReply s) := by
  unfold followerReply
  dsimp only
  (repeat' split) <;> first | exact h | exact windowInv_sendSelected _ h | exact windowInv_noteSend _ _ (by simpa [WindowInv] using h)

theorem windowInv_afterSend (s : State) (h : WindowInv s) : WindowInv (afterSend s) := by
  unfold afterSend
  split
  · exact windowInv_enterTest _ h
  · exact h

theorem windowInv_frameSent (s : State) (h : WindowInv s) : WindowInv (frameSent s) := by
  unfold frameSent
  dsimp only
  split
  · exact h
  split
  · exact windowInv_afterSend _ h
  · rename_i hh
    apply windowInv_enterRunFromHello
    · exact h.2.2.2.2.2.2.2.1 _ hh
    · obtain ⟨h1, h2, h3, h4, h5, h6, h7, h8, h9, h10, h11⟩ := h
      exact ⟨h1, h2, h3, h4, h5, h6, h7, (by intro _ e; cases e), h9, h10, h11⟩
  · exact windowInv_afterSend _ h

theorem windowInv_missTurn (g) (s : State) (h : WindowInv s) : WindowInv (missTurn g s) := by
  unfold missTurn
  dsimp only
  split
  · exact windowInv_loss _ _ h
  · exact h

theorem windowInv_replyWindowEnd (s : State) (h : WindowInv s) : WindowInv (replyWindowEnd s) := by
  unfold replyWindowEnd
  dsimp only
  (repeat' split) <;> first | exact h | exact windowInv_missTurn _ _ h

theorem windowInv_badFrame (s : State) (h : WindowInv s) : WindowInv (badFrame s) := by
  have hc := windowInv_countBad s h
  unfold badFrame
  generalize countBad s = u at *
  dsimp only
  (repeat' split) <;> first | exact h | exact hc | exact windowInv_missTurn _ { u with fe.resend := true } hc

theorem windowInv_answerSlot (i a) (s : State) (h : WindowInv s) : WindowInv (answerSlot i a s) := by simpa [WindowInv] using h

theorem windowInv_runRemote (i r) (s : State) (h : WindowInv s) : WindowInv (runRemote i r s) := by simpa [WindowInv] using h

theorem windowInv_handleReq (i r) (s : State) (h : WindowInv s) : WindowInv (handleReq i r s) := by simpa [WindowInv] using h

theorem windowInv_takeReq (p) (s t : State) (h : WindowInv s) (ht : takeReq p s = .next t) : WindowInv t := by
  unfold takeReq at ht
  split at ht
  · cases ht
  · cases ht; exact h
  · cases ht; exact windowInv_handleReq _ _ _ (by simpa [WindowInv] using h)

theorem windowInv_takeRsp (p) (s : State) (h : WindowInv s) : WindowInv (takeRsp p s) := by simpa [WindowInv] using h

theorem windowInv_takeReleaseAll (s : State) (h : WindowInv s) : WindowInv (takeReleaseAll s) := by
  unfold takeReleaseAll
  apply windowInv_select
  have := windowInv_dropWaiting s h
  simpa [WindowInv] using this

theorem windowInv_deliver (k p) (s t : State) (h : WindowInv s) (ht : deliver k p s = .next t) : WindowInv t := by
  unfold deliver at ht
  split at ht <;> first | exact windowInv_takeReq _ _ _ h ht | skip
  all_goals cases ht
  all_goals first | exact h | exact windowInv_takeTestEnter _ _ h | exact windowInv_takeTestReady _ h | exact windowInv_takeTestGo _ h | exact windowInv_takeTestResult _ _ h | exact windowInv_takeRsp _ _ h | exact windowInv_takeReleaseAll _ h | simpa [WindowInv] using h

theorem windowInv_takeSequenced (k q p) (s t : State) (h : WindowInv s) (ht : takeSequenced k q p s = .next t) : WindowInv t := by
  unfold takeSequenced at ht
  split at ht <;> first | exact windowInv_deliver _ _ { s with fe.expected := s.fe.expected + 1 } _ h ht | (cases ht; exact h)

theorem windowInv_takeFrame (k) (hd : FrameHeader) (hr : hd.ret.toNat ≤ 8) (p) (s t : State) (h : WindowInv s) (ht : takeFrame k hd p s = .next t) : WindowInv t := by
  unfold takeFrame at ht
  have h1 : WindowInv (takeHeader hd s) := windowInv_takeHeader hd hr s h
  split at ht
  · cases ht; exact windowInv_takeReady' _ _ h
  · obtain ⟨u, hu, rfl⟩ := thenDo_next ht
    have hu' : WindowInv u := by
      split at hu
      · exact windowInv_takeSequenced _ _ _ _ _ h1 hu
      · cases hu; exact h1
    split
    · exact windowInv_goAcknowledged _ hu'
    · exact hu'

theorem windowInv_takeTrainAck (hd) (s : State) (h : WindowInv s) : WindowInv (takeTrainAck hd s) := by
  unfold takeTrainAck
  dsimp only
  (repeat' split) <;> first | exact h | exact windowInv_enterRunFromRetrain _ h

theorem windowInv_leaderHello (hd p) (s : State) (h : WindowInv s) : WindowInv (leaderHello hd p s) := by
  unfold leaderHello
  split
  · rename_i c hc; exact windowInv_enterRunFromHello c (helloContent_cap hc) _ h
  · exact windowInv_enterHoldoff _ _ _ h

theorem windowInv_takeReady (b) (s : State) (h : WindowInv s) : WindowInv (takeReady b s) := by simpa [WindowInv] using h

theorem windowInv_roleClash (s : State) (h : WindowInv s) : WindowInv (roleClash s) := by
  unfold roleClash; exact windowInv_enterHoldoff _ _ _ (by simpa [WindowInv] using h)

theorem windowInv_leaderTakes (k) (hd : FrameHeader) (hr : hd.ret.toNat ≤ 8) (p) (s t : State) (h : WindowInv s) (ht : leaderTakes k hd p s = .next t) : WindowInv t := by
  unfold leaderTakes at ht
  dsimp only at ht
  (repeat' split at ht) <;> first | (cases ht; first | exact h | exact windowInv_roleClash _ h | exact windowInv_takeTrainAck _ _ h | exact windowInv_leaderHello _ _ _ h | exact windowInv_takeReady' _ _ h | exact windowInv_takeTrainAck _ _ (windowInv_takeReady' _ _ h)) | exact windowInv_takeFrame _ _ hr _ (turnAnswered k hd s) _ h ht

theorem windowInv_followerHello (hd p) (s : State) (h : WindowInv s) : WindowInv (followerHello hd p s) := by
  unfold followerHello
  split
  · rename_i c hc
    obtain ⟨h1, h2, h3, h4, h5, h6, h7, h8, h9, h10, h11⟩ := h
    exact ⟨h1, h2, h3, h4, h5, h6, h7, (by intro _ e; cases e; exact helloContent_cap hc), h9, h10, h11⟩
  · exact windowInv_enterHoldoff _ _ _ h

theorem windowInv_followerTurn (k) (hd : FrameHeader) (hr : hd.ret.toNat ≤ 8) (p) (s t : State) (h : WindowInv s) (ht : followerTurn k hd p s = .next t) : WindowInv t := by
  unfold followerTurn at ht
  split at ht
  · exact windowInv_takeFrame _ _ hr _ _ _ h ht
  · exact windowInv_takeFrame _ _ hr _ (restartSilence s) _ h ht
  · exact windowInv_takeFrame _ _ hr _ (oweReply _ (restartSilence s)) _ h ht

theorem windowInv_answerTrain (s : State) (h : WindowInv s) : WindowInv (answerTrain s) := h

set_option maxHeartbeats 4000000 in

theorem windowInv_followerTakes (k) (hd : FrameHeader) (hr : hd.ret.toNat ≤ 8) (p) (s t : State) (h : WindowInv s) (ht : followerTakes k hd p s = .next t) : WindowInv t := by
  unfold followerTakes at ht
  dsimp only at ht
  (repeat' split at ht) <;> first
    | (cases ht; first | exact h | exact windowInv_followerHello _ _ _ h | exact windowInv_followerHello _ _ (lock s) h | exact windowInv_loss _ _ (windowInv_takeReady' _ _ h) | exact windowInv_takeReady' _ _ h | exact windowInv_answerTrain _ (windowInv_takeReady' _ _ h) | simpa [WindowInv] using h)
    | exact windowInv_followerTurn _ _ hr _ _ _ h ht | exact windowInv_followerTurn _ _ hr _ _ _ (windowInv_enterRunFromRetrain _ h) ht

theorem windowInv_receive (k hd p) (s t : State) (h : WindowInv s) (ht : receive k hd p s = .next t) : WindowInv t := by
  unfold receive at ht
  split at ht
  · cases ht; exact h
  split at ht
  · cases ht; exact windowInv_takeSymbols _ _ h
  split at ht
  · cases ht; exact windowInv_badFrame _ h
  · rename_i hg
    have hr : hd.ret.toNat ≤ 8 := frameGood_ret (by simpa using hg)
    split at ht
    · exact windowInv_leaderTakes _ _ hr _ _ _ h ht
    · exact windowInv_followerTakes _ _ hr _ _ _ h ht

theorem windowInv_receiveBad (raw) (s : State) (h : WindowInv s) : WindowInv (receiveBad raw s) := by
  unfold receiveBad
  (repeat' split)
  · exact h
  · exact windowInv_takeSymbols _ _ h
  · exact windowInv_badFrame _ h

theorem windowInv_submitFar (t r) (s : State) (h : WindowInv s) : WindowInv (submitFar t r s) := by simpa [WindowInv] using h

theorem windowInv_startTest (t) (s : State) (h : WindowInv s) : WindowInv (startTest t s) := by simpa [WindowInv] using h

theorem windowInv_submitNear (t r) (s : State) (h : WindowInv s) : WindowInv (submitNear t r s) := by simpa [WindowInv] using h

theorem windowInv_submit  (s : State) (h : WindowInv s) : WindowInv (submit s) := by simpa [WindowInv] using h

theorem windowInv_cancelTag (t) (s : State) (h : WindowInv s) : WindowInv (cancelTag t s) := by simpa [WindowInv] using h

theorem windowInv_cancel (b) (s : State) (h : WindowInv s) : WindowInv (cancel b s) := by simpa [WindowInv] using h

theorem windowInv_deadlineExpiry (t) (s : State) (h : WindowInv s) : WindowInv (deadlineExpiry t s) := by simpa [WindowInv] using h

theorem windowInv_completionPop  (s : State) (h : WindowInv s) : WindowInv (completionPop s) := by simpa [WindowInv] using h

theorem windowInv_softReset (b) (s : State) (h : WindowInv s) : WindowInv (softReset b s) := by simpa [WindowInv] using h

theorem windowInv_writeAt (o b) (s : State) (h : WindowInv s) : WindowInv (writeAt o b s) := by
  unfold writeAt
  split
  · exact windowInv_setSpanOff _ _ h
  · exact windowInv_softReset _ _ h
  · unfold writePolicy; split
    · exact windowInv_setPolicy _ _ h
    · exact h
  · simpa [WindowInv] using h
  · exact h
  · simpa [WindowInv] using h
  · exact windowInv_clearCrcErrors _ h
  · exact windowInv_clearCrcErrors _ h
  · exact windowInv_submit _ h
  · exact windowInv_cancel _ _ h
  · exact windowInv_completionPop _ h
  · exact h
  · exact windowInv_testStop _ h
  · (repeat' split) <;> first | exact h | simpa [WindowInv] using h

theorem windowInv_portWrite (o b) (s : State) (h : WindowInv s) : WindowInv (portWrite o b s) :=
  windowInv_writeAt o b (beginWrite s) h

theorem windowInv_registerWrite (w) (s : State) (h : WindowInv s) : WindowInv (registerWrite w s) := by
  unfold registerWrite
  (repeat' split)
  · exact h
  · exact h
  · exact windowInv_portWrite _ _ _ h
  · exact h

theorem windowInv_reset (r e a p n) : WindowInv (State.cleared r e a p n) := by
  rw [windowInv_W]; exact windowInv_fresh _ _ rfl rfl rfl (Nat.zero_le _) (by show 0 ≤ 8; omega) rfl rfl rfl (by show 0 ≤ 65535; omega)

theorem windowInv_rstnLow (c) (s : State) (h : WindowInv s) : WindowInv (rstnLow c s) := by
  unfold rstnLow
  dsimp only
  split
  · exact windowInv_reset .follower false 0x2C#7 0 s.now
  · exact h

theorem windowInv_rstnRelease (x p) (s : State) (h : WindowInv s) : WindowInv (rstnRelease x p s) := by
  unfold rstnRelease
  dsimp only
  (repeat' split)
  · have := windowInv_reset (strapRole x) x.spanEn (strapAddress x) p s.now
    simp only [WindowInv, enterListen_frame]
    exact this
  · exact windowInv_reset (strapRole x) x.spanEn (strapAddress x) p s.now
  · exact h

theorem windowInv_portRead (r p) (s : State) (h : WindowInv s) : WindowInv (portRead r p s) := by
  simp only [WindowInv, portRead_frame]; exact h

end Sys2Proof.Laws.WindowInv
end

