-- ==== Sys2Proof/WellFormed.lean ====
section
/-! DEFINITION. Which operands a command can come with: the checks a command passes that its environment can make. -/
namespace Sys2Proof

/-- The most bytes a transfer sends: a WRITE's address, two offset bytes and 32 data bytes (R57). -/
def maxSent : Nat := 35

/-- The most bytes a transfer receives (R59). -/
def maxReceived : Nat := 32

/-- Acknowledges and bytes of one transfer. -/
def transferWf (acks : List Bool) (rx : List Byte) : Bool :=
  decide (acks.length ≤ maxSent) && decide (rx.length ≤ maxReceived)

/-- The offsets of EVENT_HEAD (R178). -/
def inEventHead (o : Byte) : Bool := decide (0xB0 ≤ o.toNat) && decide (o.toNat ≤ 0xB5)

/-- The offsets of CRC_ERRORS (R178). -/
def inCrcErrors (o : Byte) : Bool := decide (o = 0x0A#8) || decide (o = 0x0B#8)

/-- A byte read: a further byte has no pointer of its own, and a pointer set is one the row names (R176). -/
def readWf (named : Byte → Bool) (start : Option (BitVec 7)) (pointer : Option Byte) : Bool :=
  (start.isSome || pointer.isNone) && pointer.all named

/-- A well-formed command. A read row that sets the pointer sets it to an offset of its register, COMPLETION_HEAD_READ to any
offset (log 6); what a transfer or a recovery shows fits its bytes and pulses (R57, R59, R62); a failed frame has a start
(R111); a frame passes its check (R114). -/
def Instr.wf : Instr → Bool
  | .crcErrorsRead start pointer => readWf inCrcErrors start pointer
  | .eventHeadRead start pointer => readWf inEventHead start pointer
  | .completionHeadRead start pointer => readWf (fun _ => true) start pointer
  | .transactionEnd acks rx => transferWf acks rx
  | .stretchLimit release rx => transferWf release.acks rx
  | .recoveryEnd x => decide (x.afterPulse.length ≤ 9)
  | .badFrame raw => (Machine.afterStart 0 raw).isSome
  | .train h p => Machine.frameGood .train h p
  | .trainAck h p => Machine.frameGood .trainAck h p
  | .hello h p => Machine.frameGood .hello h p
  | .idle h p => Machine.frameGood .idle h p
  | .req h p => Machine.frameGood .req h p
  | .rsp h p => Machine.frameGood .rsp h p
  | .cancelFrame h p => Machine.frameGood .cancel h p
  | .lines h p => Machine.frameGood .lines h p
  | .event h p => Machine.frameGood .event h p
  | .releaseAll h p => Machine.frameGood .releaseAll h p
  | .testEnter h p => Machine.frameGood .testEnter h p
  | .testReady h p => Machine.frameGood .testReady h p
  | .testGo h p => Machine.frameGood .testGo h p
  | .testResult h p => Machine.frameGood .testResult h p
  | _ => true

end Sys2Proof
end

