-- ==== Sys2Proof/Tests/Slice0.lean ====
section
/-! SUPPORT. The model tried out on small states: the checks of WellFormed, what commands do, and for every statement with
hypotheses a state that meets them. -/
namespace Sys2Proof.Tests
open Sys2Proof.Machine

/-! Small states. -/

/-- The state a command leads to, when it leads to one. -/
def after (c : Instr) (s : State) : Option State :=
  match exec c s with
  | .next t => some t
  | _ => none

/-- A chip whose host port answers, with its span disabled. -/
def port : State := { State.reset with hp.up := true, hp.startUp := none }

/-- The staging area filled from its first byte. -/
def staged (b : List Byte) (s : State) : State := { s with hp.staging := vtab fun i => b.getD i.val 0 }

/-- A chip of a role in a link state, its peer of eight entries. -/
def linked (r : Role) (st : LinkState) : State :=
  { port with slc := { port.slc with role := r, spanEn := true, state := st, peerCap := 8 }, fe.credits := 8 }

/-- Tag 0 in a state, its record a near WRITE of one byte, its deadline at moment `due`. -/
def withTag (st : TagState) (due : Option Moment) (s : State) : State :=
  setTag 0 ⟨st, 3, ⟨.write, .near, 0x50, 0, 0, 0, 1, 0, [0xAA]⟩, due⟩ s

/-- Incoming Queue entry 0 in a state, its request of a kind. -/
def withSlot (k : ReqKind) (st : SlotState) (s : State) : State :=
  setSlot 0 (some ⟨2, 5, ⟨k, .far, 0x50, 0, 0, 0, 1, 9, [0xAA]⟩, st⟩) s

/-- A bus controller at work on a request of a kind, two offset bytes and four data bytes. -/
def working (k : ReqKind) (st : BusState) (s : State) : State :=
  { s with dbc := ⟨st, some ⟨⟨k, .near, 0x50, 2, 0x10, 0x20, 4, 0, [1, 2, 3, 4]⟩, .tag 0 3, 0, []⟩, .khz100, some 0, none,
      false⟩ }

/-- Line 0 with a mode and an owner. -/
def withLine (m : LineMode) (o : Option Origin) (s : State) : State :=
  { s with lb.lines := vput s.lb.lines 0 { s.lb.lines[0] with mode := m, owner := o } }

/-- A header with a sequence number. -/
def head (q : Seq) : FrameHeader := ⟨false, false, false, q, 7, 0⟩

/-- A frame in the window. -/
def waitingFrame (k : FrameKind) (q : Seq) : WindowFrame := ⟨k, q, [], 1, none⟩

/-! WellFormed: each check refuses a term. -/

theorem test_wf_refuses_crc_offset : (Instr.crcErrorsRead (some 0x2C#7) (some 0x0C#8)).wf = false := by decide
theorem test_wf_refuses_pointer_of_a_further_byte : (Instr.completionHeadRead none (some 0x80#8)).wf = false := by decide
theorem test_wf_refuses_event_head_offset : (Instr.eventHeadRead (some 0x2C#7) (some 0xB6#8)).wf = false := by decide
theorem test_wf_refuses_many_acks : (Instr.transactionEnd (List.replicate 36 true) []).wf = false := by decide
theorem test_wf_refuses_many_bytes : (Instr.stretchLimit ⟨0, []⟩ (List.replicate 33 0)).wf = false := by decide
theorem test_wf_refuses_ten_pulses : (Instr.recoveryEnd ⟨false, List.replicate 10 false, true⟩).wf = false := by decide
theorem test_wf_refuses_bytes_without_start : (Instr.badFrame [0x55, 0x55]).wf = false := by decide
theorem test_wf_refuses_bad_payloads :
    ∀ c ∈ ([.train (head 0) [2], .trainAck (head 0) [], .hello (head 0) [1, 8], .idle (head 0) [0], .req (head 0) [0],
      .rsp (head 0) [0], .cancelFrame (head 0) [0], .lines (head 0) (List.replicate 13 0), .event (head 0) [1],
      .releaseAll (head 0) [0], .testEnter (head 0) [0], .testReady (head 0) [0], .testGo (head 0) [0],
      .testResult (head 0) [0], .idle ⟨false, false, false, 0, 0, 9⟩ []] : List Instr), c.wf = false := by decide
theorem test_wf_accepts :
    ∀ c ∈ ([.crcErrorsRead (some 0x2C#7) (some 0x0B#8), .eventHeadRead (some 0x2C#7) (some 0xB5#8), .eventHeadRead none none,
      .transactionEnd (List.replicate 35 true) [],
      .recoveryEnd ⟨false, List.replicate 9 false, true⟩, .train (head 0) [0], .trainAck (head 0) [1],
      .hello (head 0) [1, 8, 0], .idle (head 0) [], .cancelFrame (head 0) [0, 0], .releaseAll (head 0) [],
      .testReady (head 0) [], .testGo (head 0) []] : List Instr), c.wf = true := by decide
theorem test_table_gives_no_words : decodeTableWord 16 0x1234 = none := by decide

/-! Chapter 1: the statements' hypotheses, and what the commands do. -/

/-- Staged records that pass R2 and R3, at the ends of each field's range. -/
def soundRecords : List (List Byte) :=
  [[1, 0, 0, 0, 0, 0, 1], [1, 1, 127, 2, 0, 0, 32], [2, 0, 0, 0, 0, 0, 1], [2, 1, 127, 2, 0, 0, 32],
   [3, 0, 0, 0, 0, 0, 0, 0, 8, 0], [6, 1, 0, 0, 0, 0, 0, 0, 0, 1], [7, 0, 0, 0, 0, 0, 0, 0, 0, 128], [4, 0], [4, 1],
   [5, 0, 0, 0, 0, 0, 0, 0, 0, 0, 0, 0, 0, 0, 0], [5, 1, 0, 0, 0, 0, 0, 0, 11, 5, 3, 16, 3, 11, 1],
   [5, 0, 0, 0, 0, 0, 0, 0, 0, 0, 0, 1, 0, 0, 0], [5, 0, 0, 0, 0, 0, 0, 0, 0, 0, 0, 4, 0, 0, 0],
   [8, 0, 0, 0, 0, 0, 0, 0, 0, 1], [8, 1, 0, 0, 0, 0, 0, 0, 3, 0xE8], [9, 0], [10, 0], [10, 1], [11, 0],
   [12, 0, 0, 0, 0, 0, 0, 0, 0, 1, 0, 0, 0], [12, 0, 0, 0, 0, 0, 0, 0, 0xEA, 0x60, 1, 1, 1]]

/-- Staged records that R2 or R3 refuses, each just past the end of one field's range. -/
def malformedRecords : List (List Byte) :=
  [[0, 0], [13, 0], [11, 2], [12, 1, 0, 0, 0, 0, 0, 0, 0, 1, 0, 0, 0], [1, 0, 128, 0, 0, 0, 1], [1, 0, 0, 3, 0, 0, 1],
   [1, 0, 0, 0, 0, 0, 0], [2, 0, 0, 0, 0, 0, 33], [3, 0, 0, 0, 0, 0, 0, 0, 0xF0, 0], [6, 0], [7, 0],
   [5, 0, 0, 0, 0, 0, 0, 0, 12], [5, 0, 0, 0, 0, 0, 0, 0, 0, 6], [5, 0, 0, 0, 0, 0, 0, 0, 0, 0, 4],
   [5, 0, 0, 0, 0, 0, 0, 0, 0, 0, 0, 2], [5, 0, 0, 0, 0, 0, 0, 0, 0, 0, 0, 0, 4], [5, 0, 0, 0, 0, 0, 0, 0, 0, 0, 0, 0, 0, 12],
   [5, 0, 0, 0, 0, 0, 0, 0, 0, 0, 0, 0, 0, 0, 2], [8, 0], [8, 0, 0, 0, 0, 0, 0, 0, 3, 0xE9], [12, 0],
   [12, 0, 0, 0, 0, 0, 0, 0, 0xEA, 0x61], [12, 0, 0, 0, 0, 0, 0, 0, 0, 1, 2], [12, 0, 0, 0, 0, 0, 0, 0, 0, 1, 0, 2],
   [12, 0, 0, 0, 0, 0, 0, 0, 0, 1, 0, 0, 2]]

/-- All tags in use. -/
def fullTable (s : State) : State := { s with rt.tags := vtab fun _ => ⟨.done, 1, Request.empty, none⟩ }

/-- Tag 0 in use, so that tag 1 is the lowest FREE one. -/
def second (b : List Byte) (s : State) : State := withTag .done none (staged b s)

theorem test_witness_empty_queue : State.reset.pending = [] := rfl
theorem test_witness_port : portReady port := by unfold portReady; decide
theorem test_witness_malformed : ∀ b ∈ malformedRecords, malformed (staged b port).hp.staging := by
  simp only [malformed]; decide +kernel
theorem test_witness_sound : ∀ b ∈ soundRecords, ¬ malformed (staged b port).hp.staging := by
  simp only [malformed]; decide +kernel
theorem test_witness_full : ∀ t : Tag, (fullTable (staged [11, 0] port)).rt.tags[t].state ≠ .free := by decide
theorem test_submit_malformed : ∀ b ∈ malformedRecords,
    (after (.write 0) (staged b port)).map (·.hp.submitResult) = some .badRequest := by decide +kernel
theorem test_submit_full : (after (.ping 0) (fullTable (staged [11, 0] port))).map (·.hp.submitResult) = some .full := by
  decide
theorem test_witness_accepted : ∃ r, stagedRequest (second [11, 0] port).hp.staging = some r ∧
    (second [11, 0] port).rt.tags[(1 : Tag)].state = .free ∧
    ∀ u : Tag, u < 1 → (second [11, 0] port).rt.tags[u].state ≠ .free := ⟨_, rfl, by decide⟩
theorem test_submit_ping : (after (.ping 0) (second [11, 0] port)).map
    (fun t => (t.hp.submitResult, t.rt.cq.map (·.answer))) = some (.tag 1, [⟨.ok, 0, 0, [1, 0, 8]⟩]) := by decide
theorem test_witness_far : ∀ st ∈ ([.run, .drain, .test, .disabled, .listen, .hello, .retrain, .holdoff] : List LinkState),
    let s := staged [10, 1] (linked .leader st)
    ∃ r, stagedRequest s.hp.staging = some r ∧ r.side = .far ∧ freeTag s = some 0 ∧ s.slc.state = st := by
  intro st _; exact ⟨_, rfl, rfl, rfl, rfl⟩
theorem test_witness_near_queued : ∀ x ∈ ([([1, 0, 0, 0, 0, 0, 1], .write), ([2, 0, 0, 0, 0, 0, 32], .read),
      ([10, 0], .busRecover), ([8, 0, 0, 0, 0, 0, 0, 0, 0, 1], .leaseTake)] : List (List Byte × ReqKind)),
    (stagedRequest (staged x.1 port).hp.staging).map (fun r => (r.side, r.kind)) = some (.near, x.2) ∧
      freeTag (staged x.1 port) = some 0 := by decide
theorem test_witness_near_line : ∀ x ∈ ([([3, 0, 0, 0, 0, 0, 0, 0, 0, 1], .lineSet), ([4, 0], .lineSample),
      ([5, 0], .lineConfig), ([6, 0, 0, 0, 0, 0, 0, 0, 8, 0], .lineClaim),
      ([7, 0, 0, 0, 0, 0, 0, 0, 0, 1], .lineRelease)] : List (List Byte × ReqKind)),
    (stagedRequest (staged x.1 port).hp.staging).map (fun r => (r.side, r.kind)) = some (.near, x.2) ∧
      freeTag (staged x.1 port) = some 0 := by decide
theorem test_witness_lease_drop : ∀ l ∈ ([none, some ⟨.localHost, 1000⟩, some ⟨.remoteHost, 1000⟩] : List (Option Lease)),
    let s := { staged [9, 0] port with da.lease := l }
    (stagedRequest s.hp.staging).map (·.kind) = some .leaseDrop ∧ freeTag s = some 0 ∧ s.da.lease = l := by decide
theorem test_near_claim : (after (.lineClaim 0) (staged [6, 0, 0, 0, 0, 0, 0, 0, 8, 1] port)).map
    (fun t => (t.rt.cq.map (·.answer.status), t.lb.lines[(0 : LineNo)].owner, t.lb.lines[(11 : LineNo)].owner,
      t.lb.lines[(1 : LineNo)].owner)) = some ([.ok], some .localHost, some .localHost, none) := by decide
theorem test_near_write_starts : (after (.write 0) (staged [1, 0, 0x50, 0, 0, 0, 1, 0, 0xAA] port)).map
    (fun t => (t.dbc.state, t.rt.tags[(0 : Tag)].state, t.da.localList, t.da.turn)) =
    some (.active, .executing, [], .remoteHost) := by decide
theorem test_witness_cancel_no_tag : 8 ≤ (0x08#8).toNat ∧ 8 ≤ (0xFF#8).toNat ∧ (0x07#8).toNat = (7 : Tag).val := by decide
theorem test_witness_tag_states : ∀ st ∈ ([.free, .queued, .executing, .testing, .waitCredit, .inFlight, .cancelSent,
    .done] : List TagState), (withTag st (some 9) port).rt.tags[(0 : Tag)].state = st := by decide
theorem test_cancel_in_flight : (after (.cancel 0) (withTag .inFlight (some 9) port)).map
    (fun t => (t.hp.cancelResult, t.rt.tags[(0 : Tag)].state, t.fe.cancelList)) =
    some (.accepted, .cancelSent, [(0, 3)]) := by decide
theorem test_witness_deadlines : (withTag .queued none port).rt.tags[(0 : Tag)].due = none ∧
    (withTag .inFlight (some 58000) port).rt.tags[(0 : Tag)].due = some 58000 := by decide
theorem test_deadline : (after (.deadlineExpiry 0) (withTag .inFlight (some 58000) port)).map
    (fun t => (t.now, t.rt.cq.map (·.answer))) = some (58000, [⟨.timeout, 0, 0, []⟩]) := by decide

/-- One record in each queue the local host reads. -/
def queued (s : State) : State :=
  { withTag .done none s with
    rt.cq := [⟨0, 3, .write, .near, ⟨.ok, 1, 0, []⟩⟩], eu.eventQueue := [⟨.lineChange, .localHost, 4, 1, 2⟩] }

theorem test_witness_pops : port.rt.cq = [] ∧ port.eu.eventQueue = [] ∧ (queued port).rt.cq ≠ [] ∧
    (queued port).eu.eventQueue ≠ [] := by decide
theorem test_pops : (after (.completionPop 9) (queued port)).map (fun t => (t.rt.cq, t.rt.tags[(0 : Tag)].state,
      t.rt.tags[(0 : Tag)].gen)) = some ([], .free, 3) ∧
    (after (.eventPop 9) (queued port)).map (·.eu.eventQueue) = some [] := by decide
theorem test_witness_soft_reset :
    (∀ l ∈ ([none, some ⟨.localHost, 9⟩, some ⟨.remoteHost, 9⟩] : List (Option Lease)),
      portReady { port with da.lease := l }) ∧ (0#8) ≠ 1 := by unfold portReady; decide
theorem test_soft_reset : (after (.softReset 1) (queued port)).map (fun t => (t.rt.cq, t.rt.tags[(0 : Tag)].gen,
    t.rt.tags[(1 : Tag)].gen, t.eu.eventQueue)) = some ([], 4, 1, []) := by decide

/-! Chapter 2. -/

theorem test_witness_bus_states : ∀ st ∈ ([.idle, .active, .recovering, .faulted] : List BusState),
    (working .write st port).dbc.state = st := by decide

/-- Entries in the lists: tag 0 in LOCAL, entry 0 in REMOTE, each when asked for. -/
def listed (mine theirs : Bool) (turn : Origin) (l : Option Lease) (s : State) : State :=
  { withTag .queued (some 9) (withSlot .write (.waiting 9) s) with
    da := { s.da with
      localList := if mine then [0] else [], remoteList := if theirs then [0] else [], turn := turn, lease := l } }

theorem test_witness_selection :
    (let s := listed false false .localHost none port;
      s.dbc.state = .idle ∧ s.da.lease = none ∧ s.da.localList = [] ∧ s.da.remoteList = []) ∧
    (∀ x ∈ ([(false, .remoteHost), (true, .localHost)] : List (Bool × Origin)),
      let s := listed true x.1 x.2 none port
      s.da.lease = none ∧ s.da.localList = [0] ∧ (s.da.remoteList = [] ∨ s.da.turn = .localHost)) ∧
    (∀ x ∈ ([(false, .localHost), (true, .remoteHost)] : List (Bool × Origin)),
      let s := listed x.1 true x.2 none port
      s.da.lease = none ∧ s.da.remoteList = [0] ∧ (s.da.localList = [] ∨ s.da.turn = .remoteHost)) ∧
    (∀ o ∈ ([.localHost, .remoteHost] : List Origin), ∀ m ∈ [true, false],
      let s := listed m m .localHost (some ⟨o, 9⟩) port
      s.da.lease = some ⟨o, 9⟩ ∧ s.da.localList = (if m then [0] else []) ∧ s.da.remoteList = (if m then [0] else [])) := by
  decide
theorem test_soft_reset_then_selects :
    (after (.softReset 1) (listed true true .localHost (some ⟨.localHost, 9⟩) { port with da.policy := .opened })).map
      (fun t => (t.da.lease, t.da.localList, t.da.remoteList, t.dbc.state)) = some (none, [], [], .active) ∧
    (after (.softReset 1) (listed true false .localHost (some ⟨.remoteHost, 9⟩) port)).map (·.da.lease) =
      some (some ⟨.remoteHost, 9⟩) := by decide
theorem test_lease_shuts_out : (select (listed true true .localHost (some ⟨.remoteHost, 9⟩)
    { port with da.policy := .opened })).da.localList = [0] := by decide

/-- Tag 0 and entry 0 holding a request of a kind, the bus controller in a state. -/
def serving (k : ReqKind) (st : BusState) (p : BusPolicy) : State :=
  let s := withSlot k (.waiting 9) { port with dbc.state := st, da.policy := p }
  setTag 0 ⟨.queued, 3, ⟨k, .near, 0x50, 0, 0, 0, 1, 0, [0, 9]⟩, some 9⟩ s

theorem test_witness_served : ∀ k ∈ ([.write, .read, .busRecover, .leaseTake] : List ReqKind),
    ∀ st ∈ ([.idle, .faulted] : List BusState), ∀ p ∈ ([.closed, .opened] : List BusPolicy),
    let s := serving k st p
    s.rt.tags[(0 : Tag)].req.kind = k ∧ s.dbc.state = st ∧ (s.iq.slots[(0 : Slot)]).map (·.req.kind) = some k ∧
      (s.iq.slots[(0 : Slot)]).map (fun e => policyAllows s.da e.req) = some (decide (p = .opened)) := by decide

/-- A filter whose entry 7 allows reading 0x50. -/
def filtered (w : Bool) : Arbiter :=
  { Arbiter.reset with policy := .listed, filter := vput Arbiter.reset.filter 7 ⟨true, 0x50, !w, w⟩ }

theorem test_filter : ∀ w ∈ [true, false],
    policyAllows (filtered w) ⟨.read, .far, 0x50, 0, 0, 0, 1, 0, []⟩ = !w ∧
    policyAllows (filtered w) ⟨.write, .far, 0x50, 0, 0, 0, 1, 0, []⟩ = w ∧
    policyAllows (filtered w) ⟨.read, .far, 0x51, 0, 0, 0, 1, 0, []⟩ = false := by decide
theorem test_witness_policies : ∀ p ∈ ([.closed, .listed, .opened] : List BusPolicy),
    { Arbiter.reset with policy := p }.policy = p := by decide
theorem test_witness_policy_bytes : 3 ≤ (0x03#8).toNat ∧ 3 ≤ (0xFF#8).toNat := by decide
theorem test_witness_revocation : ∀ p ∈ ([.closed, .listed, .opened] : List BusPolicy),
    ∀ l ∈ ([none, some ⟨.localHost, 9⟩, some ⟨.remoteHost, 9⟩] : List (Option Lease)),
    let s := { port with da.policy := p, da.lease := l }
    s.da.policy = p ∧ s.da.lease = l ∧ s.inReset = false := by decide
theorem test_policy_revokes : (after (.busPolicy 0) { linked .leader .run with
      da.policy := .opened, da.lease := some ⟨.remoteHost, 9⟩ }).map (fun t => (t.da.lease, t.eu.outbox)) =
    some (none, [⟨.leaseExpired, .localHost, 0, 0, 1⟩]) := by decide
theorem test_lease_expiry : (after .leaseExpiry { port with da.lease := some ⟨.localHost, 1000⟩ }).map
    (fun t => (t.now, t.da.lease, t.eu.eventQueue)) = some (1000, none, [⟨.leaseExpired, .localHost, 0, 0, 1⟩]) := by decide

/-! Chapter 3. -/

theorem test_witness_transfers : ∀ k ∈ ([.write, .read, .busRecover] : List ReqKind),
    ∀ st ∈ ([.active, .recovering] : List BusState),
    let s := working k st port
    s.inReset = false ∧ s.dbc.state = st ∧ s.dbc.work.map (·.req.kind) = some k ∧
      s.dbc.work.map (·.req.offCount.toNat) = some 2 ∧ s.dbc.stretch = some 0 := by decide
theorem test_witness_write_bounds :
    (1 + 2 + 4 ≤ 7) ∧ (1 ≤ 1 ∧ 1 < 1 + 2) ∧ (1 ≤ 2 ∧ 2 < 1 + 2) ∧ (1 + 2 ≤ 3 ∧ 3 < 1 + 2 + 4) ∧ (1 + 2 ≤ 6 ∧ 6 < 1 + 2 + 4) := by
  decide
theorem test_witness_read_bounds : (1 + 2 ≤ 3 ∧ 3 < 2 + 2) ∧ (2 + 2 ≤ 4) := by decide

/-- The answer recorded for tag 0 by the end of a transfer. -/
def answerOf (k : ReqKind) (acks : List Bool) (rx : List Byte) : Option (List Answer) :=
  (after (.transactionEnd acks rx) (working k .active (withTag .executing none port))).map fun t => t.rt.cq.map (·.answer)

theorem test_write_ends :
    answerOf .write (List.replicate 7 true) [] = some [⟨.ok, 4, 0, []⟩] ∧
    answerOf .write [false] [] = some [⟨.noAck, 0, 0, []⟩] ∧
    answerOf .write [true, true, false] [] = some [⟨.dataNack, 0, 0, []⟩] ∧
    answerOf .write [true, true, true, true, true, true, false] [] = some [⟨.dataNack, 3, 0, []⟩] := by decide
theorem test_read_ends :
    answerOf .read [true, true, true, true] [9, 8] = some [⟨.ok, 4, 0, [9, 8, 0xFF, 0xFF]⟩] ∧
    answerOf .read [true, true, true, false] [] = some [⟨.noAck, 0, 0, []⟩] ∧
    answerOf .read [true, false] [] = some [⟨.dataNack, 0, 0, []⟩] := by decide
/-- A transfer of two data bytes with one offset byte. -/
def transfer (k : ReqKind) : Request := ⟨k, .near, 0x50, 1, 0x10, 0, 2, 0, [0xAA, 0xBB]⟩

theorem test_write_on_the_bus :
    (transfer .write).busItems [true, true, true, true] =
      [.start, .byte 0xA0, .byte 0x10, .byte 0xAA, .byte 0xBB, .stop] ∧
    (transfer .write).busItems [true, true, false] = [.start, .byte 0xA0, .byte 0x10, .byte 0xAA, .stop] := by decide
theorem test_read_on_the_bus :
    (transfer .read).busItems [true, true, true] =
      [.start, .byte 0xA0, .byte 0x10, .start, .byte 0xA1, .receive true, .receive false, .stop] ∧
    (transfer .read).busItems [true, true, false] = [.start, .byte 0xA0, .byte 0x10, .start, .byte 0xA1, .stop] ∧
    { transfer .read with offCount := 0 }.busItems [false] = [.start, .byte 0xA1, .stop] := by decide
theorem test_drives_on_the_lines :
    busDrives [.start, .stop] = [⟨true, true⟩, ⟨true, false⟩, ⟨false, false⟩, ⟨false, true⟩, ⟨false, false⟩, ⟨true, false⟩, ⟨true, true⟩] ∧
    (((transfer .write).transferDrives [true, false]).filter (·.scl)).map (·.sda) =
      [true, false] ++ [true, false, true, false, false, false, false, false, true] ++
        [false, false, false, true, false, false, false, false, true] ++ [false, true] ∧
    ((BusItem.receive true).drives.filter (·.scl)).map (·.sda) = List.replicate 8 true ++ [false] ∧
    recoveryDrives ⟨true, [], true⟩ = ⟨true, true⟩ :: BusItem.stop.drives := by decide
theorem test_witness_recovery_drives :
    ∀ n ∈ [0, 8], let x : RecoverySamples := ⟨false, List.replicate n false ++ [true], true⟩
      x.initial = false ∧ x.afterPulse[n]? = some true ∧ (∀ k, k < n → x.afterPulse[k]? = some false) ∧
      true ∉ (List.replicate 9 false).take 9 := by decide
theorem test_witness_bus_items : (transfer .write).kind = .write ∧ (transfer .read).kind = .read ∧
    (∀ c ∈ ([0, 1, 2] : List Byte), { transfer .read with offCount := c }.offCount.toNat ≤ 2) := by decide
theorem test_witness_recovery :
    (∀ x ∈ ([⟨true, [], true⟩, ⟨false, List.replicate 8 false ++ [true], true⟩] : List RecoverySamples),
      (x.initial = true ∨ true ∈ x.afterPulse.take 9) ∧ x.afterStop = true) ∧
    (∀ x ∈ ([⟨true, [], false⟩, ⟨false, List.replicate 9 false ++ [true], true⟩] : List RecoverySamples),
      ¬ ((x.initial = true ∨ true ∈ x.afterPulse.take 9) ∧ x.afterStop = true)) := by decide
theorem test_stuck_then_faulted :
    (after .stuckAtStart (working .write .active port)).map (fun t => (t.dbc.state, t.dbc.cause)) =
      some (.recovering, some .sdaLow) ∧
    (after (.recoveryEnd ⟨false, List.replicate 9 false, false⟩) (working .write .recovering port)).map
      (fun t => (t.dbc.state, t.dbc.cause, t.eu.eventQueue)) =
      some (.faulted, some .sdaLow, [⟨.busFault, .localHost, 1, 0, 1⟩]) := by decide
theorem test_stretch_limit : ∀ n ∈ [0, 40000],
    (after (.stretchLimit ⟨n, [true, true, true, true]⟩ []) (working .write .active port)).map
      (fun t => (t.now, t.dbc.state, t.dbc.work.map (·.acked))) = some (n + 25000, .recovering, some 1) := by decide
theorem test_bus_released : busReleased port = true ∧ busReleased (working .write .active port) = false ∧
    busReleased { working .write .active port with inReset := true } = true := by decide
theorem test_witness_end_of_work : ∀ b ∈ [true, false],
    let s := { working .write .recovering port with dbc.fromFault := b }
    s.dbc.work.isSome = true ∧ s.dbc.fromFault = b := by decide
theorem test_witness_results :
    (withTag .executing none port).rt.tags[(0 : Tag)].state = .executing ∧
    (withTag .executing none port).rt.tags[(0 : Tag)].gen = 3 ∧ (withTag .free none port).rt.tags[(0 : Tag)].state ≠ .executing ∧
    (withTag .executing none port).rt.tags[(0 : Tag)].gen ≠ 4 ∧
    (∀ st ∈ ([.executing, .detached] : List SlotState),
      ((withSlot .write st port).iq.slots[(0 : Slot)]).map (·.state) = some st) := by decide

/-! Chapter 4. -/

theorem test_witness_claims :
    (∃ l : LineNo, (1#12).getLsbD l.val = true ∧
      (withLine .input (some .remoteHost) port).lb.lines[l].owner = some Origin.localHost.other) ∧
    (∀ o ∈ ([.localHost, .remoteHost] : List Origin), ∀ l : LineNo, (0x801#12).getLsbD l.val = true →
      port.lb.lines[l].owner ≠ some o.other) ∧
    (∃ l : LineNo, (0x801#12).getLsbD l.val = true ∧ port.lb.remoteLines.getLsbD l.val = false) ∧
    (∀ l : LineNo, (0x801#12).getLsbD l.val = true →
      { port with lb.remoteLines := 0x801#12 }.lb.remoteLines.getLsbD l.val = true) := by decide
theorem test_claim_is_checked :
    (lineClaim .localHost 0x801#12 (withLine .input (some .remoteHost) port)).1 = .owned ∧
    (lineClaim .remoteHost 1#12 port).1 = .notOwner ∧
    (lineClaim .localHost 1#12 (withLine .parked none port)).2.lb.lines[(0 : LineNo)].mode = .input := by decide
theorem test_witness_releases : ∀ f ∈ ([.release, .hold, .low, .high] : List Fallback),
    let s := { port with lb.lines := vput port.lb.lines 11 { port.lb.lines[(11 : LineNo)] with owner := some .localHost, fallback := f } }
    (0x800#12).getLsbD (11 : LineNo).val = true ∧ s.lb.lines[(11 : LineNo)].owner = some .localHost ∧
      s.lb.lines[(11 : LineNo)].fallback = f ∧
      ¬ ((0x800#12).getLsbD (10 : LineNo).val = true ∧ s.lb.lines[(10 : LineNo)].owner = some .localHost) := by decide
theorem test_witness_line_set :
    (∃ l : LineNo, (1#12).getLsbD l.val = true ∧ port.lb.lines[l].owner ≠ some .localHost) ∧
    (∀ m ∈ ([.outputPp, .outputOd, .input] : List LineMode),
      let s := withLine m (some .localHost) port
      (∀ l : LineNo, (1#12).getLsbD l.val = true → s.lb.lines[l].owner = some .localHost) ∧
      ((∃ l : LineNo, (1#12).getLsbD l.val = true ∧ s.lb.lines[l].mode ≠ .outputPp ∧ s.lb.lines[l].mode ≠ .outputOd) ↔
        m = .input)) := by decide
theorem test_line_set :
    (lineSet .localHost 1#12 1#12 (withLine .outputPp (some .localHost) port)).2.lb.lines[(0 : LineNo)].out = true ∧
    (lineSet .localHost 1#12 1#12 (withLine .mirrorRecv (some .localHost) port)).1 = .wrongMode := by decide

/-- A LINE_CONFIG of L0 for a mode. -/
def setting (m : LineMode) : LineSettings := ⟨0, m, .hold, 4, .both, 11, .latched⟩

theorem test_witness_configs : ∀ before ∈ ([.input, .outputPp, .outputOd, .mirrorSend, .mirrorRecv, .testFlag, .parked] :
    List LineMode), ∀ o ∈ ([none, some .localHost] : List (Option Origin)),
    ∀ m ∈ ([.input, .outputPp, .outputOd, .mirrorSend, .mirrorRecv, .testFlag, .parked] : List LineMode),
    let r := (withLine before o port).lb.lines[(setting m).line]
    r.owner = o ∧ r.timing = none ∧ r.mode = before ∧ (setting m).mode = m := by decide
theorem test_witness_line_bodies :
    (∀ k ∈ ([.lineClaim, .lineRelease, .lineSet] : List ReqKind), { transfer .write with kind := k }.kind = k) ∧
    ({ transfer .write with body := [11, 5, 3, 16, 3, 0, 1] }.settings = some ⟨11, .testFlag, .release, 16, .both, 0, .latched⟩ ∧
      { transfer .write with kind := .lineConfig, body := [11, 5, 3, 16, 3, 0, 1] }.kind = .lineConfig) := by decide
theorem test_witness_timed_config : ∀ d ∈ [0, 1, 4],
    let r : LineRecord := { port.lb.lines[0] with owner := some .localHost, timing := some 4000, debounce := 4, pin := true }
    let s := { port with lb.lines := vput port.lb.lines 0 r }
    s.lb.lines[(setting .input).line].timing ≠ none ∧ s.lb.lines[(setting .input).line].debounce = 4 ∧
      (lineConfig .localHost { setting .input with debounce := d } s).2.lb.lines[(0 : LineNo)].timing =
        (if d = 4 then some 4000 else if d = 0 then none else some 1000) ∧
      (lineConfig .localHost { setting .input with debounce := d } s).2.lb.lines[(0 : LineNo)].level = decide (d = 0) := by
  decide
theorem test_config_takes_the_level :
    ((lineConfig .localHost (setting .outputPp) { withLine .input (some .localHost) port with
      lb.lines := vput port.lb.lines 0 { port.lb.lines[0] with owner := some .localHost, level := true } }).2.lb.lines[
        (0 : LineNo)]).out = true := by decide
theorem test_witness_sample : (⟨.lineSample, .near, 0, 0, 0, 0, 0, 0, []⟩ : Request).kind = .lineSample := rfl

/-- Line 11 with a debounce, its level low. -/
def debounced (ms : Nat) (timing : Option Moment) (report : Report) (s : State) : State :=
  let r := s.lb.lines[(11 : LineNo)]
  { s with lb.lines := vput s.lb.lines 11 { r with debounce := ms, timing, report, pin := timing.isSome } }

theorem test_witness_pins :
    (false = (debounced 0 none .nobody port).lb.lines[(11 : LineNo)].pin) ∧
    (∀ ms ∈ [0, 16], let r := (debounced ms none .nobody port).lb.lines[(11 : LineNo)];
      true ≠ r.pin ∧ true ≠ r.level ∧ r.debounce = ms ∧ r.timing = none) ∧
    (let r := (debounced 16 (some 16000) .nobody port).lb.lines[(11 : LineNo)];
      false ≠ r.pin ∧ false = r.level ∧ r.timing = some 16000) := by decide
theorem test_pin_without_debounce : (after (.pinChange 11 true) (debounced 0 none .toLocal port)).map
    (fun t => (t.lb.lines[(11 : LineNo)].level, t.eu.eventQueue)) =
    some (true, [⟨.lineChange, .localHost, 11, 1, 1⟩]) := by decide
theorem test_debounce_end : (after (.debounceEnd 11) (debounced 16 (some 16000) .both (linked .leader .run))).map
    (fun t => (t.now, t.lb.lines[(11 : LineNo)].level, t.eu.outbox)) =
    some (16000, true, [⟨.lineChange, .localHost, 11, 1, 1⟩]) := by decide
theorem test_witness_remote_lines :
    let s := { withLine .input (some .remoteHost) (linked .leader .run) with lb.remoteLines := 1#12 }
    portReady s ∧ s.slc.state.isUp = true ∧ s.eu.outbox = [] ∧
      ∀ k : LineNo, (s.lb.remoteLines.getLsbD k.val = true ∧ (0#12).getLsbD k.val = false ∧
        s.lb.lines[k].owner = some .remoteHost) ↔ k = 0 := by
  unfold portReady; decide
theorem test_remote_lines :
    (after (.remoteLines 0) { withLine .input (some .remoteHost) (linked .leader .run) with
      lb := { (withLine .input (some .remoteHost) (linked .leader .run)).lb with remoteLines := 1#12 }
      hp := { port.hp with remoteHold := ⟨0xF8#8, true⟩ } }).map
      (fun t => (t.lb.remoteLines, t.lb.lines[(0 : LineNo)].owner, t.eu.outbox, t.hp.remoteHold.written)) =
    some (0x800#12, none, [⟨.lineLost, .localHost, 0, 0, 1⟩], false) := by decide

theorem test_several_lines_lost :
    (after (.remoteLines 0) { linked .leader .run with
      eu.outbox := [⟨.busFault, .localHost, 1, 0, 1⟩]
      lb := { port.lb with
        remoteLines := 0x009#12, lines := vtab fun l => { port.lb.lines[l] with owner := some .remoteHost } } }).map
      (fun t => t.eu.outbox.map (fun r => (r.kind, r.detail))) =
    some [(.busFault, 1), (.lineLost, 0), (.lineLost, 3)] := by decide

/-- A checker in a running test, L0 in TEST_FLAG. -/
def checker : State :=
  let s := withLine .testFlag (some .localHost) (linked .leader .test)
  { s with lt := { s.lt with phase := .running, lostDue := some 1000, durationDue := some 980 } }

theorem test_witness_flags :
    checker.lb.lines[(0 : LineNo)].mode = .testFlag ∧ checker.lb.pulse = none ∧
    { checker with lb := { checker.lb with pulse := some 7 } }.lb.pulse = some 7 := by decide
theorem test_flag_goes_low : lineDrive checker checker.lb.lines[(0 : LineNo)] = some true ∧
    (after (.patternSymbol 0x54 true) { checker with lt := { checker.lt with pattern := .alternating } }).map
      (fun t => (t.lt.bits, t.lt.errors, lineDrive t t.lb.lines[(0 : LineNo)])) = some (9, 1, some false) := by decide
theorem test_witness_modes :
    (∀ m ∈ ([.input, .mirrorSend, .outputPp, .parked, .outputOd, .mirrorRecv] : List LineMode),
      { port.lb.lines[(0 : LineNo)] with mode := m }.mode = m) ∧
    (let sends : LineNo → Bool → LineNo → LineRecord := fun l v p =>
      { port.lb.lines[l] with mode := .mirrorSend, level := v, partner := p }
     mirrorPairs { port with lb.lines := vput (vput port.lb.lines 9 (sends 9 false 9)) 2 (sends 2 true 11) } = [0x1B, 0x09]) := by
  decide
theorem test_witness_mirrors : ∀ f ∈ ([.hold, .low, .high, .release] : List Fallback),
    ∀ m ∈ ([.mirrorRecv, .input] : List LineMode),
    let s := { port with lb.lines := vput port.lb.lines 11 { port.lb.lines[(11 : LineNo)] with mode := m, fallback := f } }
    (0x1B#8).toNat % 16 = (11 : LineNo).val ∧ s.lb.lines[(11 : LineNo)].mode = m ∧
      s.lb.lines[(11 : LineNo)].owner ≠ some .remoteHost := by decide

/-! Chapter 5. -/

/-- The link controller's six timers, running. -/
def timed (s : State) : State :=
  { s with slc := { s.slc with
      trainDue := some 5, helloDue := some 5, helloLimit := some 5, silence := some 5, retrain := some 5, holdoff := some 5 } }

theorem test_witness_link_timers :
    (port.slc.trainDue = none ∧ port.slc.helloDue = none ∧ port.slc.helloLimit = none ∧ port.slc.silence = none ∧
      port.slc.retrain = none ∧ port.slc.holdoff = none) ∧
    ∀ r ∈ ([.leader, .follower] : List Role), ∀ off ∈ [true, false],
      let s := timed { linked r .holdoff with hp.spanOff := off }
      s.slc.trainDue = some 5 ∧ s.slc.helloDue = some 5 ∧ s.slc.helloLimit = some 5 ∧ s.slc.silence = some 5 ∧
        s.slc.retrain = some 5 ∧ s.slc.holdoff = some 5 ∧ s.hp.spanOff = off ∧ s.slc.role = r := by decide
theorem test_training_interval : (after .trainingInterval (timed (linked .leader .retrain))).map
    (fun t => (t.slc.trainDue, t.fe.sending)) =
    some (some 1005, some ⟨.train, ⟨true, false, false, 0, 0, 0⟩, [0]⟩) := by decide
theorem test_silence_is_a_loss : (after .silenceLimit (timed (linked .follower .run))).map
    (fun t => (t.slc.state, t.slc.detail, t.slc.holdoff, t.eu.eventQueue)) =
    some (.holdoff, .turnLoss, some 10005, [⟨.linkDown, .localHost, 1, 0, 1⟩]) := by decide

/-- A near WRITE waiting in the LOCAL list while the bus controller works. -/
def waiting : State :=
  let s := withTag .queued (some 9) (working .busRecover .recovering port)
  { s with rt := { s.rt with order := [0] }, da := { s.da with localList := [0] } }

theorem test_no_entry : ∀ i : Slot, waiting.iq.slots[i] = none := by decide
theorem test_witness_consistent : RequestInv waiting := by
  refine ⟨?_, ?_, ?_, ?_, ?_, ?_, ?_, ?_, ?_, ?_, ?_, ?_⟩ <;> decide +kernel
theorem test_witness_consistent_queue : IncomingInv waiting := by
  refine ⟨by decide, by decide, by decide, ?_, ?_, by decide, ?_, by decide, ?_⟩
  · intro i; constructor
    · rintro ⟨e, due, h, _⟩; rw [test_no_entry i] at h; cases h
    · intro h; cases h
  · intro i e h; cases h
  · intro i; constructor
    · rintro ⟨e, a, h, _⟩; rw [test_no_entry i] at h; cases h
    · intro h; cases h
  · intro i h; cases h
theorem test_witness_fault_purge : waiting.da.localList.filter (fun t => waiting.rt.tags[t].req.kind.isTransfer) = [0] := by
  decide

/-- A chip whose test's owner, tag 0, waits, its Link Tester in a phase. -/
def testing (ph : TestPhase) (gen : Bool) : State :=
  let s := withTag .testing none (linked .leader .test)
  { s with rt := { s.rt with order := [0] }, lt := { s.lt with
      phase := ph, owner := true, generator := gen, ownerTag := some (0, 3), bits := 9, errors := 1, firstError := true } }

set_option maxRecDepth 4000 in
theorem test_witness_loss_in_test : ∀ ph ∈ ([.running, .returning, .awaitResult, .draining] : List TestPhase),
    ∀ g ∈ [true, false], RequestInv (testing ph g) ∧ (testing ph g).lt.ownerTag = some (0, 3) := by
  intro ph hp g hg
  simp only [List.mem_cons, List.not_mem_nil, or_false] at hp hg
  rcases hp with rfl | rfl | rfl | rfl <;> rcases hg with rfl | rfl <;>
    exact ⟨⟨by decide, by decide, by decide, by decide, by decide, by decide, by decide, by decide, by decide, by decide,
      by decide, by decide⟩, rfl⟩
theorem test_loss_completes_the_owner :
    (loss .localOff (testing .running false)).rt.cq.map (·.answer) = [⟨.ok, 0, 1, [0, 0, 0, 0, 9, 0, 1, 3, 1]⟩] ∧
    (loss .localOff (testing .running true)).rt.cq.map (·.answer.status) = [.linkDown] ∧
    (loss .localOff (testing .running false)).eu.eventQueue.map (·.kind) = [.linkDown, .testDone] := by decide
theorem test_witness_training :
    (∀ r ∈ ([.leader, .follower] : List Role), ∀ st ∈ ([.listen, .hello] : List LinkState), ∀ n ∈ [0, 14, 15],
      let s := { linked r st with slc := { (linked r st).slc with good := n }, fe.awaitReply := some 20 }
      s.inReset = false ∧ s.fe.sending = none ∧ (head 0).ret.toNat ≤ 8 ∧ (head 0).retrain = false ∧ s.slc.role = r ∧
        s.slc.state = st ∧ s.slc.good = n ∧ s.fe.awaitReply.isSome = true) ∧
    (⟨false, false, false, 0, 0, 8⟩ : FrameHeader).ret.toNat ≤ 8 ∧ 1 ≤ (1#8).toNat ∧ (8#8).toNat ≤ 8 := by decide
theorem test_follower_locks : (after (.train (head 0) [0]) { linked .follower .listen with
      slc := { (linked .follower .listen).slc with good := 15 } }).map (fun t => (t.slc.state, t.fe.sending.map (·.kind))) =
    some (.hello, some .trainAck) := by decide
theorem test_witness_bring_up : ∀ r ∈ [true, false],
    (⟨r, false, false, 0, 0, 0⟩ : FrameHeader).retrain = r ∧ (linked .follower .hello).slc.state = .hello ∧
      (0#8).toNat = 0 ∧ 8 < (9#8).toNat ∧ (linked .follower .run).slc.state = .run ∧
      (linked .follower .run).slc.role = .follower := by decide
theorem test_bad_hello : ∀ c ∈ ([0, 9] : List Byte),
    (after (.hello (head 0) [1, c, 0]) (linked .follower .listen)).map (fun t => (t.slc.state, t.slc.detail)) =
      some (.holdoff, .helloFail) := by decide
theorem test_hello_in_run :
    (after (.hello (head 0) [1, 8, 0]) (linked .follower .run)).map
      (fun t => (t.now, t.fe.sending.map (·.kind), t.fe.replyDue, t.fe.replyHello)) = some (0, none, some 2, true) ∧
    ((after (.hello (head 0) [1, 8, 0]) (linked .follower .run)).bind (after .followerReply)).map
      (fun t => (t.slc.state, t.fe.sending.map (fun f => (f.kind, f.payload)), t.fe.sendEnd)) =
      some (.run, some (.hello, [1, 8, 1]), 16) := by decide
theorem test_leader_enters_run : (after (.hello ⟨false, true, false, 0, 0, 0⟩ [1, 8, 1])
      { linked .leader .hello with fe := { port.fe with awaitReply := some 20 } }).map
      (fun t => (t.slc.state, t.fe.credits, t.eu.eventQueue.map (·.kind))) =
    some (.run, 8, [.linkUp, .peerHostReady]) := by decide
theorem test_witness_host_control :
    (∀ st ∈ ([.disabled, .holdoff, .listen, .hello, .run, .drain, .test, .retrain] : List LinkState), ∀ off ∈ [true, false],
      ∀ en ∈ [true, false],
      let s := { linked .leader st with
        slc := { (linked .leader st).slc with spanEn := en }, hp := { port.hp with spanOff := off } }
      s.inReset = false ∧ s.hp.up = true ∧ s.slc.state = st ∧ s.hp.spanOff = off ∧ s.slc.spanEn = en) ∧
    (8#8).getLsbD 3 = true ∧ (7#8).getLsbD 3 = false := by decide
theorem test_span_off : (after (.spanOff 8) (linked .leader .run)).map (fun t => (t.slc.state, t.slc.detail)) =
    some (.holdoff, .localOff) := by decide

/-! Chapter 6. -/

theorem test_witness_turns :
    (let s := linked .leader .run;
      s.slc.role = .leader ∧ s.slc.state = .run ∧ s.fe.sending = none ∧ s.fe.awaitReply = none) ∧
    (let s := { linked .follower .drain with fe := { port.fe with replyDue := some 2 } };
      s.fe.replyDue = some 2 ∧ s.slc.role = .follower ∧ s.slc.state = .drain ∧ s.fe.sending = none) ∧
    (∀ b ∈ [true, false], { port with fe := { port.fe with replyHello := b } }.fe.replyHello = b) ∧
    (port.fe.replyDue = none ∧ port.slc.role ≠ .leader) := by decide
theorem test_turn_of_an_idle_link : (after .turnOpen (linked .leader .run)).map (fun t => (t.now, t.fe.sending)) =
    some (100, some ⟨.idle, ⟨false, false, false, 0, 7, 0⟩, []⟩) := by decide

/-- A window of frames 6, 7, 0 and 1, in a go-back, each sent `n` times. -/
def windowed (n : Nat) (s : State) : State :=
  { s with fe := { s.fe with
      txSeq := 2
      window := [⟨.rsp, 6, [], n, some 0⟩, ⟨.event, 7, [], n, none⟩, ⟨.lines, 0, [], n, none⟩, ⟨.cancel, 1, [], n, none⟩]
      goBack := [6, 7, 0, 1] } }

theorem test_witness_window : ∀ n ∈ [1, 3, 4],
    let s := windowed n (linked .leader .run)
    (∃ f, s.fe.window.find? (fun g => decide (g.seq = 6)) = some f ∧ f.sends = n) ∧ 4 ≤ s.fe.window.length ∧
      s.fe.window = [⟨.rsp, 6, [], n, some 0⟩, ⟨.event, 7, [], n, none⟩] ++ ⟨.lines, 0, [], n, none⟩ ::
        [⟨.cancel, 1, [], n, none⟩] ∧
      (∀ g ∈ [(⟨.rsp, 6, [], n, some 0⟩ : WindowFrame), ⟨.event, 7, [], n, none⟩], g.seq ≠ 0) ∧
      (∀ f ∈ s.fe.window, f.seq ≠ 5) := by
  intro n _; exact ⟨⟨_, rfl, rfl⟩, by simp [windowed], rfl, by simp, by simp [windowed]⟩
theorem test_go_back : (after .turnOpen (windowed 1 (linked .leader .run))).map
    (fun t => (t.fe.goBack, t.fe.sending.map (fun f => (f.kind, f.header.seq)), t.fe.window.map (·.sends))) =
    some ([7, 0, 1], some (.rsp, 6), [2, 1, 1, 1]) ∧
    (after .turnOpen (windowed 4 (linked .leader .run))).map (fun t => t.slc.detail) = some .retryLimit := by decide
theorem test_ack_slides_the_window : (takeAck 0 (windowed 1 (linked .leader .run))).fe.window.map (·.seq) = [1] ∧
    (takeAck 0 (windowed 1 (linked .leader .run))).fe.retCount = 1 := by decide

/-- Work for the transmit selector, one candidate more with each number. -/
def offering (n : Nat) : State :=
  let s := withTag .waitCredit (some 50000) (withSlot .ping (.answered ⟨.ok, 0, 0, []⟩) (linked .leader .run))
  { s with
    rt := { s.rt with order := if 2 ≤ n then [0] else [] }
    iq := { s.iq with answerOrder := if 4 ≤ n then [0] else [] }
    eu := { s.eu with outbox := if 1 ≤ n then [⟨.busFault, .localHost, 1, 0, 1⟩] else [] }
    lt := { s.lt with phase := if n = 3 then .enterPending else if 6 ≤ n then .resultOut else .idle }
    fe := { s.fe with
      runLines := decide (5 ≤ n), cancelList := if 7 ≤ n then [(0, 3)] else [], releaseAll := decide (8 ≤ n) } }

theorem test_witness_selector : ((List.range 9).map fun n => nextKind (offering n)) =
    [.idle, .event, .req, .testEnter, .rsp, .lines, .testResult, .cancel, .releaseAll] := by decide
theorem test_witness_stall : ∀ x ∈ ([(2, true, 3), (1, true, 2), (2, false, 2)] : List (Nat × Bool × Nat)),
    let s := { port with fe := { port.fe with stall := x.1 } }
    (if x.2.1 = true ∧ s.fe.progress = false then s.fe.stall + 1 else s.fe.stall) = x.2.2 := by decide
theorem test_witness_building :
    nextReq (offering 8) = some 0 ∧ (offering 8).iq.answerOrder = [0] ∧ (offering 8).fe.cancelList = [(0, 3)] ∧
    (offering 8).eu.outbox ≠ [] ∧
    ((offering 8).iq.slots[(0 : Slot)]).map (·.state) = some (.answered ⟨.ok, 0, 0, []⟩) := by decide
theorem test_oldest_waiting_req : nextReq { offering 2 with rt := { (offering 2).rt with order := [5, 0, 3] } } = some 0 ∧
    nextReq port = none := by decide
theorem test_req_takes_a_credit : (after .turnOpen (offering 2)).map (fun t => (t.fe.credits, t.rt.tags[(0 : Tag)].state,
    t.rt.tags[(0 : Tag)].due, t.fe.window.map (·.payload))) =
    some (7, .inFlight, some 58000, [[0, 3, 1, 50, 0x50, 0, 0, 0, 1, 0xAA]]) := by decide

/-- A chip sending a frame of a kind. -/
def sending (k : FrameKind) (s : State) : State :=
  { s with fe := { s.fe with sending := some ⟨k, head 0, []⟩, sendEnd := 11, resend := true } }

theorem test_witness_sending :
    port.fe.sending = none ∧ (sending .idle (linked .leader .run)).fe.sending = some ⟨.idle, head 0, []⟩ ∧
    (linked .leader .run).lt.goTaken = false ∧ (linked .follower .hello).fe.helloTaken = none ∧
    (let s := { linked .follower .hello with fe := { port.fe with helloTaken := some ⟨1, 8, true⟩ } };
      s.slc.role = .follower ∧ s.fe.helloTaken = some ⟨1, 8, true⟩) ∧
    (let s := { linked .follower .drain with lt := { port.lt with goTaken := true } };
      s.lt.goTaken = true ∧ s.slc.state = .drain ∧ s.fe.helloTaken = none) ∧
    (let s := sending .idle { linked .leader .drain with lt := { port.lt with goTaken := true } };
      s.lt.goTaken = true ∧ s.slc.state = .drain ∧ s.slc.role = .leader ∧ s.fe.sending.isSome = true) := by decide
theorem test_leader_enters_test_after_its_frame :
    (after .frameSent (sending .idle { linked .leader .drain with lt := { port.lt with goTaken := true } })).map
      (fun t => (t.slc.state, t.lt.phase, t.fe.awaitReply)) = some (.test, .running, none) := by decide
theorem test_span_pin : (after .turnOpen (linked .leader .run)).map
    (fun t => (spanDe t, drivenByte t, (List.range 10).map (spanTx · t))) =
      some (true, some 0x55, [false, true, false, true, false, true, false, true, false, true]) ∧
    (spanDe port = false ∧ (List.range 10).map (spanTx · port) = List.replicate 10 true) := by decide
theorem test_frame_sent : (after .frameSent (sending .idle (linked .leader .run))).map
    (fun t => (t.now, t.fe.awaitReply, t.fe.resend)) = some (11, some 31, false) := by decide
theorem test_witness_reply_window : ∀ n ∈ [0, 14, 15],
    ∀ st ∈ ([.listen, .hello, .run, .drain, .retrain, .disabled, .test, .holdoff] : List LinkState),
    let s := { linked .leader st with slc := { (linked .leader st).slc with missed := n }, fe.awaitReply := some 20 }
    s.fe.awaitReply = some 20 ∧ s.slc.missed = n ∧ s.slc.state = st ∧ s.inReset = false ∧ s.fe.sending = none := by decide
theorem test_sixteenth_missed_turn : (after .replyWindowEnd { linked .leader .run with
      slc := { (linked .leader .run).slc with missed := 15 }, fe.awaitReply := some 20 }).map
      (fun t => (t.slc.state, t.slc.detail)) = some (.holdoff, .turnLoss) := by decide
theorem test_crc_errors_saturate : (after (.badFrame [0x55, 0xD5]) { linked .follower .listen with
      fe := { port.fe with crcErrors := 65535 } }).map (·.fe.crcErrors) = some 65535 ∧
    (after (.badFrame []) (linked .follower .run)).map (fun t => (t.fe.crcErrors, t.fe.resend)) = some (1, true) := by
  decide
theorem test_witness_in_reset : { port with inReset := true }.inReset = true := rfl
theorem test_witness_ready_values : ∀ b ∈ [true, false],
    { port with slc := { port.slc with peerReady := b } }.slc.peerReady = b := by decide

/-- Sequence numbers counted from an expected 6: the four handlings of R127 at the ends of their ranges. -/
theorem test_witness_sequence :
    ((6#3 - 6#3).toNat = 0) ∧ ((7#3 - 6#3).toNat = 1 ∧ (1#3 - 6#3).toNat = 3) ∧ ((2#3 - 6#3).toNat = 4 ∧ (5#3 - 6#3).toNat = 7) :=
  by decide
theorem test_witness_good_frames :
    (∀ x ∈ ([(.idle, []), (.releaseAll, []), (.cancel, [0, 0])] : List (FrameKind × List Byte)), frameGood x.1 (head 6) x.2 = true) ∧
    (∀ f ∈ (windowed 1 (linked .leader .run)).fe.window, f.kind ≠ .testGo) := by decide
theorem test_witness_link_frames_in_turns : ∀ r ∈ ([.leader, .follower] : List Role), ∀ st ∈ ([.run, .drain] : List LinkState),
    ∀ w ∈ ([none, some 20] : List (Option Moment)),
    let s := { linked r st with fe := { port.fe with awaitReply := w } }
    s.inReset = false ∧ s.fe.sending = none ∧ s.slc.role = r ∧ s.slc.state = st ∧ s.fe.awaitReply = w ∧
      (⟨false, false, false, 0, 0, 8⟩ : FrameHeader).ret.toNat ≤ 8 := by decide
theorem test_frame_outside_the_window :
    after (.trainAck ⟨false, true, true, 0, 0, 0⟩ [1]) (linked .leader .run) = some (linked .leader .run) ∧
    (after (.badFrame []) (linked .leader .run)).map (fun t => (t.fe.crcErrors, t.fe.resend, t.slc.missed)) =
      some (1, true, 0) := by decide
theorem test_long_req_fails :
    (after (.req (head 0) ([0, 1, 1, 5, 0x50, 0, 0, 0, 33] ++ List.replicate 33 0)) (linked .follower .run)).map
      (fun t => (t.fe.crcErrors, t.fe.resend)) = some (1, true) := by decide
theorem test_frame_ahead : (after (.releaseAll (head 1) []) (linked .follower .run)).map (fun t => (t.fe.resend, t.fe.expected)) =
    some (true, 0) ∧
    (after (.releaseAll (head 4) []) (linked .follower .run)).map (fun t => (t.fe.resend, t.fe.replyDue)) =
    some (false, some 2) := by decide
theorem test_witness_wire : frameGood .train ⟨true, true, false, 0, 0, 0⟩ [0] = true ∧ FrameKind.train.hasMark = true ∧
    frameGood .lines ⟨false, true, true, 7, 7, 8⟩ (List.replicate 12 0x1B) = true := by decide
theorem test_wire_of_an_idle : receiveWire (wireBytes ⟨.idle, head 3, []⟩) = some (.idle (head 3) []) := by decide +kernel

/-! Chapters 7 and 8: frames that are delivered. -/

/-- The state in which a follower delivers a frame with header `head 0`. -/
def taken (s : State) : State :=
  { takeHeader (head 0) { s with slc.silence := some (s.now + 2000), fe.replyDue := some (s.now + 2), fe.replyHello := false } with
    fe.expected := s.fe.expected + 1 }

/-- A good payload of each sequenced kind. -/
def goodPayloads : List (FrameKind × List Byte) :=
  [(.req, [0, 1, 11, 0, 0, 0, 0, 0, 0]), (.rsp, [0, 3, 0, 1, 0, 0]), (.cancel, [2, 5]), (.lines, [0x1B]),
   (.event, [1, 0, 4, 1, 0, 0]), (.releaseAll, []), (.testEnter, [0, 1, 0, 0, 0]), (.testReady, []), (.testGo, []),
   (.testResult, [0, 0, 0, 0, 9, 0, 1, 1, 2])]

theorem delivered_to_follower (k : FrameKind) (p : List Byte) (s : State) (h1 : s.inReset = false) (h2 : s.fe.sending = none)
    (h3 : s.slc.state = .run ∨ s.slc.state = .drain) (h4 : k.sequenced = true) (h5 : frameGood k (head 0) p = true)
    (h6 : (head 0).seq = s.fe.expected) (h7 : ∀ f ∈ s.fe.window, f.kind ≠ .testGo) (h8 : s.slc.role = .follower) :
    DeliveredAt k (head 0) p s (taken s) :=
  ⟨h1, h2, h3, h4, h5, h6, h7, _, .inr ⟨h8, rfl⟩, rfl⟩
theorem delivered_to_leader (k : FrameKind) (p : List Byte) (s : State) (h1 : s.inReset = false) (h2 : s.fe.sending = none)
    (h3 : s.slc.state = .run ∨ s.slc.state = .drain) (h4 : k.sequenced = true) (h5 : frameGood k (head 0) p = true)
    (h6 : (head 0).seq = s.fe.expected) (h7 : ∀ f ∈ s.fe.window, f.kind ≠ .testGo)
    (h8 : s.slc.role = .leader ∧ s.fe.awaitReply.isSome = true) :
    ∃ s1, DeliveredAt k (head 0) p s s1 :=
  ⟨_, h1, h2, h3, h4, h5, h6, h7, _, .inl ⟨h8.1, h8.2, rfl⟩, rfl⟩

/-- A follower in a link state with one tag, one entry and one phase of the Link Tester. -/
def receiver (st : LinkState) (tag : TagState) (slot : SlotState) (k : ReqKind) (phase : TestPhase) (owner : Bool) : State :=
  let s := withTag tag (some 58000) (withSlot k slot (linked .follower st))
  { s with iq := { s.iq with arrival := [0] }, lt := { s.lt with phase := phase, owner := owner } }

theorem test_witness_delivered : ∀ x ∈ goodPayloads, ∀ st ∈ ([.run, .drain] : List LinkState),
    let s := receiver st .inFlight (.waiting 9) .write .idle false
    DeliveredAt x.1 (head 0) x.2 s (taken s) := by
  intro x hx st hs
  apply delivered_to_follower <;> revert x st <;> decide
theorem test_witness_delivered_to_leader :
    ∃ s1, DeliveredAt .lines (head 0) [0x1B] { linked .leader .run with fe := { port.fe with awaitReply := some 20 } } s1 :=
  delivered_to_leader _ _ _ (by decide) (by decide) (by decide) (by decide) (by decide) (by decide) (by decide) (by decide)
theorem test_witness_no_room :
    let s := { linked .follower .run with
      iq := { port.iq with slots := vtab fun _ => some ⟨0, 0, Request.empty, .sent ⟨.ok, 0, 0, []⟩⟩ } }
    ∀ i : Slot, (taken s).iq.slots[i].isSome = true := by decide
theorem test_witness_room :
    let s := receiver .run .free (.waiting 9) .write .idle false
    (taken s).iq.slots[(1 : Slot)] = none ∧ (∀ j : Slot, j < 1 → (taken s).iq.slots[j].isSome = true) := by decide

/-- A carried REQ of a kind with a body, the shortest its kind allows. -/
def carried (k : ReqKind) : List Byte :=
  [0, 1, k.code, 5, 0x50, 0, 0, 0, 1] ++
    match k with
    | .write => [0xAA]
    | .lineSet | .lineClaim | .lineRelease => [0, 1, 0, 1]
    | .lineConfig => [0, 0, 0, 0, 0, 0, 0]
    | .leaseTake => [0, 9]
    | _ => []

theorem test_witness_carried : ∀ k ∈ ReqKind.all,
    frameGood .req (head 0) (carried k) = true ∧ (carriedRequest (carried k)).map (·.kind) = some k ∧
      (k ≠ .testStart → (carriedRequest (carried k)).map (·.valid) = some true) := by decide
theorem test_witness_failed_frames :
    frameGood .idle (head 0) [0] = false ∧ (carried .write).length ≤ 41 ∧
    41 < ([0, 1, 1, 5, 0x50, 0, 0, 0, 33] ++ List.replicate 33 (0 : Byte)).length := by decide
theorem test_carried_kinds : carriedRequest [0, 1, 13, 5, 0x50, 0, 0, 0, 1] = none ∧ ReqKind.ping.code = 11#8 := by decide
theorem test_witness_carried_bad : (carriedRequest [0, 1, 1, 5, 0x50, 3, 0, 0, 1, 0xAA]).map (·.valid) = some false := by decide
theorem test_witness_dispatch : ∀ ready ∈ [true, false], ∀ p ∈ ([.closed, .opened] : List BusPolicy),
    ∀ l ∈ ([none, some ⟨.localHost, 9⟩, some ⟨.remoteHost, 9⟩] : List (Option Lease)), ∀ k ∈ ReqKind.all,
    let s := { linked .follower .run with hp := { port.hp with hostReady := ready }, da.policy := p, da.lease := l }
    s.hp.hostReady = ready ∧ s.da.lease = l ∧
      (carriedRequest (carried k)).map (policyAllows s.da) = some (decide (p = .opened)) := by decide
theorem test_req_is_queued : (after (.req (head 0) (carried .write)) { linked .follower .run with
      hp := { port.hp with hostReady := true }, da.policy := .opened }).map
      (fun t => (t.dbc.state, (t.iq.slots[(0 : Slot)]).map (·.state))) = some (.active, some .executing) := by decide
theorem test_req_is_not_ready : (after (.req (head 0) (carried .write)) (linked .follower .run)).map
    (fun t => (t.iq.slots[(0 : Slot)]).map (·.state)) = some (some (.answered ⟨.notReady, 0, 0, []⟩)) := by decide
theorem test_req_without_room : (match exec (.req (head 0) (carried .ping)) { linked .follower .run with
      iq := { port.iq with slots := vtab fun _ => some ⟨0, 0, Request.empty, .detached⟩ } } with
    | .fault f => some f
    | _ => none) = some .reqWithoutRoom := by decide
theorem test_witness_rsp : ∀ st ∈ ([.inFlight, .cancelSent, .done] : List TagState),
    let s1 := taken (receiver .run st (.waiting 9) .write .idle false)
    (0#8).toNat = (0 : Tag).val ∧ s1.rt.tags[(0 : Tag)].state = st ∧ s1.rt.tags[(0 : Tag)].gen.toNat = (3#8).toNat ∧
      Status.code .ok = 0 := by decide
theorem test_rsp : (after (.rsp (head 0) [0, 3, 0, 1, 0, 0]) (receiver .run .inFlight (.waiting 9) .write .idle false)).map
    (fun t => t.rt.cq.map (fun c => (c.gen, c.answer))) = some [(3, ⟨.ok, 1, 0, []⟩)] ∧
    (after (.rsp (head 0) [0, 4, 0, 1, 0, 0]) (receiver .run .inFlight (.waiting 9) .write .idle false)).map
    (fun t => t.rt.cq) = some [] := by decide
theorem test_witness_cancel_frame : ∀ st ∈ ([.waiting 9, .executing, .sent ⟨.ok, 0, 0, []⟩] : List SlotState),
    let s1 := taken (receiver .run .free st .write .idle false)
    s1.iq.arrival = [] ++ (0 : Slot) :: [] ∧ (s1.iq.slots[(0 : Slot)]).map (fun e => (e.tag, e.gen, e.state)) = some (2, 5, st) := by
  decide
theorem test_cancel_frame : (after (.cancelFrame (head 0) [2, 5]) (receiver .run .free (.waiting 9) .write .idle false)).map
    (fun t => ((t.iq.slots[(0 : Slot)]).map (·.state), t.iq.answerOrder)) =
    some (some (.answered ⟨.cancelled, 0, 0, []⟩), [0]) := by decide
theorem test_witness_remote_deadline : ∀ st ∈ ([.waiting 9, .executing] : List SlotState),
    ((receiver .run .free st .write .idle false).iq.slots[(0 : Slot)]).map (·.state) = some st := by decide
theorem test_remote_deadline : (after (.remoteDeadlineExpiry 0) (receiver .run .free (.waiting 9) .write .idle false)).map
    (fun t => (t.now, (t.iq.slots[(0 : Slot)]).map (·.state))) = some (9, some (.answered ⟨.timeout, 0, 0, []⟩)) := by decide
theorem test_release_all : (after (.releaseAll (head 0) []) (receiver .run .free (.waiting 9) .write .idle false)).map
    (fun t => (t.iq.slots[(0 : Slot)], t.fe.retCount)) = some (none, 1) := by decide

/-- A queue of `n` different records, the last an OVERFLOW when asked for. -/
def filled (n : Nat) (overflowing : Bool) : List EventRecord :=
  ((List.range n).map fun i => ⟨.lineChange, .localHost, BitVec.ofNat 8 i, 0, 255⟩) ++
    if overflowing then [⟨.overflow, .localHost, 0, 0, 255⟩] else []

theorem test_insertion_steps :
    (insertEvent 16 (filled 15 true) ⟨.lineChange, .localHost, 0, 1, 1⟩).map (·.count) = List.replicate 16 255 ∧
    insertEvent 16 (filled 3 true) ⟨.busFault, .localHost, 1, 0, 1⟩ = filled 3 true ∧
    (insertEvent 16 (filled 14 false) ⟨.busFault, .localHost, 1, 0, 1⟩).length = 15 ∧
    insertEvent 16 (filled 15 false) ⟨.busFault, .localHost, 1, 0, 1⟩ = filled 15 false ++ [⟨.overflow, .localHost, 0, 0, 1⟩] ∧
    insertEvent 8 (filled 7 false) ⟨.busFault, .localHost, 1, 0, 1⟩ = filled 7 false ++ [⟨.overflow, .localHost, 0, 0, 1⟩] := by
  decide
theorem test_witness_event_kinds :
    (∀ k ∈ EventKind.all, k.code ≠ 0 ∧ k.code ≠ 0x0E#8) ∧ EventKind.code .lineChange = 1 ∧ EventKind.code .overflow = 0x0D#8 := by
  decide
theorem test_event_frame : (after (.event (head 0) [1, 0, 4, 1, 0, 0]) (linked .follower .run)).map (·.eu.eventQueue) =
    some [⟨.lineChange, .remoteHost, 4, 1, 1⟩] ∧
    (after (.event (head 0) [0x0D, 0, 0, 0, 7, 0]) (linked .follower .run)).map (·.eu.eventQueue) =
    some [⟨.overflow, .remoteHost, 0, 0, 7⟩] := by decide
theorem test_lines_frame : (after (.lines (head 0) [0x1B]) (linked .follower .run)).map (·.eu.eventQueue) =
    some [⟨.mirrorMismatch, .localHost, 11, 1, 1⟩] := by decide

/-! Chapter 9. -/

theorem test_witness_test_start :
    (∀ st ∈ ([.run, .drain, .test, .retrain, .disabled, .listen, .hello, .holdoff] : List LinkState),
      ∀ ph ∈ ([.idle, .resultOut] : List TestPhase),
      let s := staged [12, 0, 0, 0, 0, 0, 0, 0, 0xEA, 0x60, 1, 1, 1] (linked .leader st)
      let u := { s with lt := { s.lt with phase := ph } }
      (stagedRequest u.hp.staging).map (·.kind) = some .testStart ∧
        ((stagedRequest u.hp.staging).bind fun r => testParams r.body) = some ⟨60000, .alternating, false, .latched⟩ ∧
        freeTag u = some 0 ∧ u.slc.state = st ∧ u.lt.phase = ph) := by decide
theorem test_test_start : (after (.testStart 0) (staged [12, 0, 0, 0, 0, 0, 0, 0, 0, 1, 0, 0, 0] (linked .leader .run))).map
    (fun t => (t.lt.phase, t.lt.generator, t.lt.ownerTag, t.rt.tags[(0 : Tag)].state)) =
    some (.enterPending, true, some (0, 1), .testing) := by decide
theorem test_witness_drained :
    drained (linked .leader .drain) = true ∧ drained (withTag .inFlight none port) = false ∧
    drained (withSlot .ping .executing port) = false ∧ drained (windowed 1 port) = false := by decide
theorem test_witness_test_enter :
    testParams [0, 0, 0, 0, 0] = none ∧ (testParams [0, 1, 0, 0, 0]).isSome = true ∧
    (∀ ph ∈ ([.idle, .enterPending, .draining, .awaitResult, .resultOut] : List TestPhase), ∀ o ∈ [true, false],
      let s := receiver .run .free .executing .ping ph o
      s.lt.phase = ph ∧ s.lt.owner = o ∧ s.slc.role = .follower) := by decide
theorem test_follower_yields : (after (.testEnter (head 0) [0, 1, 0, 0, 0])
      { receiver .run .testing .executing .ping .enterPending true with
        lt := { port.lt with phase := .enterPending, owner := true, ownerTag := some (0, 3) } }).map
      (fun t => (t.rt.cq.map (·.answer.status), t.lt.owner, t.lt.generator, t.slc.state)) =
    some ([.busy], false, false, .drain) := by decide
theorem test_witness_limits :
    port.lt.drainDue = none ∧ port.lt.resultDue = none ∧ (∀ o ∈ [true, false],
      let s := { port with lt := { port.lt with drainDue := some 9, resultDue := some 9, owner := o } }
      s.lt.drainDue = some 9 ∧ s.lt.resultDue = some 9 ∧ s.lt.owner = o) := by decide

/-- An owner that has sent TEST_GO and takes its acknowledgement. -/
def awaitingGo : State :=
  { linked .follower .drain with
    fe := { port.fe with txSeq := 1, window := [waitingFrame .testGo 0] }
    lt := { port.lt with phase := .draining, owner := true, generator := true, duration := 5 } }

theorem test_witness_go :
    frameGood .idle ⟨false, false, false, 0, 0, 0⟩ [] = true ∧ (∃ f ∈ awaitingGo.fe.window, f.kind = .testGo) ∧
    (∀ f ∈ (takeHeader ⟨false, false, false, 0, 0, 0⟩ { awaitingGo with
        slc.silence := some 2000, fe.replyDue := some 2 }).fe.window, f.kind ≠ .testGo) ∧
    (∀ i : Slot, awaitingGo.iq.slots[i] = none) ∧ (∃ i : Slot, (withSlot .ping .executing awaitingGo).iq.slots[i] ≠ none) := by
  decide
theorem test_go_enters_the_test : (after (.idle ⟨false, false, false, 0, 0, 0⟩ []) awaitingGo).map
    (fun t => (t.slc.state, t.lt.phase, t.lt.durationDue, t.lt.patternDue)) =
    some (.test, .running, some 5000, some 20) := by decide

/-- A generator in a running test. -/
def generator : State :=
  { linked .leader .test with
    lt := { port.lt with phase := .running, generator := true, durationDue := some 5000, patternDue := some 20 } }

theorem test_witness_running :
    (generator.slc.state = .test ∧ generator.lt.phase = .running ∧ generator.lt.generator = true) ∧
    (checker.slc.state = .test ∧ checker.lt.phase = .running ∧ checker.lt.generator = false) ∧
    (∀ done ∈ [true, false], ∀ d ∈ ([none, some 1000, some 1001] : List (Option Moment)),
      let s := { checker with lt := { checker.lt with durationDone := done, durationDue := d } }
      s.lt.durationDone = done ∧ s.lt.durationDue = d ∧ s.lt.lostDue = some 1000) ∧ port.slc.state ≠ .test := by decide
theorem test_pattern_lost :
    (after .patternLost checker).map (fun t => (t.slc.state, t.lt.endReason)) = some (.retrain, .duration) ∧
    (after .patternLost { checker with lt := { checker.lt with durationDue := some 1001 } }).map (·.lt.endReason) =
      some .patternLost := by decide
theorem test_test_stop :
    (after (.testStop 0) generator).map (fun t => (t.lt.stopResult, t.slc.state, t.slc.trainDue)) =
      some (.stopped, .retrain, some 2000) ∧
    (after (.testStop 0) checker).map (·.lt.stopResult) = some .notGenerator ∧
    (after (.testStop 0) port).map (·.lt.stopResult) = some .noTest := by decide
theorem test_witness_symbols : ∀ n ∈ [0, 1, 2], ∀ p ∈ ([.prbs, .alternating] : List TestPattern),
    let s := { checker with lt := { checker.lt with seeded := n, pattern := p } }
    s.lt.seeded = n ∧ s.lt.pattern = p ∧ s.lt.bits = 0 ∧ s.lt.errors = 0 ∧ s.lt.firstError = false ∧ s.lt.lastError = none := by
  decide
theorem test_first_prbs_symbols : (List.range 4).map (patternByte .prbs) = [0, 0x40, 0, 0x30] := by decide
theorem test_witness_settling : ∀ o ∈ [true, false], ∀ g ∈ [true, false],
    ∀ ph ∈ ([.returning, .awaitResult, .idle] : List TestPhase), ∀ t ∈ ([none, some (0, 3), some (0, 4)] : List (Option (Tag × Gen))),
    let s := { withTag .testing none port with lt := { port.lt with phase := ph, owner := o, generator := g, ownerTag := t } }
    s.lt.phase = ph ∧ s.lt.owner = o ∧ s.lt.generator = g ∧ s.lt.ownerTag = t ∧
      s.rt.tags[(0 : Tag)].state = .testing ∧ s.rt.tags[(0 : Tag)].gen = 3 := by decide +kernel
theorem test_witness_last_retrain :
    let s := { linked .leader .retrain with
      slc := { (linked .leader .retrain).slc with good := 3 }, fe := { port.fe with awaitReply := some 20 } }
    s.inReset = false ∧ s.fe.sending = none ∧ s.slc.state = .retrain ∧ s.slc.good = 3 ∧ s.fe.awaitReply.isSome = true ∧
      EndReason.code .duration = 1 := by decide
theorem test_witness_retrain : ∀ r ∈ ([.leader, .follower] : List Role), ∀ m ∈ [true, false], ∀ n ∈ [0, 2],
    let s := { linked r .retrain with slc := { (linked r .retrain).slc with good := n }, fe := { port.fe with awaitReply := some 20 } }
    let h : FrameHeader := ⟨m, true, false, 0, 0, 8⟩
    s.inReset = false ∧ s.fe.sending = none ∧ h.ret.toNat ≤ 8 ∧ s.slc.state = .retrain ∧ s.slc.role = r ∧ s.slc.good = n ∧
      h.retrain = m ∧ frameGood .idle h [] = true ∧ s.fe.awaitReply.isSome = true ∧
      { s with fe.awaitReply := none }.fe.awaitReply = none := by decide
theorem test_follower_retrains :
    (after (.train ⟨true, false, false, 0, 0, 0⟩ [0]) (linked .follower .retrain)).map
      (fun t => (t.slc.state, t.slc.good, t.fe.sending.map (·.kind))) = some (.retrain, 1, some .trainAck) ∧
    (after (.train (head 0) [0]) (linked .follower .retrain)).map (fun t => t.slc.detail) = some .retrainFail ∧
    (after (.idle (head 0) []) (linked .follower .retrain)).map (fun t => (t.slc.state, t.fe.credits)) = some (.run, 8) := by
  decide
theorem test_test_result : (after (.testResult (head 0) [0, 0, 0, 0, 9, 0, 1, 1, 1])
      { receiver .run .testing .executing .ping .awaitResult true with
        lt := { port.lt with phase := .awaitResult, owner := true, generator := true, ownerTag := some (0, 3) } }).map
      (fun t => (t.rt.cq.map (·.answer), t.lt.phase, t.eu.eventQueue)) =
    some ([⟨.ok, 0, 1, [0, 0, 0, 0, 9, 0, 1, 1, 1]⟩], .idle, [⟨.testDone, .localHost, 1, 1, 1⟩]) := by decide +kernel

/-! Chapters 10 and 11. -/

theorem test_witness_port_offsets :
    (∀ o ∈ ([0x04, 0x08, 0x10, 0x1E, 0x11, 0x1F, 0x40, 0x67, 0x03, 0x0C, 0x0F, 0x21, 0x23, 0x27, 0x3F, 0x68, 0xFF] : List Byte),
      { port with hp := { port.hp with pointer := o } }.hp.pointer = o) ∧
    (0x11 + 2 * (7 : Fin 8).val = 0x1F ∧ 0x10 + 2 * (7 : Fin 8).val = 0x1E ∧ 0x40 + (39 : Fin 40).val = 0x67) ∧
    (∀ w ∈ [true, false],
      { port with hp := { port.hp with filterHold := vput port.hp.filterHold 7 ⟨0xD0#8, w⟩ } }.hp.filterHold[(7 : Fin 8)].written = w) ∧
    port.hp.addr = 0x2C#7 ∧ (0x2D#7) ≠ port.hp.addr ∧ 2 ≤ (2#8).toNat := by decide
theorem test_witness_port_deaf : ¬ portReady State.reset := by unfold portReady; decide
theorem test_staging_write : ∀ d ∈ ([some .writing, some .reading, none] : List (Option PortDirection)),
    (after (.registerWrite (.data 0xAB)) { port with hp := { port.hp with pointer := 0x67, taking := d } }).map
      (fun t => (t.hp.staging[(39 : Fin 40)], t.hp.pointer)) =
    some (if d = some .writing then (0xAB, 0x68) else (0, 0x67)) := by decide
theorem test_refused_transaction_is_refused_whole :
    ((after (.registerWrite (.pointer 0x2C#7 0x40)) State.reset).bind (after .hostPortStartUp)).map
      (fun t => (after (.registerWrite (.data 0xAB)) t).map (fun u => u.hp.staging[(0 : Fin 40)])) = some (some 0) ∧
    ((after (.registerWrite (.pointer 0x2D#7 0x40)) port).bind (after (.registerWrite (.data 0xAB)))).map
      (fun u => u.hp.staging[(0 : Fin 40)]) = some 0 ∧
    ((after (.registerWrite (.pointer 0x2C#7 0x40)) port).bind (after (.registerWrite (.data 0xAB)))).map
      (fun u => u.hp.staging[(0 : Fin 40)]) = some 0xAB := by decide
theorem test_filter_write : (after (.filter 7 3) { port with hp := { port.hp with
      filterHold := vput port.hp.filterHold 7 ⟨0xD0#8, true⟩ } }).map (fun t => t.da.filter[(7 : Fin 8)]) =
    some ⟨true, 0x50, true, true⟩ := by decide
theorem test_witness_reads :
    (∀ o ∈ ([0x80, 0xA7] : List Byte), 0x80 ≤ o.toNat ∧ o.toNat ≤ 0xA7) ∧
    (∀ o ∈ ([0xB0, 0xB5] : List Byte), 0xB0 ≤ o.toNat ∧ o.toNat ≤ 0xB5) ∧
    (∀ o ∈ ([0x0F, 0x27, 0x3F, 0x68, 0x7F, 0xA8, 0xAF, 0xB6, 0xFF] : List Byte),
      o.toNat = 0x0F ∨ (0x27 ≤ o.toNat ∧ o.toNat ≤ 0x3F) ∨ (0x68 ≤ o.toNat ∧ o.toNat ≤ 0x7F) ∨
        (0xA8 ≤ o.toNat ∧ o.toNat ≤ 0xAF) ∨ 0xB6 ≤ o.toNat) ∧
    (∀ c ∈ ([none, some 258] : List (Option Nat)), { port with hp := { port.hp with crcCopy := c } }.hp.crcCopy = c) := by decide
theorem test_reads :
    (after (.completionHeadRead (some 0x2C#7) (some 0x82)) (queued port)).map (·.hp.sent) = some 1 ∧
    (after (.eventHeadRead (some 0x2C#7) (some 0xB4)) (queued port)).map (·.hp.sent) = some 2 ∧
    (after (.crcErrorsRead (some 0x2C#7) (some 0x0A)) { port with fe := { port.fe with crcErrors := 258 } }).map
      (fun t => (t.hp.sent, t.hp.crcCopy, t.hp.pointer)) = some (1, some 258, 0x0B) ∧
    (after (.completionHeadRead (some 0x2C#7) none) port).map (·.hp.sent) = some 0x3A := by decide
theorem test_further_byte :
    ((after (.crcErrorsRead (some 0x2C#7) (some 0x0A)) { port with fe := { port.fe with crcErrors := 258 } }).bind
      (after (.crcErrorsRead none none))).map (fun t => (t.hp.sent, t.hp.pointer)) = some (2, 0x0C) ∧
    ((after (.crcErrorsRead (some 0x2D#7) (some 0x0A)) port).bind (after (.crcErrorsRead none none))).map
      (fun t => (t.hp.sent, t.hp.pointer, t.hp.taking)) = some (0, 0, none) := by decide
theorem test_witness_transactions :
    (∀ d ∈ ([none, some .writing, some .reading] : List (Option PortDirection)),
      { port with hp := { port.hp with taking := d } }.hp.taking = d) ∧
    (0x2D#7 ≠ port.hp.addr) ∧
    (setPointer 0x0A#8 (beginRead port) = setPointer (setPointer 0x0A#8 (beginRead port)).hp.pointer (beginRead port)) := by
  decide
theorem test_reset_boundaries : (99 < 100 ∧ (100 ≤ 100 ∧ 100 < 1000) ∧ (100 ≤ 999 ∧ 999 < 1000) ∧ 1000 ≤ 1000) ∧
    (after (.rstnLow (.rstn 99)) port).map (·.inReset) = some false ∧
    (after (.rstnLow (.rstn 1000)) port).map (·.inReset) = some true ∧
    (after (.rstnLow .supply) port).map (·.inReset) = some true := by decide
theorem test_release : (after (.rstnRelease ⟨true, true, false, true⟩ 1#12) { port with inReset := true, now := 7 }).map
    (fun t => (t.hp.addr, t.slc.state, t.fe.sending.map (·.kind), t.hp.startUp, t.lb.lines[(0 : LineNo)].level)) =
    some (0x2E#7, .listen, some .train, some 2007, true) := by decide
theorem test_witness_span_pins :
    (∃ b, (wireBytes ⟨.idle, head 0, []⟩)[10]? = some b) ∧ (sending .idle port).now + (11 + 0) = (sending .idle port).fe.sendEnd + 0 ∧
    generator.fe.sending = none ∧ { generator with lt := { generator.lt with genStart := some 0 } }.lt.genStart = some 0 ∧
    port.fe.sending = none ∧ port.lt.genStart = none ∧ port.inReset = false := by decide +kernel
theorem test_pins_in_reset : (after (.rstnLow .supply) (working .write .active (sending .idle (linked .leader .run)))).map
    (fun t => (busReleased t, spanDe t, spanTx 0 t, acknowledges t 0x2C#7)) = some (true, false, true, false) := by decide
theorem test_witness_start_up : port.hp.startUp = none ∧ State.reset.hp.startUp = some 2000 := by decide

/-! What every step keeps: a state that is not the reset state meets each invariant. -/

theorem test_witness_bus : BusInv waiting := by
  refine ⟨by decide, by decide, ?_, ?_, by decide, by decide, by decide, ?_, ?_⟩
  · intro h; cases h
  · intro _ w h; cases h; exact .inr rfl
  · intro t h; exact absurd h (by revert t; decide)
  · intro i e h; rw [test_no_entry i] at h; cases h
theorem test_witness_selected : SelectedInv waiting := by unfold SelectedInv; simp [waiting, working, withTag, setTag]
theorem test_witness_events : EventInv (queued port) := by unfold EventInv queueForm; decide
theorem test_witness_link_phases : LinkInv (linked .leader .run) := by
  refine ⟨?_, by simp [phaseFits, linked, port, State.reset, State.cleared, LinkTester.reset], ?_, by decide, by decide, by decide⟩
  · unfold timersFit; decide
  · unfold testTimersFit; decide
theorem test_witness_quiet : QuietInv waiting := by
  intro _
  refine ⟨by decide, by decide, ?_, by decide, by decide, ?_, by decide, by decide⟩
  · intro i e h; rw [test_no_entry i] at h; cases h
  · intro l h; cases h
theorem test_witness_windows : WindowInv { windowed 4 (linked .leader .run) with slc := (linked .leader .run).slc } := by
  refine ⟨by decide, by decide, by decide, by decide, by decide, by decide, by decide, ?_, by decide, by decide, by decide⟩
  intro h e; cases e

end Sys2Proof.Tests
end

/-! Requests, tags and completions (chapter 1): what a SUBMIT refuses, what a far request does at the SUBMIT write, and the
CANCEL table. -/

namespace Sys2Proof.Proofs.Requests
open Sys2Proof Sys2Proof.Machine

/-! The rows of SUBMIT and CANCEL as writes at the host port (R176, R181). -/

theorem onPort_of_portReady (f : State → State) {s : State} (h : portReady s) : onPort f s = f s := by
  obtain ⟨hreset, hup⟩ := h
  simp [onPort, hreset, hup]

theorem exec_submitCommand (k : ReqKind) (b : Byte) {s : State} (h : portReady s) :
    exec (submitCommand k b) s = .next (setPointer 0x21#8 (submit (beginWrite s))) := by
  have row : exec (submitCommand k b) s = submitRow b s := by cases k <;> rfl
  rw [row, submitRow, onPort_of_portReady _ h]
  rfl

theorem exec_cancel (b : Byte) {s : State} (h : portReady s) :
    exec (.cancel b) s = .next (setPointer 0x23#8 (cancel b (beginWrite s))) := by
  have row : exec (.cancel b) s = .next (onPort (portWrite 0x22#8 b) s) := rfl
  rw [row, onPort_of_portReady _ h]
  rfl

/-! The outcomes of a SUBMIT (R2 to R6). -/

theorem freeTag_eq_none_iff (s : State) : freeTag s = none ↔ ∀ t : Tag, s.rt.tags[t].state ≠ .free := by
  simp [freeTag, firstTag, List.find?_eq_none]

theorem submit_of_no_request {s : State} (h : stagedRequest s.hp.staging = none) :
    submit s = { s with hp.submitResult := .badRequest } := by
  simp [submit, h]

theorem submit_of_noFreeTag {s : State} {r : Request} (hr : stagedRequest s.hp.staging = some r)
    (hfull : freeTag s = none) : submit s = { s with hp.submitResult := .full } := by
  simp [submit, hr, hfull]

theorem submit_far {s : State} {r : Request} {t : Tag} (hr : stagedRequest s.hp.staging = some r)
    (ht : freeTag s = some t) (hside : r.side = .far) : submit s = submitFar t r s := by
  simp [submit, hr, ht, hside]

theorem submit_near {s : State} {r : Request} {t : Tag} (hr : stagedRequest s.hp.staging = some r)
    (ht : freeTag s = some t) (hside : r.side ≠ .far) : submit s = submitNear t r s := by
  simp [submit, hr, ht, hside]

@[simp] theorem acceptTag_submitResult (t : Tag) (r : Request) (st : TagState) (s : State) :
    (acceptTag t r st s).hp.submitResult = .tag t := rfl

theorem submitFar_submitResult (t : Tag) (r : Request) (s : State) :
    (submitFar t r s).hp.submitResult = .tag t := by
  unfold submitFar
  split <;> simp

theorem dropLease_hp (o : Origin) (answer : Status → State → State) (h : ∀ st s, (answer st s).hp = s.hp) (s : State) :
    (dropLease o answer s).hp = s.hp := by
  unfold dropLease
  dsimp only
  split <;> simp [h]

theorem submitNear_submitResult (t : Tag) (r : Request) (s : State) :
    (submitNear t r s).hp.submitResult = .tag t := by
  unfold submitNear
  split <;> simp [dropLease_hp]

theorem submit_submitResult_ne_badRequest {s : State} {r : Request} (hr : stagedRequest s.hp.staging = some r) :
    (submit s).hp.submitResult ≠ .badRequest := by
  cases ht : freeTag s with
  | none => simp [submit_of_noFreeTag hr ht]
  | some t =>
    by_cases hside : r.side = .far
    · simp [submit_far hr ht hside, submitFar_submitResult]
    · simp [submit_near hr ht hside, submitNear_submitResult]

/-! The bytes each encoding admits (R182). -/

theorem kindOfByte_eq_none_iff (b : Byte) : ReqKind.ofByte b = none ↔ ¬ (1 ≤ b.toNat ∧ b.toNat ≤ 12) := by
  simp [ReqKind.ofByte, ReqKind.all, ReqKind.code, BitVec.toNat_eq]
  omega

theorem code_of_kindOfByte {b : Byte} {k : ReqKind} (h : ReqKind.ofByte b = some k) : b = k.code := by
  have hcode := List.find?_some h
  exact (beq_iff_eq.mp hcode).symm

theorem sideOfByte_eq_none_iff (b : Byte) : Side.ofByte b = none ↔ 2 ≤ b.toNat := by
  have hzero : b = 0 ↔ b.toNat = 0 := BitVec.toNat_eq
  have hone : b = 1 ↔ b.toNat = 1 := BitVec.toNat_eq
  simp only [Side.ofByte, hzero, hone]
  split_ifs <;> simp <;> omega

theorem toNat_of_sideOfByte {b : Byte} {side : Side} (h : Side.ofByte b = some side) :
    b.toNat = match side with | .near => 0 | .far => 1 := by
  unfold Side.ofByte at h
  split at h
  · cases h; simp_all
  · split at h
    · cases h; simp_all
    · cases h

theorem lineOfByte_isSome (b : Byte) : (lineOfByte b).isSome = true ↔ b.toNat < 12 := by
  unfold lineOfByte; split <;> simp_all

theorem lineModeOfByte_isSome (b : Byte) : (LineMode.ofByte b).isSome = true ↔ b.toNat < 6 := by
  unfold LineMode.ofByte; split <;> simp_all; omega

theorem fallbackOfByte_isSome (b : Byte) : (Fallback.ofByte b).isSome = true ↔ b.toNat < 4 := by
  unfold Fallback.ofByte; split <;> simp_all; omega

theorem debounceOfByte_isSome (b : Byte) :
    (debounceOfByte b).isSome = true ↔ b.toNat = 0 ∨ b.toNat = 1 ∨ b.toNat = 4 ∨ b.toNat = 16 := by
  unfold debounceOfByte; split <;> simp_all

theorem reportOfByte_isSome (b : Byte) : (Report.ofByte b).isSome = true ↔ b.toNat < 4 := by
  unfold Report.ofByte; split <;> simp_all; omega

theorem flagStyleOfByte_isSome (b : Byte) : (FlagStyle.ofByte b).isSome = true ↔ b.toNat < 2 := by
  unfold FlagStyle.ofByte; split <;> simp_all; omega

theorem patternOfByte_isSome (b : Byte) : (TestPattern.ofByte b).isSome = true ↔ b.toNat < 2 := by
  unfold TestPattern.ofByte; split <;> simp_all; omega

theorem lineMask_eq_zero_iff (hi lo : Byte) : lineMask hi lo = 0 ↔ hi.toNat % 16 = 0 ∧ lo.toNat = 0 := by
  have value : (lineMask hi lo).toNat = hi.toNat % 16 * 256 + lo.toNat := by
    unfold lineMask
    rw [BitVec.toNat_append, ← Nat.shiftLeft_add_eq_or_of_lt lo.isLt]
    simp [Nat.shiftLeft_eq]
  rw [BitVec.toNat_eq, value]
  simp

theorem settings_isSome (r : Request) : r.settings.isSome = true ↔
    (r.bodyByte 0).toNat < 12 ∧ (r.bodyByte 1).toNat < 6 ∧ (r.bodyByte 2).toNat < 4 ∧
    ((r.bodyByte 3).toNat = 0 ∨ (r.bodyByte 3).toNat = 1 ∨ (r.bodyByte 3).toNat = 4 ∨ (r.bodyByte 3).toNat = 16) ∧
    (r.bodyByte 4).toNat < 4 ∧ (r.bodyByte 5).toNat < 12 ∧ (r.bodyByte 6).toNat < 2 := by
  rw [← lineOfByte_isSome, ← lineModeOfByte_isSome, ← fallbackOfByte_isSome, ← debounceOfByte_isSome,
    ← reportOfByte_isSome, ← lineOfByte_isSome, ← flagStyleOfByte_isSome]
  constructor
  · intro h
    unfold Request.settings at h
    split at h
    · simp [*]
    · cases h
  · simp only [Option.isSome_iff_exists]
    rintro ⟨⟨line, h0⟩, ⟨mode, h1⟩, ⟨fallback, h2⟩, ⟨debounce, h3⟩, ⟨report, h4⟩, ⟨partner, h5⟩, ⟨style, h6⟩⟩
    exact ⟨_, by simp only [Request.settings, h0, h1, h2, h3, h4, h5, h6]; rfl⟩

theorem sideOfByte_isSome (b : Byte) : (Side.ofByte b).isSome = true ↔ b.toNat < 2 := by
  rw [Option.isSome_iff_ne_none, ne_eq, sideOfByte_eq_none_iff, not_le]

theorem testParams_isSome (p : List Byte) : (testParams p).isSome = true ↔
    (1 ≤ nat16 (p.getD 0 0) (p.getD 1 0) ∧ nat16 (p.getD 0 0) (p.getD 1 0) ≤ 60000) ∧
    (p.getD 2 0).toNat < 2 ∧ (p.getD 3 0).toNat < 2 ∧ (p.getD 4 0).toNat < 2 := by
  rw [← patternOfByte_isSome, ← sideOfByte_isSome, ← flagStyleOfByte_isSome]
  constructor
  · intro h
    unfold testParams at h
    split at h
    · dsimp only at h
      split at h
      · simp only [*, Option.isSome_some, and_self]
      · cases h
    · cases h
  · simp only [Option.isSome_iff_exists]
    rintro ⟨hd, ⟨pattern, h2⟩, ⟨side, h3⟩, ⟨style, h4⟩⟩
    exact ⟨_, by simp only [testParams, h2, h3, h4, if_pos hd]; rfl⟩

/-! The staged record against R2 and R3. -/

/-- R2, R3: the staged fields that a record of kind `k` reads hold a value it may not have. -/
def fieldsMalformed (v : Vector Byte 40) (k : ReqKind) : Prop :=
  let b : Nat → Nat := fun n => (stagedByte v n).toNat
  match k with
  | .write | .read => 128 ≤ b 2 ∨ 3 ≤ b 3 ∨ b 6 = 0 ∨ 33 ≤ b 6
  | .lineSet | .lineClaim | .lineRelease => b 8 % 16 = 0 ∧ b 9 = 0
  | .lineConfig =>
    12 ≤ b 8 ∨ 6 ≤ b 9 ∨ 4 ≤ b 10 ∨ (b 11 ≠ 0 ∧ b 11 ≠ 1 ∧ b 11 ≠ 4 ∧ b 11 ≠ 16) ∨ 4 ≤ b 12 ∨ 12 ≤ b 13 ∨ 2 ≤ b 14
  | .leaseTake => b 8 * 256 + b 9 = 0 ∨ 1001 ≤ b 8 * 256 + b 9
  | .testStart => b 8 * 256 + b 9 = 0 ∨ 60001 ≤ b 8 * 256 + b 9 ∨ 2 ≤ b 10 ∨ 2 ≤ b 11 ∨ 2 ≤ b 12
  | .lineSample | .leaseDrop | .busRecover | .ping => False

theorem malformed_of_no_kind {v : Vector Byte 40} (h : ReqKind.ofByte (stagedByte v 0) = none) : malformed v :=
  .inl ((kindOfByte_eq_none_iff _).mp h)

theorem malformed_of_no_side {v : Vector Byte 40} (h : Side.ofByte (stagedByte v 1) = none) : malformed v :=
  .inr (.inl ((sideOfByte_eq_none_iff _).mp h))

/-- The clauses of `malformed` that are left when the kind and side bytes name the kind `k` and a side. -/
theorem malformed_iff_of_kind_side {v : Vector Byte 40} {k : ReqKind} {side : Side}
    (hk : ReqKind.ofByte (stagedByte v 0) = some k) (hs : Side.ofByte (stagedByte v 1) = some side) :
    malformed v ↔ (k = .testStart ∧ side = .far) ∨ fieldsMalformed v k := by
  have hcode := code_of_kindOfByte hk
  have hside := toNat_of_sideOfByte hs
  cases k <;> cases side <;> simp_all [malformed, fieldsMalformed, ReqKind.code]

theorem body_stagedRecord (v : Vector Byte 40) (k : ReqKind) (side : Side) {n : Nat}
    (h : n < k.stagedBody (stagedByte v 6)) :
    (stagedRecord v k side).body.getD n 0 = stagedByte v (8 + n) := by
  simp only [stagedRecord, stagedByte, List.getD_eq_getElem?_getD] at h ⊢
  rw [List.getElem?_take_of_lt h, List.getElem?_drop]

theorem bodyByte_stagedRecord (v : Vector Byte 40) (k : ReqKind) (side : Side) {n : Nat}
    (h : n < k.stagedBody (stagedByte v 6)) : (stagedRecord v k side).bodyByte n = stagedByte v (8 + n) :=
  body_stagedRecord v k side h

theorem mask_stagedRecord_eq_zero_iff (v : Vector Byte 40) (k : ReqKind) (side : Side)
    (h : 2 ≤ k.stagedBody (stagedByte v 6)) : (stagedRecord v k side).mask = 0 ↔
    (stagedByte v 8).toNat % 16 = 0 ∧ (stagedByte v 9).toNat = 0 := by
  rw [Request.mask, bodyByte_stagedRecord v k side (by omega), bodyByte_stagedRecord v k side (by omega),
    lineMask_eq_zero_iff]

theorem settings_stagedRecord_isSome (v : Vector Byte 40) (side : Side) :
    (stagedRecord v .lineConfig side).settings.isSome = true ↔ ¬ fieldsMalformed v .lineConfig := by
  have body {n : Nat} (h : n < 7) : (stagedRecord v .lineConfig side).bodyByte n = stagedByte v (8 + n) :=
    bodyByte_stagedRecord v .lineConfig side h
  simp only [settings_isSome, body, Nat.reduceLT, Nat.reduceAdd, fieldsMalformed]
  omega

theorem testParams_stagedRecord_isSome (v : Vector Byte 40) (side : Side) :
    (testParams (stagedRecord v .testStart side).body).isSome = true ↔ ¬ fieldsMalformed v .testStart := by
  have body {n : Nat} (h : n < 5) : (stagedRecord v .testStart side).body.getD n 0 = stagedByte v (8 + n) :=
    body_stagedRecord v .testStart side h
  simp only [testParams_isSome, body, Nat.reduceLT, Nat.reduceAdd, fieldsMalformed, nat16]
  omega

theorem leaseMs_stagedRecord (v : Vector Byte 40) (side : Side) : (stagedRecord v .leaseTake side).leaseMs =
    (stagedByte v 8).toNat * 256 + (stagedByte v 9).toNat := by
  rw [Request.leaseMs, nat16, bodyByte_stagedRecord v .leaseTake side (n := 0) (by simp [ReqKind.stagedBody]),
    bodyByte_stagedRecord v .leaseTake side (n := 1) (by simp [ReqKind.stagedBody])]

theorem transfer_valid_iff (r : Request) (h : r.kind = .write ∨ r.kind = .read) : r.valid = true ↔
    r.target.toNat ≤ 127 ∧ r.offCount.toNat ≤ 2 ∧ 1 ≤ r.length.toNat ∧ r.length.toNat ≤ 32 := by
  rcases h with h | h <;> simp [Request.valid, h, and_assoc]

theorem mask_valid_iff (r : Request) (h : r.kind = .lineSet ∨ r.kind = .lineClaim ∨ r.kind = .lineRelease) :
    r.valid = true ↔ r.mask ≠ 0 := by
  rcases h with h | h | h <;> simp [Request.valid, h]

theorem valid_stagedRecord_iff (v : Vector Byte 40) (k : ReqKind) (side : Side) :
    (stagedRecord v k side).valid = true ↔ ¬ fieldsMalformed v k := by
  have mask {k : ReqKind} (hk : k = .lineSet ∨ k = .lineClaim ∨ k = .lineRelease) :
      (stagedRecord v k side).valid = true ↔ ¬ fieldsMalformed v k := by
    rw [mask_valid_iff _ hk, ne_eq, mask_stagedRecord_eq_zero_iff]
    all_goals rcases hk with rfl | rfl | rfl <;> simp [fieldsMalformed, ReqKind.stagedBody]
  have transfer {k : ReqKind} (hk : k = .write ∨ k = .read) :
      (stagedRecord v k side).valid = true ↔ ¬ fieldsMalformed v k := by
    rw [transfer_valid_iff _ hk]
    rcases hk with rfl | rfl <;> simp only [stagedRecord, fieldsMalformed] <;> omega
  cases k with
  | write => exact transfer (by decide)
  | read => exact transfer (by decide)
  | lineSet => exact mask (by decide)
  | lineClaim => exact mask (by decide)
  | lineRelease => exact mask (by decide)
  | lineConfig => exact settings_stagedRecord_isSome v side
  | testStart => exact testParams_stagedRecord_isSome v side
  | leaseTake =>
    have valid : (stagedRecord v .leaseTake side).valid = (decide (1 ≤ (stagedRecord v .leaseTake side).leaseMs) &&
      decide ((stagedRecord v .leaseTake side).leaseMs ≤ 1000)) := rfl
    simp only [valid, leaseMs_stagedRecord, fieldsMalformed, Bool.and_eq_true, decide_eq_true_eq]
    omega
  | lineSample => exact iff_of_true rfl not_false
  | leaseDrop => exact iff_of_true rfl not_false
  | busRecover => exact iff_of_true rfl not_false
  | ping => exact iff_of_true rfl not_false

theorem stagedRequest_eq_none_iff (v : Vector Byte 40) : stagedRequest v = none ↔ malformed v := by
  unfold stagedRequest
  split
  next k side hk hs =>
    rw [malformed_iff_of_kind_side hk hs]
    have := valid_stagedRecord_iff v k side
    split_ifs <;> simp_all
  next hnone =>
    refine iff_of_true rfl ?_
    cases hk : ReqKind.ofByte (stagedByte v 0) with
    | none => exact malformed_of_no_kind hk
    | some k =>
      cases hs : Side.ofByte (stagedByte v 1) with
      | none => exact malformed_of_no_side hs
      | some side => exact absurd hs (hnone k side hk)

theorem exists_stagedRequest_of_not_malformed {v : Vector Byte 40} (h : ¬ malformed v) :
    ∃ r, stagedRequest v = some r :=
  Option.ne_none_iff_exists'.mp (mt (stagedRequest_eq_none_iff v).mp h)

/-- Settles O2: the staging checks and `malformed` agree kind by kind, and no outcome of an accepted request is BAD_REQUEST. -/
theorem submitIsRefusedWhenMalformedOrFull : Obligations.SubmitIsRefusedWhenMalformedOrFull := by
  refine ⟨fun k b s hport => ⟨fun hbad => ?_, fun hsound => ?_⟩, fun k b s hport hsound hfull => ?_⟩
  · have hnone : stagedRequest (beginWrite s).hp.staging = none := (stagedRequest_eq_none_iff _).mpr hbad
    rw [exec_submitCommand k b hport, submit_of_no_request hnone]
  · obtain ⟨r, hr⟩ := exists_stagedRequest_of_not_malformed hsound
    exact ⟨_, exec_submitCommand k b hport, submit_submitResult_ne_badRequest (s := beginWrite s) hr⟩
  · obtain ⟨r, hr⟩ := exists_stagedRequest_of_not_malformed hsound
    have hnoTag : freeTag (beginWrite s) = none := (freeTag_eq_none_iff _).mpr hfull
    rw [exec_submitCommand k b hport, submit_of_noFreeTag (s := beginWrite s) hr hnoTag]

/-! A far request at the SUBMIT write (R13, R14). -/

theorem submitFar_of_acceptsFar {s : State} (t : Tag) (r : Request) (h : s.slc.state.acceptsFar = true) :
    submitFar t r s = acceptTag t r .waitCredit s := by
  simp [submitFar, h]

theorem submitFar_of_not_acceptsFar {s : State} (t : Tag) (r : Request) (h : s.slc.state.acceptsFar = false) :
    submitFar t r s = completeTag t ⟨.linkDown, 0, 0, []⟩ (acceptTag t r .waitCredit s) := by
  simp [submitFar, h, bare]

theorem acceptsFar_eq_true_iff (l : LinkState) : l.acceptsFar = true ↔ l = .run ∨ l = .drain ∨ l = .test := by
  cases l <;> decide

theorem acceptsFar_eq_false_iff (l : LinkState) : l.acceptsFar = false ↔
    l = .disabled ∨ l = .listen ∨ l = .hello ∨ l = .retrain ∨ l = .holdoff := by
  cases l <;> decide

/-- Settles O4: `acceptsFar` splits the eight link states as R13 and R14 do. -/
theorem farSubmitWaitsOrCompletesLinkDown : Obligations.FarSubmitWaitsOrCompletesLinkDown := by
  intro k b s r t hport hr hside ht
  have hfar : submit (beginWrite s) = submitFar t r (beginWrite s) := submit_far (s := beginWrite s) hr ht hside
  rw [exec_submitCommand k b hport, hfar]
  refine ⟨fun hup => ?_, fun hdown => ?_⟩
  · rw [submitFar_of_acceptsFar (s := beginWrite s) t r ((acceptsFar_eq_true_iff _).mpr hup)]
  · rw [submitFar_of_not_acceptsFar (s := beginWrite s) t r ((acceptsFar_eq_false_iff _).mpr hdown)]

/-! The CANCEL table (R23, R24). -/

theorem cancel_of_no_tag {b : Byte} (s : State) (h : 8 ≤ b.toNat) :
    cancel b s = { s with hp.cancelResult := .noSuchTag } := by
  simp [cancel, tagOfByte, Nat.not_lt.mpr h, cancelResult]

theorem cancel_of_tag {b : Byte} {t : Tag} (s : State) (h : b.toNat = t.val) : cancel b s = cancelTag t s := by
  simp [cancel, tagOfByte, h]

theorem cancelTag_of_free {t : Tag} {s : State} (h : s.rt.tags[t].state = .free) :
    cancelTag t s = { s with hp.cancelResult := .noSuchTag } := by
  simp only [cancelTag, h, cancelResult]

theorem cancelTag_of_done {t : Tag} {s : State} (h : s.rt.tags[t].state = .done) :
    cancelTag t s = { s with hp.cancelResult := .alreadyDone } := by
  simp only [cancelTag, h, cancelResult]

theorem cancelTag_of_begun {t : Tag} {s : State}
    (h : s.rt.tags[t].state = .executing ∨ s.rt.tags[t].state = .testing) :
    cancelTag t s = { s with hp.cancelResult := .tooLate } := by
  rcases h with h | h <;> simp only [cancelTag, h, cancelResult]

theorem cancelTag_of_queued {t : Tag} {s : State} (h : s.rt.tags[t].state = .queued) :
    cancelTag t s = cancelResult .accepted
      (completeTag t (bare .cancelled) { s with da.localList := s.da.localList.filter (· ≠ t) }) := by
  simp only [cancelTag, h]

theorem cancelTag_of_waitCredit {t : Tag} {s : State} (h : s.rt.tags[t].state = .waitCredit) :
    cancelTag t s = cancelResult .accepted (completeTag t (bare .cancelled) s) := by
  simp only [cancelTag, h]

theorem cancelTag_of_inFlight {t : Tag} {s : State} (h : s.rt.tags[t].state = .inFlight) :
    cancelTag t s = { s with
      rt.tags := vput s.rt.tags t { s.rt.tags[t] with state := .cancelSent }
      fe.cancelList := s.fe.cancelList ++ [(t, s.rt.tags[t].gen)]
      hp.cancelResult := .accepted } := by
  simp only [cancelTag, h, cancelResult, setTag]

theorem cancelTag_of_cancelSent {t : Tag} {s : State} (h : s.rt.tags[t].state = .cancelSent) :
    cancelTag t s = { s with hp.cancelResult := .accepted } := by
  simp only [cancelTag, h, cancelResult]

/-- Settles O6: the bytes that name no tag, then the rows of the table by the state of the tag named. -/
theorem cancelActsByTheTagsState : Obligations.CancelActsByTheTagsState := by
  intro b s hport
  rw [exec_cancel b hport]
  refine ⟨fun hb => by rw [cancel_of_no_tag _ hb], fun t hb => ?_⟩
  rw [cancel_of_tag _ hb]
  refine ⟨fun hfree => ?_, fun hdone => ?_, fun hbegun => ?_, fun hqueued => ?_, fun hwait => ?_, fun hflight => ?_,
    fun hsent => ?_⟩
  · rw [cancelTag_of_free (s := beginWrite s) hfree]
  · rw [cancelTag_of_done (s := beginWrite s) hdone]
  · rw [cancelTag_of_begun (s := beginWrite s) hbegun]
  · rw [cancelTag_of_queued (s := beginWrite s) hqueued]
    rfl
  · rw [cancelTag_of_waitCredit (s := beginWrite s) hwait]
    rfl
  · rw [cancelTag_of_inFlight (s := beginWrite s) hflight]
    rfl
  · rw [cancelTag_of_cancelSent (s := beginWrite s) hsent]

end Sys2Proof.Proofs.Requests

/-! The arbiter's policy and leases (chapter 2): which remote requests each policy lets through, and what ends a lease. -/

namespace Sys2Proof.Proofs.PolicyAndLeases
open Sys2Proof Sys2Proof.Machine

/-! The policies (R41) and the filter table (R42). -/

theorem policyAllows_closed {a : Arbiter} (r : Request) (h : a.policy = .closed) : policyAllows a r = false := by
  simp [policyAllows, h]

theorem policyAllows_opened {a : Arbiter} (r : Request) (h : a.policy = .opened) : policyAllows a r = true := by
  simp [policyAllows, h]

theorem policyAllows_listed_lease {a : Arbiter} {r : Request} (h : a.policy = .listed)
    (hk : r.kind = .leaseTake ∨ r.kind = .leaseDrop) : policyAllows a r = true := by
  rcases hk with hk | hk <;> simp [policyAllows, h, hk]

theorem policyAllows_listed_busRecover {a : Arbiter} {r : Request} (h : a.policy = .listed) (hk : r.kind = .busRecover) :
    policyAllows a r = false := by
  simp [policyAllows, h, hk]

theorem policyAllows_listed_transfer {a : Arbiter} {r : Request} (h : a.policy = .listed)
    (hk : r.kind = .write ∨ r.kind = .read) : policyAllows a r = filterAllows a.filter r.kind r.target := by
  rcases hk with hk | hk <;> simp [policyAllows, h, hk]

/-- The right a filter entry must grant to a request of kind `k`: W to a WRITE, R to any other. -/
def grants (e : FilterEntry) (k : ReqKind) : Bool := if k = .write then e.canWrite else e.canRead

theorem grants_write (e : FilterEntry) : grants e .write = e.canWrite := rfl

theorem grants_read (e : FilterEntry) : grants e .read = e.canRead := rfl

theorem setWidth_eq_iff_toNat_eq (address : BitVec 7) (target : Byte) :
    address.setWidth 8 = target ↔ address.toNat = target.toNat := by
  rw [BitVec.toNat_eq, BitVec.toNat_setWidth_of_le (by decide)]

theorem filterAllows_iff (f : Vector FilterEntry 8) (k : ReqKind) (target : Byte) : filterAllows f k target = true ↔
    ∃ n : Fin 8, f[n].valid = true ∧ f[n].address.toNat = target.toNat ∧ grants f[n] k = true := by
  have entry (e : FilterEntry) :
      (e.valid && decide (e.address.setWidth 8 = target) && (if k = .write then e.canWrite else e.canRead)) = true ↔
        e.valid = true ∧ e.address.toNat = target.toNat ∧ grants e k = true := by
    rw [Bool.and_eq_true, Bool.and_eq_true, decide_eq_true_iff, setWidth_eq_iff_toNat_eq, and_assoc, grants]
  simp only [filterAllows, List.any_eq_true, entry, Vector.mem_toList_iff, Vector.mem_iff_getElem]
  constructor
  · rintro ⟨_, ⟨i, hi, rfl⟩, he⟩
    exact ⟨⟨i, hi⟩, he⟩
  · rintro ⟨n, he⟩
    exact ⟨_, ⟨n.val, n.isLt, rfl⟩, he⟩

/-- Settles O12: policy by policy, and under LISTED kind by kind; the search of the filter table is an entry that exists. -/
theorem policyDecidesRemoteRequests : Obligations.PolicyDecidesRemoteRequests := by
  refine fun a r => ⟨policyAllows_closed r, policyAllows_opened r, fun hlisted =>
    ⟨policyAllows_listed_lease hlisted, policyAllows_listed_busRecover hlisted, fun hk => ?_, fun hk => ?_⟩⟩
  · simp only [policyAllows_listed_transfer hlisted (.inl hk), filterAllows_iff, hk, grants_write]
  · simp only [policyAllows_listed_transfer hlisted (.inr hk), filterAllows_iff, hk, grants_read]

/-! A write to BUS_POLICY (R40, R45, R180). -/

theorem exec_busPolicy (b : Byte) {s : State} (h : portReady s) :
    exec (.busPolicy b) s = .next (setPointer 0x07#8 (writePolicy b (beginWrite s))) := by
  have row : exec (.busPolicy b) s = .next (onPort (portWrite 0x06#8 b) s) := rfl
  rw [row, Requests.onPort_of_portReady _ h]
  rfl

theorem policyOfByte_eq_none {b : Byte} (h : 3 ≤ b.toNat) : BusPolicy.ofByte b = none := by
  have ne (n : Byte) (hn : n.toNat < 3) : b ≠ n := by
    rintro rfl
    omega
  rw [BusPolicy.ofByte, if_neg (ne 0 (by decide)), if_neg (ne 1 (by decide)), if_neg (ne 2 (by decide))]

theorem writePolicy_of_no_policy {b : Byte} (s : State) (h : BusPolicy.ofByte b = none) : writePolicy b s = s := by
  simp [writePolicy, h]

theorem writePolicy_of_policy {b : Byte} {p : BusPolicy} (s : State) (h : BusPolicy.ofByte b = some p) :
    writePolicy b s = setPolicy p s := by
  simp [writePolicy, h]

theorem setPolicy_of_ne_closed {p : BusPolicy} (s : State) (h : p ≠ .closed) :
    setPolicy p s = { s with da.policy := p } := by
  simp [setPolicy, h]

/-- R45: CLOSED over CLOSED, with no lease, or under a lease of LOCAL sets the policy and leaves the lease as it is. -/
theorem setPolicy_closed_keeps_lease {s : State}
    (h : s.da.policy = .closed ∨ s.da.lease = none ∨ ∃ due, s.da.lease = some ⟨.localHost, due⟩) :
    setPolicy .closed s = { s with da.policy := .closed } := by
  rcases h with hclosed | hnone | ⟨due, hlocal⟩
  · simp [setPolicy, hclosed]
  · simp [setPolicy, hnone]
  · simp [setPolicy, hlocal]

/-- R45: CLOSED over another policy revokes a lease of REMOTE. -/
theorem setPolicy_closed_revokes {s : State} {due : Moment} (hopen : s.da.policy ≠ .closed)
    (hremote : s.da.lease = some ⟨.remoteHost, due⟩) :
    setPolicy .closed s =
      select (raiseRemote .leaseExpired 0 0 { s with da.policy := .closed, da.lease := none }) := by
  simp [setPolicy, hopen, hremote]

/-! The expiry of a lease (R35). -/

theorem exec_leaseExpiry {s : State} (h : s.inReset = false) : exec .leaseExpiry s = .next (leaseExpiry s) := by
  have row : exec .leaseExpiry s = .next (onChip leaseExpiry s) := rfl
  rw [row, onChip, h]
  rfl

theorem leaseExpiry_of_no_lease {s : State} (h : s.da.lease = none) : leaseExpiry s = s := by
  simp [leaseExpiry, h]

theorem leaseExpiry_of_lease {s : State} {o : Origin} {due : Moment} (h : s.da.lease = some ⟨o, due⟩) :
    leaseExpiry s = select (raiseFor o .leaseExpired 0 0 { s.reach due with da.lease := none }) := by
  simp [leaseExpiry, h]

/-- Settles O13: the bytes written to BUS_POLICY by the policy they name, then the expiry by the lease's holder. -/
theorem leasesEndByPolicyAndExpiry : Obligations.LeasesEndByPolicyAndExpiry := by
  refine ⟨fun b s hport => ?_, fun s hout => ?_⟩
  · rw [exec_busPolicy b hport]
    refine ⟨fun hb => ?_, ?_, ?_, ?_⟩
    · rw [writePolicy_of_no_policy _ (policyOfByte_eq_none hb)]
    · rintro rfl
      rw [writePolicy_of_policy (p := .listed) _ rfl, setPolicy_of_ne_closed _ (by decide)]
    · rintro rfl
      rw [writePolicy_of_policy (p := .opened) _ rfl, setPolicy_of_ne_closed _ (by decide)]
    · rintro rfl
      rw [writePolicy_of_policy (p := .closed) _ rfl]
      refine ⟨fun hkeep => ?_, fun due hopen hremote => ?_⟩
      · rw [setPolicy_closed_keeps_lease (s := beginWrite s) hkeep]
      · rw [setPolicy_closed_revokes (s := beginWrite s) hopen hremote]
  · rw [exec_leaseExpiry hout]
    refine ⟨fun hnone => ?_, fun due hlocal => ?_, fun due hremote => ?_⟩
    · rw [leaseExpiry_of_no_lease hnone]
    · rw [leaseExpiry_of_lease hlocal, raiseFor]
    · rw [leaseExpiry_of_lease hremote, raiseFor]

end Sys2Proof.Proofs.PolicyAndLeases

/-! The lines (chapter 4): what LINE_CLAIM, LINE_RELEASE and LINE_SET do to the lines they name, and how the pin of a
line becomes its level. -/

namespace Sys2Proof.Proofs.Lines
open Sys2Proof Sys2Proof.Machine

/-! The lines a request names (R182). -/

theorem getLsbD_lineMask (hi lo : Byte) (l : LineNo) :
    (lineMask hi lo).getLsbD l.val = if l.val < 8 then lo.getLsbD l.val else hi.getLsbD (l.val - 8) := by
  have upper : l.val - 8 < 4 := by omega
  simp only [lineMask, BitVec.getLsbD_append, BitVec.getLsbD_extractLsb', upper, decide_true, Bool.true_and, zero_add]

theorem anyNamed_iff (m : LineMask) (p : LineNo → Bool) :
    anyNamed m p = true ↔ ∃ l : LineNo, m.getLsbD l.val = true ∧ p l = true := by
  simp [anyNamed]

theorem anyNamed_eq_false_iff (m : LineMask) (p : LineNo → Bool) :
    anyNamed m p = false ↔ ∀ l : LineNo, m.getLsbD l.val = true → p l = false := by
  simp [anyNamed]

/-- A request that rewrites the records one by one changes the lines alone, each by its own record. -/
theorem exists_lines_of_mapLines {x : Status × State} {f : LineNo → LineRecord → LineRecord} {s : State}
    (h : x = (.ok, mapLines f s)) :
    ∃ lines : Vector LineRecord 12, x = (.ok, { s with lb.lines := lines }) ∧
      ∀ l : LineNo, lines[l] = f l s.lb.lines[l] :=
  ⟨(mapLines f s).lb.lines, h, fun l => mapLines_get f s l⟩

/-! LINE_CLAIM (R76). -/

/-- A record after a LINE_CLAIM that is OK. -/
def claimedRecord (o : Origin) (m : LineMask) (l : LineNo) (r : LineRecord) : LineRecord :=
  if m.getLsbD l.val ∧ r.owner ≠ some o then
    { r with owner := some o, mode := if r.mode = .parked then .input else r.mode }
  else r

theorem lineClaim_of_owned {o : Origin} {m : LineMask} {s : State}
    (h : ∃ l : LineNo, m.getLsbD l.val = true ∧ s.lb.lines[l].owner = some o.other) :
    lineClaim o m s = (.owned, s) := by
  have named : anyNamed m (fun l => decide (s.lb.lines[l].owner = some o.other)) = true :=
    (anyNamed_iff m _).mpr (by simpa using h)
  rw [lineClaim, if_pos named]

theorem lineClaim_of_unlisted {o : Origin} {m : LineMask} {s : State}
    (hother : ∀ l : LineNo, m.getLsbD l.val = true → s.lb.lines[l].owner ≠ some o.other)
    (hremote : o = .remoteHost) (h : ∃ l : LineNo, m.getLsbD l.val = true ∧ s.lb.remoteLines.getLsbD l.val = false) :
    lineClaim o m s = (.notOwner, s) := by
  have unowned : anyNamed m (fun l => decide (s.lb.lines[l].owner = some o.other)) = false :=
    (anyNamed_eq_false_iff m _).mpr (by simpa using hother)
  have unlisted : anyNamed m (fun l => !s.lb.remoteLines.getLsbD l.val) = true :=
    (anyNamed_iff m _).mpr (by simpa using h)
  subst hremote
  rw [lineClaim, unowned, unlisted]
  rfl

theorem lineClaim_of_allowed {o : Origin} {m : LineMask} {s : State}
    (hother : ∀ l : LineNo, m.getLsbD l.val = true → s.lb.lines[l].owner ≠ some o.other)
    (h : o = .remoteHost → ∀ l : LineNo, m.getLsbD l.val = true → s.lb.remoteLines.getLsbD l.val = true) :
    lineClaim o m s = (.ok, mapLines (claimedRecord o m) s) := by
  have unowned : anyNamed m (fun l => decide (s.lb.lines[l].owner = some o.other)) = false :=
    (anyNamed_eq_false_iff m _).mpr (by simpa using hother)
  have listed : (decide (o = .remoteHost) && anyNamed m (fun l => !s.lb.remoteLines.getLsbD l.val)) = false := by
    cases o with
    | localHost => rfl
    | remoteHost => simpa [anyNamed_eq_false_iff] using h rfl
  rw [lineClaim, unowned, listed]
  rfl

theorem runLine_lineClaim (o : Origin) {r : Request} (s : State) (h : r.kind = .lineClaim) :
    runLine o r s = (bare (lineClaim o r.mask s).1, (lineClaim o r.mask s).2) := by
  rw [runLine, h]

/-- Settles O18: OWNED, NOT_OWNER and OK in the order R76 checks them, then the request's mask. -/
theorem claimIsAllOrNothing : Obligations.ClaimIsAllOrNothing := by
  refine ⟨fun o m s => ⟨lineClaim_of_owned, fun hother => ⟨?_, fun hlisted => ?_⟩⟩,
    fun o r s hkind => runLine_lineClaim o s hkind, fun r l => getLsbD_lineMask _ _ l⟩
  · rintro ⟨hremote, hunlisted⟩
    exact lineClaim_of_unlisted hother hremote hunlisted
  · exact exists_lines_of_mapLines (lineClaim_of_allowed hother hlisted)

/-! LINE_RELEASE (R73, R77). -/

/-- A record after a LINE_RELEASE of the lines of `m` by host `o`. -/
def recordAfterRelease (s : State) (o : Origin) (m : LineMask) (l : LineNo) (r : LineRecord) : LineRecord :=
  if m.getLsbD l.val ∧ r.owner = some o then releasedRecord (heldLevel s r) r else r

theorem lineRelease_eq (o : Origin) (m : LineMask) (s : State) :
    lineRelease o m s = (.ok, mapLines (recordAfterRelease s o m) s) := rfl

theorem recordAfterRelease_of_kept {s : State} {o : Origin} {m : LineMask} {l : LineNo} {r : LineRecord}
    (h : ¬ (m.getLsbD l.val = true ∧ r.owner = some o)) : recordAfterRelease s o m l r = r := if_neg h

theorem recordAfterRelease_of_released {s : State} {o : Origin} {m : LineMask} {l : LineNo} {r : LineRecord}
    (hm : m.getLsbD l.val = true) (ho : r.owner = some o) :
    recordAfterRelease s o m l r = releasedRecord (heldLevel s r) r := if_pos ⟨hm, ho⟩

theorem releasedRecord_release (held : Bool) {r : LineRecord} (h : r.fallback = .release) :
    releasedRecord held r = { r with owner := none, report := .nobody, mode := .input } := by
  rw [releasedRecord, h]

theorem releasedRecord_hold (held : Bool) {r : LineRecord} (h : r.fallback = .hold) :
    releasedRecord held r = { r with owner := none, report := .nobody, mode := .parked, out := held } := by
  rw [releasedRecord, h]

theorem releasedRecord_low (held : Bool) {r : LineRecord} (h : r.fallback = .low) :
    releasedRecord held r = { r with owner := none, report := .nobody, mode := .parked, out := false } := by
  rw [releasedRecord, h]

theorem releasedRecord_high (held : Bool) {r : LineRecord} (h : r.fallback = .high) :
    releasedRecord held r = { r with owner := none, report := .nobody, mode := .parked, out := true } := by
  rw [releasedRecord, h]

theorem heldLevel_of_driven {s : State} {r : LineRecord} {driven : Bool} (h : lineDrive s r = some driven) :
    heldLevel s r = driven := by
  rw [heldLevel, h, Option.getD_some]

theorem heldLevel_of_not_driven {s : State} {r : LineRecord} (h : lineDrive s r = none) : heldLevel s r = r.level := by
  rw [heldLevel, h, Option.getD_none]

theorem runLine_lineRelease (o : Origin) {r : Request} (s : State) (h : r.kind = .lineRelease) :
    runLine o r s = (bare .ok, (lineRelease o r.mask s).2) := by
  rw [runLine, h]
  rfl

/-- Settles O19: a line that is not the requester's keeps its record, the others go by their fallback. -/
theorem releaseFollowsTheFallback : Obligations.ReleaseFollowsTheFallback := by
  refine ⟨fun o m s => ?_, fun _ _ _ => rfl, fun o r s hkind => runLine_lineRelease o s hkind⟩
  obtain ⟨lines, hrelease, hline⟩ := exists_lines_of_mapLines (lineRelease_eq o m s)
  refine ⟨lines, hrelease, fun l => ?_⟩
  rw [hline l]
  refine ⟨recordAfterRelease_of_kept, fun hm ho => ?_⟩
  rw [recordAfterRelease_of_released hm ho]
  refine ⟨releasedRecord_release _, fun hhold => ?_, releasedRecord_low _, releasedRecord_high _⟩
  rw [releasedRecord_hold _ hhold]
  split
  next driven hdriven => rw [heldLevel_of_driven hdriven]
  next hnone => rw [heldLevel_of_not_driven hnone]

/-! LINE_SET (R80). -/

/-- A record after a LINE_SET that is OK. -/
def recordAfterSet (m v : LineMask) (l : LineNo) (r : LineRecord) : LineRecord :=
  if m.getLsbD l.val then { r with out := v.getLsbD l.val } else r

theorem lineSet_of_not_owner {o : Origin} {m : LineMask} (v : LineMask) {s : State}
    (h : ∃ l : LineNo, m.getLsbD l.val = true ∧ s.lb.lines[l].owner ≠ some o) : lineSet o m v s = (.notOwner, s) := by
  have named : anyNamed m (fun l => decide (s.lb.lines[l].owner ≠ some o)) = true :=
    (anyNamed_iff m _).mpr (by simpa using h)
  rw [lineSet, if_pos named]

/-- With every named line owned by the requester, the modes alone decide. -/
theorem lineSet_of_owner {o : Origin} {m : LineMask} (v : LineMask) {s : State}
    (h : ∀ l : LineNo, m.getLsbD l.val = true → s.lb.lines[l].owner = some o) :
    lineSet o m v s =
      if ∃ l : LineNo, m.getLsbD l.val = true ∧ s.lb.lines[l].mode ≠ .outputPp ∧ s.lb.lines[l].mode ≠ .outputOd then
        (.wrongMode, s)
      else (.ok, mapLines (recordAfterSet m v) s) := by
  have owned : anyNamed m (fun l => decide (s.lb.lines[l].owner ≠ some o)) = false :=
    (anyNamed_eq_false_iff m _).mpr (by simpa using h)
  rw [lineSet, owned]
  simp only [anyNamed_iff, Bool.and_eq_true, decide_eq_true_eq]
  rfl

theorem lineSet_of_wrong_mode {o : Origin} {m : LineMask} (v : LineMask) {s : State}
    (hown : ∀ l : LineNo, m.getLsbD l.val = true → s.lb.lines[l].owner = some o)
    (h : ∃ l : LineNo, m.getLsbD l.val = true ∧ s.lb.lines[l].mode ≠ .outputPp ∧ s.lb.lines[l].mode ≠ .outputOd) :
    lineSet o m v s = (.wrongMode, s) := by
  rw [lineSet_of_owner v hown, if_pos h]

theorem lineSet_of_outputs {o : Origin} {m : LineMask} (v : LineMask) {s : State}
    (hown : ∀ l : LineNo, m.getLsbD l.val = true → s.lb.lines[l].owner = some o)
    (h : ∀ l : LineNo, m.getLsbD l.val = true → s.lb.lines[l].mode = .outputPp ∨ s.lb.lines[l].mode = .outputOd) :
    lineSet o m v s = (.ok, mapLines (recordAfterSet m v) s) := by
  rw [lineSet_of_owner v hown, if_neg]
  rintro ⟨l, hm, hpp, hod⟩
  exact (h l hm).elim hpp hod

theorem runLine_lineSet (o : Origin) {r : Request} (s : State) (h : r.kind = .lineSet) :
    runLine o r s = (bare (lineSet o r.mask r.values s).1, (lineSet o r.mask r.values s).2) := by
  rw [runLine, h]

/-- Settles O20: NOT_OWNER, WRONG_MODE and OK in the order R80 checks them, then the request's values. -/
theorem lineSetIsAllOrNothing : Obligations.LineSetIsAllOrNothing := by
  refine ⟨fun o m v s => ⟨lineSet_of_not_owner v, fun hown => ⟨lineSet_of_wrong_mode v hown, fun houtputs => ?_⟩⟩,
    fun o r s hkind => runLine_lineSet o s hkind, fun r l => getLsbD_lineMask _ _ l⟩
  exact exists_lines_of_mapLines (lineSet_of_outputs v hown houtputs)

/-! A pin and its debounce time (R82). -/

theorem exec_pinChange (l : LineNo) (v : Bool) {s : State} (h : s.inReset = false) :
    exec (.pinChange l v) s = .next (pinChange l v s) := by
  have row : exec (.pinChange l v) s = .next (onChip (pinChange l v) s) := rfl
  rw [row, onChip, h]
  rfl

theorem exec_debounceEnd (l : LineNo) {s : State} (h : s.inReset = false) :
    exec (.debounceEnd l) s = .next (debounceEnd l s) := by
  have row : exec (.debounceEnd l) s = .next (onChip (debounceEnd l) s) := rfl
  rw [row, onChip, h]
  rfl

theorem pinChange_of_same {l : LineNo} {v : Bool} {s : State} (h : v = s.lb.lines[l].pin) : pinChange l v s = s :=
  if_pos h.symm

theorem pinChange_of_level {l : LineNo} {v : Bool} {s : State} (hpin : v ≠ s.lb.lines[l].pin)
    (hlevel : v = s.lb.lines[l].level) :
    pinChange l v s = setLine l { s.lb.lines[l] with pin := v, timing := none } s := by
  rw [pinChange, if_neg (Ne.symm hpin), if_pos hlevel]

theorem pinChange_of_undebounced {l : LineNo} {v : Bool} {s : State} (hpin : v ≠ s.lb.lines[l].pin)
    (hlevel : v ≠ s.lb.lines[l].level) (hzero : s.lb.lines[l].debounce = 0) :
    pinChange l v s = takeLevel l v (setLine l { s.lb.lines[l] with pin := v } s) := by
  rw [pinChange, if_neg (Ne.symm hpin), if_neg hlevel, if_pos hzero]

theorem pinChange_of_debounced {l : LineNo} {v : Bool} {s : State} (hpin : v ≠ s.lb.lines[l].pin)
    (hlevel : v ≠ s.lb.lines[l].level) (hdebounce : s.lb.lines[l].debounce ≠ 0) :
    pinChange l v s = setLine l { s.lb.lines[l] with
      pin := v, timing := some (s.now + s.lb.lines[l].debounce * Config.ms) } s := by
  rw [pinChange, if_neg (Ne.symm hpin), if_neg hlevel, if_neg hdebounce]

theorem debounceEnd_of_untimed {l : LineNo} {s : State} (h : s.lb.lines[l].timing = none) : debounceEnd l s = s := by
  rw [debounceEnd, h]

theorem debounceEnd_of_timed {l : LineNo} {s : State} {due : Moment} (h : s.lb.lines[l].timing = some due) :
    debounceEnd l s = takeLevel l s.lb.lines[l].pin (s.reach due) := by
  rw [debounceEnd, h]

/-! A level that is taken, and its report (R84). -/

theorem raiseRemote_eq_eu (k : EventKind) (detail arg : Byte) (s : State) :
    raiseRemote k detail arg s = { s with eu := (raiseRemote k detail arg s).eu } := by
  unfold raiseRemote
  split <;> rfl

theorem raiseRemote_eventQueue (k : EventKind) (detail arg : Byte) (s : State) :
    (raiseRemote k detail arg s).eu.eventQueue = s.eu.eventQueue := by
  unfold raiseRemote
  split <;> rfl

theorem raiseRemote_outbox (k : EventKind) (detail arg : Byte) (s : State) :
    (raiseRemote k detail arg s).eu.outbox =
      if s.slc.state.isUp = true then insertEvent 8 s.eu.outbox ⟨k, .localHost, detail, arg, 1⟩ else s.eu.outbox := by
  unfold raiseRemote
  split <;> rfl

theorem reportChange_eq_eu (rep : Report) (l : LineNo) (v : Bool) (s : State) :
    reportChange rep l v s = { s with eu := (reportChange rep l v s).eu } := by
  cases rep with
  | nobody => rfl
  | toLocal => rfl
  | toRemote => exact raiseRemote_eq_eu _ _ _ s
  | both => exact raiseRemote_eq_eu _ _ _ (raiseLocal _ _ _ s)

theorem reportChange_eventQueue (rep : Report) (l : LineNo) (v : Bool) (s : State) :
    (reportChange rep l v s).eu.eventQueue =
      if rep = .toLocal ∨ rep = .both then
        insertEvent 16 s.eu.eventQueue ⟨.lineChange, .localHost, toByte l.val, flagByte v, 1⟩
      else s.eu.eventQueue := by
  cases rep with
  | nobody => rfl
  | toLocal => rfl
  | toRemote => exact raiseRemote_eventQueue _ _ _ s
  | both => exact raiseRemote_eventQueue _ _ _ (raiseLocal _ _ _ s)

theorem reportChange_outbox (rep : Report) (l : LineNo) (v : Bool) (s : State) :
    (reportChange rep l v s).eu.outbox =
      if (rep = .toRemote ∨ rep = .both) ∧ s.slc.state.isUp = true then
        insertEvent 8 s.eu.outbox ⟨.lineChange, .localHost, toByte l.val, flagByte v, 1⟩
      else s.eu.outbox := by
  cases rep with
  | nobody => simp [reportChange]
  | toLocal => simp [reportChange, raiseLocal]
  | toRemote => simp [reportChange, raiseRemote_outbox]
  | both => simp [reportChange, raiseRemote_outbox, raiseLocal]

theorem takeLevel_of_same {l : LineNo} {v : Bool} {s : State} (h : s.lb.lines[l].level = v) :
    takeLevel l v s = setLine l { s.lb.lines[l] with level := v, timing := none } s := if_pos h

/-- The Line Block after line `l` has changed its level to `v`: the level, its timing and the mark of the mirror. -/
def linesAfterChange (l : LineNo) (v : Bool) (s : State) : LineBlock :=
  { s.lb with
    lines := vput s.lb.lines l { s.lb.lines[l] with level := v, timing := none }
    mirrorPending := s.lb.mirrorPending || decide (s.lb.lines[l].mode = .mirrorSend) }

/-- A changed level touches the Line Block, and the Event Unit as its report does. -/
theorem takeLevel_of_change {l : LineNo} {v : Bool} {s : State} (h : s.lb.lines[l].level ≠ v) :
    takeLevel l v s =
      { s with lb := linesAfterChange l v s, eu := (reportChange s.lb.lines[l].report l v
        (setLine l { s.lb.lines[l] with level := v, timing := none } s)).eu } := by
  rw [takeLevel, if_neg h, reportChange_eq_eu]
  by_cases hmirror : s.lb.lines[l].mode = .mirrorSend <;>
    simp [linesAfterChange, setLine, -Fin.getElem_fin, hmirror]

/-- Settles O23: a pin change and the end of a debounce time by their cases, then the report of a level that changes. -/
theorem pinChangesAreDebouncedAndReported : Obligations.PinChangesAreDebouncedAndReported := by
  refine ⟨fun l v s hout => ?_, fun l v s => ⟨takeLevel_of_same, fun hchange => ?_⟩⟩
  · rw [exec_pinChange l v hout, exec_debounceEnd l hout]
    refine ⟨fun hpin => ?_, fun hpin hlevel => ?_, fun hpin hlevel hzero => ?_, fun hpin hlevel hdebounce => ?_,
      fun huntimed => ?_, fun due htimed => ?_⟩
    · rw [pinChange_of_same hpin]
    · rw [pinChange_of_level hpin hlevel, setLine]
    · rw [pinChange_of_undebounced hpin hlevel hzero, setLine]
    · rw [pinChange_of_debounced hpin hlevel hdebounce, setLine, Config.ms]
    · rw [debounceEnd_of_untimed huntimed]
    · rw [debounceEnd_of_timed htimed]
  · rw [takeLevel_of_change hchange]
    exact ⟨rfl, reportChange_eventQueue _ l v _, reportChange_outbox _ l v _, rfl⟩

end Sys2Proof.Proofs.Lines

/-! Every step keeps the invariants: what a step can do, the induction over its commands said once, and each invariant from
its lemmas about the operations. -/

namespace Sys2Proof.Proofs.Invariants
open Sys2Proof Sys2Proof.Machine

/-! What a command can do. -/

/-- The operations that a command carries out on a chip out of reset. -/
inductive ChipOp : (State → State) → Prop
  | hostPortStartUp : ChipOp hostPortStartUp
  | pinChange (l : LineNo) (v : Bool) : ChipOp (pinChange l v)
  | debounceEnd (l : LineNo) : ChipOp (debounceEnd l)
  | testFlagPulseEnd : ChipOp testFlagPulseEnd
  | transactionEnd (acks : List Bool) (rx : List Byte) : ChipOp (transactionEnd acks rx)
  | stuckAtStart : ChipOp stuckAtStart
  | stretchLimit (release : SclRelease) (rx : List Byte) : ChipOp (stretchLimit release rx)
  | recoveryEnd (x : RecoverySamples) : ChipOp (recoveryEnd x)
  | leaseExpiry : ChipOp leaseExpiry
  | deadlineExpiry (t : Tag) : ChipOp (deadlineExpiry t)
  | remoteDeadlineExpiry (i : Slot) : ChipOp (remoteDeadlineExpiry i)
  | trainingInterval : ChipOp trainingInterval
  | helloInterval : ChipOp helloInterval
  | helloLimit : ChipOp helloLimit
  | silenceLimit : ChipOp silenceLimit
  | retrainLimit : ChipOp retrainLimit
  | holdoffEnd : ChipOp holdoffEnd
  | turnOpen : ChipOp turnOpen
  | followerReply : ChipOp followerReply
  | replyWindowEnd : ChipOp replyWindowEnd
  | frameSent : ChipOp frameSent
  | drainLimit : ChipOp drainLimit
  | patternStart : ChipOp patternStart
  | takeSymbol (d : Byte) (stop : Bool) : ChipOp (takeSymbol d stop)
  | testDuration : ChipOp testDuration
  | checkerDuration : ChipOp checkerDuration
  | patternLost : ChipOp patternLost
  | resultLimit : ChipOp resultLimit

/-- What a command whose outcome is a next state makes of `s`: a host-port row, a reset or a release, an operation of a chip out
of reset, or a frame that arrives. -/
inductive Carries (s : State) : State → Prop
  | write (off b : Byte) : Carries s (onPort (portWrite off b) s)
  | read (start : Option (BitVec 7)) (pointer : Option Byte) : Carries s (onPort (portRead start pointer) s)
  | register (w : HostWrite) : Carries s (onPort (registerWrite w) s)
  | low (cause : ResetCause) : Carries s (rstnLow cause s)
  | release (x : Straps) (pins : LineMask) : Carries s (rstnRelease x pins s)
  | chip {f : State → State} (h : ChipOp f) : Carries s (onChip f s)
  | bad (raw : List Byte) : Carries s (receiveBad raw s)
  | frame {k : FrameKind} {h : FrameHeader} {p : List Byte} {t : State} (ht : receive k h p s = .next t) : Carries s t

theorem carries_of_exec {c : Instr} {s t : State} (h : exec c s = .next t) : Carries s t := by
  cases c with
  | train | trainAck | hello | idle | req | rsp | cancelFrame | lines | event | releaseAll | testEnter | testReady | testGo
  | testResult => exact .frame h
  | rstnLow => cases h; exact .low _
  | rstnRelease => cases h; exact .release _ _
  | badFrame => cases h; exact .bad _
  | registerWrite => cases h; exact .register _
  | crcErrorsRead | completionHeadRead | eventHeadRead => cases h; exact .read _ _
  | hostPortStartUp => cases h; exact .chip .hostPortStartUp
  | pinChange => cases h; exact .chip (.pinChange _ _)
  | debounceEnd => cases h; exact .chip (.debounceEnd _)
  | testFlagPulseEnd => cases h; exact .chip .testFlagPulseEnd
  | transactionEnd => cases h; exact .chip (.transactionEnd _ _)
  | stuckAtStart => cases h; exact .chip .stuckAtStart
  | stretchLimit => cases h; exact .chip (.stretchLimit _ _)
  | recoveryEnd => cases h; exact .chip (.recoveryEnd _)
  | leaseExpiry => cases h; exact .chip .leaseExpiry
  | deadlineExpiry => cases h; exact .chip (.deadlineExpiry _)
  | remoteDeadlineExpiry => cases h; exact .chip (.remoteDeadlineExpiry _)
  | trainingInterval => cases h; exact .chip .trainingInterval
  | helloInterval => cases h; exact .chip .helloInterval
  | helloLimit => cases h; exact .chip .helloLimit
  | silenceLimit => cases h; exact .chip .silenceLimit
  | retrainLimit => cases h; exact .chip .retrainLimit
  | holdoffEnd => cases h; exact .chip .holdoffEnd
  | turnOpen => cases h; exact .chip .turnOpen
  | followerReply => cases h; exact .chip .followerReply
  | replyWindowEnd => cases h; exact .chip .replyWindowEnd
  | frameSent => cases h; exact .chip .frameSent
  | drainLimit => cases h; exact .chip .drainLimit
  | patternStart => cases h; exact .chip .patternStart
  | patternSymbol => cases h; exact .chip (.takeSymbol _ _)
  | testDuration => cases h; exact .chip .testDuration
  | checkerDuration => cases h; exact .chip .checkerDuration
  | patternLost => cases h; exact .chip .patternLost
  | resultLimit => cases h; exact .chip .resultLimit
  | write | read | busRecover | leaseTake | leaseDrop | lineSet | lineSample | lineConfig | lineClaim | lineRelease | ping
  | testStart | cancel | completionPop | eventPop | softReset | testStop | crcErrorsClear | hostReady | alertCq | alertEq
  | spanOff | busPolicy | busSpeed | remoteLines | filter => cases h; exact .write _ _

/-- A step is a microsecond of waiting, or what its command carries out with the queue's rest. -/
theorem tick_or_carries_of_step {s t : State} (h : step s = .next t) :
    t = tick s ∨ ∃ rest, Carries { s with pending := rest } t := by
  unfold step at h
  split at h
  · exact .inl (by cases h; rfl)
  · exact .inr ⟨_, carries_of_exec h⟩

/-! The induction over the parts of a step, said once. -/

/-- On states that meet `P`, every part of a step keeps `I`. The clock and the queue of commands are no part of either. -/
structure StepKeeps (P I : State → Prop) : Prop where
  rest {s : State} (cs : List Instr) : P s → P { s with pending := cs }
  queue {s : State} (cs : List Instr) : I s → I { s with pending := cs }
  clock {s : State} : I s → I (tick s)
  write {s : State} (off b : Byte) : P s → I s → I (portWrite off b s)
  read {s : State} (start : Option (BitVec 7)) (pointer : Option Byte) : P s → I s → I (portRead start pointer s)
  register {s : State} (w : HostWrite) : P s → I s → I (registerWrite w s)
  low {s : State} (cause : ResetCause) : P s → I s → I (rstnLow cause s)
  release {s : State} (x : Straps) (pins : LineMask) : P s → I s → I (rstnRelease x pins s)
  chip {s : State} {f : State → State} : ChipOp f → P s → I s → I (f s)
  bad {s : State} (raw : List Byte) : P s → I s → I (receiveBad raw s)
  frame {s t : State} {k : FrameKind} {h : FrameHeader} {p : List Byte} :
    receive k h p s = .next t → P s → I s → I t

theorem keeps_onPort {I : State → Prop} {f : State → State} {s : State} (hf : I s → I (f s)) (h : I s) :
    I (onPort f s) := by
  unfold onPort
  split
  · exact h
  · exact hf h

theorem keeps_onChip {I : State → Prop} {f : State → State} {s : State} (hf : I s → I (f s)) (h : I s) :
    I (onChip f s) := by
  unfold onChip
  split
  · exact h
  · exact hf h

theorem StepKeeps.carries {P I : State → Prop} (K : StepKeeps P I) {s t : State} (hP : P s) (hI : I s) (h : Carries s t) :
    I t := by
  cases h with
  | write off b => exact keeps_onPort (K.write off b hP) hI
  | read start pointer => exact keeps_onPort (K.read start pointer hP) hI
  | register w => exact keeps_onPort (K.register w hP) hI
  | low cause => exact K.low cause hP hI
  | release x pins => exact K.release x pins hP hI
  | chip op => exact keeps_onChip (K.chip op hP) hI
  | bad raw => exact K.bad raw hP hI
  | frame ht => exact K.frame ht hP hI

theorem StepKeeps.step {P I : State → Prop} (K : StepKeeps P I) {s t : State} (hP : P s) (hI : I s) (h : step s = .next t) :
    I t := by
  obtain rfl | ⟨rest, hc⟩ := tick_or_carries_of_step h
  · exact K.clock hI
  · exact K.carries (K.rest rest hP) (K.queue rest hI) hc

/-- No premise: the invariants that stand by themselves. -/
def Anywhere (_ : State) : Prop := True

/-! The end of a TEST_FLAG pulse touches the clock and the Line Block alone. -/

@[simp] theorem testFlagPulseEnd_frame (s : State) :
    (testFlagPulseEnd s).inReset = s.inReset ∧ (testFlagPulseEnd s).free = s.free ∧
    (testFlagPulseEnd s).pending = s.pending ∧ (testFlagPulseEnd s).hp = s.hp ∧ (testFlagPulseEnd s).rt = s.rt ∧
    (testFlagPulseEnd s).iq = s.iq ∧ (testFlagPulseEnd s).da = s.da ∧ (testFlagPulseEnd s).dbc = s.dbc ∧
    (testFlagPulseEnd s).slc = s.slc ∧ (testFlagPulseEnd s).fe = s.fe ∧ (testFlagPulseEnd s).eu = s.eu ∧
    (testFlagPulseEnd s).lt = s.lt := by
  unfold testFlagPulseEnd
  split <;> simp

/-! The Request Table. -/

open Laws.RequestInv in
theorem requestInv_chipOp {f : State → State} (op : ChipOp f) {s : State} (h : RequestInv s) : RequestInv (f s) := by
  cases op with
  | hostPortStartUp => exact requestInv_plain s _ h (by simp) (by simp) (by simp) (by simp) (by simp) (by simp)
  | pinChange => exact requestInv_plain s _ h (by simp) (by simp) (by simp) (by simp) (by simp) (by simp)
  | debounceEnd => exact requestInv_plain s _ h (by simp) (by simp) (by simp) (by simp) (by simp) (by simp)
  | testFlagPulseEnd => exact requestInv_plain s _ h (by simp) (by simp) (by simp) (by simp) (by simp) (by simp)
  | transactionEnd => exact requestInv_transactionEnd _ _ s h
  | stuckAtStart => exact requestInv_plain s _ h (by simp) (by simp) (by simp) (by simp) (by simp) (by simp)
  | stretchLimit => exact requestInv_stretchLimit _ _ s h
  | recoveryEnd => exact requestInv_recoveryEnd _ s h
  | leaseExpiry => exact requestInv_leaseExpiry s h
  | deadlineExpiry => exact requestInv_deadlineExpiry _ s h
  | remoteDeadlineExpiry => exact requestInv_plain s _ h (by simp) (by simp) (by simp) (by simp) (by simp) (by simp)
  | trainingInterval => exact requestInv_trainingInterval s h
  | helloInterval => exact requestInv_helloInterval s h
  | helloLimit => exact requestInv_helloLimit s h
  | silenceLimit => exact requestInv_silenceLimit s h
  | retrainLimit => exact requestInv_retrainLimit s h
  | holdoffEnd => exact requestInv_holdoffEnd s h
  | turnOpen => exact requestInv_turnOpen s h
  | followerReply => exact requestInv_followerReply s h
  | replyWindowEnd => exact requestInv_replyWindowEnd s h
  | frameSent => exact requestInv_frameSent s h
  | drainLimit => exact requestInv_drainLimit s h
  | patternStart => exact requestInv_patternStart s h
  | takeSymbol => exact requestInv_takeSymbol _ _ s h
  | testDuration => exact requestInv_testDuration s h
  | checkerDuration => exact requestInv_checkerDuration s h
  | patternLost => exact requestInv_patternLost s h
  | resultLimit => exact requestInv_resultLimit s h

open Laws.RequestInv in
theorem stepKeeps_requestInv : StepKeeps Anywhere RequestInv where
  rest _ := id
  queue _ := id
  clock := id
  write off b _ := requestInv_portWrite off b _
  read start pointer _ := requestInv_portRead start pointer _
  register w _ := requestInv_registerWrite w _
  low cause _ := requestInv_rstnLow cause _
  release x pins _ := requestInv_rstnRelease x pins _
  chip op _ := requestInv_chipOp op
  bad raw _ := requestInv_receiveBad raw _
  frame ht _ h := requestInv_receive _ _ _ _ _ h ht

/-- Settles O53: each part of a step keeps `RequestInv`. -/
theorem everyStepKeepsRequestsConsistent : Obligations.EveryStepKeepsRequestsConsistent :=
  fun _ _ h hstep => stepKeeps_requestInv.step trivial h hstep

/-! The Incoming Queue. -/

open Laws.IncomingInv in
theorem incomingInv_chipOp {f : State → State} (op : ChipOp f) {s : State} (h : IncomingInv s) :
    IncomingInv (f s) := by
  cases op with
  | hostPortStartUp => exact incomingInv_plain s _ h (by simp) (by simp) (by simp)
  | pinChange => exact incomingInv_plain s _ h (by simp) (by simp) (by simp)
  | debounceEnd => exact incomingInv_plain s _ h (by simp) (by simp) (by simp)
  | testFlagPulseEnd => exact incomingInv_plain s _ h (by simp) (by simp) (by simp)
  | transactionEnd => exact incomingInv_transactionEnd _ _ s h
  | stuckAtStart => exact incomingInv_plain s _ h (by simp) (by simp) (by simp)
  | stretchLimit => exact incomingInv_stretchLimit _ _ s h
  | recoveryEnd => exact incomingInv_recoveryEnd _ s h
  | leaseExpiry => exact incomingInv_leaseExpiry s h
  | deadlineExpiry => exact incomingInv_deadlineExpiry _ s h
  | remoteDeadlineExpiry => exact incomingInv_remoteDeadlineExpiry _ s h
  | trainingInterval => exact incomingInv_trainingInterval s h
  | helloInterval => exact incomingInv_helloInterval s h
  | helloLimit => exact incomingInv_helloLimit s h
  | silenceLimit => exact incomingInv_silenceLimit s h
  | retrainLimit => exact incomingInv_retrainLimit s h
  | holdoffEnd => exact incomingInv_holdoffEnd s h
  | turnOpen => exact incomingInv_turnOpen s h
  | followerReply => exact incomingInv_followerReply s h
  | replyWindowEnd => exact incomingInv_replyWindowEnd s h
  | frameSent => exact incomingInv_frameSent s h
  | drainLimit => exact incomingInv_drainLimit s h
  | patternStart => exact incomingInv_patternStart s h
  | takeSymbol => exact incomingInv_takeSymbol _ _ s h
  | testDuration => exact incomingInv_testDuration s h
  | checkerDuration => exact incomingInv_checkerDuration s h
  | patternLost => exact incomingInv_patternLost s h
  | resultLimit => exact incomingInv_resultLimit s h

open Laws.IncomingInv in
theorem stepKeeps_incomingInv : StepKeeps Anywhere IncomingInv where
  rest _ := id
  queue _ := id
  clock := id
  write off b _ := incomingInv_portWrite off b _
  read start pointer _ := incomingInv_portRead start pointer _
  register w _ := incomingInv_registerWrite w _
  low cause _ := incomingInv_rstnLow cause _
  release x pins _ := incomingInv_rstnRelease x pins _
  chip op _ := incomingInv_chipOp op
  bad raw _ := incomingInv_receiveBad raw _
  frame ht _ h := incomingInv_receive _ _ _ _ _ h ht

/-- Settles O54: each part of a step keeps `IncomingInv`. -/
theorem everyStepKeepsIncomingEntriesConsistent : Obligations.EveryStepKeepsIncomingEntriesConsistent :=
  fun _ _ h hstep => stepKeeps_incomingInv.step trivial h hstep

/-! The bus work. -/

open Laws.BusInv in
theorem busInv_chipOp {f : State → State} (op : ChipOp f) {s : State} (h : BK s) :
    BK (f s) := by
  cases op with
  | hostPortStartUp => exact busInv_eq h (by simp) (by simp) (by simp) (by simp) (by simp)
  | pinChange => exact busInv_pinChange _ _ s h
  | debounceEnd => exact busInv_debounceEnd _ s h
  | testFlagPulseEnd => exact busInv_testFlagPulseEnd s h
  | transactionEnd => exact busInv_transactionEnd _ _ s h
  | stuckAtStart => exact busInv_stuckAtStart s h
  | stretchLimit => exact busInv_stretchLimit _ _ s h
  | recoveryEnd => exact busInv_recoveryEnd _ s h
  | leaseExpiry => exact busInv_leaseExpiry s h
  | deadlineExpiry => exact busInv_deadlineExpiry _ s h
  | remoteDeadlineExpiry => exact busInv_remoteDeadlineExpiry _ s h
  | trainingInterval => exact busInv_trainingInterval s h
  | helloInterval => exact busInv_helloInterval s h
  | helloLimit => exact busInv_helloLimit s h
  | silenceLimit => exact busInv_silenceLimit s h
  | retrainLimit => exact busInv_retrainLimit s h
  | holdoffEnd => exact busInv_holdoffEnd s h
  | turnOpen => exact busInv_turnOpen s h
  | followerReply => exact busInv_followerReply s h
  | replyWindowEnd => exact busInv_replyWindowEnd s h
  | frameSent => exact busInv_frameSent s h
  | drainLimit => exact busInv_drainLimit s h
  | patternStart => exact busInv_patternStart s h
  | takeSymbol => exact busInv_takeSymbol _ _ s h
  | testDuration => exact busInv_testDuration s h
  | checkerDuration => exact busInv_checkerDuration s h
  | patternLost => exact busInv_patternLost s h
  | resultLimit => exact busInv_resultLimit s h

open Laws.BusInv in
theorem stepKeeps_bk : StepKeeps (fun s => RequestInv s ∧ IncomingInv s) BK where
  rest _ := id
  queue _ := id
  clock := id
  write off b hP := busInv_portWrite off b _ hP.1
  read start pointer _ := busInv_portRead start pointer _
  register w hP := busInv_registerWrite w _ hP.1
  low cause _ := busInv_rstnLow cause _
  release x pins _ := busInv_rstnRelease x pins _
  chip op _ := busInv_chipOp op
  bad raw _ := busInv_receiveBad raw _
  frame ht hP h := busInv_receive _ _ _ _ _ hP.2 h ht

/-- The lists hold only kinds that wait there: of tags by `RequestInv`, of entries by `IncomingInv`. -/
theorem bk_of_invs {s : State} (hr : RequestInv s) (hq : IncomingInv s) (h : BusInv s) : Laws.BusInv.BK s := by
  obtain ⟨-, -, -, -, -, -, -, hqueued, hkind, -, -, -⟩ := hr
  obtain ⟨-, -, -, -, hslotKind, -, -, -, -⟩ := hq
  exact ⟨h, fun t ht => hkind t ((hqueued t).mpr ht), fun i hi e he => hslotKind i e hi he⟩

/-- Settles O55: each part of a step keeps `BusInv`, with the kinds of the waiting entries beside it. -/
theorem everyStepKeepsBusWorkConsistent : Obligations.EveryStepKeepsBusWorkConsistent :=
  fun _ _ hr hq h hstep => (stepKeeps_bk.step ⟨hr, hq⟩ (bk_of_invs hr hq h) hstep).1

/-! The selection. -/

open Laws.SelectedInv in
theorem selectedInv_chipOp {f : State → State} (op : ChipOp f) {s : State} (h : SelectedInv s) :
    SelectedInv (f s) := by
  cases op with
  | hostPortStartUp => exact selectedInv_fewer s _ h (by simp) (by simp) (by simp) (by simp)
  | pinChange => exact selectedInv_fewer s _ h (by simp) (by simp) (by simp) (by simp)
  | debounceEnd => exact selectedInv_fewer s _ h (by simp) (by simp) (by simp) (by simp)
  | testFlagPulseEnd => exact selectedInv_fewer s _ h (by simp) (by simp) (by simp) (by simp)
  | transactionEnd => exact selectedInv_transactionEnd _ _ s h
  | stuckAtStart => exact selectedInv_stuckAtStart s h
  | stretchLimit => exact selectedInv_stretchLimit _ _ s h
  | recoveryEnd => exact selectedInv_recoveryEnd _ s h
  | leaseExpiry => exact selectedInv_leaseExpiry s h
  | deadlineExpiry => exact selectedInv_deadlineExpiry _ s h
  | remoteDeadlineExpiry => exact selectedInv_remoteDeadlineExpiry _ s h
  | trainingInterval => exact selectedInv_trainingInterval s h
  | helloInterval => exact selectedInv_helloInterval s h
  | helloLimit => exact selectedInv_helloLimit s h
  | silenceLimit => exact selectedInv_silenceLimit s h
  | retrainLimit => exact selectedInv_retrainLimit s h
  | holdoffEnd => exact selectedInv_holdoffEnd s h
  | turnOpen => exact selectedInv_turnOpen s h
  | followerReply => exact selectedInv_followerReply s h
  | replyWindowEnd => exact selectedInv_replyWindowEnd s h
  | frameSent => exact selectedInv_frameSent s h
  | drainLimit => exact selectedInv_drainLimit s h
  | patternStart => exact selectedInv_patternStart s h
  | takeSymbol => exact selectedInv_takeSymbol _ _ s h
  | testDuration => exact selectedInv_testDuration s h
  | checkerDuration => exact selectedInv_checkerDuration s h
  | patternLost => exact selectedInv_patternLost s h
  | resultLimit => exact selectedInv_resultLimit s h

open Laws.SelectedInv in
theorem stepKeeps_selectedInv : StepKeeps Anywhere SelectedInv where
  rest _ := id
  queue _ := id
  clock := id
  write off b _ := selectedInv_portWrite off b _
  read start pointer _ := selectedInv_portRead start pointer _
  register w _ := selectedInv_registerWrite w _
  low cause _ := selectedInv_rstnLow cause _
  release x pins _ := selectedInv_rstnRelease x pins _
  chip op _ := selectedInv_chipOp op
  bad raw _ := selectedInv_receiveBad raw _
  frame ht _ h := selectedInv_receive _ _ _ _ _ h ht

/-- Settles O56: each part of a step keeps `SelectedInv`. -/
theorem everyStepLeavesNothingUnselected : Obligations.EveryStepLeavesNothingUnselected :=
  fun _ _ h hstep => stepKeeps_selectedInv.step trivial h hstep

/-! The event queues. -/

open Laws.EventInv in
theorem eventInv_chipOp {f : State → State} (op : ChipOp f) {s : State} (h : evOk s.eu) :
    evOk (f s).eu := by
  cases op with
  | hostPortStartUp => exact by simpa using h
  | pinChange => exact eventInv_pinChange _ _ s h
  | debounceEnd => exact eventInv_debounceEnd _ s h
  | testFlagPulseEnd => exact by simpa using h
  | transactionEnd => exact eventInv_transactionEnd _ _ s h
  | stuckAtStart => exact by simpa using h
  | stretchLimit => exact eventInv_stretchLimit _ _ s h
  | recoveryEnd => exact eventInv_recoveryEnd _ s h
  | leaseExpiry => exact eventInv_leaseExpiry s h
  | deadlineExpiry => exact by simpa using h
  | remoteDeadlineExpiry => exact by simpa using h
  | trainingInterval => exact by simpa using h
  | helloInterval => exact by simpa using h
  | helloLimit => exact by simpa using h
  | silenceLimit => exact eventInv_silenceLimit s h
  | retrainLimit => exact eventInv_retrainLimit s h
  | holdoffEnd => exact by simpa using h
  | turnOpen => exact eventInv_turnOpen s h
  | followerReply => exact eventInv_followerReply s h
  | replyWindowEnd => exact eventInv_replyWindowEnd s h
  | frameSent => exact eventInv_frameSent s h
  | drainLimit => exact by simpa using h
  | patternStart => exact by simpa using h
  | takeSymbol => exact by simpa using h
  | testDuration => exact by simpa using h
  | checkerDuration => exact by simpa using h
  | patternLost => exact by simpa using h
  | resultLimit => exact by simpa using h

open Laws.EventInv in
theorem stepKeeps_eventInv : StepKeeps Anywhere (fun s => evOk s.eu) where
  rest _ := id
  queue _ := id
  clock := id
  write off b _ := eventInv_portWrite off b _
  read start pointer _ h := by simpa using h
  register w _ := eventInv_registerWrite w _
  low cause _ := eventInv_rstnLow cause _
  release x pins _ := eventInv_rstnRelease x pins _
  chip op _ := eventInv_chipOp op
  bad raw _ := eventInv_receiveBad raw _
  frame ht _ h := eventInv_receive _ _ _ _ _ h ht

/-- Settles O57: each part of a step keeps `EventInv`, which is about the Event Unit alone. -/
theorem everyStepKeepsEventQueuesInForm : Obligations.EveryStepKeepsEventQueuesInForm :=
  fun _ _ h hstep => stepKeeps_eventInv.step trivial h hstep

/-! The link controller and the Link Tester. -/

theorem linkInv_of_eq {s u : State} (h : LinkInv s) (eslc : u.slc = s.slc) (elt : u.lt = s.lt)
    (efe : u.fe.helloTaken = s.fe.helloTaken) : LinkInv u := by
  unfold LinkInv
  rw [eslc, elt, efe]
  exact h

open Laws.LinkInv in
theorem linkInv_chipOp {f : State → State} (op : ChipOp f) {s : State} (h : LinkInv s) :
    LinkInv (f s) := by
  cases op with
  | hostPortStartUp => exact linkInv_of_eq h (by simp) (by simp) (by simp)
  | pinChange => exact linkInv_of_eq h (by simp) (by simp) (by simp)
  | debounceEnd => exact linkInv_of_eq h (by simp) (by simp) (by simp)
  | testFlagPulseEnd => exact linkInv_of_eq h (by simp) (by simp) (by simp)
  | transactionEnd => exact linkInv_of_eq h (by simp) (by simp) (by simp)
  | stuckAtStart => exact linkInv_of_eq h (by simp) (by simp) (by simp)
  | stretchLimit => exact linkInv_of_eq h (by simp) (by simp) (by simp)
  | recoveryEnd => exact linkInv_of_eq h (by simp) (by simp) (by simp)
  | leaseExpiry => exact linkInv_of_eq h (by simp) (by simp) (by simp)
  | deadlineExpiry => exact linkInv_of_eq h (by simp) (by simp) (by simp)
  | remoteDeadlineExpiry => exact linkInv_of_eq h (by simp) (by simp) (by simp)
  | trainingInterval => exact linkInv_trainingInterval s h
  | helloInterval => exact linkInv_helloInterval s h
  | helloLimit => exact linkInv_helloLimit s h
  | silenceLimit => exact linkInv_silenceLimit s h
  | retrainLimit => exact linkInv_retrainLimit s h
  | holdoffEnd => exact linkInv_holdoffEnd s h
  | turnOpen => exact linkInv_turnOpen s h
  | followerReply => exact linkInv_followerReply s h
  | replyWindowEnd => exact linkInv_replyWindowEnd s h
  | frameSent => exact linkInv_frameSent s h
  | drainLimit => exact linkInv_drainLimit s h
  | patternStart => exact linkInv_patternStart s h
  | takeSymbol => exact linkInv_takeSymbol _ _ s h
  | testDuration => exact linkInv_testDuration s h
  | checkerDuration => exact linkInv_checkerDuration s h
  | patternLost => exact linkInv_patternLost s h
  | resultLimit => exact linkInv_resultLimit s h

open Laws.LinkInv in
theorem stepKeeps_linkInv : StepKeeps Anywhere LinkInv where
  rest _ := id
  queue _ := id
  clock := id
  write off b _ := linkInv_portWrite off b _
  read start pointer _ := fun h => linkInv_of_eq h (by simp) (by simp) (by simp)
  register w _ := linkInv_registerWrite w _
  low cause _ := linkInv_rstnLow cause _
  release x pins _ := linkInv_rstnRelease x pins _
  chip op _ := linkInv_chipOp op
  bad raw _ := linkInv_receiveBad raw _
  frame ht _ h := linkInv_receive _ _ _ _ _ h ht

/-- Settles O58: each part of a step keeps `LinkInv`. -/
theorem everyStepKeepsLinkAndTestPhases : Obligations.EveryStepKeepsLinkAndTestPhases :=
  fun _ _ h hstep => stepKeeps_linkInv.step trivial h hstep

/-! The link that is down. -/

open Laws.QuietInv in
theorem quietInv_chipOp {f : State → State} (op : ChipOp f) {s : State} (hr : RequestInv s) (hl : LinkInv s) (h : QuietInv s) :
    QuietInv (f s) := by
  cases op with
  | hostPortStartUp => exact quietInv_hostPortStartUp s h
  | pinChange => exact quietInv_pinChange _ _ s h
  | debounceEnd => exact quietInv_debounceEnd _ s h
  | testFlagPulseEnd => exact quietInv_testFlagPulseEnd s h
  | transactionEnd => exact quietInv_transactionEnd _ _ s h
  | stuckAtStart => exact quietInv_stuckAtStart s h
  | stretchLimit => exact quietInv_stretchLimit _ _ s h
  | recoveryEnd => exact quietInv_recoveryEnd _ s h
  | leaseExpiry => exact quietInv_leaseExpiry s h
  | deadlineExpiry => exact quietInv_deadlineExpiry _ s h
  | remoteDeadlineExpiry => exact quietInv_remoteDeadlineExpiry _ s h
  | trainingInterval => exact quietInv_trainingInterval s h
  | helloInterval => exact quietInv_helloInterval s h
  | helloLimit => exact quietInv_helloLimit s hl h
  | silenceLimit => exact quietInv_silenceLimit s hr h
  | retrainLimit => exact quietInv_retrainLimit s hr h
  | holdoffEnd => exact quietInv_holdoffEnd s hl h
  | turnOpen => exact quietInv_turnOpen s hr h
  | followerReply => exact quietInv_followerReply s hr h
  | replyWindowEnd => exact quietInv_replyWindowEnd s hr h
  | frameSent => exact quietInv_frameSent s h
  | drainLimit => exact quietInv_drainLimit s h
  | patternStart => exact quietInv_patternStart s h
  | takeSymbol => exact quietInv_takeSymbol _ _ s h
  | testDuration => exact quietInv_testDuration s h
  | checkerDuration => exact quietInv_checkerDuration s h
  | patternLost => exact quietInv_patternLost s h
  | resultLimit => exact quietInv_resultLimit s h

open Laws.QuietInv in
theorem stepKeeps_quietInv : StepKeeps (fun s => RequestInv s ∧ LinkInv s) QuietInv where
  rest _ := id
  queue _ := id
  clock := id
  write off b hP := quietInv_portWrite off b _ hP.1
  read start pointer _ := quietInv_portRead start pointer _
  register w hP := quietInv_registerWrite w _ hP.1
  low cause _ := quietInv_rstnLow cause _
  release x pins _ := quietInv_rstnRelease x pins _
  chip op hP := quietInv_chipOp op hP.1 hP.2
  bad raw hP := quietInv_receiveBad raw _ hP.1
  frame ht hP h := quietInv_receive _ _ _ _ _ hP.1 h ht

/-- Settles O59: each part of a step keeps `QuietInv`. -/
theorem everyStepKeepsADownLinkQuiet : Obligations.EveryStepKeepsADownLinkQuiet :=
  fun _ _ hr hl h hstep => stepKeeps_quietInv.step ⟨hr, hl⟩ h hstep

/-! The window. -/

theorem windowInv_of_eq {s u : State} (h : WindowInv s) (efe : u.fe = s.fe) (eslc : u.slc = s.slc) : WindowInv u := by
  unfold WindowInv
  rw [efe, eslc]
  exact h

open Laws.WindowInv in
theorem windowInv_chipOp {f : State → State} (op : ChipOp f) {s : State} (h : WindowInv s) :
    WindowInv (f s) := by
  cases op with
  | hostPortStartUp => exact windowInv_of_eq h (by simp) (by simp)
  | pinChange => exact windowInv_of_eq h (by simp) (by simp)
  | debounceEnd => exact windowInv_of_eq h (by simp) (by simp)
  | testFlagPulseEnd => exact windowInv_of_eq h (by simp) (by simp)
  | transactionEnd => exact windowInv_transactionEnd _ _ s h
  | stuckAtStart => exact windowInv_of_eq h (by simp) (by simp)
  | stretchLimit => exact windowInv_stretchLimit _ _ s h
  | recoveryEnd => exact windowInv_recoveryEnd _ s h
  | leaseExpiry => exact windowInv_leaseExpiry s h
  | deadlineExpiry => exact windowInv_deadlineExpiry _ s h
  | remoteDeadlineExpiry => exact windowInv_of_eq h (by simp) (by simp)
  | trainingInterval => exact windowInv_trainingInterval s h
  | helloInterval => exact windowInv_helloInterval s h
  | helloLimit => exact windowInv_helloLimit s h
  | silenceLimit => exact windowInv_silenceLimit s h
  | retrainLimit => exact windowInv_retrainLimit s h
  | holdoffEnd => exact windowInv_holdoffEnd s h
  | turnOpen => exact windowInv_turnOpen s h
  | followerReply => exact windowInv_followerReply s h
  | replyWindowEnd => exact windowInv_replyWindowEnd s h
  | frameSent => exact windowInv_frameSent s h
  | drainLimit => exact windowInv_drainLimit s h
  | patternStart => exact windowInv_patternStart s h
  | takeSymbol => exact windowInv_takeSymbol _ _ s h
  | testDuration => exact windowInv_testDuration s h
  | checkerDuration => exact windowInv_checkerDuration s h
  | patternLost => exact windowInv_patternLost s h
  | resultLimit => exact windowInv_resultLimit s h

open Laws.WindowInv in
theorem stepKeeps_windowInv : StepKeeps Anywhere WindowInv where
  rest _ := id
  queue _ := id
  clock := id
  write off b _ := windowInv_portWrite off b _
  read start pointer _ := windowInv_portRead start pointer _
  register w _ := windowInv_registerWrite w _
  low cause _ := windowInv_rstnLow cause _
  release x pins _ := windowInv_rstnRelease x pins _
  chip op _ := windowInv_chipOp op
  bad raw _ := windowInv_receiveBad raw _
  frame ht _ h := windowInv_receive _ _ _ _ _ h ht

/-- Settles O60: each part of a step keeps `WindowInv`. -/
theorem everyStepKeepsTheWindowInForm : Obligations.EveryStepKeepsTheWindowInForm :=
  fun _ _ h hstep => stepKeeps_windowInv.step trivial h hstep

/-! The state right after reset, and the step itself. -/

theorem linkInv_reset : LinkInv State.reset := by
  refine ⟨?_, ?_, ?_, by decide, by decide, by decide⟩
  · unfold timersFit
    decide
  · exact ⟨by decide, by decide, by decide⟩
  · unfold testTimersFit
    decide

/-- Settles O52: the cleared state meets each invariant. -/
theorem resetMeetsTheInvariants : Obligations.ResetMeetsTheInvariants :=
  ⟨Laws.RequestInv.requestInv_reset _ _ _ _ _, Laws.IncomingInv.incomingInv_reset _ _ _ _ _,
    (Laws.BusInv.busInv_reset _ _ _ _ _).1, Laws.SelectedInv.selectedInv_reset _ _ _ _ _, Laws.EventInv.evOk_nil,
    linkInv_reset, fun _ => Laws.QuietInv.q_reset _ _ _ _ _, Laws.WindowInv.windowInv_reset _ _ _ _ _⟩

theorem step_of_command (c : Instr) (rest : List Instr) (s : State) :
    step { s with pending := c :: rest } = exec c { s with pending := rest } := rfl

theorem step_of_no_command {s : State} (h : s.pending = []) : step s = .next (tick s) := by
  rw [step, h]

/-- Settles O1: `step` by the queue of commands. -/
theorem stepTakesTheFrontCommand : Obligations.StepTakesTheFrontCommand :=
  ⟨step_of_command, fun _ h => step_of_no_command h⟩

end Sys2Proof.Proofs.Invariants

/-! How a row is carried out: a write at the host port once the port answers, an operation of the chip once it is out of
reset. -/

namespace Sys2Proof.Proofs.Rows
open Sys2Proof Sys2Proof.Machine

theorem exec_of_portWrite {c : Instr} {off b : Byte} {s : State} (h : portReady s)
    (row : exec c s = .next (onPort (portWrite off b) s)) :
    exec c s = .next (setPointer (off + 1) (writeAt off b (beginWrite s))) := by
  rw [row, Requests.onPort_of_portReady _ h, portWrite]

theorem exec_of_onPort {c : Instr} {f : State → State} {s : State} (h : portReady s)
    (row : exec c s = .next (onPort f s)) : exec c s = .next (f s) := by
  rw [row, Requests.onPort_of_portReady _ h]

theorem onPort_of_not_ready (f : State → State) {s : State} (h : ¬ portReady s) : onPort f s = s := by
  have silent : s.inReset = true ∨ s.hp.up = false := by
    unfold portReady at h
    cases hreset : s.inReset <;> simp_all
  exact if_pos silent

theorem onChip_of_out (f : State → State) {s : State} (h : s.inReset = false) : onChip f s = f s := by
  simp [onChip, h]

theorem exec_of_onChip {c : Instr} {f : State → State} {s : State} (h : s.inReset = false)
    (row : exec c s = .next (onChip f s)) : exec c s = .next (f s) := by
  rw [row, onChip_of_out f h]

/-! The least index that meets a condition, as the searches for a free tag or entry find it. -/

theorem find?_finRange_eq_some_iff {n : Nat} {p : Fin n → Bool} {i : Fin n} :
    (List.finRange n).find? p = some i ↔ p i = true ∧ ∀ j, j < i → p j = false := by
  rw [List.find?_eq_some_iff_getElem]
  constructor
  · rintro ⟨hp, k, hk, rfl, hlow⟩
    refine ⟨hp, fun j hj => ?_⟩
    have hjk : j.val < k := by simpa [Fin.lt_def] using hj
    simpa using hlow j.val hjk
  · rintro ⟨hp, hlow⟩
    refine ⟨hp, i.val, by simp, by simp, fun j hj => ?_⟩
    have hjn : j < n := hj.trans i.isLt
    simpa using hlow ⟨j, hjn⟩ hj

end Sys2Proof.Proofs.Rows

/-! Accepted requests (chapter 1): the tag taken, the record copied, and the near requests at the SUBMIT write. -/

namespace Sys2Proof.Proofs.Accepted
open Sys2Proof Sys2Proof.Machine Sys2Proof.Proofs.Rows Sys2Proof.Proofs.Requests

/-! The record copied (R1, R182). -/

theorem stagedByte_eq (v : Vector Byte 40) {n : Nat} (h : n < 40) : stagedByte v n = v[n] := by
  simp [stagedByte, List.getD_eq_getElem?_getD, h]

theorem side_of_sideOfByte {b : Byte} {side : Side} (h : Side.ofByte b = some side) : b = side.code := by
  unfold Side.ofByte at h
  split at h
  · cases h; assumption
  · split at h
    · cases h; assumption
    · cases h

/-- A staged request is the record of the kind and the side its first two bytes name. -/
theorem stagedRequest_eq_some {v : Vector Byte 40} {r : Request} (h : stagedRequest v = some r) :
    stagedByte v 0 = r.kind.code ∧ stagedByte v 1 = r.side.code ∧ r = stagedRecord v r.kind r.side := by
  unfold stagedRequest at h
  split at h
  next k side hk hs =>
    have hr : r = stagedRecord v k side := by
      split_ifs at h
      exact (Option.some.inj h).symm
    subst hr
    exact ⟨code_of_kindOfByte hk, side_of_sideOfByte hs, rfl⟩
  next => cases h

theorem kindCode_toNat (k : ReqKind) : k.code.toNat = (match k with
      | .write => 1 | .read => 2 | .lineSet => 3 | .lineSample => 4 | .lineConfig => 5 | .lineClaim => 6 | .lineRelease => 7
      | .leaseTake => 8 | .leaseDrop => 9 | .busRecover => 10 | .ping => 11 | .testStart => 12) := by
  cases k <;> rfl

/-! What follows an acceptance leaves the tags' generations and records, and frees none. -/

/-- From `s` to `u` no tag changes its generation or its record, and none goes FREE. -/
structure TagsGoOn (s u : State) : Prop where
  gen (t : Tag) : u.rt.tags[t].gen = s.rt.tags[t].gen
  req (t : Tag) : u.rt.tags[t].req = s.rt.tags[t].req
  taken (t : Tag) : s.rt.tags[t].state ≠ .free → u.rt.tags[t].state ≠ .free

theorem TagsGoOn.of_eq {s u : State} (h : u.rt.tags = s.rt.tags) : TagsGoOn s u :=
  ⟨fun t => by rw [h], fun t => by rw [h], fun t => by rw [h]; exact id⟩

theorem TagsGoOn.trans {s u v : State} (h : TagsGoOn s u) (h' : TagsGoOn u v) : TagsGoOn s v :=
  ⟨fun t => (h'.gen t).trans (h.gen t), fun t => (h'.req t).trans (h.req t), fun t ht => h'.taken t (h.taken t ht)⟩

theorem TagsGoOn.from_eq {s s' u : State} (h : TagsGoOn s' u) (e : s'.rt.tags = s.rt.tags) : TagsGoOn s u :=
  (TagsGoOn.of_eq e).trans h

/-- A tag that takes another state than FREE, with its generation and record. -/
theorem TagsGoOn.of_put {s u : State} {t : Tag} {e : TagEntry} (h : u.rt.tags = vput s.rt.tags t e)
    (hgen : e.gen = s.rt.tags[t].gen) (hreq : e.req = s.rt.tags[t].req) (hstate : e.state ≠ .free) : TagsGoOn s u := by
  have entry (n : Tag) : u.rt.tags[n] = if t = n then e else s.rt.tags[n] := by
    rw [h, Laws.RequestInv.vput_at]
  refine ⟨fun n => ?_, fun n => ?_, fun n hn => ?_⟩ <;> rw [entry] <;> split
  · rename_i hn; rw [hgen, hn]
  · rfl
  · rename_i hn; rw [hreq, hn]
  · rfl
  · exact hstate
  · exact hn

theorem tagsGoOn_completeTag (t : Tag) (a : Answer) (s : State) : TagsGoOn s (completeTag t a s) :=
  .of_put (t := t) rfl rfl rfl (by simp)

theorem tagsGoOn_serveLocal (t : Tag) (s : State) : TagsGoOn s (serveLocal t s) := by
  unfold serveLocal
  dsimp only
  split
  · exact (tagsGoOn_completeTag t _ _).from_eq rfl
  · split
    · exact tagsGoOn_completeTag t _ s
    · exact .of_put (t := t) rfl rfl rfl (by simp)

theorem tagsGoOn_serveHead (o : Origin) (s : State) : TagsGoOn s (serveHead o s) := by
  unfold serveHead
  split <;> split
  · exact .of_eq rfl
  · exact (tagsGoOn_serveLocal _ _).from_eq rfl
  · exact .of_eq rfl
  · exact .of_eq (by simp)

theorem tagsGoOn_selectLoop (n : Nat) (s : State) : TagsGoOn s (selectLoop n s) := by
  induction n generalizing s with
  | zero => exact .of_eq rfl
  | succ n ih =>
    unfold selectLoop
    split
    · split
      · exact .of_eq rfl
      · exact (tagsGoOn_serveHead _ s).trans (ih _)
    · exact .of_eq rfl

theorem tagsGoOn_select (s : State) : TagsGoOn s (select s) := tagsGoOn_selectLoop _ s

theorem tagsGoOn_dropLease (o : Origin) {answer : Status → State → State} (h : ∀ st s, TagsGoOn s (answer st s))
    (s : State) : TagsGoOn s (dropLease o answer s) := by
  have answered : TagsGoOn s (answer (leaseDrop o s).1 (leaseDrop o s).2) := (h _ _).from_eq (by simp)
  unfold dropLease
  dsimp only
  split
  · exact answered.trans (tagsGoOn_select _)
  · exact answered

theorem tagsGoOn_startTest (t : Tag) (s : State) : TagsGoOn s (startTest t s) := by
  unfold startTest
  dsimp only
  split
  · split
    · exact .of_put (t := t) rfl rfl rfl (by simp)
    · exact tagsGoOn_completeTag t _ s
  all_goals exact tagsGoOn_completeTag t _ s

theorem tagsGoOn_submitFar (t : Tag) (r : Request) (s : State) :
    TagsGoOn (acceptTag t r .waitCredit s) (submitFar t r s) := by
  unfold submitFar
  dsimp only
  split
  · exact .of_eq rfl
  · exact tagsGoOn_completeTag t _ _

theorem tagsGoOn_submitNear (t : Tag) (r : Request) (s : State) :
    TagsGoOn (acceptTag t r .queued s) (submitNear t r s) := by
  unfold submitNear
  dsimp only
  split
  iterate 4 exact (tagsGoOn_select _).from_eq rfl
  iterate 5 exact (tagsGoOn_completeTag t _ _).from_eq (by simp)
  · exact tagsGoOn_dropLease _ (fun st => tagsGoOn_completeTag t (bare st)) _
  · exact tagsGoOn_completeTag t _ _
  · exact tagsGoOn_startTest t _

/-! Acceptance (R5, R7, R16). -/

theorem freeTag_of_lowest {s : State} {t : Tag} (hfree : s.rt.tags[t].state = .free)
    (hlow : ∀ u : Tag, u < t → s.rt.tags[u].state ≠ .free) : freeTag s = some t :=
  find?_finRange_eq_some_iff.mpr ⟨decide_eq_true hfree, fun u hu => decide_eq_false (hlow u hu)⟩

theorem acceptTag_tags (t u : Tag) (r : Request) (st : TagState) (s : State) :
    (acceptTag t r st s).rt.tags[u] =
      if t = u then ⟨st, s.rt.tags[t].gen + 1, r, acceptDue s.now r⟩ else s.rt.tags[u] :=
  Laws.RequestInv.vput_at _ _ _ _

/-- A SUBMIT that is taken accepts its record in a first state other than FREE, and goes on from there. -/
theorem submit_accepts {s : State} {r : Request} {t : Tag} (hr : stagedRequest s.hp.staging = some r)
    (ht : freeTag s = some t) :
    (submit s).hp.submitResult = .tag t ∧ (submit s).hp.staging = s.hp.staging ∧
      ∃ st, st ≠ .free ∧ TagsGoOn (acceptTag t r st s) (submit s) := by
  refine ⟨?_, by simp, ?_⟩ <;> by_cases hside : r.side = .far
  · rw [submit_far hr ht hside, submitFar_submitResult]
  · rw [submit_near hr ht hside, submitNear_submitResult]
  · exact ⟨.waitCredit, by decide, by rw [submit_far hr ht hside]; exact tagsGoOn_submitFar t r s⟩
  · exact ⟨.queued, by decide, by rw [submit_near hr ht hside]; exact tagsGoOn_submitNear t r s⟩

theorem acceptTag_eq (t : Tag) (r : Request) (st : TagState) (s : State) :
    acceptTag t r st s = { s with
       rt := { tags := vput s.rt.tags t ⟨st, s.rt.tags[t].gen + 1, r,
                 if r.kind = .testStart then none
                 else some (s.now + (if r.deadline = 0 then 50 else r.deadline.toNat) * 1000)⟩
               order := s.rt.order ++ [t]
               cq := s.rt.cq }
       hp.submitResult := .tag t } := rfl

/-- Settles O3: the tag found and what goes on from its acceptance; the two equations; the record by the staged bytes. -/
theorem acceptedRequestsTakeATagAndComplete : Obligations.AcceptedRequestsTakeATagAndComplete := by
  refine ⟨⟨fun k b s r t hport hr hfree hlow => ?_, acceptTag_eq, fun _ _ _ => rfl⟩, fun v r h => ?_⟩
  · have ht : freeTag (beginWrite s) = some t := freeTag_of_lowest (s := beginWrite s) hfree hlow
    obtain ⟨hresult, hstaging, st, hst, goOn⟩ := submit_accepts (s := beginWrite s) hr ht
    have self : (acceptTag t r st (beginWrite s)).rt.tags[t] =
        ⟨st, s.rt.tags[t].gen + 1, r, acceptDue s.now r⟩ := (acceptTag_tags t t r st _).trans (if_pos rfl)
    refine ⟨_, exec_submitCommand k b hport, hresult, goOn.taken t (by rw [self]; exact hst), ?_, ?_, hstaging,
      fun u hu => ?_⟩
    · exact (goOn.gen t).trans (by rw [self])
    · exact (goOn.req t).trans (by rw [self])
    · have other : (acceptTag t r st (beginWrite s)).rt.tags[u] = s.rt.tags[u] :=
        (acceptTag_tags t u r st _).trans (if_neg (Ne.symm hu))
      exact ⟨(goOn.gen u).trans (by rw [other]), (goOn.req u).trans (by rw [other])⟩
  · obtain ⟨hkind, hside, hrecord⟩ := stagedRequest_eq_some h
    have byte {n : Nat} (hn : n < 40) : stagedByte v n = v[n] := stagedByte_eq v hn
    rw [byte (by decide)] at hkind hside
    refine ⟨hkind ▸ kindCode_toNat r.kind, hside, ?_, ?_, ?_, ?_, ?_, ?_, ?_⟩
    all_goals rw [hrecord]
    iterate 6 exact byte (by decide)
    simp only [stagedRecord, byte (show 6 < 40 by decide)]
    cases r.kind <;> rfl

end Sys2Proof.Proofs.Accepted

/-! Near requests, deadlines, the pops and the soft reset (chapter 1). -/

namespace Sys2Proof.Proofs.RequestRows
open Sys2Proof Sys2Proof.Machine Sys2Proof.Proofs.Rows Sys2Proof.Proofs.Requests

/-! Near requests (R6, R9 to R11, R36). -/

theorem exec_submit_near {k : ReqKind} (b : Byte) {s : State} {r : Request} {t : Tag} (hport : portReady s)
    (hr : stagedRequest s.hp.staging = some r) (hside : r.side = .near) (ht : freeTag s = some t) :
    exec (submitCommand k b) s = .next (setPointer 0x21#8 (submitNear t r (beginWrite s))) := by
  rw [exec_submitCommand k b hport, submit_near (s := beginWrite s) hr ht (by rw [hside]; decide)]

theorem submitNear_of_queued {t : Tag} {r : Request} {s : State}
    (h : r.kind = .write ∨ r.kind = .read ∨ r.kind = .busRecover ∨ r.kind = .leaseTake) :
    submitNear t r s = select { acceptTag t r .queued s with da.localList := s.da.localList ++ [t] } := by
  rcases h with h | h | h | h <;> simp only [submitNear, h] <;> rfl

theorem submitNear_of_line {t : Tag} {r : Request} {s : State}
    (h : r.kind = .lineSet ∨ r.kind = .lineSample ∨ r.kind = .lineConfig ∨ r.kind = .lineClaim ∨ r.kind = .lineRelease) :
    submitNear t r s = completeTag t (runLine .localHost r (acceptTag t r .queued s)).1
      (runLine .localHost r (acceptTag t r .queued s)).2 := by
  rcases h with h | h | h | h | h <;> simp only [submitNear, h]

theorem submitNear_leaseDrop {t : Tag} {r : Request} {s : State} (h : r.kind = .leaseDrop) :
    submitNear t r s = dropLease .localHost (fun st => completeTag t (bare st)) (acceptTag t r .queued s) := by
  simp only [submitNear, h]

theorem submitNear_ping {t : Tag} {r : Request} {s : State} (h : r.kind = .ping) :
    submitNear t r s = completeTag t (pingAnswer (acceptTag t r .queued s)) (acceptTag t r .queued s) := by
  simp only [submitNear, h]

theorem dropLease_of_none {o : Origin} (answer : Status → State → State) {s : State} (h : s.da.lease = none) :
    dropLease o answer s = answer .ok s := by
  simp [dropLease, leaseDrop, holdsLease, h]

theorem dropLease_of_other {o : Origin} (answer : Status → State → State) {s : State} {l : Lease}
    (h : s.da.lease = some l) (ho : l.holder ≠ o) : dropLease o answer s = answer .notHolder s := by
  simp [dropLease, leaseDrop, holdsLease, h, ho]

theorem dropLease_of_held {o : Origin} (answer : Status → State → State) {s : State} {l : Lease}
    (h : s.da.lease = some l) (ho : l.holder = o) :
    dropLease o answer s = select (answer .ok { s with da.lease := none }) := by
  simp [dropLease, leaseDrop, holdsLease, h, ho]

/-- Settles O5: the rows of R6 by the kind of the near request; a LEASE_DROP by the lease it meets. -/
theorem nearRequestsAreQueuedOrCompleteAtOnce : Obligations.NearRequestsAreQueuedOrCompleteAtOnce := by
  refine ⟨fun k b s r t hport hr hside hkind ht => ?_, fun k b s r t hport hr hside hkind ht => ?_,
    fun k b s r t hport hr hside ht => ⟨fun hkind => ?_, fun hkind => ?_⟩⟩ <;>
    rw [exec_submit_near b hport hr hside ht]
  · rw [submitNear_of_queued hkind]
    rfl
  · rw [submitNear_of_line hkind]
  · rw [submitNear_leaseDrop hkind]
    refine ⟨fun hnone => ?_, fun due hremote => ?_, fun due hlocal => ?_⟩
    · rw [dropLease_of_none _ (s := acceptTag t r .queued (beginWrite s)) hnone]
      rfl
    · rw [dropLease_of_other _ (s := acceptTag t r .queued (beginWrite s)) hremote (by simp)]
      rfl
    · rw [dropLease_of_held _ (s := acceptTag t r .queued (beginWrite s)) hlocal rfl]
      rfl
  · rw [submitNear_ping hkind]
    rfl

/-! Deadlines (R17). -/

theorem exec_deadlineExpiry (t : Tag) {s : State} (h : s.inReset = false) :
    exec (.deadlineExpiry t) s = .next (deadlineExpiry t s) := exec_of_onChip h rfl

theorem deadlineExpiry_of_untimed {t : Tag} {s : State} (h : s.rt.tags[t].due = none) : deadlineExpiry t s = s := by
  rw [deadlineExpiry, h]

theorem deadlineExpiry_of_queued {t : Tag} {s : State} {due : Moment} (h : s.rt.tags[t].due = some due)
    (hstate : s.rt.tags[t].state = .queued) :
    deadlineExpiry t s = completeTag t (bare .timeout)
      { s.reach due with da.localList := s.da.localList.filter (· ≠ t) } := by
  simp only [deadlineExpiry, h, hstate]
  rfl

theorem deadlineExpiry_of_far {t : Tag} {s : State} {due : Moment} (h : s.rt.tags[t].due = some due)
    (hstate : s.rt.tags[t].state = .waitCredit ∨ s.rt.tags[t].state = .inFlight ∨ s.rt.tags[t].state = .cancelSent) :
    deadlineExpiry t s = completeTag t (bare .timeout) (s.reach due) := by
  rcases hstate with hstate | hstate | hstate <;> simp only [deadlineExpiry, h, hstate]

/-- Settles O7: the tag with no timer, the QUEUED one and the far ones. -/
theorem deadlineCompletesTimeout : Obligations.DeadlineCompletesTimeout := by
  intro t s hout
  rw [exec_deadlineExpiry t hout]
  refine ⟨fun hnone => ?_, fun due hdue => ⟨fun hqueued => ?_, fun hfar => ?_⟩⟩
  · rw [deadlineExpiry_of_untimed hnone]
  · rw [deadlineExpiry_of_queued hdue hqueued]
    rfl
  · rw [deadlineExpiry_of_far hdue hfar]
    rfl

/-! The pops (R21, R157). -/

theorem exec_completionPop (b : Byte) {s : State} (h : portReady s) :
    exec (.completionPop b) s = .next (setPointer 0x25#8 (completionPop (beginWrite s))) :=
  exec_of_portWrite (off := 0x24#8) (b := b) h rfl

theorem exec_eventPop (b : Byte) {s : State} (h : portReady s) :
    exec (.eventPop b) s = .next (setPointer 0x26#8 (eventPop (beginWrite s))) :=
  exec_of_portWrite (off := 0x25#8) (b := b) h rfl

theorem completionPop_of_empty {s : State} (h : s.rt.cq = []) : completionPop s = s := by
  rw [completionPop, h]

theorem completionPop_of_cons {s : State} {c : Completion} {rest : List Completion} (h : s.rt.cq = c :: rest) :
    completionPop s = { s with
      rt := { tags := vput s.rt.tags c.tag { s.rt.tags[c.tag] with state := .free, req := Request.empty }
              order := s.rt.order
              cq := rest } } := by
  rw [completionPop, h]

theorem eventPop_of_eq {s : State} {q : List EventRecord} (h : s.eu.eventQueue.tail = q) :
    eventPop s = { s with eu.eventQueue := q } := by
  rw [eventPop, h]

/-- Settles O8: each queue empty, then with a head. -/
theorem popsRemoveTheHead : Obligations.PopsRemoveTheHead := by
  intro b s hport
  rw [exec_completionPop b hport, exec_eventPop b hport]
  refine ⟨fun hnil => ?_, fun c rest hcons => ?_, fun hnil => ?_, fun r rest hcons => ?_⟩
  · rw [completionPop_of_empty (s := beginWrite s) hnil]
  · rw [completionPop_of_cons (s := beginWrite s) hcons]
    rfl
  · rw [eventPop_of_eq (s := beginWrite s) (by rw [hnil]; rfl : s.eu.eventQueue.tail = s.eu.eventQueue)]
    rfl
  · rw [eventPop_of_eq (s := beginWrite s) (by rw [hcons]; rfl : s.eu.eventQueue.tail = rest)]

/-! The soft reset (R185). -/

theorem exec_softReset (b : Byte) {s : State} (h : portReady s) :
    exec (.softReset b) s = .next (setPointer 0x06#8 (softReset b (beginWrite s))) :=
  exec_of_portWrite (off := 0x05#8) (b := b) h rfl

theorem softReset_of_ne_one {b : Byte} (s : State) (h : b ≠ 1) : softReset b s = s := if_neg h

/-- R48: a lease after its end for LOCAL; one of REMOTE stands. -/
theorem endLease_local_eq (s : State) : endLease .localHost s = { s with
    da.lease := match s.da.lease with
      | some ⟨.localHost, _⟩ => none
      | other => other } := by
  unfold endLease
  rcases hlease : s.da.lease with _ | ⟨holder, due⟩
  · exact congrArg (fun l => { s with da.lease := l }) hlease
  · cases holder
    · rfl
    · exact congrArg (fun l => { s with da.lease := l }) hlease

/-- The Link Tester after a soft reset in the link state `st`. -/
def testerAtSoftReset (st : LinkState) (t : LinkTester) : LinkTester :=
  { (if t.phase = .enterPending then { t with
        phase := .idle, ownerTag := none, goTaken := false, drainDue := none, durationDue := none, lostDue := none,
        resultDue := none, patternDue := none, genStart := none }
      else t) with
    stopResult := .noResult
    releaseOwed := t.releaseOwed || decide (st = .drain) || decide (st = .test) || decide (st = .retrain) }

theorem testAtSoftReset_eq (s : State) :
    testAtSoftReset s = { s with lt := testerAtSoftReset s.slc.state s.lt } := by
  by_cases hphase : s.lt.phase = .enterPending <;> cases hst : s.slc.state <;>
    simp [testAtSoftReset, testerAtSoftReset, hphase, hst, endTest]

theorem hasTurns_eq (st : LinkState) : st.hasTurns = (decide (st = .run) || decide (st = .drain)) := by
  cases st <;> rfl

/-- Settles O9: a byte other than 1, then the parts of R185 one by one. -/
theorem softResetClearsThisHostsSide : Obligations.SoftResetClearsThisHostsSide := by
  intro b s hport
  rw [exec_softReset b hport]
  refine ⟨fun hb => by rw [softReset_of_ne_one _ hb], ?_⟩
  rintro rfl
  rw [softReset, if_pos rfl, arbiterAtSoftReset, endLease_local_eq, testAtSoftReset_eq, restAtSoftReset]
  simp only [hasTurns_eq, ← Bool.or_assoc]
  rfl

end Sys2Proof.Proofs.RequestRows

/-! The arbiter's selection and what serving an entry does (chapter 2). -/

namespace Sys2Proof.Proofs.Selection
open Sys2Proof Sys2Proof.Machine

/-! Selection (R28 to R30). -/

theorem select_of_busy {s : State} (h : s.dbc.state.accepts = false) : select s = s := by
  unfold select
  cases s.da.localList.length + s.da.remoteList.length with
  | zero => rfl
  | succ n => simp [selectLoop, h]

theorem select_of_nextOrigin_none {s : State} (h : nextOrigin s.da = none) : select s = s := by
  unfold select
  cases s.da.localList.length + s.da.remoteList.length with
  | zero => rfl
  | succ n => simp [selectLoop, h]

theorem selectLoop_succ {n : Nat} {s : State} {o : Origin} (haccepts : s.dbc.state.accepts = true)
    (hnext : nextOrigin s.da = some o) : selectLoop (n + 1) s = selectLoop n (serveHead o s) := by
  simp [selectLoop, haccepts, hnext]

theorem select_of_local {s : State} {t : Tag} {rest : List Tag} (haccepts : s.dbc.state.accepts = true)
    (hnext : nextOrigin s.da = some .localHost) (hlist : s.da.localList = t :: rest) :
    select s = select (serveLocal t { s with da.localList := rest, da.turn := turnAfter .localHost s.da }) := by
  have served : serveHead .localHost s =
      serveLocal t { s with da.localList := rest, da.turn := turnAfter .localHost s.da } := by
    simp only [serveHead, hlist]
  have count : s.da.localList.length + s.da.remoteList.length = rest.length + s.da.remoteList.length + 1 := by
    rw [hlist, List.length_cons]; omega
  rw [select, count, selectLoop_succ haccepts hnext, served]
  simp [select]

theorem select_of_remote {s : State} {i : Slot} {rest : List Slot} (haccepts : s.dbc.state.accepts = true)
    (hnext : nextOrigin s.da = some .remoteHost) (hlist : s.da.remoteList = i :: rest) :
    select s = select (serveRemote i { s with da.remoteList := rest, da.turn := turnAfter .remoteHost s.da }) := by
  have served : serveHead .remoteHost s =
      serveRemote i { s with da.remoteList := rest, da.turn := turnAfter .remoteHost s.da } := by
    simp only [serveHead, hlist]
  have count : s.da.localList.length + s.da.remoteList.length = s.da.localList.length + rest.length + 1 := by
    rw [hlist, List.length_cons]; omega
  rw [select, count, selectLoop_succ haccepts hnext, served]
  simp [select]

/-! The list that is due (R29, R30). -/

theorem nextOrigin_local_of_free {a : Arbiter} (hlease : a.lease = none) (hlist : a.localList ≠ [])
    (hdue : a.remoteList = [] ∨ a.turn = .localHost) : nextOrigin a = some .localHost := by
  rcases hdue with h | h <;> simp [nextOrigin, hlease, hlist, h]

theorem nextOrigin_remote_of_free {a : Arbiter} (hlease : a.lease = none) (hlist : a.remoteList ≠ [])
    (hdue : a.localList = [] ∨ a.turn = .remoteHost) : nextOrigin a = some .remoteHost := by
  rcases hdue with h | h <;> simp [nextOrigin, hlease, hlist, h]

theorem nextOrigin_local_of_held {a : Arbiter} {due : Moment} (hlease : a.lease = some ⟨.localHost, due⟩) :
    nextOrigin a = if a.localList = [] then none else some .localHost := by
  simp [nextOrigin, hlease]

theorem nextOrigin_remote_of_held {a : Arbiter} {due : Moment} (hlease : a.lease = some ⟨.remoteHost, due⟩) :
    nextOrigin a = if a.remoteList = [] then none else some .remoteHost := by
  simp [nextOrigin, hlease]

theorem accepts_of_idle_or_faulted {st : BusState} (h : st = .idle ∨ st = .faulted) : st.accepts = true := by
  rcases h with rfl | rfl <;> rfl

theorem turnAfter_of_free {o : Origin} {a : Arbiter} (h : a.lease = none) : turnAfter o a = o.other := by
  simp [turnAfter, h]

theorem turnAfter_of_held {o : Origin} {a : Arbiter} {l : Lease} (h : a.lease = some l) : turnAfter o a = a.turn := by
  simp [turnAfter, h]

/-- Settles O10: the busy controller, then with no lease and under a lease of each host the list that is due. -/
theorem selectionServesTheListThatIsDue : Obligations.SelectionServesTheListThatIsDue := by
  refine fun s => ⟨fun hbusy => select_of_busy (by rcases hbusy with h | h <;> rw [h] <;> rfl), fun hstate => ?_⟩
  have haccepts := accepts_of_idle_or_faulted hstate
  refine ⟨fun hlease hlocal hremote => ?_, fun t rest hlease hlist hdue => ?_, fun i rest hlease hlist hdue => ?_,
    fun due hlease => ⟨fun hnil => ?_, fun t rest hlist => ?_⟩, fun due hlease => ⟨fun hnil => ?_, fun i rest hlist => ?_⟩⟩
  · exact select_of_nextOrigin_none (by simp [nextOrigin, hlease, hlocal, hremote])
  · have hnext := nextOrigin_local_of_free hlease (by simp [hlist]) hdue
    rw [select_of_local haccepts hnext hlist, turnAfter_of_free hlease]
    rfl
  · have hnext := nextOrigin_remote_of_free hlease (by simp [hlist]) hdue
    rw [select_of_remote haccepts hnext hlist, turnAfter_of_free hlease]
    rfl
  · exact select_of_nextOrigin_none ((nextOrigin_local_of_held hlease).trans (if_pos hnil))
  · have hnext := (nextOrigin_local_of_held hlease).trans (if_neg (by simp [hlist]))
    rw [select_of_local haccepts hnext hlist, turnAfter_of_held hlease]
  · exact select_of_nextOrigin_none ((nextOrigin_remote_of_held hlease).trans (if_pos hnil))
  · have hnext := (nextOrigin_remote_of_held hlease).trans (if_neg (by simp [hlist]))
    rw [select_of_remote haccepts hnext hlist, turnAfter_of_held hlease]

/-! Serving (R31, R32, R34, R53). -/

theorem busRecover_runs {k : ReqKind} (h : k = .busRecover) : k ≠ .leaseTake ∧ k.isTransfer = false := by
  subst h
  decide

theorem isTransfer_of {k : ReqKind} (h : k = .write ∨ k = .read) : k.isTransfer = true ∧ k ≠ .leaseTake ∧ k ≠ .busRecover := by
  rcases h with rfl | rfl <;> decide

theorem serveLocal_of_leaseTake {t : Tag} {s : State} (h : s.rt.tags[t].req.kind = .leaseTake) :
    serveLocal t s = completeTag t (bare .ok) (grantLease .localHost s.rt.tags[t].req s) := if_pos h

theorem serveLocal_of_refused {t : Tag} {s : State}
    (h : s.rt.tags[t].req.kind = .write ∨ s.rt.tags[t].req.kind = .read) (hfaulted : s.dbc.state = .faulted) :
    serveLocal t s = completeTag t (bare .busFaulted) s := by
  obtain ⟨htransfer, hlease, -⟩ := isTransfer_of h
  unfold serveLocal
  dsimp only
  rw [if_neg hlease, if_pos ⟨htransfer, hfaulted⟩]

theorem serveLocal_of_run {t : Tag} {s : State} (hlease : s.rt.tags[t].req.kind ≠ .leaseTake)
    (h : ¬ (s.rt.tags[t].req.kind.isTransfer = true ∧ s.dbc.state = .faulted)) :
    serveLocal t s = handOver (.tag t s.rt.tags[t].gen) s.rt.tags[t].req
      (setTag t { s.rt.tags[t] with state := .executing, due := none } s) := by
  unfold serveLocal
  dsimp only
  rw [if_neg hlease, if_neg h]

theorem serveRemote_of_denied {i : Slot} {s : State} {e : SlotEntry} (he : s.iq.slots[i] = some e)
    (h : policyAllows s.da e.req = false) : serveRemote i s = answerSlot i (bare .denied) s := by
  simp [serveRemote, he, h]

theorem serveRemote_of_leaseTake {i : Slot} {s : State} {e : SlotEntry} (he : s.iq.slots[i] = some e)
    (hallowed : policyAllows s.da e.req = true) (h : e.req.kind = .leaseTake) :
    serveRemote i s = answerSlot i (bare .ok) (grantLease .remoteHost e.req s) := by
  simp [serveRemote, he, hallowed, h]

theorem serveRemote_of_refused {i : Slot} {s : State} {e : SlotEntry} (he : s.iq.slots[i] = some e)
    (hallowed : policyAllows s.da e.req = true) (h : e.req.kind = .write ∨ e.req.kind = .read)
    (hfaulted : s.dbc.state = .faulted) : serveRemote i s = answerSlot i (bare .busFaulted) s := by
  obtain ⟨htransfer, hlease, -⟩ := isTransfer_of h
  simp [serveRemote, he, hallowed, hlease, htransfer, hfaulted]

theorem serveRemote_of_run {i : Slot} {s : State} {e : SlotEntry} (he : s.iq.slots[i] = some e)
    (hallowed : policyAllows s.da e.req = true) (hlease : e.req.kind ≠ .leaseTake)
    (h : ¬ (e.req.kind.isTransfer = true ∧ s.dbc.state = .faulted)) :
    serveRemote i s = handOver (.slot i) e.req (setSlot i (some { e with state := .executing }) s) := by
  unfold serveRemote
  rw [he]
  dsimp only
  rw [if_neg (by simp [hallowed]), if_neg hlease, if_neg h]

theorem handOver_of_transfer {ref : WorkRef} {r : Request} {s : State} (h : r.kind ≠ .busRecover) :
    handOver ref r s = { s with
      dbc := ⟨.active, some ⟨r, ref, 0, []⟩, s.hp.busSpeed, some s.now, s.dbc.cause, decide (s.dbc.state = .faulted)⟩ } := by
  simp [handOver, h]

theorem handOver_of_busRecover {ref : WorkRef} {r : Request} {s : State} (h : r.kind = .busRecover) :
    handOver ref r s = { s with
      dbc := ⟨.recovering, some ⟨r, ref, 0, []⟩, s.hp.busSpeed, some s.now, s.dbc.cause, decide (s.dbc.state = .faulted)⟩ } := by
  simp [handOver, h]

/-- Settles O11: the four ways an entry of each list is served, by its kind and the controller's state. -/
theorem servedEntriesRunOrAreAnswered : Obligations.ServedEntriesRunOrAreAnswered := by
  refine ⟨?_, fun i s e he => ⟨fun hdenied => serveRemote_of_denied he hdenied, fun hallowed => ⟨fun hkind => ?_,
    fun hkind hfaulted => ?_, fun hkind hidle => ?_, fun hkind => ?_⟩⟩⟩
  · rintro t s e rfl
    refine ⟨fun hkind => ?_, fun hkind hfaulted => ?_, fun hkind hidle => ?_, fun hkind => ?_⟩
    · exact serveLocal_of_leaseTake hkind
    · exact serveLocal_of_refused hkind hfaulted
    · obtain ⟨-, hlease, hrecover⟩ := isTransfer_of hkind
      rw [serveLocal_of_run hlease (by simp [hidle]), handOver_of_transfer hrecover]
      simp [setTag, hidle]
    · obtain ⟨hlease, htransfer⟩ := busRecover_runs hkind
      rw [serveLocal_of_run hlease (fun h => absurd (htransfer.symm.trans h.1) (by decide)), handOver_of_busRecover hkind]
      rfl
  · exact serveRemote_of_leaseTake he hallowed hkind
  · exact serveRemote_of_refused he hallowed hkind hfaulted
  · obtain ⟨-, hlease, hrecover⟩ := isTransfer_of hkind
    rw [serveRemote_of_run he hallowed hlease (by simp [hidle]), handOver_of_transfer hrecover]
    simp [setSlot, hidle]
  · obtain ⟨hlease, htransfer⟩ := busRecover_runs hkind
    rw [serveRemote_of_run he hallowed hlease (fun h => absurd (htransfer.symm.trans h.1) (by decide)),
      handOver_of_busRecover hkind]
    rfl

end Sys2Proof.Proofs.Selection

/-! How transfers and recovery procedures end, and what they put on the bus (chapter 3). -/

namespace Sys2Proof.Proofs.Transfers
open Sys2Proof Sys2Proof.Machine Sys2Proof.Proofs.Rows

/-! Acknowledges and bytes. -/

theorem leadingAcks_of_refusal (n : Nat) (more : List Bool) : leadingAcks (List.replicate n true ++ false :: more) = n := by
  induction n with
  | zero => rfl
  | succ n ih => simp [leadingAcks, List.replicate_succ]

theorem le_leadingAcks (n : Nat) (more : List Bool) : n ≤ leadingAcks (List.replicate n true ++ more) := by
  induction n with
  | zero => exact Nat.zero_le _
  | succ n ih => simp [leadingAcks, List.replicate_succ]

theorem addressByte_write (target : Byte) : addressByte target false = target <<< 1 := by
  simp [addressByte, flagByte]

theorem addressByte_read (target : Byte) : addressByte target true = (target <<< 1) ||| 1 := rfl

theorem offsetsSent_eq {r : Request} (h : r.offCount.toNat ≤ 2) : r.offsetsSent = r.offCount.toNat := by
  simp [Request.offsetsSent, Request.offsets, h]

theorem offsets_eq {r : Request} (h : r.offCount.toNat ≤ 2) :
    r.offsets = if r.offCount = 0 then [] else if r.offCount = 1 then [r.off0] else [r.off0, r.off1] := by
  have three : r.offCount = 0 ∨ r.offCount = 1 ∨ r.offCount = 2 := by bv_omega
  rcases three with h | h | h <;> rw [Request.offsets, h] <;> rfl

/-! The end of a transfer (R57 to R60). -/

theorem exec_transactionEnd (acks : List Bool) (rx : List Byte) {s : State} {w : Work} (hout : s.inReset = false)
    (hstate : s.dbc.state = .active) (hwork : s.dbc.work = some w) :
    exec (.transactionEnd acks rx) s =
      .next (endWork (if w.req.kind = .write then writeResult w.req acks else readResult w.req acks rx) none s) := by
  rw [exec_of_onChip (f := transactionEnd acks rx) hout rfl, transactionEnd, hstate, hwork]

theorem writeResult_eq {r : Request} (h : r.kind = .write) (hoff : r.offCount.toNat ≤ 2) (acks : List Bool) :
    writeResult r acks =
      if 1 + r.offCount.toNat + r.length.toNat ≤ leadingAcks acks then ⟨.ok, r.length.toNat, 0, []⟩
      else if leadingAcks acks = 0 then ⟨.noAck, 0, 0, []⟩
      else if leadingAcks acks ≤ r.offCount.toNat then ⟨.dataNack, 0, 0, []⟩
      else ⟨.dataNack, leadingAcks acks - 1 - r.offCount.toNat, 0, []⟩ := by
  rw [writeResult, bytesSent_write h, offsetsSent_eq hoff]
  rfl

theorem readResult_eq {r : Request} (h : r.kind ≠ .write) (hoff : r.offCount.toNat ≤ 2) (acks : List Bool)
    (rx : List Byte) :
    readResult r acks rx =
      if (if r.offCount.toNat = 0 then 1 else r.offCount.toNat + 2) ≤ leadingAcks acks then
        ⟨.ok, r.length.toNat, 0, (rx ++ List.replicate r.length.toNat 0xFF#8).take r.length.toNat⟩
      else if leadingAcks acks = 0 then ⟨.noAck, 0, 0, []⟩
      else if leadingAcks acks ≤ r.offCount.toNat then ⟨.dataNack, 0, 0, []⟩
      else ⟨.noAck, 0, 0, []⟩ := by
  rw [readResult, bytesSent_read h, offsetsSent_eq hoff]
  rfl

/-! What a transfer puts on the bus. -/

theorem busItems_write {r : Request} (h : r.kind = .write) (acks : List Bool) :
    r.busItems acks = .start ::
      (if leadingAcks acks < r.sentBytes.length then (r.sentBytes.take (leadingAcks acks + 1)).map .byte ++ [.stop]
       else r.sentBytes.map .byte ++ [.stop]) := by
  have shape : r.transfer = .start :: (r.sentBytes.map .byte ++ [.stop]) := by
    rw [sentBytes_write h, Request.transfer, if_pos h]
    rfl
  rw [Request.busItems, shape, refusedAfter_start, refusedAfter_bytes, refusedAfter_stop]
  cases leadingAcks acks - r.sentBytes.length <;> rfl

theorem busItems_read_short {r : Request} (h : r.kind = .read) (hoff : r.offsets = []) (acks : List Bool) :
    r.busItems acks = .start ::
      (if leadingAcks acks = 0 then [.byte (addressByte r.target true), .stop]
       else .byte (addressByte r.target true) :: (receiveItems r.length.toNat ++ [.stop])) := by
  have shape : r.transfer = .start :: ([addressByte r.target true].map .byte ++ (receiveItems r.length.toNat ++ [.stop])) := by
    rw [Request.transfer, if_neg (by rw [h]; decide), if_pos hoff]
    rfl
  rw [Request.busItems, shape, refusedAfter_start, refusedAfter_bytes, refusedAfter_receive, refusedAfter_stop]
  cases leadingAcks acks <;> rfl

/-- A READ with offset bytes: refused among the bytes before the repeated START, at the second address byte, or nowhere. -/
theorem busItems_read_long {r : Request} (h : r.kind = .read) (hoff : r.offsets ≠ []) (acks : List Bool) :
    r.busItems acks = .start ::
      (if leadingAcks acks < r.offsets.length + 1 then
         ((addressByte r.target false :: r.offsets).take (leadingAcks acks + 1)).map .byte ++ [.stop]
       else (addressByte r.target false :: r.offsets).map .byte ++ .start ::
         (if leadingAcks acks = r.offsets.length + 1 then [.byte (addressByte r.target true), .stop]
          else .byte (addressByte r.target true) :: (receiveItems r.length.toNat ++ [.stop]))) := by
  have shape : r.transfer = .start :: ((addressByte r.target false :: r.offsets).map .byte ++
      .start :: ([addressByte r.target true].map .byte ++ (receiveItems r.length.toNat ++ [.stop]))) := by
    rw [Request.transfer, if_neg (by rw [h]; decide), if_neg hoff]
    simp
  rw [Request.busItems, shape, refusedAfter_start, refusedAfter_bytes, refusedAfter_start, refusedAfter_bytes,
    refusedAfter_receive, refusedAfter_stop, List.length_cons]
  by_cases hlow : leadingAcks acks < r.offsets.length + 1
  · rw [if_pos hlow, if_pos hlow]
  · rw [if_neg hlow, if_neg hlow]
    by_cases hat : leadingAcks acks = r.offsets.length + 1
    · rw [if_pos hat, hat]
      simp
    · have hover : ¬ leadingAcks acks - (r.offsets.length + 1) < [addressByte r.target true].length := by
        rw [List.length_singleton]; omega
      rw [if_neg hat, if_neg hover]
      cases leadingAcks acks - (r.offsets.length + 1) - [addressByte r.target true].length <;> rfl

/-! What the clock pulses drive (R54). -/

/-- Clock pulses one after the other: at the `m`-th setting of the `k`-th, SCL is released in the middle, SDA as given. -/
theorem clockDrives_getElem? (levels : List Bool) {k m : Nat} {v : Bool} (hm : m < 3) (hv : levels[k]? = some v) :
    (levels.flatMap clockDrives)[3 * k + m]? = some ⟨decide (m = 1), v⟩ := by
  induction levels generalizing k with
  | nil => simp at hv
  | cons d levels ih =>
    have split : (d :: levels).flatMap clockDrives = clockDrives d ++ levels.flatMap clockDrives := rfl
    cases k with
    | zero =>
      obtain rfl : d = v := by simpa using hv
      rw [split, List.getElem?_append_left (by simpa [clockDrives] using hm)]
      interval_cases m <;> rfl
    | succ k =>
      have later : 3 * (k + 1) + m - (clockDrives d).length = 3 * k + m := by
        rw [show (clockDrives d).length = 3 from rfl]; omega
      rw [split, List.getElem?_append_right (by simp [clockDrives]; omega), later]
      exact ih (by simpa using hv)

theorem drives_byte (b : Byte) :
    (BusItem.byte b).drives = ((List.range 9).map fun k => if k < 8 then b.getLsbD (7 - k) else true).flatMap clockDrives :=
  rfl

theorem drives_receive (acknowledged : Bool) :
    (BusItem.receive acknowledged).drives =
      ((List.range 9).map fun k => decide (k < 8) || !acknowledged).flatMap clockDrives := by
  cases acknowledged <;> rfl

/-- Settles O14: the results, the items by the byte refused, the drives item by item. -/
theorem writeEndsByItsAcknowledges : Obligations.WriteEndsByItsAcknowledges := by
  refine ⟨fun n more rx s w hout hstate hwork hkind hoff => ?_, fun r n more hkind hoff => ?_, fun _ _ => rfl, rfl, rfl,
    fun b => ⟨rfl, fun k hk m hm => ?_⟩⟩
  · simp only [exec_transactionEnd _ rx hout hstate hwork, if_pos hkind, writeResult_eq hkind hoff,
      leadingAcks_of_refusal]
    refine ⟨fun hall => ?_, fun hzero => ?_, fun hpos hlow => ?_, fun hdata hlow => ?_⟩
    · rw [if_pos (hall.trans (le_leadingAcks n more))]
    · rw [if_neg (by omega), if_pos hzero]
    · rw [if_neg (by omega), if_neg (by omega), if_pos (by omega)]
    · rw [if_neg (by omega), if_neg (by omega), if_neg (by omega), Nat.sub_sub]
  · intro bytes
    have hbytes : r.sentBytes = bytes := by
      rw [sentBytes_write hkind, offsets_eq hoff, addressByte_write]
      rfl
    simp only [busItems_write hkind, hbytes, leadingAcks_of_refusal]
    refine ⟨fun hall => ?_, fun hlow => ?_⟩
    · rw [if_neg (by have := le_leadingAcks n more; omega)]
      rfl
    · rw [if_pos hlow]
      rfl
  · rw [drives_byte]
    exact clockDrives_getElem? _ hm (by simp [hk])

/-- Settles O15: the results; the items without and with offset bytes; the drives of a byte received. -/
theorem readEndsByItsAcknowledges : Obligations.ReadEndsByItsAcknowledges := by
  refine ⟨fun n more rx s w hout hstate hwork hkind hoff => ?_, fun r n more hkind hoff => ?_,
    fun acknowledged => ⟨?_, fun k hk m hm => ?_⟩⟩
  · have hread : w.req.kind ≠ .write := by rw [hkind]; decide
    intro sent
    simp only [exec_transactionEnd _ rx hout hstate hwork, if_neg hread, readResult_eq hread hoff, leadingAcks_of_refusal]
    refine ⟨fun hall => ?_, fun hzero => ?_, fun hpos hlow => ?_, fun hdata hlow => ?_⟩
    · rw [if_pos (hall.trans (le_leadingAcks n more))]
    · rw [if_neg (by split <;> omega), if_pos hzero]
    · rw [if_neg (by split <;> omega), if_neg (by omega), if_pos (by omega)]
    · rw [if_neg (show ¬ sent ≤ n by omega), if_neg (by omega), if_neg (by omega)]
  · intro opening readAddress taken
    have htaken : receiveItems r.length.toNat ++ [.stop] = taken := by simp [receiveItems, taken]
    have hall := le_leadingAcks n more
    refine ⟨fun hzero => ?_, fun hoffsets => ?_⟩
    · have hnil : r.offsets = [] := by rw [offsets_eq hoff, if_pos hzero]
      simp only [busItems_read_short hkind hnil, leadingAcks_of_refusal, htaken]
      refine ⟨fun hpos => ?_, fun hn => ?_⟩
      · rw [if_neg (by omega)]
        rfl
      · rw [if_pos hn]
        rfl
    · have hopening : addressByte r.target false :: r.offsets = opening := by
        rw [offsets_eq hoff, if_neg hoffsets, addressByte_write]
      have hlength : r.offsets.length + 1 = opening.length := by rw [← hopening, List.length_cons]
      have hne : r.offsets ≠ [] := by
        rw [offsets_eq hoff, if_neg hoffsets]
        split <;> simp
      simp only [busItems_read_long hkind hne, leadingAcks_of_refusal, htaken, hopening, hlength]
      refine ⟨fun hover => ?_, fun hat => ?_, fun hlow => ?_⟩
      · rw [if_neg (by omega), if_neg (by omega)]
        simp [readAddress, addressByte_read]
      · rw [if_neg (by omega), if_pos hat]
        simp [readAddress, addressByte_read]
      · rw [if_pos hlow]
        rfl
  · cases acknowledged <;> rfl
  · rw [drives_receive]
    exact clockDrives_getElem? _ hm (by simp [hk])

end Sys2Proof.Proofs.Transfers

/-! Recovery, the return of results, and the purge at an entry to FAULTED (chapters 2 and 3). -/

namespace Sys2Proof.Proofs.Recovery
open Sys2Proof Sys2Proof.Machine Sys2Proof.Proofs.Rows

/-! Recovery (R55, R61 to R63, R67). -/

theorem recoveryPulses_of_initial {x : RecoverySamples} (h : x.initial = true) : recoveryPulses x = some 0 := if_pos h

theorem recoveryPulses_of_low {x : RecoverySamples} (h : x.initial = false) :
    recoveryPulses x = ((x.afterPulse.take 9).findIdx? id).map (· + 1) := by
  rw [recoveryPulses, h, if_neg (by decide)]
  cases (x.afterPulse.take 9).findIdx? id <;> rfl

theorem recoveryPulses_isSome (x : RecoverySamples) :
    (recoveryPulses x).isSome = true ↔ x.initial = true ∨ true ∈ x.afterPulse.take 9 := by
  cases h : x.initial with
  | true => simp [recoveryPulses_of_initial h]
  | false =>
    rw [recoveryPulses_of_low h, Option.isSome_map, List.findIdx?_isSome]
    simp

theorem recoveryCause_eq_none_iff (x : RecoverySamples) :
    recoveryCause x = none ↔ (x.initial = true ∨ true ∈ x.afterPulse.take 9) ∧ x.afterStop = true := by
  rw [← recoveryPulses_isSome, recoveryCause]
  cases recoveryPulses x <;> simp

theorem recoveryCause_of_not_freed {x : RecoverySamples}
    (h : ¬ ((x.initial = true ∨ true ∈ x.afterPulse.take 9) ∧ x.afterStop = true)) : recoveryCause x = some .sdaLow := by
  rw [← recoveryCause_eq_none_iff, recoveryCause] at h
  rw [recoveryCause]
  cases hpulses : recoveryPulses x with
  | none => rfl
  | some n =>
    rw [hpulses] at h
    exact if_neg fun hstop => h (if_pos hstop)

theorem exec_recoveryEnd (x : RecoverySamples) {s : State} {w : Work} (hout : s.inReset = false)
    (hstate : s.dbc.state = .recovering) (hwork : s.dbc.work = some w) :
    exec (.recoveryEnd x) s = .next (endWork (recoveredAnswer w (recoveryCause x).isNone) (recoveryCause x) s) := by
  rw [exec_of_onChip (f := recoveryEnd x) hout rfl, recoveryEnd, hstate, endRecovery, hwork]

theorem recoveredAnswer_write {w : Work} (h : w.req.kind = .write) (freed : Bool) :
    recoveredAnswer w freed = ⟨.busStuck, w.acked, 0, []⟩ := by
  rw [recoveredAnswer, h]

theorem recoveredAnswer_read {w : Work} (h : w.req.kind = .read) (freed : Bool) :
    recoveredAnswer w freed = ⟨.busStuck, w.got.length, 0, w.got⟩ := by
  rw [recoveredAnswer, h]

theorem recoveredAnswer_busRecover {w : Work} (h : w.req.kind = .busRecover) (freed : Bool) :
    recoveredAnswer w freed = ⟨if freed then .ok else .busStuck, 0, 0, []⟩ := by
  rw [recoveredAnswer, h]
  rfl

theorem exec_stuckAtStart {s : State} {w : Work} (hout : s.inReset = false) (hstate : s.dbc.state = .active)
    (hwork : s.dbc.work = some w) :
    exec .stuckAtStart s = .next (startRecovery .sdaLow { w with acked := 0, got := [] } s) := by
  rw [exec_of_onChip (f := stuckAtStart) hout rfl, stuckAtStart, hstate, hwork]

theorem exec_stretchLimit (release : SclRelease) (rx : List Byte) {s : State} (hout : s.inReset = false) :
    exec (.stretchLimit release rx) s = .next (stretchLimit release rx s) := exec_of_onChip hout rfl

theorem stretchLimit_of_write (release : SclRelease) (rx : List Byte) {s : State} {w : Work} {began : Moment}
    (hstate : s.dbc.state = .active) (hwork : s.dbc.work = some w) (hbegan : s.dbc.stretch = some began)
    (hkind : w.req.kind = .write) :
    stretchLimit release rx s =
      startRecovery .sclLow { w with acked := w.req.dataAcked (leadingAcks release.acks), got := [] }
        (s.reach (began + release.moment + 25000)) := by
  simp only [stretchLimit, hstate, hwork, hbegan, if_pos hkind]
  rfl

theorem stretchLimit_of_read (release : SclRelease) (rx : List Byte) {s : State} {w : Work} {began : Moment}
    (hstate : s.dbc.state = .active) (hwork : s.dbc.work = some w) (hbegan : s.dbc.stretch = some began)
    (hkind : w.req.kind ≠ .write) :
    stretchLimit release rx s =
      startRecovery .sclLow { w with
          acked := 0
          got := if w.req.bytesSent ≤ leadingAcks release.acks then rx.take w.req.length.toNat else [] }
        (s.reach (began + release.moment + 25000)) := by
  simp only [stretchLimit, hstate, hwork, hbegan, if_neg hkind]
  rfl

theorem stretchLimit_of_recovering (release : SclRelease) (rx : List Byte) {s : State} {w : Work} {began : Moment}
    (hstate : s.dbc.state = .recovering) (hwork : s.dbc.work = some w) (hbegan : s.dbc.stretch = some began) :
    stretchLimit release rx s =
      endWork (recoveredAnswer w false) (some .sclLow) (s.reach (began + release.moment + 25000)) := by
  simp only [stretchLimit, hstate, hwork, hbegan, endRecovery, State.reach]
  rfl

theorem recoveryDrives_of_some {x : RecoverySamples} {n : Nat} (h : recoveryPulses x = some n) :
    recoveryDrives x = ⟨true, true⟩ :: ((List.replicate n [⟨false, true⟩, ⟨true, true⟩]).flatten ++
      [⟨false, true⟩, ⟨false, false⟩, ⟨true, false⟩, ⟨true, true⟩]) := by
  simp [recoveryDrives, recoveryItems, h, busDrives, List.flatMap_def, BusItem.drives]

theorem recoveryDrives_of_none {x : RecoverySamples} (h : recoveryPulses x = none) :
    recoveryDrives x = ⟨true, true⟩ :: (List.replicate 9 [⟨false, true⟩, ⟨true, true⟩]).flatten := by
  rw [recoveryDrives, recoveryItems, h]
  rfl

/-- The first high sample among nine is the pulse that frees SDA. -/
theorem recoveryPulses_of_first_high {x : RecoverySamples} {n : Nat} (hinitial : x.initial = false) (hn : n < 9)
    (hhigh : x.afterPulse[n]? = some true) (hlow : ∀ k, k < n → x.afterPulse[k]? = some false) :
    recoveryPulses x = some (n + 1) := by
  have found : (x.afterPulse.take 9).findIdx? id = some n := by
    obtain ⟨hlt, hval⟩ := List.getElem?_eq_some_iff.mp hhigh
    rw [List.findIdx?_eq_some_iff_getElem]
    refine ⟨by rw [List.length_take]; omega, by simpa using hval, fun k hk => ?_⟩
    obtain ⟨_, hk'⟩ := List.getElem?_eq_some_iff.mp (hlow k hk)
    simpa using hk'
  rw [recoveryPulses_of_low hinitial, found]
  rfl

/-- Settles O16: the ways into recovery, its end by what it read, and the settings of the lines. -/
theorem stuckBusIsRecoveredOrFaulted : Obligations.StuckBusIsRecoveredOrFaulted := by
  refine ⟨fun release rx s w hout hwork => ⟨fun hstate => exec_stuckAtStart hout hstate hwork,
      fun began hstate hbegan => ⟨fun hkind => ?_, fun hkind => ?_⟩, fun began hstate hbegan => ?_⟩,
    fun x s w hout hstate hwork => ?_, fun x => ?_⟩
  · rw [exec_stretchLimit release rx hout, stretchLimit_of_write release rx hstate hwork hbegan hkind]
    rfl
  · rw [exec_stretchLimit release rx hout, stretchLimit_of_read release rx hstate hwork hbegan hkind]
    rfl
  · rw [exec_stretchLimit release rx hout, stretchLimit_of_recovering release rx hstate hwork hbegan]
  · intro freed
    rw [exec_recoveryEnd x hout hstate hwork]
    refine ⟨fun hfreed => ?_, fun hstuck => ?_⟩
    · rw [(recoveryCause_eq_none_iff x).mpr hfreed]
      refine ⟨fun hkind => ?_, fun hkind => ?_, fun hkind => ?_⟩
      · rw [recoveredAnswer_busRecover hkind]; rfl
      · rw [recoveredAnswer_write hkind]
      · rw [recoveredAnswer_read hkind]
    · rw [recoveryCause_of_not_freed hstuck]
      refine ⟨fun hkind => ?_, fun hkind => ?_, fun hkind => ?_⟩
      · rw [recoveredAnswer_busRecover hkind]; rfl
      · rw [recoveredAnswer_write hkind]
      · rw [recoveredAnswer_read hkind]
  · intro pulses stop
    refine ⟨fun hinitial => ?_, fun n hn hinitial hhigh hlow => ?_, fun hinitial hlow => ?_⟩
    · rw [recoveryDrives_of_some (recoveryPulses_of_initial hinitial)]
      rfl
    · rw [recoveryDrives_of_some (recoveryPulses_of_first_high hinitial hn hhigh hlow)]
    · refine recoveryDrives_of_none (Option.not_isSome_iff_eq_none.mp fun hsome => ?_)
      rcases (recoveryPulses_isSome x).mp hsome with h | h
      · rw [hinitial] at h; cases h
      · exact hlow h

end Sys2Proof.Proofs.Recovery

/-! Several answers one after another: completions of tags, answers of Incoming Queue entries. -/

namespace Sys2Proof.Proofs.Answers
open Sys2Proof Sys2Proof.Machine Sys2Proof.Laws.RequestInv

/-- R19: the completion record of tag `t` under an answer. -/
def completionOf (s : State) (t : Tag) (a : Answer) : Completion :=
  ⟨t, s.rt.tags[t].gen, s.rt.tags[t].req.kind, s.rt.tags[t].req.side, a⟩

theorem completeTag_tags (t u : Tag) (a : Answer) (s : State) :
    (completeTag t a s).rt.tags[u] = if t = u then { s.rt.tags[t] with state := .done, due := none } else s.rt.tags[u] :=
  vput_at _ _ _ _

theorem completionOf_completeTag (t u : Tag) (a b : Answer) (s : State) :
    completionOf (completeTag t a s) u b = completionOf s u b := by
  unfold completionOf
  rw [completeTag_tags]
  by_cases h : t = u
  · subst h; rw [if_pos rfl]
  · rw [if_neg h]

theorem completeAll_cons (t : Tag) (ts : List Tag) (st : Status) (s : State) :
    completeAll (t :: ts) st s = completeAll ts st (completeTag t (bare st) s) := rfl

theorem completeAll_tags (ts : List Tag) (st : Status) (s : State) (u : Tag) :
    (completeAll ts st s).rt.tags[u] = if u ∈ ts then { s.rt.tags[u] with state := .done, due := none } else s.rt.tags[u] := by
  induction ts generalizing s with
  | nil => simp [completeAll]
  | cons t ts ih =>
    rw [completeAll_cons, ih, completeTag_tags]
    by_cases h : t = u
    · subst h
      by_cases hmem : t ∈ ts <;> simp [hmem]
    · simp [h, Ne.symm h]

theorem filter_not_mem_cons {α : Type} [DecidableEq α] (a : α) (as l : List α) :
    (l.filter (· ≠ a)).filter (fun x => decide (x ∉ as)) = l.filter (fun x => decide (x ∉ a :: as)) := by
  rw [List.filter_filter]
  exact List.filter_congr fun x _ => by simp [Bool.and_comm]

theorem completeAll_order (ts : List Tag) (st : Status) (s : State) :
    (completeAll ts st s).rt.order = s.rt.order.filter fun t => decide (t ∉ ts) := by
  induction ts generalizing s with
  | nil => simp [completeAll]
  | cons t ts ih =>
    rw [completeAll_cons, ih]
    exact filter_not_mem_cons t ts s.rt.order

theorem completeAll_cq (ts : List Tag) (st : Status) (s : State) :
    (completeAll ts st s).rt.cq = s.rt.cq ++ ts.map fun t => completionOf s t (bare st) := by
  induction ts generalizing s with
  | nil => simp [completeAll]
  | cons t ts ih =>
    rw [completeAll_cons, ih]
    simp only [completionOf_completeTag, List.map_cons]
    exact List.append_assoc s.rt.cq [_] _

theorem completeAll_cancelList (ts : List Tag) (st : Status) (s : State) :
    (completeAll ts st s).fe.cancelList = s.fe.cancelList.filter fun x => decide (x.1 ∉ ts) := by
  induction ts generalizing s with
  | nil => simp [completeAll]
  | cons t ts ih =>
    rw [completeAll_cons, ih]
    change (s.fe.cancelList.filter (·.1 ≠ t)).filter _ = _
    rw [List.filter_filter]
    exact List.filter_congr fun x _ => by simp [Bool.and_comm]

theorem completeAll_fe (ts : List Tag) (st : Status) (s : State) :
    (completeAll ts st s).fe = { s.fe with cancelList := s.fe.cancelList.filter fun x => decide (x.1 ∉ ts) } := by
  rw [← completeAll_cancelList]
  induction ts generalizing s with
  | nil => rfl
  | cons t ts ih => rw [completeAll_cons, ih]; rfl

/-! Answers of WAITING entries (R139). -/

/-- Entry `i` is WAITING. -/
def Waits (s : State) (i : Slot) : Prop := ∃ e due, s.iq.slots[i] = some e ∧ e.state = .waiting due

theorem answerSlot_of_waiting {i : Slot} {s : State} {e : SlotEntry} {due : Moment} (a : Answer)
    (he : s.iq.slots[i] = some e) (hstate : e.state = .waiting due) :
    answerSlot i a s = { s with
      iq.slots := vput s.iq.slots i (some { e with state := .answered a })
      iq.answerOrder := s.iq.answerOrder ++ [i] } := by
  simp only [answerSlot, he, hstate]

/-- Every WAITING entry of a list answered, one after another. -/
theorem answerAll_of_waiting (is : List Slot) (a : Answer) (s : State) (hnodup : is.Nodup) (hwaits : ∀ i ∈ is, Waits s i) :
    let u := is.foldl (fun s i => answerSlot i a s) s
    u.iq.answerOrder = s.iq.answerOrder ++ is ∧
    (∀ i ∈ is, ∃ e, s.iq.slots[i] = some e ∧ u.iq.slots[i] = some { e with state := .answered a }) ∧
    (∀ i : Slot, i ∉ is → u.iq.slots[i] = s.iq.slots[i]) := by
  induction is generalizing s with
  | nil => exact ⟨(List.append_nil _).symm, fun i hi => absurd hi (by simp), fun _ _ => rfl⟩
  | cons i is ih =>
    obtain ⟨hi, his⟩ := List.nodup_cons.mp hnodup
    obtain ⟨e, due, he, hstate⟩ := hwaits i (by simp)
    have first := answerSlot_of_waiting a he hstate
    have other (j : Slot) (hj : j ≠ i) : (answerSlot i a s).iq.slots[j] = s.iq.slots[j] := by
      rw [first]; exact (vput_at _ _ _ _).trans (if_neg (Ne.symm hj))
    have self : (answerSlot i a s).iq.slots[i] = some { e with state := .answered a } := by
      rw [first]; exact (vput_at _ _ _ _).trans (if_pos rfl)
    have apart {j : Slot} (hj : j ∈ is) : j ≠ i := fun h => hi (h ▸ hj)
    obtain ⟨horder, hin, hout⟩ := ih (answerSlot i a s) his fun j hj => by
      obtain ⟨e', due', he', hstate'⟩ := hwaits j (List.mem_cons_of_mem _ hj)
      exact ⟨e', due', (other j (apart hj)).trans he', hstate'⟩
    refine ⟨?_, fun j hj => ?_, fun j hj => ?_⟩
    · rw [List.foldl_cons, horder, first]
      simp
    · rcases List.mem_cons.mp hj with rfl | hj
      · exact ⟨e, he, (hout j hi).trans self⟩
      · obtain ⟨e', he', hu⟩ := hin j hj
        exact ⟨e', (other j (apart hj)).symm.trans he', hu⟩
    · exact (hout j fun h => hj (List.mem_cons_of_mem _ h)).trans (other j fun h => hj (h ▸ List.mem_cons_self))

end Sys2Proof.Proofs.Answers

/-! The end of bus work (R33, R46). -/

namespace Sys2Proof.Proofs.BusWork
open Sys2Proof Sys2Proof.Machine Sys2Proof.Laws.RequestInv Sys2Proof.Proofs.Answers

theorem returned_of_work {a : Answer} {s : State} {w : Work} (h : s.dbc.work = some w) :
    returned a s = routeResult w.ref a s := by
  rw [returned, h]

theorem routeResult_tag_of_executing {a : Answer} {s : State} {t : Tag} {g : Gen}
    (hstate : s.rt.tags[t].state = .executing) (hgen : s.rt.tags[t].gen = g) :
    routeResult (.tag t g) a s = completeTag t a s := if_pos ⟨hstate, hgen⟩

theorem routeResult_tag_of_other {a : Answer} {s : State} {t : Tag} {g : Gen}
    (h : s.rt.tags[t].state ≠ .executing ∨ s.rt.tags[t].gen ≠ g) : routeResult (.tag t g) a s = s :=
  if_neg fun ⟨hstate, hgen⟩ => h.elim (· hstate) (· hgen)

theorem routeResult_slot_of_executing {a : Answer} {s : State} {i : Slot} {e : SlotEntry}
    (he : s.iq.slots[i] = some e) (hstate : e.state = .executing) :
    routeResult (.slot i) a s = { s with
      iq.slots := vput s.iq.slots i (some { e with state := .answered a })
      iq.answerOrder := s.iq.answerOrder ++ [i] } := by
  simp only [routeResult, answerSlot, he, hstate]

theorem routeResult_slot_of_detached {a : Answer} {s : State} {i : Slot} {e : SlotEntry}
    (he : s.iq.slots[i] = some e) (hstate : e.state = .detached) : routeResult (.slot i) a s = dropSlot i s := by
  simp only [routeResult, he, hstate]

theorem remoteTransfer_eq (s : State) (i : Slot) :
    remoteTransfer s i = (s.iq.slots[i].map (·.req.kind.isTransfer)).getD false := by
  rw [remoteTransfer]
  cases s.iq.slots[i] <;> rfl

/-- R46: the LOCAL tags and REMOTE entries an entry to FAULTED answers. -/
def purgedTags (s : State) : List Tag := s.da.localList.filter (localTransfer s)

def purgedSlots (s : State) : List Slot := s.da.remoteList.filter (remoteTransfer s)

/-- The lists without them. -/
def purgedLists (s : State) : State := { s with
  da.localList := s.da.localList.filter fun t => !localTransfer s t
  da.remoteList := s.da.remoteList.filter fun i => !remoteTransfer s i }

theorem faultPurge_eq (s : State) :
    faultPurge s = (purgedSlots s).foldl (fun s i => answerSlot i (bare .busFaulted) s)
      (completeAll (purgedTags s) .busFaulted (purgedLists s)) := rfl

/-- The answers of the entries, over what the completions have made. -/
theorem faultPurge_parts (s : State) :
    (faultPurge s).rt = (completeAll (purgedTags s) .busFaulted (purgedLists s)).rt ∧
    (faultPurge s).fe = (completeAll (purgedTags s) .busFaulted (purgedLists s)).fe ∧
    (faultPurge s).da = (purgedLists s).da := by
  rw [faultPurge_eq, answerAll_fold]
  exact ⟨rfl, rfl, by simp⟩

/-- With QUEUED tags alone in the LOCAL list, the purge finds no CANCEL to withdraw. -/
theorem cancelList_keeps_purged {s : State} (h : RequestInv s) :
    (s.fe.cancelList.filter fun x => decide (x.1 ∉ purgedTags s)) = s.fe.cancelList := by
  obtain ⟨-, -, -, -, -, -, -, hqueued, -, -, hcancel, -⟩ := h
  refine List.filter_eq_self.mpr fun x hx => decide_eq_true fun hmem => ?_
  have hlocal := (hqueued x.1).mpr (List.mem_filter.mp hmem).1
  rw [(hcancel x hx).1] at hlocal
  cases hlocal

theorem purgedSlots_wait {s : State} (h : IncomingInv s) :
    (purgedSlots s).Nodup ∧ ∀ i ∈ purgedSlots s, Waits s i := by
  obtain ⟨-, -, hnodup, hwaiting, -⟩ := h
  exact ⟨hnodup.filter _, fun i hi => (hwaiting i).mpr (List.mem_filter.mp hi).1⟩

/-- Settles O17: the end by its cause, the result by its requester, the purge by its completions and its answers. -/
theorem endOfBusWorkReturnsTheResult : Obligations.EndOfBusWorkReturnsTheResult := by
  refine ⟨fun a c s w hwork => ?_, fun a s => ⟨fun t g => routeResult_tag_of_executing,
    fun t g => routeResult_tag_of_other, fun i e he => ⟨fun hstate => ?_, fun hstate => ?_⟩⟩, fun s hreq hinc => ?_⟩
  · intro after
    refine ⟨?_, fun hfault => ?_, fun hfault => ?_, rfl, rfl⟩
    · rw [endWork_none, returned_of_work hwork]; rfl
    · rw [endWork_some, if_pos hfault, returned_of_work hwork]; rfl
    · rw [endWork_some, if_neg (by simp [hfault]), returned_of_work hwork]; rfl
  · exact routeResult_slot_of_executing he hstate
  · exact routeResult_slot_of_detached he hstate
  · intro gone away u
    have hgone : gone = purgedTags s := rfl
    have haway : away = purgedSlots s := List.filter_congr fun i _ => (remoteTransfer_eq s i).symm
    obtain ⟨hrt, hfe, hda⟩ := faultPurge_parts s
    obtain ⟨hnodup, hwaits⟩ := purgedSlots_wait hinc
    have hiq : (completeAll (purgedTags s) .busFaulted (purgedLists s)).iq = s.iq := by simp [purgedLists]
    obtain ⟨horder, hin, hout⟩ := answerAll_of_waiting (purgedSlots s) (bare .busFaulted)
      (completeAll (purgedTags s) .busFaulted (purgedLists s)) hnodup
      fun i hi => by rw [Waits, hiq]; exact hwaits i hi
    rw [hiq] at horder hin hout
    have htag (t : Tag) := (congrArg (fun r : RequestTable => r.tags[t]) hrt).trans
      (completeAll_tags (purgedTags s) .busFaulted (purgedLists s) t)
    refine ⟨?_, ?_, ?_, ?_, ?_, ?_, ?_, ?_, fun t ht => ?_, fun t ht => ?_, ?_, ?_, ?_, ?_, ?_, ?_, ?_, ?_, ?_, ?_⟩
    · rw [hda]
      simp only [← remoteTransfer_eq]
      rfl
    · rw [hrt, completeAll_order]; rfl
    · simp [u]
    · rw [hfe, completeAll_fe]
      exact congrArg (fun l => { s.fe with cancelList := l }) (cancelList_keeps_purged hreq)
    iterate 3 simp [u]
    · rw [hrt, completeAll_cq]; rfl
    · exact (htag t).trans (if_pos ht)
    · exact (htag t).trans (if_neg ht)
    · rw [haway]; exact horder
    · rw [haway]; exact hin
    · rw [haway]; exact hout
    all_goals simp [u]

end Sys2Proof.Proofs.BusWork

/-! A sequenced frame that is delivered: the way from the pair to its block (R119, R120, R127, R129). -/

namespace Sys2Proof.Proofs.Delivery
open Sys2Proof Sys2Proof.Machine

theorem not_isLink_of_sequenced {k : FrameKind} (h : k.sequenced = true) : k.isLink = false := by
  cases k <;> first | rfl | cases h

theorem frameRole_of_sequenced {k : FrameKind} (p : List Byte) (h : k.sequenced = true) : frameRole k p = none := by
  simp [frameRole, not_isLink_of_sequenced h]

theorem followerTurn_of_sequenced {k : FrameKind} (h : FrameHeader) (p : List Byte) (s : State) (hk : k.sequenced = true) :
    followerTurn k h p s = takeFrame k h p (oweReply k (restartSilence s)) := by
  cases k <;> first | rfl | cases hk

theorem goInWindow_eq_false {s : State} (h : ∀ f ∈ s.fe.window, f.kind ≠ .testGo) : goInWindow s = false := by
  simpa [goInWindow] using h

theorem thenDo_id (o : Host.Outcome State Fault Refusal) : thenDo (fun t => t) o = o := by
  cases o <;> rfl

/-- With no TEST_GO in the window, an expected sequenced frame is delivered behind its header. -/
theorem takeFrame_of_expected {k : FrameKind} {h : FrameHeader} (p : List Byte) {s : State} (hk : k.sequenced = true)
    (hseq : h.seq = s.fe.expected) (hgo : ∀ f ∈ s.fe.window, f.kind ≠ .testGo) :
    takeFrame k h p s = deliver k p { takeHeader h s with fe.expected := s.fe.expected + 1 } := by
  have hexpected : (takeHeader h s).fe.expected = s.fe.expected := by simp
  have hnone : (goInWindow s && !goInWindow (takeHeader h s)) = false := by simp [goInWindow_eq_false hgo]
  have hdistance : (h.seq - (takeHeader h s).fe.expected).toNat = 0 := by simp [hseq]
  unfold takeFrame
  dsimp only
  rw [not_isLink_of_sequenced hk, hnone, hk, takeSequenced, hdistance, hexpected]
  exact thenDo_id _

theorem receive_of_good {k : FrameKind} {h : FrameHeader} {p : List Byte} {s : State} (hout : s.inReset = false)
    (hsending : s.fe.sending = none) (htest : s.slc.state ≠ .test) (hgood : frameGood k h p = true) :
    receive k h p s = match s.slc.role with
      | .leader => leaderTakes k h p s
      | .follower => followerTakes k h p s := by
  have hdeaf : deaf s = false := by simp [deaf, hout, hsending]
  unfold receive
  rw [hdeaf, if_neg (by decide), if_neg htest, hgood, if_neg (by decide)] <;> rfl

theorem leaderTakes_in_turn {k : FrameKind} (h : FrameHeader) (p : List Byte) {s : State}
    (hstate : s.slc.state = .run ∨ s.slc.state = .drain) (hrole : frameRole k p ≠ some .leader)
    (hopen : s.fe.awaitReply.isSome = true) : leaderTakes k h p s = takeFrame k h p (turnAnswered k h s) := by
  rcases hstate with hstate | hstate <;> simp [leaderTakes, hstate, hrole, hopen]

theorem followerTakes_in_turn {k : FrameKind} (h : FrameHeader) (p : List Byte) {s : State}
    (hstate : s.slc.state = .run ∨ s.slc.state = .drain) (hrole : frameRole k p ≠ some .follower) :
    followerTakes k h p s = followerTurn k h p s := by
  rcases hstate with hstate | hstate <;> simp [followerTakes, hstate, hrole]

theorem turnAnswered_of_sequenced {k : FrameKind} (h : FrameHeader) (s : State) (hk : k.sequenced = true) :
    turnAnswered k h s = { s with
      slc.missed := 0, fe.awaitReply := none, fe.earliest := s.now + 2, fe.hurry := true } := by
  cases k <;> first | rfl | cases hk

theorem oweReply_of_sequenced {k : FrameKind} (s : State) (hk : k.sequenced = true) :
    oweReply k (restartSilence s) = { s with
      slc.silence := some (s.now + 2000), fe.replyDue := some (s.now + 2), fe.replyHello := false } := by
  cases k <;> first | rfl | cases hk

/-- A frame delivered at `s` reaches its block in `s1`. -/
theorem receive_of_deliveredAt {k : FrameKind} {h : FrameHeader} {p : List Byte} {s s1 : State}
    (hd : DeliveredAt k h p s s1) : receive k h p s = deliver k p s1 := by
  obtain ⟨hout, hsending, hstate, hk, hgood, hseq, hgo, s0, hturn, rfl⟩ := hd
  have htest : s.slc.state ≠ .test := by rcases hstate with h | h <;> rw [h] <;> decide
  rw [receive_of_good hout hsending htest hgood]
  rcases hturn with ⟨hrole, hopen, rfl⟩ | ⟨hrole, rfl⟩ <;> rw [hrole]
  · exact (leaderTakes_in_turn h p hstate (by simp [frameRole_of_sequenced p hk]) hopen).trans
      (turnAnswered_of_sequenced h s hk ▸ takeFrame_of_expected p hk hseq hgo)
  · refine (followerTakes_in_turn h p hstate (by simp [frameRole_of_sequenced p hk])).trans ?_
    rw [followerTurn_of_sequenced h p s hk, oweReply_of_sequenced s hk]
    exact takeFrame_of_expected p hk hseq hgo

end Sys2Proof.Proofs.Delivery

/-! LINE_CONFIG and LINE_SAMPLE (chapter 4). -/

namespace Sys2Proof.Proofs.LineSettings
open Sys2Proof Sys2Proof.Machine Sys2Proof.Laws.RequestInv Sys2Proof.Proofs.Lines

theorem vput_self {α : Type} {n : Nat} (v : Vector α n) (i : Fin n) : vput v i v[i] = v :=
  vector_ext _ _ fun j => by
    rw [vput_at]
    split
    · rename_i h; rw [h]
    · rfl

/-! The entry into a mode (R79). -/

theorem enterMode_new_output {old : LineMode} {r : LineRecord} (h : r.mode = .outputPp ∨ r.mode = .outputOd)
    (hpp : old ≠ .outputPp) (hod : old ≠ .outputOd) : enterMode old r = { r with out := r.level } := by
  have hold : old.isOutput = false := by cases old <;> first | rfl | exact absurd rfl hpp | exact absurd rfl hod
  rcases h with h | h <;> simp [enterMode, h, hold]

theorem enterMode_same_output {old : LineMode} {r : LineRecord} (h : r.mode = .outputPp ∨ r.mode = .outputOd)
    (hold : old = .outputPp ∨ old = .outputOd) : enterMode old r = r := by
  rcases h with h | h <;> rcases hold with rfl | rfl <;> simp [enterMode, h, LineMode.isOutput]

theorem enterMode_new_mirrorRecv {old : LineMode} {r : LineRecord} (h : r.mode = .mirrorRecv) (hold : old ≠ .mirrorRecv) :
    enterMode old r = { r with receiving := false } := by
  simp [enterMode, h, hold]

theorem enterMode_new_testFlag {old : LineMode} {r : LineRecord} (h : r.mode = .testFlag) (hold : old ≠ .testFlag) :
    enterMode old r = { r with flagErr := false } := by
  simp [enterMode, h, hold]

theorem enterMode_same_receiver {old : LineMode} {r : LineRecord} (h : r.mode = .mirrorRecv ∨ r.mode = .testFlag)
    (hold : old = r.mode) : enterMode old r = r := by
  subst hold
  rcases h with h | h <;> simp [enterMode, h]

theorem enterMode_plain {old : LineMode} {r : LineRecord}
    (h : r.mode = .input ∨ r.mode = .mirrorSend ∨ r.mode = .parked) : enterMode old r = r := by
  rcases h with h | h | h <;> simp [enterMode, h]

/-- R79: the entry by the mode before and the mode that was set. -/
theorem enterMode_by_mode {mode : LineMode} (old : LineMode) {settled : LineRecord} (hmode : settled.mode = mode) :
    let after := enterMode old settled
    ((mode = .outputPp ∨ mode = .outputOd) → old ≠ .outputPp → old ≠ .outputOd →
      after = { settled with out := settled.level }) ∧
    ((mode = .outputPp ∨ mode = .outputOd) → (old = .outputPp ∨ old = .outputOd) → after = settled) ∧
    (mode = .mirrorRecv → old ≠ .mirrorRecv → after = { settled with receiving := false }) ∧
    (mode = .testFlag → old ≠ .testFlag → after = { settled with flagErr := false }) ∧
    ((mode = .mirrorRecv ∨ mode = .testFlag) → old = mode → after = settled) ∧
    ((mode = .input ∨ mode = .mirrorSend ∨ mode = .parked) → after = settled) := by
  subst hmode
  exact ⟨enterMode_new_output, enterMode_same_output, enterMode_new_mirrorRecv, enterMode_new_testFlag,
    enterMode_same_receiver, enterMode_plain⟩

/-! The six settings (R78) and the debounce timing (R83). -/

/-- R78: a record with the six settings written. -/
def writtenRecord (c : LineSettings) (r : LineRecord) : LineRecord :=
  { r with
    mode := c.mode, debounce := c.debounce, report := c.report, fallback := c.fallback, partner := c.partner,
    style := c.style }

theorem lineConfig_of_not_owner {o : Origin} {c : LineSettings} {s : State} (h : s.lb.lines[c.line].owner ≠ some o) :
    lineConfig o c s = (.notOwner, s) := if_pos h

/-- R79: a line settled with its settings and its timing, then entered into its mode. -/
theorem lineConfig_of_owner {o : Origin} {c : LineSettings} {s u : State} {settled : LineRecord}
    (howner : s.lb.lines[c.line].owner = some o)
    (hsettled : retime c.line s.lb.lines[c.line].debounce (setLine c.line (writtenRecord c s.lb.lines[c.line]) s) =
      { u with lb.lines := vput u.lb.lines c.line settled }) :
    lineConfig o c s = (.ok, { u with
      lb.lines := vput u.lb.lines c.line (enterMode s.lb.lines[c.line].mode settled)
      lb.mirrorPending := u.lb.mirrorPending || decide (c.mode = .mirrorSend) }) := by
  have entered : setLine c.line (enterMode s.lb.lines[c.line].mode settled)
      { u with lb.lines := vput u.lb.lines c.line settled } =
      { u with lb.lines := vput u.lb.lines c.line (enterMode s.lb.lines[c.line].mode settled) } := by
    rw [setLine]
    exact congrArg (fun v => { u with lb.lines := v }) (vput_vput _ _ _ _)
  have line : (vput u.lb.lines c.line settled)[c.line] = settled := vput_get_self _ _ _
  unfold lineConfig
  dsimp only
  rw [if_neg (not_not.mpr howner)]
  change (Status.ok, if c.mode = .mirrorSend then _ else _) = _
  simp only [writtenRecord] at hsettled
  rw [hsettled, line, entered]
  by_cases hmirror : c.mode = .mirrorSend <;> simp [hmirror]

theorem setLine_line (l : LineNo) (r : LineRecord) (s : State) : (setLine l r s).lb.lines[l] = r := vput_get_self _ _ _

theorem retime_of_kept {l : LineNo} {old : Nat} {r : LineRecord} {s : State} (h : r.timing = none ∨ r.debounce = old) :
    retime l old (setLine l r s) = setLine l r s := by
  unfold retime
  dsimp only
  rw [setLine_line, if_pos (by simpa using h)]

theorem retime_of_zero {l : LineNo} {old : Nat} {r : LineRecord} {s : State} (htimed : r.timing ≠ none)
    (hnew : r.debounce ≠ old) (hzero : r.debounce = 0) :
    retime l old (setLine l r s) = takeLevel l r.pin (setLine l r s) := by
  unfold retime
  dsimp only
  rw [setLine_line, if_neg (by simpa using ⟨htimed, hnew⟩), if_pos hzero]

theorem retime_of_positive {l : LineNo} {old : Nat} {r : LineRecord} {s : State} (htimed : r.timing ≠ none)
    (hnew : r.debounce ≠ old) (hpos : r.debounce ≠ 0) :
    retime l old (setLine l r s) = setLine l { r with timing := some (s.now + r.debounce * 1000) } s := by
  unfold retime
  dsimp only
  rw [setLine_line, if_neg (by simpa using ⟨htimed, hnew⟩), if_neg hpos]
  exact congrArg (fun v => { s with lb.lines := v }) (vput_vput _ _ _ _)

theorem takeLevel_lines (l : LineNo) (v : Bool) (s : State) :
    (takeLevel l v s).lb.lines = vput s.lb.lines l { s.lb.lines[l] with level := v, timing := none } := by
  by_cases h : s.lb.lines[l].level = v
  · rw [takeLevel_of_same h]; rfl
  · rw [takeLevel_of_change h]; rfl

theorem retime_zero_eq {l : LineNo} {old : Nat} {r : LineRecord} {s : State} (htimed : r.timing ≠ none)
    (hnew : r.debounce ≠ old) (hzero : r.debounce = 0) :
    retime l old (setLine l r s) =
      { takeLevel l r.pin (setLine l r s) with
        lb.lines := vput (takeLevel l r.pin (setLine l r s)).lb.lines l { r with level := r.pin, timing := none } } := by
  have line : (takeLevel l r.pin (setLine l r s)).lb.lines[l] = { r with level := r.pin, timing := none } := by
    rw [takeLevel_lines, setLine_line]
    exact vput_get_self _ _ _
  rw [retime_of_zero htimed hnew hzero, ← line]
  exact congrArg (fun v => { takeLevel l r.pin (setLine l r s) with
    lb.lines := v }) (vput_self (takeLevel l r.pin (setLine l r s)).lb.lines l).symm

/-! A LINE_CONFIG's body (R182). -/

theorem toNat_of_lineOfByte {b : Byte} {l : LineNo} (h : lineOfByte b = some l) : b.toNat = l.val := by
  unfold lineOfByte at h
  split at h
  · cases h; rfl
  · cases h

theorem toNat_of_modeOfByte {b : Byte} {m : LineMode} :
    LineMode.ofByte b = some m →
    b.toNat = (match m with
      | .input => 0 | .outputPp => 1 | .outputOd => 2 | .mirrorSend => 3 | .mirrorRecv => 4 | .testFlag => 5 | .parked => 6) ∧
    m ≠ .parked := by
  intro h
  unfold LineMode.ofByte at h
  split at h <;> cases h <;> exact ⟨by assumption, by decide⟩

theorem toNat_of_fallbackOfByte {b : Byte} {f : Fallback} :
    Fallback.ofByte b = some f →
    b.toNat = (match f with | .hold => 0 | .low => 1 | .high => 2 | .release => 3) := by
  intro h
  unfold Fallback.ofByte at h
  split at h <;> cases h <;> assumption

theorem toNat_of_debounceOfByte {b : Byte} {d : Nat} (h : debounceOfByte b = some d) :
    b.toNat = d ∧ (d = 0 ∨ d = 1 ∨ d = 4 ∨ d = 16) := by
  unfold debounceOfByte at h
  split at h <;> cases h <;> exact ⟨by assumption, by decide⟩

theorem toNat_of_reportOfByte {b : Byte} {r : Report} :
    Report.ofByte b = some r →
    b.toNat = (match r with | .nobody => 0 | .toLocal => 1 | .toRemote => 2 | .both => 3) := by
  intro h
  unfold Report.ofByte at h
  split at h <;> cases h <;> assumption

theorem toNat_of_styleOfByte {b : Byte} {f : FlagStyle} :
    FlagStyle.ofByte b = some f →
    b.toNat = (match f with | .live => 0 | .latched => 1) := by
  intro h
  unfold FlagStyle.ofByte at h
  split at h <;> cases h <;> assumption

/-- The settings a body gives are each read from their own byte. -/
theorem settings_eq_some {r : Request} {c : LineSettings} (h : r.settings = some c) :
    lineOfByte (r.bodyByte 0) = some c.line ∧ LineMode.ofByte (r.bodyByte 1) = some c.mode ∧
    Fallback.ofByte (r.bodyByte 2) = some c.fallback ∧ debounceOfByte (r.bodyByte 3) = some c.debounce ∧
    Report.ofByte (r.bodyByte 4) = some c.report ∧ lineOfByte (r.bodyByte 5) = some c.partner ∧
    FlagStyle.ofByte (r.bodyByte 6) = some c.style := by
  unfold Request.settings at h
  split at h
  next line mode fallback debounce report partner style h0 h1 h2 h3 h4 h5 h6 =>
    cases h
    exact ⟨h0, h1, h2, h3, h4, h5, h6⟩
  next => cases h

theorem runLine_lineConfig {o : Origin} {r : Request} {c : LineSettings} {s : State} (hkind : r.kind = .lineConfig)
    (hsettings : r.settings = some c) : runLine o r s = (bare (lineConfig o c s).1, (lineConfig o c s).2) := by
  simp only [runLine, hkind, hsettings]

/-- Settles O21: the settings and the timing in its three cases, then the mode entered; the request's body byte by byte. -/
theorem lineConfigWritesTheWholeSetting : Obligations.LineConfigWritesTheWholeSetting := by
  refine ⟨fun o c s => ?_, fun o r c s => runLine_lineConfig, fun r c hc => ?_⟩
  · intro r written
    refine ⟨lineConfig_of_not_owner, fun howner => ?_⟩
    by_cases hkept : r.timing = none ∨ c.debounce = r.debounce
    · refine ⟨written, _, s, lineConfig_of_owner howner (retime_of_kept hkept), fun _ => ⟨rfl, rfl⟩,
        fun htimed hnew => absurd hkept (not_or.mpr ⟨htimed, hnew⟩), enterMode_by_mode _ rfl⟩
    · obtain ⟨htimed, hnew⟩ := not_or.mp hkept
      by_cases hzero : c.debounce = 0
      · refine ⟨_, _, _, lineConfig_of_owner howner (retime_zero_eq htimed hnew hzero), fun h => absurd h hkept,
          fun _ _ => ⟨fun hpos => absurd hzero hpos, fun _ => ⟨rfl, rfl⟩⟩, enterMode_by_mode _ rfl⟩
      · refine ⟨_, _, s, lineConfig_of_owner howner (retime_of_positive htimed hnew hzero), fun h => absurd h hkept,
          fun _ _ => ⟨fun _ => ⟨rfl, rfl⟩, fun h => absurd h hzero⟩, enterMode_by_mode _ rfl⟩
  · obtain ⟨hline, hmode, hfallback, hdebounce, hreport, hpartner, hstyle⟩ := settings_eq_some hc
    obtain ⟨hmodeValue, hparked⟩ := toNat_of_modeOfByte hmode
    obtain ⟨hdebounceValue, hdebounces⟩ := toNat_of_debounceOfByte hdebounce
    exact ⟨toNat_of_lineOfByte hline, hmodeValue, hparked, toNat_of_fallbackOfByte hfallback, hdebounceValue, hdebounces,
      toNat_of_reportOfByte hreport, toNat_of_lineOfByte hpartner, toNat_of_styleOfByte hstyle⟩

end Sys2Proof.Proofs.LineSettings

/-! LINE_SAMPLE, REMOTE_LINES, TEST_FLAG and mirrored lines (chapter 4). -/

namespace Sys2Proof.Proofs.Masks
open Sys2Proof Sys2Proof.Machine

/-! A number made of one bit per index. -/

theorem foldl_bits {n : Nat} (p : Fin n → Bool) :
    (List.finRange n).foldl (fun v l => if p l then v + 2 ^ l.val else v) 0 < 2 ^ n ∧
    ∀ l : Fin n, ((List.finRange n).foldl (fun v l => if p l then v + 2 ^ l.val else v) 0).testBit l.val = p l := by
  induction n with
  | zero => exact ⟨by simp, fun l => l.elim0⟩
  | succ n ih =>
    obtain ⟨hlt, hbit⟩ := ih (p ∘ Fin.castSucc)
    have last : (List.finRange (n + 1)).foldl (fun v l => if p l then v + 2 ^ l.val else v) 0 =
        (fun v => if p (Fin.last n) then v + 2 ^ n else v)
          ((List.finRange n).foldl (fun v l => if (p ∘ Fin.castSucc) l then v + 2 ^ l.val else v) 0) := by
      rw [List.finRange_succ_last, List.foldl_append, List.foldl_map]
      rfl
    rw [last]
    generalize (List.finRange n).foldl (fun v l => if (p ∘ Fin.castSucc) l then v + 2 ^ l.val else v) 0 = v at hlt hbit
    have top : v.testBit n = false := Nat.testBit_lt_two_pow hlt
    refine ⟨?_, fun l => ?_⟩
    · rw [Nat.pow_succ]
      dsimp only
      split <;> omega
    · induction l using Fin.lastCases with
      | last =>
        cases hp : p (Fin.last n) with
        | true => simpa [Nat.add_comm v, Nat.testBit_two_pow_add_eq] using top
        | false => simpa using top
      | cast l =>
        cases hp : p (Fin.last n) with
        | true => simpa [Nat.add_comm v, Nat.testBit_two_pow_add_gt l.isLt] using hbit l
        | false => simpa using hbit l

theorem getLsbD_maskOf (p : LineNo → Bool) (l : LineNo) : (maskOf p).getLsbD l.val = p l := by
  rw [maskOf, BitVec.getLsbD_ofNat, (foldl_bits p).2 l]
  simp

theorem maskBytes_eq (m : LineMask) : maskBytes m = [(m.extractLsb' 8 4).setWidth 8, m.extractLsb' 0 8] := rfl

theorem getLsbD_lineMask_maskBytes (m : LineMask) (l : LineNo) :
    (lineMask ((m.extractLsb' 8 4).setWidth 8) (m.extractLsb' 0 8)).getLsbD l.val = m.getLsbD l.val := by
  rw [Lines.getLsbD_lineMask]
  by_cases h : l.val < 8
  · simp [h]
  · have upper : l.val - 8 < 4 := by omega
    have back : 8 + (l.val - 8) = l.val := by omega
    have low : l.val - 8 < 8 := by omega
    simp [h, upper, back, low]

theorem runLine_lineSample (o : Origin) {r : Request} (s : State) (h : r.kind = .lineSample) :
    runLine o r s = (⟨.ok, 0, 0, lineSample s⟩, s) := by
  simp only [runLine, h]

/-- Settles O22: each pair of bytes is a mask, whose bits are what it was made of. -/
theorem sampleShowsLevelsAndOwners : Obligations.SampleShowsLevelsAndOwners := by
  refine fun o r s hkind => ⟨_, _, _, _, _, _, runLine_lineSample o s hkind, fun l => ⟨?_, ?_, ?_⟩⟩
  all_goals exact (getLsbD_lineMask_maskBytes _ l).trans (getLsbD_maskOf _ l)

end Sys2Proof.Proofs.Masks

/-! A write of REMOTE_LINES (R74). -/

namespace Sys2Proof.Proofs.RemoteLines
open Sys2Proof Sys2Proof.Machine Sys2Proof.Proofs.Rows Sys2Proof.Proofs.Lines

theorem raiseLost_outbox (ls : List LineNo) (s : State) :
    (ls.foldl (fun s l => raiseRemote .lineLost (toByte l.val) 0 s) s).eu.outbox =
      if s.slc.state.isUp = true then
        ls.foldl (fun q l => insertEvent 8 q ⟨.lineLost, .localHost, toByte l.val, 0, 1⟩) s.eu.outbox
      else s.eu.outbox := by
  induction ls generalizing s with
  | nil => split <;> rfl
  | cons l ls ih =>
    rw [List.foldl_cons, ih, raiseRemote_outbox, raiseRemote_eq_eu]
    dsimp only
    split <;> rfl

/-- R74: the lines a new mask takes from REMOTE. -/
def linesLost (m : LineMask) (s : State) : List LineNo :=
  (List.finRange 12).filter fun l =>
    s.lb.remoteLines.getLsbD l.val && !m.getLsbD l.val && decide (s.lb.lines[l].owner = some .remoteHost)

theorem setRemoteLines_eq (m : LineMask) (s : State) :
    setRemoteLines m s = { s with
      lb := { s.lb with
        lines := (releaseOwned .remoteHost (s.lb.remoteLines &&& ~~~m) s).lb.lines
        remoteLines := m }
      eu.outbox := if s.slc.state.isUp = true then
          (linesLost m s).foldl (fun q l => insertEvent 8 q ⟨.lineLost, .localHost, toByte l.val, 0, 1⟩) s.eu.outbox
        else s.eu.outbox } := by
  unfold setRemoteLines
  dsimp only
  rw [raiseLost_fold, raiseLost_outbox]
  rfl

theorem releaseOwned_line (o : Origin) (m : LineMask) (s : State) (l : LineNo) :
    (releaseOwned o m s).lb.lines[l] = if m.getLsbD l.val = true ∧ s.lb.lines[l].owner = some o then
      releasedRecord (heldLevel s s.lb.lines[l]) s.lb.lines[l] else s.lb.lines[l] :=
  mapLines_get _ s l

theorem getLsbD_cleared (m m' : LineMask) (l : LineNo) :
    (m &&& ~~~m').getLsbD l.val = (m.getLsbD l.val && !m'.getLsbD l.val) := by
  simp [l.isLt]

/-- R180: the upper byte of a new mask, from the holding byte or the mask as it is. -/
def upperByte (s : State) : Byte :=
  if s.hp.remoteHold.written then s.hp.remoteHold.byte else (maskBytes s.lb.remoteLines).getD 0 0

theorem writeRemoteLines_eq (b : Byte) (s : State) :
    writeRemoteLines b s = { setRemoteLines (lineMask (upperByte s) b) s with
      hp.remoteHold := { s.hp.remoteHold with written := false } } := by
  have hold : (setRemoteLines (lineMask (upperByte s) b) s).hp = s.hp := by simp
  unfold writeRemoteLines
  dsimp only
  rw [← upperByte, hold]

theorem getLsbD_newMask (b : Byte) (s : State) (l : LineNo) :
    (lineMask (upperByte s) b).getLsbD l.val =
      if l.val < 8 then b.getLsbD l.val
      else if s.hp.remoteHold.written then s.hp.remoteHold.byte.getLsbD (l.val - 8)
      else s.lb.remoteLines.getLsbD l.val := by
  rw [getLsbD_lineMask]
  by_cases h : l.val < 8
  · rw [if_pos h, if_pos h]
  · have upper : l.val - 8 < 4 := by omega
    have back : 8 + (l.val - 8) = l.val := by omega
    have low : l.val - 8 < 8 := by omega
    rw [if_neg h, if_neg h, upperByte, Masks.maskBytes_eq]
    cases s.hp.remoteHold.written <;> simp [upper, back, low]

theorem exec_remoteLines (b : Byte) {s : State} (h : portReady s) :
    exec (.remoteLines b) s = .next (setPointer 0x0A#8 (writeRemoteLines b (beginWrite s))) :=
  exec_of_portWrite (off := 0x09#8) (b := b) h rfl

theorem isUp_iff (st : LinkState) : st.isUp = true ↔ st = .run ∨ st = .drain ∨ st = .test ∨ st = .retrain := by
  cases st <;> decide

theorem linesLost_eq (m : LineMask) (s : State) :
    linesLost m s = (List.finRange 12).filter fun l => decide (s.lb.remoteLines.getLsbD l.val = true ∧
      m.getLsbD l.val = false ∧ s.lb.lines[l].owner = some .remoteHost) :=
  List.filter_congr fun l _ => by simp [Bool.and_assoc, Bool.decide_and, -Fin.getElem_fin]

/-- Settles O24: the mask written, the records it releases, and the LINE_LOST records in line order. -/
theorem remoteLinesWriteTakesTheMask : Obligations.RemoteLinesWriteTakesTheMask := by
  intro b s hport
  have hwrite := (writeRemoteLines_eq b (beginWrite s)).trans (congrArg (fun u : State => { u with
    hp.remoteHold := { s.hp.remoteHold with written := false } }) (setRemoteLines_eq _ _))
  refine ⟨lineMask (upperByte s) b, _, exec_remoteLines b hport, ?_, getLsbD_newMask b s, ?_, fun l => ?_, ?_, ?_, ?_⟩ <;>
    rw [hwrite]
  · rfl
  · rfl
  · refine (releaseOwned_line _ _ (beginWrite s) l).trans ?_
    rw [getLsbD_cleared]
    simp only [Bool.and_eq_true, Bool.not_eq_true', and_assoc]
    rfl
  · rfl
  · change (if s.slc.state.isUp = true then
      (linesLost _ (beginWrite s)).foldl _ s.eu.outbox else s.eu.outbox) = _
    simp only [isUp_iff, linesLost_eq]
    rfl
  · rfl

end Sys2Proof.Proofs.RemoteLines

/-! What lines drive, and what they follow (R71, R85 to R88). -/

namespace Sys2Proof.Proofs.MirroredLines
open Sys2Proof Sys2Proof.Machine Sys2Proof.Proofs.Rows

theorem lineDrive_testFlag (s : State) {r : LineRecord} (h : r.mode = .testFlag) :
    lineDrive s r = some (!(decide (s.slc.state = .test ∧ s.lt.phase = .running ∧ s.lt.generator = false) && r.flagErr &&
      (decide (r.style = .latched) || s.lb.pulse.isSome))) := by
  simp only [lineDrive, h, flagLow, checking]
  cases s.lt.generator <;> simp [Bool.and_assoc]

theorem flagError_line {s : State} {l : LineNo} (h : s.lb.lines[l].mode = .testFlag) :
    (flagError s).lb.lines[l] = { s.lb.lines[l] with flagErr := true } :=
  (mapLines_get _ s l).trans (if_pos h)

theorem exec_testFlagPulseEnd {s : State} (h : s.inReset = false) :
    exec .testFlagPulseEnd s = .next (testFlagPulseEnd s) := exec_of_onChip h rfl

theorem testFlagPulseEnd_of_none {s : State} (h : s.lb.pulse = none) : testFlagPulseEnd s = s := by
  rw [testFlagPulseEnd, h]

theorem testFlagPulseEnd_of_some {s : State} {due : Moment} (h : s.lb.pulse = some due) :
    testFlagPulseEnd s = { s.reach due with lb.pulse := none } := by
  rw [testFlagPulseEnd, h]

theorem map_filter_eq_flatMap {α β : Type} (p : α → Prop) [DecidablePred p] (f : α → β) (l : List α) :
    (l.filter fun a => decide (p a)).map f = l.flatMap fun a => if p a then [f a] else [] := by
  induction l with
  | nil => rfl
  | cons a l ih => by_cases h : p a <;> simp [h, ih]

theorem mirrorPairs_eq (s : State) : mirrorPairs s = (List.finRange 12).flatMap fun l : LineNo =>
    if s.lb.lines[l].mode = .mirrorSend then
      [toByte (s.lb.lines[l].partner.val + if s.lb.lines[l].level then 16 else 0)]
    else [] := map_filter_eq_flatMap (fun l : LineNo => s.lb.lines[l].mode = .mirrorSend) _ _

theorem lineOfByte_pair {b : Byte} {l : LineNo} (h : b.toNat % 16 = l.val) :
    lineOfByte ((b.extractLsb' 0 4).setWidth 8) = some l := by
  have value : ((b.extractLsb' 0 4).setWidth 8).toNat = l.val := by
    simp [BitVec.extractLsb'_toNat]
    omega
  simp [lineOfByte, value]

theorem applyPair_of_mirrorRecv {s : State} {b : Byte} {l : LineNo} (hb : b.toNat % 16 = l.val)
    (h : s.lb.lines[l].mode = .mirrorRecv) :
    applyPair s b = setLine l { s.lb.lines[l] with out := b.getLsbD 4, receiving := true } s := by
  unfold applyPair
  rw [lineOfByte_pair hb]
  exact if_pos h

theorem applyPair_of_other {s : State} {b : Byte} {l : LineNo} (hb : b.toNat % 16 = l.val)
    (h : s.lb.lines[l].mode ≠ .mirrorRecv) :
    applyPair s b = raiseLocal .mirrorMismatch (toByte l.val) (flagByte (b.getLsbD 4)) s := by
  unfold applyPair
  rw [lineOfByte_pair hb]
  exact if_neg h

/-- R90: a line at a loss is let go of when REMOTE owns it, then goes to its mirror fallback. -/
theorem linesAtLoss_line (s : State) (l : LineNo) :
    (linesAtLoss s).lb.lines[l] = mirrorFallback (if s.lb.lines[l].owner = some .remoteHost then
      releasedRecord (heldLevel s s.lb.lines[l]) s.lb.lines[l] else s.lb.lines[l]) := by
  have named : allLines.getLsbD l.val = true := by
    revert l
    decide
  refine (mapLines_get _ _ l).trans (congrArg mirrorFallback ?_)
  rw [RemoteLines.releaseOwned_line, named]
  simp only [true_and]

theorem mirrorFallback_of_mirrorRecv {r : LineRecord} (h : r.mode = .mirrorRecv) :
    mirrorFallback r = match r.fallback with
      | .hold => r
      | .low => { r with out := false, receiving := true }
      | .high => { r with out := true, receiving := true }
      | .release => { r with receiving := false } := by
  exact if_pos h

/-- Settles O25: the drives by mode, the TEST_FLAG mark and its pulse, then the LINES frame sent, delivered and lost. -/
theorem testFlagAndMirroredLinesFollowTheirSource : Obligations.TestFlagAndMirroredLinesFollowTheirSource := by
  refine ⟨fun s r => ⟨?_, ?_, fun h => by simp only [lineDrive, h], fun h => by simp only [lineDrive, h]⟩,
    ⟨fun s r => lineDrive_testFlag s, fun s l h => ⟨flagError_line h, rfl⟩, fun s hout => ?_⟩,
    mirrorPairs_eq, fun s b l hb => ⟨applyPair_of_mirrorRecv hb, applyPair_of_other hb⟩, fun s l hmode howner => ?_,
    fun h p s s1 hd => Delivery.receive_of_deliveredAt hd⟩
  · rintro (h | h) <;> simp only [lineDrive, h]
  · rintro (h | h) <;> simp only [lineDrive, h]
  · rw [exec_testFlagPulseEnd hout]
    exact ⟨fun h => by rw [testFlagPulseEnd_of_none h], fun due h => by rw [testFlagPulseEnd_of_some h]⟩
  · rw [linesAtLoss_line, if_neg howner]
    exact mirrorFallback_of_mirrorRecv hmode

end Sys2Proof.Proofs.MirroredLines

/-! The link controller's timers and the writes to HOST_CTRL (chapter 5). -/

namespace Sys2Proof.Proofs.LinkTimers
open Sys2Proof Sys2Proof.Machine Sys2Proof.Proofs.Rows

theorem roleCode_eq (r : Role) : r.code = if r = .leader then 0 else 1 := by
  cases r <;> rfl

/-! The frames of the link controller (R96, R97, R99, R118). -/

theorem sendTrain_eq (s : State) : sendTrain s = { s with fe := { s.fe with
    sending := some ⟨.train, ⟨decide (s.slc.state = .retrain), s.hp.hostReady, false, 0, 0, 0⟩, [s.slc.role.code]⟩
    sendEnd := s.now + 12
    awaitReply := none
    replyDue := none } } := rfl

theorem sendTrainAck_eq (s : State) : sendTrainAck s = { s with fe := { s.fe with
    sending := some ⟨.trainAck, ⟨decide (s.slc.state = .retrain), s.hp.hostReady, false, 0, 0, 0⟩, [s.slc.role.code]⟩
    sendEnd := s.now + 12
    awaitReply := none
    replyDue := none } } := rfl

theorem sendHello_eq (s : State) : sendHello s = { s with fe := { s.fe with
    sending := some ⟨.hello, ⟨false, s.hp.hostReady, false, 0, 0, 0⟩, [0x01#8, 0x08#8, s.slc.role.code]⟩
    sendEnd := s.now + 14
    awaitReply := none
    replyDue := none } } := rfl

theorem enterHoldoff_eq (r : HoldoffReason) (period : Nat) (s : State) : enterHoldoff r period s = { s with
    slc := { s.slc with
      state := .holdoff, detail := r, good := 0, missed := 0, trainDue := none, helloDue := none, helloLimit := none
      silence := none, retrain := none, holdoff := some (s.now + period) }
    fe := { s.fe with sending := none, awaitReply := none, replyDue := none, helloTaken := none } } := rfl

theorem enterListen_of_follower {s : State} (h : s.slc.role = .follower) :
    enterListen s = { s with slc.state := .listen, slc.good := 0 } := by
  unfold enterListen
  exact if_neg (by rw [h]; decide)

theorem enterListen_of_leader {s : State} (h : s.slc.role = .leader) :
    enterListen s = sendTrain { s with
      slc := { s.slc with state := .listen, good := 0, trainDue := some (s.now + 1000) } } := by
  unfold enterListen
  exact if_pos h

/-! The timers: stopped, and when due. -/

theorem exec_trainingInterval {s : State} (h : s.inReset = false) :
    exec .trainingInterval s = .next (trainingInterval s) := exec_of_onChip h rfl

theorem exec_helloInterval {s : State} (h : s.inReset = false) :
    exec .helloInterval s = .next (helloInterval s) := exec_of_onChip h rfl

theorem exec_helloLimit {s : State} (h : s.inReset = false) : exec .helloLimit s = .next (helloLimit s) :=
  exec_of_onChip h rfl

theorem exec_silenceLimit {s : State} (h : s.inReset = false) : exec .silenceLimit s = .next (silenceLimit s) :=
  exec_of_onChip h rfl

theorem exec_retrainLimit {s : State} (h : s.inReset = false) : exec .retrainLimit s = .next (retrainLimit s) :=
  exec_of_onChip h rfl

theorem exec_holdoffEnd {s : State} (h : s.inReset = false) : exec .holdoffEnd s = .next (holdoffEnd s) :=
  exec_of_onChip h rfl

theorem trainingInterval_of_none {s : State} (h : s.slc.trainDue = none) : trainingInterval s = s := by
  rw [trainingInterval, h]

theorem trainingInterval_of_some {s : State} {due : Moment} (h : s.slc.trainDue = some due) :
    trainingInterval s = sendTrain { s.reach due with slc.trainDue := some (due + 1000) } := by
  rw [trainingInterval, h]
  rfl

theorem helloInterval_of_none {s : State} (h : s.slc.helloDue = none) : helloInterval s = s := by
  rw [helloInterval, h]

theorem helloInterval_of_some {s : State} {due : Moment} (h : s.slc.helloDue = some due) :
    helloInterval s = sendHello { s.reach due with slc.helloDue := some (due + 1000) } := by
  rw [helloInterval, h]
  rfl

theorem helloLimit_of_none {s : State} (h : s.slc.helloLimit = none) : helloLimit s = s := by
  rw [helloLimit, h]

theorem helloLimit_of_some {s : State} {due : Moment} (h : s.slc.helloLimit = some due) :
    helloLimit s = enterHoldoff .helloFail 10000 (s.reach due) := by
  rw [helloLimit, h]
  rfl

theorem silenceLimit_of_none {s : State} (h : s.slc.silence = none) : silenceLimit s = s := by
  rw [silenceLimit, h]

theorem silenceLimit_of_some {s : State} {due : Moment} (h : s.slc.silence = some due) :
    silenceLimit s = loss .turnLoss (s.reach due) := by
  rw [silenceLimit, h]

theorem retrainLimit_of_none {s : State} (h : s.slc.retrain = none) : retrainLimit s = s := by
  rw [retrainLimit, h]

theorem retrainLimit_of_some {s : State} {due : Moment} (h : s.slc.retrain = some due) :
    retrainLimit s = loss .retrainFail (s.reach due) := by
  rw [retrainLimit, h]

theorem holdoffEnd_of_none {s : State} (h : s.slc.holdoff = none) : holdoffEnd s = s := by
  rw [holdoffEnd, h]

theorem holdoffEnd_of_off {s : State} {due : Moment} (h : s.slc.holdoff = some due) (hoff : s.hp.spanOff = true) :
    holdoffEnd s = { s.reach due with slc.state := .disabled, slc.holdoff := none } := by
  rw [holdoffEnd, h]
  exact if_pos hoff

theorem holdoffEnd_of_on {s : State} {due : Moment} (h : s.slc.holdoff = some due) (hon : s.hp.spanOff = false) :
    holdoffEnd s = enterListen { s.reach due with slc.holdoff := none } := by
  rw [holdoffEnd, h]
  exact if_neg (by rw [hon]; decide)

/-- Settles O26: each timer stopped and due, the end of HOLDOFF by SPAN_OFF and the role, and the entry to HOLDOFF. -/
theorem linkTimersActWhenDue : Obligations.LinkTimersActWhenDue := by
  refine ⟨fun s hout => ?_, fun s hout => ?_, enterHoldoff_eq⟩
  · intro role
    have hrole : s.slc.role.code = role := roleCode_eq _
    rw [exec_trainingInterval hout, exec_helloInterval hout]
    refine ⟨fun h => by rw [trainingInterval_of_none h], fun due h => ?_, fun h => by rw [helloInterval_of_none h],
      fun due h => ?_⟩
    · rw [trainingInterval_of_some h, ← hrole]; rfl
    · rw [helloInterval_of_some h, ← hrole]; rfl
  · rw [exec_helloLimit hout, exec_silenceLimit hout, exec_retrainLimit hout, exec_holdoffEnd hout]
    refine ⟨fun h => by rw [helloLimit_of_none h], fun due h => by rw [helloLimit_of_some h],
      fun h => by rw [silenceLimit_of_none h], fun due h => by rw [silenceLimit_of_some h],
      fun h => by rw [retrainLimit_of_none h], fun due h => by rw [retrainLimit_of_some h],
      fun h => by rw [holdoffEnd_of_none h], fun due h => ⟨fun hoff => by rw [holdoffEnd_of_off h hoff],
        fun hon hrole => ?_, fun hon hrole => ?_⟩⟩
    · rw [holdoffEnd_of_on h hon, enterListen_of_follower (s := { s.reach due with slc.holdoff := none }) hrole]
    · rw [holdoffEnd_of_on h hon, enterListen_of_leader (s := { s.reach due with slc.holdoff := none }) hrole, sendTrain_eq]
      dsimp only [State.reach]
      rw [hrole]
      rfl

/-! HOST_CTRL (R95, R179). -/

theorem exec_hostCtrl {b : Byte} {c : Instr} {s : State} (hc : c ∈ hostCtrlCommands b) (h : portReady s) :
    exec c s = .next (setPointer 0x05#8 (writeHostCtrl b (beginWrite s))) := by
  simp only [hostCtrlCommands, List.mem_cons, List.not_mem_nil, or_false] at hc
  rcases hc with rfl | rfl | rfl | rfl <;> exact exec_of_portWrite (off := 0x04#8) (b := b) h rfl

/-- R179: the fields of HOST_CTRL but SPAN_OFF written. -/
def flagsWritten (b : Byte) (s : State) : State :=
  { s with hp.hostReady := b.getLsbD 0, hp.alertCq := b.getLsbD 1, hp.alertEq := b.getLsbD 2 }

theorem writeHostCtrl_eq (b : Byte) (s : State) :
    writeHostCtrl b s = setSpanOff (b.getLsbD 3) (flagsWritten b s) := rfl

theorem setSpanOff_of_same {v : Bool} {s : State} (h : s.hp.spanOff = v) : setSpanOff v s = s := if_pos h

theorem setSpanOff_on_of_down {s : State} (hoff : s.hp.spanOff = false)
    (h : s.slc.state = .disabled ∨ s.slc.state = .holdoff) : setSpanOff true s = { s with hp.spanOff := true } := by
  rcases h with h | h <;> simp [setSpanOff, hoff, h]

theorem setSpanOff_on_of_listen {s : State} (hoff : s.hp.spanOff = false) (h : s.slc.state = .listen) :
    setSpanOff true s = { quiet { s with hp.spanOff := true } with
      slc := { (quiet { s with hp.spanOff := true }).slc with state := .disabled } } := by
  simp [setSpanOff, hoff, h]

theorem setSpanOff_on_of_hello {s : State} (hoff : s.hp.spanOff = false) (h : s.slc.state = .hello) :
    setSpanOff true s = enterHoldoff .localOff 10000 { s with hp.spanOff := true } := by
  simp [setSpanOff, hoff, h, failBringUp, Config.holdoff, Config.ms]

theorem setSpanOff_on_of_up {s : State} (hoff : s.hp.spanOff = false)
    (h : s.slc.state = .run ∨ s.slc.state = .drain ∨ s.slc.state = .test ∨ s.slc.state = .retrain) :
    setSpanOff true s = loss .localOff { s with hp.spanOff := true } := by
  rcases h with h | h | h | h <;> simp [setSpanOff, hoff, h]

theorem setSpanOff_off_of_kept {s : State} (hon : s.hp.spanOff = true)
    (h : s.slc.state ≠ .disabled ∨ s.slc.spanEn = false) : setSpanOff false s = { s with hp.spanOff := false } := by
  rcases h with h | h
  · cases hstate : s.slc.state <;> first | exact absurd hstate h | simp [setSpanOff, hon, hstate]
  · cases hstate : s.slc.state <;> simp [setSpanOff, hon, hstate, h]

theorem setSpanOff_off_of_disabled {s : State} (hon : s.hp.spanOff = true) (h : s.slc.state = .disabled)
    (hen : s.slc.spanEn = true) : setSpanOff false s = enterListen { s with hp.spanOff := false } := by
  simp [setSpanOff, hon, h, hen]

/-- Settles O29: SPAN_OFF kept, set by link state, and cleared. -/
theorem hostControlWritesItsFourFields : Obligations.HostControlWritesItsFourFields := by
  intro b c s hc hport s1
  rw [exec_hostCtrl hc hport, writeHostCtrl_eq]
  have written {v : Bool} (hv : b.getLsbD 3 = v) : { flagsWritten b (beginWrite s) with hp.spanOff := v } = s1 := by
    rw [← hv]; rfl
  refine ⟨fun hsame => ?_, fun hv hoff => ⟨fun h => ?_, fun h => ?_, fun h => ?_, fun h => ?_⟩,
    fun hv hon => ⟨fun h => ?_, fun h hen => ?_⟩⟩
  · rw [setSpanOff_of_same (s := flagsWritten b (beginWrite s)) hsame.symm, ← written hsame]
    rfl
  · rw [hv, setSpanOff_on_of_down (s := flagsWritten b (beginWrite s)) hoff h, written hv]
  · rw [hv, setSpanOff_on_of_listen (s := flagsWritten b (beginWrite s)) hoff h, written hv]
    exact ⟨_, rfl, rfl, rfl, rfl, rfl, rfl, rfl, rfl, rfl⟩
  · rw [hv, setSpanOff_on_of_hello (s := flagsWritten b (beginWrite s)) hoff h, written hv]
  · rw [hv, setSpanOff_on_of_up (s := flagsWritten b (beginWrite s)) hoff h, written hv]
  · rw [hv, setSpanOff_off_of_kept (s := flagsWritten b (beginWrite s)) hon h, written hv]
  · rw [hv, setSpanOff_off_of_disabled (s := flagsWritten b (beginWrite s)) hon h hen, written hv]
    have hs1 : s1.slc = s.slc := rfl
    cases hrole : s.slc.role with
    | leader =>
      rw [enterListen_of_leader (s := s1) (by rw [hs1, hrole])]
      refine ⟨_, rfl, rfl, rfl, fun _ => ⟨rfl, ?_⟩, fun h => (by cases h), rfl, rfl⟩
      change (sendTrain _).fe.sending = _
      rw [sendTrain_eq, sendTrain_eq, hs1, h]
      rfl
    | follower =>
      rw [enterListen_of_follower (s := s1) (by rw [hs1, hrole])]
      exact ⟨_, rfl, rfl, rfl, fun h => (by cases h), fun _ => rfl, rfl, rfl⟩

end Sys2Proof.Proofs.LinkTimers

/-! The loss of the link (R104, R106): its parts, and what they leave. -/

namespace Sys2Proof.Proofs.LinkLoss
open Sys2Proof Sys2Proof.Machine Sys2Proof.Laws.RequestInv Sys2Proof.Proofs.Answers

/-! The Link Tester's part (R175). -/

/-- At a loss the owner of a test that is not over waits in tag `n` under generation `g`. -/
def WaitsAtLoss (s : State) (n : Tag) (g : Gen) : Prop :=
  s.lt.ownerTag = some (n, g) ∧ s.rt.tags[n].state = .testing ∧ s.rt.tags[n].gen = g ∧ s.lt.phase ≠ .idle ∧
    s.lt.phase ≠ .resultOut ∧ (s.lt.phase = .awaitResult ∨ s.lt.owner = true)

/-- The tag that waits so, if any. -/
def waitingOwner (s : State) : Option Tag :=
  match s.lt.ownerTag with
  | some (t, g) =>
    if s.rt.tags[t].state = .testing ∧ s.rt.tags[t].gen = g ∧ s.lt.phase ≠ .idle ∧ s.lt.phase ≠ .resultOut ∧
      (s.lt.phase = .awaitResult ∨ s.lt.owner = true) then some t else none
  | none => none

theorem waitingOwner_eq_some_iff (s : State) (n : Tag) : waitingOwner s = some n ↔ ∃ g, WaitsAtLoss s n g := by
  unfold waitingOwner WaitsAtLoss
  rcases s.lt.ownerTag with _ | ⟨t, g⟩
  · simp
  · rw [Option.ite_none_right_eq_some]
    constructor
    · rintro ⟨hwaits, htag⟩
      cases htag
      exact ⟨g, rfl, hwaits⟩
    · rintro ⟨g', htag, hwaits⟩
      cases htag
      exact ⟨hwaits, rfl⟩

/-- The waiting owner completed with an answer. -/
def completeWaiting (a : Answer) (s : State) : State :=
  match waitingOwner s with
  | some t => completeTag t a s
  | none => s

theorem completeOwner_of_waiting (a : Answer) {s : State} (hidle : s.lt.phase ≠ .idle) (hout : s.lt.phase ≠ .resultOut)
    (howner : s.lt.phase = .awaitResult ∨ s.lt.owner = true) : completeOwner a s = completeWaiting a s := by
  unfold completeOwner completeWaiting waitingOwner
  rcases s.lt.ownerTag with _ | ⟨t, g⟩
  · rfl
  · dsimp only
    by_cases h : s.rt.tags[t].state = .testing ∧ s.rt.tags[t].gen = g
    · rw [if_pos h, if_pos ⟨h.1, h.2, hidle, hout, howner⟩]
    · rw [if_neg h, if_neg fun h' => h ⟨h'.1, h'.2.1⟩]

theorem completeWaiting_of_none (a : Answer) {s : State} (h : waitingOwner s = none) : completeWaiting a s = s := by
  rw [completeWaiting, h]

theorem waitingOwner_of_not_owner {s : State} (howner : s.lt.owner = false) (hphase : s.lt.phase ≠ .awaitResult) :
    waitingOwner s = none := by
  unfold waitingOwner
  split
  · exact if_neg (by simp [howner, hphase])
  · rfl

theorem waitingOwner_of_over {s : State} (h : s.lt.phase = .idle ∨ s.lt.phase = .resultOut) : waitingOwner s = none := by
  unfold waitingOwner
  rcases h with h | h <;> (split; · exact if_neg (by simp [h])) <;> rfl

/-- An owner's tag is completed where the chip owns the test. -/
theorem completeOwner_if_owner (a : Answer) {s : State} (hidle : s.lt.phase ≠ .idle) (hout : s.lt.phase ≠ .resultOut)
    (hawait : s.lt.phase ≠ .awaitResult) : (if s.lt.owner then completeOwner a s else s) = completeWaiting a s := by
  cases howner : s.lt.owner with
  | true => exact completeOwner_of_waiting a hidle hout (.inr howner)
  | false => exact (completeWaiting_of_none a (waitingOwner_of_not_owner howner hawait)).symm

/-- The chip is the checker of a test in TEST or on its way back. -/
def checkerAtLoss (t : LinkTester) : Prop := (t.phase = .running ∨ t.phase = .returning) ∧ t.generator = false

/-- R175: the end reason a loss leaves. -/
def reasonAtLoss (t : LinkTester) : EndReason :=
  if t.phase = .running ∧ t.generator = false then .stopped else t.endReason

/-- R175: the Link Tester after a loss, from a phase other than IDLE. -/
def testerAtLoss (t : LinkTester) : LinkTester :=
  { t with
    phase := .idle, ownerTag := none, goTaken := false, drainDue := none, durationDue := none, lostDue := none,
    resultDue := none, patternDue := none, genStart := none, releaseOwed := false }

theorem testAtLoss_of_idle {s : State} (h : s.lt.phase = .idle) : testAtLoss s = s := by
  simp only [testAtLoss, h]

theorem testAtLoss_of_checker {s : State} (h : checkerAtLoss s.lt) :
    let u : State := { s with lt.endReason := reasonAtLoss s.lt }
    let v := completeWaiting (testAnswer u.lt) (raiseTestDone (reasonAtLoss s.lt) s.lt.errors u)
    testAtLoss s = { v with lt := testerAtLoss v.lt } := by
  obtain ⟨hphase, hgen⟩ := h
  have completed (u : State) (hu : u.lt.phase = .running ∨ u.lt.phase = .returning) (a : Answer) :
      (if u.lt.owner then completeOwner a u else u) = completeWaiting a u := by
    rcases hu with hu | hu <;> exact completeOwner_if_owner a (by simp [hu]) (by simp [hu]) (by simp [hu])
  intro u v
  have hv : v = if u.lt.owner then completeOwner (testAnswer u.lt) (raiseTestDone (reasonAtLoss s.lt) s.lt.errors u)
      else raiseTestDone (reasonAtLoss s.lt) s.lt.errors u :=
    (completed (raiseTestDone (reasonAtLoss s.lt) s.lt.errors u) hphase _).symm
  rw [hv]
  unfold testAtLoss
  dsimp only
  rw [if_neg (show ¬ s.lt.generator = true by simp [hgen])]
  rcases hphase with hphase | hphase
  · have hreason : reasonAtLoss s.lt = .stopped := if_pos ⟨hphase, hgen⟩
    simp only [hphase, hreason, u]
    rfl
  · have hreason : reasonAtLoss s.lt = s.lt.endReason := if_neg (by simp [hphase])
    have hrunning : ¬ s.lt.phase = .running := by simp [hphase]
    have hu : u = s := congrArg (fun x => { s with lt.endReason := x }) hreason
    rw [if_neg hrunning, hu, hreason]
    simp only [hphase]
    rfl

theorem testAtLoss_of_other {s : State} (hidle : s.lt.phase ≠ .idle) (h : ¬ checkerAtLoss s.lt) :
    testAtLoss s = { completeWaiting (bare .linkDown) s with
      lt := testerAtLoss (completeWaiting (bare .linkDown) s).lt } := by
  have completed := completeOwner_if_owner (bare .linkDown) hidle
  cases hphase : s.lt.phase with
  | idle => exact absurd hphase hidle
  | enterPending | draining =>
    rw [hphase] at completed
    simp only [testAtLoss, hphase, completed (by decide) (by decide)]
    rfl
  | running | returning =>
    have hgen : s.lt.generator = true := by simpa [checkerAtLoss, hphase] using h
    rw [hphase] at completed
    simp only [testAtLoss, hphase, hgen, completed (by decide) (by decide)]
    rfl
  | awaitResult =>
    simp only [testAtLoss, hphase, completeOwner_of_waiting _ hidle (by simp [hphase]) (.inl hphase)]
    rfl
  | resultOut =>
    simp only [testAtLoss, hphase, completeWaiting_of_none _ (waitingOwner_of_over (.inr hphase))]
    rfl

theorem completeWaiting_frame (a : Answer) (s : State) :
    (completeWaiting a s).lt = s.lt ∧ (completeWaiting a s).eu = s.eu := by
  unfold completeWaiting
  split <;> simp

/-- R174: the answer a loss gives the owner of a test that is not over. -/
def answerAtLoss (t : LinkTester) : Answer :=
  ⟨.ok, 0, BitVec.ofNat 16 t.errors,
    bytes40 t.bits ++ bytes16 t.errors ++ [(reasonAtLoss t).code, if t.firstError then 1 else 0]⟩

/-- The Request Table after the Link Tester's part. -/
theorem testAtLoss_rt (s : State) :
    ((¬ checkerAtLoss s.lt) → (testAtLoss s).rt = (completeWaiting (bare .linkDown) s).rt) ∧
    (checkerAtLoss s.lt → (testAtLoss s).rt = (completeWaiting (answerAtLoss s.lt) s).rt) := by
  refine ⟨fun h => ?_, fun h => ?_⟩
  · by_cases hidle : s.lt.phase = .idle
    · rw [testAtLoss_of_idle hidle, completeWaiting_of_none _ (waitingOwner_of_over (.inl hidle))]
    · rw [testAtLoss_of_other hidle h]
  · rw [testAtLoss_of_checker h]
    unfold completeWaiting
    change (match waitingOwner s with | some t => _ | none => _ : State).rt = _
    cases waitingOwner s <;> rfl

theorem testAtLoss_lt (s : State) :
    (testAtLoss s).lt =
      if s.lt.phase = .idle then s.lt else { testerAtLoss s.lt with endReason := reasonAtLoss s.lt } := by
  by_cases hidle : s.lt.phase = .idle
  · rw [testAtLoss_of_idle hidle, if_pos hidle]
  · rw [if_neg hidle]
    by_cases h : checkerAtLoss s.lt
    · rw [testAtLoss_of_checker h]
      dsimp only
      rw [(completeWaiting_frame _ _).1]
      rfl
    · have hreason : reasonAtLoss s.lt = s.lt.endReason := if_neg fun h' => h ⟨.inl h'.1, h'.2⟩
      rw [testAtLoss_of_other hidle h, (completeWaiting_frame _ _).1, hreason]
      rfl

theorem testAtLoss_eu (s : State) :
    ((¬ checkerAtLoss s.lt) → (testAtLoss s).eu = s.eu) ∧
    (checkerAtLoss s.lt → (testAtLoss s).eu = { s.eu with
      eventQueue := insertEvent 16 s.eu.eventQueue
        ⟨.testDone, .localHost, (reasonAtLoss s.lt).code, BitVec.ofNat 8 (min 255 s.lt.errors), 1⟩ }) := by
  refine ⟨fun h => ?_, fun h => ?_⟩
  · by_cases hidle : s.lt.phase = .idle
    · rw [testAtLoss_of_idle hidle]
    · rw [testAtLoss_of_other hidle h]
      exact (completeWaiting_frame _ _).2
  · rw [testAtLoss_of_checker h]
    exact (completeWaiting_frame _ _).2

/-! The lines at a loss (R87, R90). -/

theorem heldLevel_congr {s u : State} (hslc : u.slc = s.slc) (hlt : u.lt = s.lt) (hpulse : u.lb.pulse = s.lb.pulse)
    (r : LineRecord) : heldLevel u r = heldLevel s r := by
  simp only [heldLevel, lineDrive, flagLow, checking, hslc, hlt, hpulse]

theorem mirrorFallback_of_released (held : Bool) (r : LineRecord) :
    mirrorFallback (releasedRecord held r) = releasedRecord held r := by
  refine if_neg ?_
  unfold releasedRecord
  split <;> simp

/-- A record after a loss. -/
theorem lineAtLoss_eq (held : Bool) (r : LineRecord) :
    { mirrorFallback (if r.owner = some .remoteHost then releasedRecord held r else r) with flagErr := false } =
      if r.owner = some .remoteHost then { releasedRecord held r with flagErr := false }
      else if r.mode = .mirrorRecv then
        match r.fallback with
        | .hold => { r with flagErr := false }
        | .low => { r with out := false, receiving := true, flagErr := false }
        | .high => { r with out := true, receiving := true, flagErr := false }
        | .release => { r with receiving := false, flagErr := false }
      else { r with flagErr := false } := by
  by_cases howner : r.owner = some .remoteHost
  · rw [if_pos howner, if_pos howner, mirrorFallback_of_released]
  · rw [if_neg howner, if_neg howner]
    by_cases hmode : r.mode = .mirrorRecv
    · rw [if_pos hmode, MirroredLines.mirrorFallback_of_mirrorRecv hmode]
      split <;> rename_i hfallback <;> simp only [hfallback]
    · rw [if_neg hmode, mirrorFallback, if_neg hmode]

/-! The Incoming Queue, the lease and the events at a loss (R49, R150, R162). -/

theorem slotAtLoss_eq (o : Option SlotEntry) :
    o.bind slotAtLoss = match o with
      | some e => if e.state = .executing ∨ e.state = .detached then some { e with state := .detached } else none
      | none => none := by
  rcases o with _ | e
  · rfl
  · unfold slotAtLoss
    cases hstate : e.state <;> simp [hstate]

theorem leaseAtLoss_eq (s : State) : leaseAtLoss s = { s with
    da.lease := match s.da.lease with
      | some ⟨.remoteHost, _⟩ => none
      | other => other
    eu.eventQueue := match s.da.lease with
      | some ⟨.remoteHost, _⟩ => insertEvent 16 s.eu.eventQueue ⟨.leaseBroken, .localHost, 0, 0, 1⟩
      | _ => s.eu.eventQueue } := by
  unfold leaseAtLoss
  rcases hlease : s.da.lease with _ | ⟨holder, due⟩
  · exact congrArg (fun l => { s with da.lease := l }) hlease
  · cases holder
    · exact congrArg (fun l => { s with da.lease := l }) hlease
    · rfl

/-! The parts in order. -/

/-- The chip before the Link Tester's part of a loss. -/
def beforeTestPart (r : HoldoffReason) (s : State) : State :=
  linesAtLoss (leaseAtLoss (eventsAtLoss r (incomingAtLoss (requestsAtLoss s))))

/-- The chip before the selection at the end of a loss. -/
def beforeSelection (r : HoldoffReason) (s : State) : State :=
  enterHoldoff r Config.holdoff (engineAtLoss (clearFlags (testAtLoss (beforeTestPart r s))))

theorem loss_eq (r : HoldoffReason) (s : State) : loss r s = select (beforeSelection r s) := rfl

/-- R15: the far requests, in submission order. -/
def farTags (s : State) : List Tag := s.rt.order.filter fun n => s.rt.tags[n].state.isFar

theorem mem_farTags {s : State} (h : RequestInv s) (n : Tag) : n ∈ farTags s ↔ s.rt.tags[n].state.isFar = true := by
  obtain ⟨-, -, -, -, hpending, -⟩ := h
  refine List.mem_filter.trans ⟨fun hn => hn.2, fun hfar => ⟨(hpending n).mp ?_, hfar⟩⟩
  cases hstate : s.rt.tags[n].state <;> rw [hstate] at hfar <;> first | rfl | cases hfar

theorem beforeTestPart_rt (r : HoldoffReason) (s : State) :
    (beforeTestPart r s).rt = (completeAll (farTags s) .linkDown s).rt := by
  simp [beforeTestPart, requestsAtLoss, farTags]

theorem beforeTestPart_lt (r : HoldoffReason) (s : State) : (beforeTestPart r s).lt = s.lt := by
  simp [beforeTestPart]

theorem beforeTestPart_tags (r : HoldoffReason) {s : State} (h : RequestInv s) (n : Tag) :
    (beforeTestPart r s).rt.tags[n] =
      if s.rt.tags[n].state.isFar = true then { s.rt.tags[n] with state := .done, due := none } else s.rt.tags[n] := by
  rw [beforeTestPart_rt, completeAll_tags]
  simp only [mem_farTags h]

theorem waitsAtLoss_beforeTestPart (r : HoldoffReason) {s : State} (h : RequestInv s) (n : Tag) (g : Gen) :
    WaitsAtLoss (beforeTestPart r s) n g ↔ WaitsAtLoss s n g := by
  unfold WaitsAtLoss
  rw [beforeTestPart_lt, beforeTestPart_tags r h]
  by_cases hfar : s.rt.tags[n].state.isFar = true
  · have hnot : s.rt.tags[n].state ≠ .testing := fun htesting => by rw [htesting] at hfar; cases hfar
    rw [if_pos hfar]
    simp only [hnot, false_and, and_false, reduceCtorEq]
  · rw [if_neg hfar]

theorem beforeSelection_rt (r : HoldoffReason) (s : State) :
    (beforeSelection r s).rt = (testAtLoss (beforeTestPart r s)).rt := by
  simp [beforeSelection]

/-! The waiting owner's completion in the Request Table. -/

theorem completeWaiting_tags (a : Answer) (s : State) (n : Tag) :
    (completeWaiting a s).rt.tags[n] =
      if waitingOwner s = some n then { s.rt.tags[n] with state := .done, due := none } else s.rt.tags[n] := by
  unfold completeWaiting
  split
  next t ht =>
    rw [ht, completeTag_tags]
    by_cases h : t = n
    · subst h; rw [if_pos rfl, if_pos rfl]
    · rw [if_neg h, if_neg fun h' => h (Option.some.inj h')]
  next ht => rw [ht, if_neg (by simp)]

theorem completeWaiting_order (a : Answer) (s : State) :
    (completeWaiting a s).rt.order = s.rt.order.filter fun n => decide (waitingOwner s ≠ some n) := by
  unfold completeWaiting
  split
  next t ht =>
    rw [ht]
    exact List.filter_congr fun n _ => by simp [eq_comm]
  next ht => rw [ht]; simp

theorem completeWaiting_cq_of_some (a : Answer) {s : State} {n : Tag} (h : waitingOwner s = some n) :
    (completeWaiting a s).rt.cq = s.rt.cq ++ [completionOf s n a] := by
  rw [completeWaiting, h]
  rfl

theorem completionOf_beforeTestPart (r : HoldoffReason) {s : State} (h : RequestInv s) (n : Tag) (a : Answer) :
    completionOf (beforeTestPart r s) n a = completionOf s n a := by
  unfold completionOf
  rw [beforeTestPart_tags r h]
  split <;> rfl

theorem waitingOwner_beforeTestPart (r : HoldoffReason) {s : State} (h : RequestInv s) (n : Tag) :
    waitingOwner (beforeTestPart r s) = some n ↔ ∃ g, WaitsAtLoss s n g := by
  simp only [waitingOwner_eq_some_iff, waitsAtLoss_beforeTestPart r h]

/-- The Request Table at the selection, with the answer of a checker or of another chip. -/
theorem beforeSelection_completes (r : HoldoffReason) (s : State) : ∃ a,
    (checkerAtLoss s.lt → a = answerAtLoss s.lt) ∧ (¬ checkerAtLoss s.lt → a = bare .linkDown) ∧
    (beforeSelection r s).rt = (completeWaiting a (beforeTestPart r s)).rt := by
  obtain ⟨hother, hchecker⟩ := testAtLoss_rt (beforeTestPart r s)
  rw [beforeTestPart_lt] at hother hchecker
  rw [beforeSelection_rt]
  by_cases h : checkerAtLoss s.lt
  · exact ⟨_, fun _ => rfl, fun h' => absurd h h', hchecker h⟩
  · exact ⟨_, fun h' => absurd h' h, fun _ => rfl, hother h⟩

/-! The other blocks at the selection. -/

theorem beforeTestPart_line (r : HoldoffReason) (s : State) (l : LineNo) :
    (beforeTestPart r s).lb.lines[l] = mirrorFallback (if s.lb.lines[l].owner = some .remoteHost then
      releasedRecord (heldLevel s s.lb.lines[l]) s.lb.lines[l] else s.lb.lines[l]) := by
  have hlb : (leaseAtLoss (eventsAtLoss r (incomingAtLoss (requestsAtLoss s)))).lb = s.lb := by simp
  rw [beforeTestPart, MirroredLines.linesAtLoss_line, hlb,
    heldLevel_congr (s := s) (by simp) (by simp) (by simp)]

theorem beforeSelection_line (r : HoldoffReason) (s : State) (l : LineNo) :
    (beforeSelection r s).lb.lines[l] = { (beforeTestPart r s).lb.lines[l] with flagErr := false } := by
  have hlb : (beforeSelection r s).lb = (clearFlags (testAtLoss (beforeTestPart r s))).lb := by simp [beforeSelection]
  have hlines : (testAtLoss (beforeTestPart r s)).lb = (beforeTestPart r s).lb := by simp
  rw [hlb]
  refine (mapLines_get (fun _ x => { x with flagErr := false }) (testAtLoss (beforeTestPart r s)) l).trans ?_
  rw [hlines]

theorem beforeSelection_iq (r : HoldoffReason) (s : State) :
    (beforeSelection r s).iq =
      { slots := vtab fun i => s.iq.slots[i].bind slotAtLoss
        arrival := s.iq.arrival.filter fun i => (s.iq.slots[i].bind slotAtLoss).isSome
        answerOrder := [] } := by
  have hiq : (requestsAtLoss s).iq = s.iq := by simp
  have hbefore : (beforeSelection r s).iq = (incomingAtLoss (requestsAtLoss s)).iq := by
    simp [beforeSelection, beforeTestPart]
  rw [hbefore, incomingAtLoss, hiq]

theorem beforeSelection_da (r : HoldoffReason) (s : State) :
    (beforeSelection r s).da = { s.da with
      remoteList := []
      lease := match s.da.lease with
        | some ⟨.remoteHost, _⟩ => none
        | other => other } := by
  have hda : (requestsAtLoss s).da = s.da := by simp
  have hbefore : (beforeSelection r s).da =
      (leaseAtLoss (eventsAtLoss r (incomingAtLoss (requestsAtLoss s)))).da := by simp [beforeSelection, beforeTestPart]
  rw [hbefore, leaseAtLoss_eq]
  change { (requestsAtLoss s).da with remoteList := [], lease := match (requestsAtLoss s).da.lease with
    | some ⟨.remoteHost, _⟩ => none
    | other => other } = _
  rw [hda]

theorem beforeTestPart_eu (r : HoldoffReason) (s : State) :
    (beforeTestPart r s).eu = { outbox := [], eventQueue := match s.da.lease with
      | some ⟨.remoteHost, _⟩ => insertEvent 16 (insertEvent 16 s.eu.eventQueue ⟨.linkDown, .localHost, r.code, 0, 1⟩)
          ⟨.leaseBroken, .localHost, 0, 0, 1⟩
      | _ => insertEvent 16 s.eu.eventQueue ⟨.linkDown, .localHost, r.code, 0, 1⟩ } := by
  have heu : (requestsAtLoss s).eu = s.eu := by simp
  have hda : (requestsAtLoss s).da = s.da := by simp
  have hbefore : (beforeTestPart r s).eu =
      (leaseAtLoss (eventsAtLoss r (incomingAtLoss (requestsAtLoss s)))).eu := by simp [beforeTestPart]
  rw [hbefore, leaseAtLoss_eq, ← heu, ← hda]
  rfl

theorem beforeSelection_eu (r : HoldoffReason) (s : State) :
    (beforeSelection r s).eu = (testAtLoss (beforeTestPart r s)).eu := by simp [beforeSelection]

theorem beforeSelection_lt (r : HoldoffReason) (s : State) :
    (beforeSelection r s).lt =
      if s.lt.phase = .idle then s.lt else { testerAtLoss s.lt with endReason := reasonAtLoss s.lt } := by
  have hlt : (beforeSelection r s).lt = (testAtLoss (beforeTestPart r s)).lt := by simp [beforeSelection]
  rw [hlt, testAtLoss_lt, beforeTestPart_lt]

theorem beforeSelection_link (r : HoldoffReason) (s : State) :
    (beforeSelection r s).slc = { s.slc with
      state := .holdoff, detail := r, good := 0, missed := 0, peerReady := false, trainDue := none, helloDue := none,
      helloLimit := none, silence := none, retrain := none, holdoff := some (s.now + 10000) } ∧
    (beforeSelection r s).fe = { FrameEngine.reset with crcErrors := s.fe.crcErrors } := by
  have before : (clearFlags (testAtLoss (beforeTestPart r s))).slc = s.slc ∧
      (clearFlags (testAtLoss (beforeTestPart r s))).now = s.now ∧
      (clearFlags (testAtLoss (beforeTestPart r s))).fe.crcErrors = s.fe.crcErrors := by simp [beforeTestPart]
  obtain ⟨hslc, hnow, hcrc⟩ := before
  rw [beforeSelection, ← hslc, ← hnow, ← hcrc]
  exact ⟨rfl, rfl⟩

theorem lineBlock_eq {b c : LineBlock} (hmirror : b.mirrorPending = c.mirrorPending)
    (hremote : b.remoteLines = c.remoteLines) (hpulse : b.pulse = none) : b = { c with lines := b.lines, pulse := none } := by
  rw [← hmirror, ← hremote, ← hpulse]

theorem beforeSelection_rest (r : HoldoffReason) (s : State) :
    let u := beforeSelection r s
    u.dbc = s.dbc ∧ u.lb = { s.lb with lines := u.lb.lines, pulse := none } ∧ u.hp = s.hp ∧ u.now = s.now ∧
      u.inReset = s.inReset ∧ u.free = s.free ∧ u.pending = s.pending := by
  have hlb : (beforeSelection r s).lb = (clearFlags (testAtLoss (beforeTestPart r s))).lb := by simp [beforeSelection]
  have hkept : (testAtLoss (beforeTestPart r s)).lb.mirrorPending = s.lb.mirrorPending ∧
      (testAtLoss (beforeTestPart r s)).lb.remoteLines = s.lb.remoteLines := by simp [beforeTestPart]
  obtain ⟨hmirror, hremote⟩ := hkept
  intro u
  refine ⟨by simp [u, beforeSelection, beforeTestPart], ?_, ?_, ?_, ?_, ?_, ?_⟩
  · rw [hlb]
    exact lineBlock_eq (by simpa using hmirror) (by simpa using hremote) rfl
  all_goals simp [u, beforeSelection, beforeTestPart]

/-- Settles O27: the chip before the selection, block by block. -/
theorem lossTearsTheLinkDown : Obligations.LossTearsTheLinkDown := by
  intro r s hreq far record checker why result waits
  obtain ⟨hdbc, hlb, hhp, hnow, hreset, hfree, hpending⟩ := beforeSelection_rest r s
  obtain ⟨hslc, hfe⟩ := beforeSelection_link r s
  obtain ⟨a, hchecker, hother, hrt⟩ := beforeSelection_completes r s
  have hwaits (n : Tag) : (∃ g, waits n g) ↔ waitingOwner (beforeTestPart r s) = some n :=
    (waitingOwner_beforeTestPart r hreq n).symm
  have hcq : (beforeTestPart r s).rt.cq = s.rt.cq ++ far.map fun k => record k ⟨.linkDown, 0, 0, []⟩ := by
    rw [beforeTestPart_rt, completeAll_cq]
    rfl
  refine ⟨beforeSelection r s, loss_eq r s, ?_, fun n => ?_, fun n g hn => ?_, fun hnone => ?_, fun i => ?_, ?_, ?_,
    beforeSelection_da r s, hdbc, fun l => ?_, hlb, hslc, hfe, ?_, ?_, fun hidle => ?_, fun hidle => ?_, hhp, hnow,
    hreset, hfree, hpending⟩
  · rw [hrt, completeWaiting_order, beforeTestPart_rt, completeAll_order, List.filter_filter]
    refine List.filter_congr fun n _ => ?_
    simp only [hwaits, mem_farTags hreq, Bool.not_eq_true, ne_eq]
    cases s.rt.tags[n].state.isFar <;> simp
  · rw [hrt, completeWaiting_tags, beforeTestPart_tags r hreq]
    simp only [hwaits]
    by_cases hfar : s.rt.tags[n].state.isFar = true
    · have hdone : s.rt.tags[n].state.isFar = true ∨ waitingOwner (beforeTestPart r s) = some n := .inl hfar
      rw [if_pos hfar, if_pos hdone]
      split <;> rfl
    · by_cases hown : waitingOwner (beforeTestPart r s) = some n
      · rw [if_neg hfar, if_pos hown, if_pos (.inr hown)]
      · rw [if_neg hfar, if_neg hown, if_neg (not_or.mpr ⟨hfar, hown⟩)]
  · have hown := (hwaits n).mp ⟨g, hn⟩
    rw [hrt, completeWaiting_cq_of_some a hown, completionOf_beforeTestPart r hreq, hcq]
    by_cases h : checkerAtLoss s.lt
    · rw [if_pos (show checker from h), hchecker h]; rfl
    · rw [if_neg (show ¬ checker from h), hother h]; rfl
  · have hown : waitingOwner (beforeTestPart r s) = none :=
      Option.eq_none_iff_forall_not_mem.mpr fun n hn => by
        obtain ⟨g, hg⟩ := (hwaits n).mpr hn
        exact hnone n g hg
    rw [hrt, completeWaiting_of_none a hown, hcq]
  · rw [beforeSelection_iq]
    refine (vtab_at _ i).trans ((slotAtLoss_eq _).trans ?_)
    rfl
  · rw [beforeSelection_iq]
    refine List.filter_congr fun i _ => ?_
    rw [vtab_at]
  · rw [beforeSelection_iq]
  · rw [beforeSelection_line, beforeTestPart_line]
    exact lineAtLoss_eq _ _
  · rw [beforeSelection_eu]
    by_cases h : checkerAtLoss s.lt
    · rw [(testAtLoss_eu _).2 (by rwa [beforeTestPart_lt]), beforeTestPart_eu]
    · rw [(testAtLoss_eu _).1 (by rwa [beforeTestPart_lt]), beforeTestPart_eu]
  · intro down broken
    rw [beforeSelection_eu]
    by_cases h : checkerAtLoss s.lt
    · rw [(testAtLoss_eu _).2 (by rwa [beforeTestPart_lt]), beforeTestPart_eu, beforeTestPart_lt,
        if_pos (show checker from h)] <;> rfl
    · rw [(testAtLoss_eu _).1 (by rwa [beforeTestPart_lt]), beforeTestPart_eu, if_neg (show ¬ checker from h)] <;> rfl
  · rw [beforeSelection_lt, if_pos hidle]
  · rw [beforeSelection_lt, if_neg hidle]
    rfl

end Sys2Proof.Proofs.LinkLoss

/-! The bring-up by its frames (R96 to R101). -/

namespace Sys2Proof.Proofs.BringUp
open Sys2Proof Sys2Proof.Machine Sys2Proof.Laws.RequestInv Sys2Proof.Proofs.Delivery Sys2Proof.Proofs.LinkTimers

/-! A good frame of the link controller, by the role of the chip that takes it. -/

theorem frameGood_of {k : FrameKind} {h : FrameHeader} {p : List Byte} (hret : h.ret.toNat ≤ 8) (hlen : p.length ≤ 48)
    (hp : payloadGood k p = true) : frameGood k h p = true := by
  simp [frameGood, hret, hlen, hp]

theorem frameGood_train {h : FrameHeader} (hret : h.ret.toNat ≤ 8) {b : Byte} (hb : b.toNat ≤ 1) :
    frameGood .train h [b] = true := frameGood_of hret (by simp) (by simp [payloadGood, hb])

theorem frameGood_trainAck {h : FrameHeader} (hret : h.ret.toNat ≤ 8) {b : Byte} (hb : b.toNat ≤ 1) :
    frameGood .trainAck h [b] = true := frameGood_of hret (by simp) (by simp [payloadGood, hb])

theorem frameGood_hello {h : FrameHeader} (hret : h.ret.toNat ≤ 8) (rev cap : Byte) {b : Byte} (hb : b.toNat ≤ 1) :
    frameGood .hello h [rev, cap, b] = true := frameGood_of hret (by simp) (by simp [payloadGood, hb])

theorem leaderHello_not_follower (rev cap : Byte) : frameRole .hello [rev, cap, 0] ≠ some .follower := by
  simp [frameRole, FrameKind.isLink]

section Taking

variable {k : FrameKind} {h : FrameHeader} {p : List Byte} {s : State}

theorem receive_at_follower (hout : s.inReset = false) (hsending : s.fe.sending = none) (htest : s.slc.state ≠ .test)
    (hgood : frameGood k h p = true) (hrole : s.slc.role = .follower) : receive k h p s = followerTakes k h p s := by
  rw [receive_of_good hout hsending htest hgood, hrole]

theorem receive_at_leader (hout : s.inReset = false) (hsending : s.fe.sending = none) (htest : s.slc.state ≠ .test)
    (hgood : frameGood k h p = true) (hrole : s.slc.role = .leader) : receive k h p s = leaderTakes k h p s := by
  rw [receive_of_good hout hsending htest hgood, hrole]

/-! A follower (R97, R100). -/

theorem followerTakes_of_follower (hrole : frameRole k p = some .follower) : followerTakes k h p s = .next s :=
  if_pos hrole

theorem followerTakes_train_in_listen (hrole : frameRole .train p ≠ some .follower) (hstate : s.slc.state = .listen)
    (hmark : h.retrain = false) :
    followerTakes .train h p s =
      .next (if 16 ≤ (answerTrain s).slc.good then lock (answerTrain s) else answerTrain s) := by
  simp [followerTakes, hrole, hstate, hmark]
  rfl

theorem followerTakes_marked_train (hrole : frameRole .train p ≠ some .follower)
    (hstate : s.slc.state = .listen ∨ s.slc.state = .hello) (hmark : h.retrain = true) :
    followerTakes .train h p s = .next s := by
  rcases hstate with hstate | hstate <;> simp [followerTakes, hrole, hstate, hmark]

theorem followerTakes_train_in_hello (hrole : frameRole .train p ≠ some .follower) (hstate : s.slc.state = .hello)
    (hmark : h.retrain = false) :
    followerTakes .train h p s = .next (sendTrainAck { s with slc.helloLimit := some (s.now + 10000) }) := by
  simp [followerTakes, hrole, hstate, hmark, Config.helloLimit, Config.ms]

theorem followerTakes_hello_in_listen (hrole : frameRole .hello p ≠ some .follower) (hstate : s.slc.state = .listen) :
    followerTakes .hello h p s = .next (followerHello h p (lock s)) := by
  simp [followerTakes, hrole, hstate]

theorem followerTakes_hello_in_hello (hrole : frameRole .hello p ≠ some .follower) (hstate : s.slc.state = .hello) :
    followerTakes .hello h p s = .next (followerHello h p s) := by
  simp [followerTakes, hrole, hstate]

theorem followerTakes_hello_in_run (hrole : frameRole .hello p ≠ some .follower) (hstate : s.slc.state = .run) :
    followerTakes .hello h p s = .next (takeReady h.hostReady { s with
      slc.silence := some (s.now + 2000), fe.replyDue := some (s.now + 2), fe.replyHello := true }) := by
  have taken : followerTakes .hello h p s =
      .next (takeReady h.hostReady (oweReply .hello (restartSilence s))) := by
    simp [followerTakes, hrole, hstate, followerTurn, takeFrame, FrameKind.isLink]
  have owed : oweReply .hello (restartSilence s) = { s with
      slc.silence := some (s.now + 2000), fe.replyDue := some (s.now + 2), fe.replyHello := true } := by
    simp [oweReply, restartSilence, hstate, Config.turnGap, Config.silenceLimit, Config.ms]
  rw [taken, owed]

theorem helloContent_of_good {rev cap b : Byte} (hlow : 1 ≤ cap.toNat) (hhigh : cap.toNat ≤ 8) :
    helloContent h [rev, cap, b] = some ⟨rev, cap.toNat, h.hostReady⟩ := if_pos ⟨hlow, hhigh⟩

theorem helloContent_of_bad {rev cap b : Byte} (hcap : cap.toNat = 0 ∨ 8 < cap.toNat) :
    helloContent h [rev, cap, b] = none := if_neg fun ⟨hlow, hhigh⟩ => by simp at hlow hhigh; omega

theorem followerHello_of_content {c : HelloTaken} (hc : helloContent h p = some c) :
    followerHello h p s = sendHello { s with slc.helloLimit := none, fe.helloTaken := some c } := by
  rw [followerHello, hc]

theorem followerHello_of_bad (hc : helloContent h p = none) :
    followerHello h p s = enterHoldoff .helloFail 10000 s := by
  rw [followerHello, hc]
  rfl

/-! A leader (R96, R98, R99). -/

theorem leaderTakes_clash_in_listen (hrole : frameRole .train p = some .leader) (hstate : s.slc.state = .listen) :
    leaderTakes .train h p s = .next (roleClash s) := by
  simp [leaderTakes, hrole, hstate]

theorem leaderTakes_trainAck_in_listen (hrole : frameRole .trainAck p = some .follower) (hstate : s.slc.state = .listen)
    (hopen : s.fe.awaitReply.isSome = true) : leaderTakes .trainAck h p s = .next (takeTrainAck h s) := by
  simp [leaderTakes, hrole, hstate, hopen]

theorem takeTrainAck_in_listen (hstate : s.slc.state = .listen) :
    takeTrainAck h s = if 16 ≤ min 16 (s.slc.good + 1) then
        lock { s with slc.good := min 16 (s.slc.good + 1), fe.awaitReply := none }
      else { s with slc.good := min 16 (s.slc.good + 1), fe.awaitReply := none } := by
  simp only [takeTrainAck, hstate]
  rfl

theorem leaderTakes_clash_in_hello (hk : k = .train ∨ k = .hello) (hrole : frameRole k p = some .leader)
    (hstate : s.slc.state = .hello) : leaderTakes k h p s = .next (roleClash s) := by
  simp [leaderTakes, hk, hrole, hstate]

theorem leaderTakes_hello_in_hello (hrole : frameRole .hello p = some .follower) (hstate : s.slc.state = .hello)
    (hopen : s.fe.awaitReply.isSome = true) : leaderTakes .hello h p s = .next (leaderHello h p s) := by
  simp [leaderTakes, hrole, hstate, hopen]

theorem leaderHello_of_content {c : HelloTaken} (hc : helloContent h p = some c) :
    leaderHello h p s = enterRunFromHello c { s with fe.awaitReply := none } := by
  rw [leaderHello, hc]

theorem leaderHello_of_bad (hc : helloContent h p = none) : leaderHello h p s = enterHoldoff .helloFail 10000 s := by
  rw [leaderHello, hc]
  rfl

end Taking

theorem lock_of_leader {s : State} (h : s.slc.role = .leader) : lock s = { s with
    slc := { s.slc with
      state := .hello, trainDue := none, helloDue := some (s.now + 1000), helloLimit := some (s.now + 10000) } } := by
  simp [lock, h, Config.trainInterval, Config.helloLimit, Config.ms]

theorem lock_of_follower {s : State} (h : s.slc.role = .follower) : lock s = { s with
    slc := { s.slc with
      state := .hello, trainDue := none, helloDue := none, helloLimit := some (s.now + 10000) } } := by
  simp [lock, h, Config.helloLimit, Config.ms]

/-! The entry to RUN (R101). -/

theorem freeDetached_slot (s : State) (i : Slot) : (freeDetached s).iq.slots[i] = match s.iq.slots[i] with
    | some e => if e.state = .detached then none else some e
    | none => none := by
  refine (vtab_at _ i).trans ?_
  cases s.iq.slots[i] <;> rfl

theorem enterRunFromHello_eq (x : HelloTaken) (s : State) : enterRunFromHello x s = { s with
    slc := { (startRun x.capacity s).slc with peerRev := x.revision, peerCap := x.capacity, peerReady := x.ready }
    fe := engineAtRun x.capacity s.now s.fe
    iq := (freeDetached s).iq
    eu.eventQueue := if x.ready then insertEvent 16 (insertEvent 16 s.eu.eventQueue ⟨.linkUp, .localHost, 0, x.revision, 1⟩)
        ⟨.peerHostReady, .localHost, 0, 0, 1⟩
      else insertEvent 16 s.eu.eventQueue ⟨.linkUp, .localHost, 0, x.revision, 1⟩ } := by
  unfold enterRunFromHello
  dsimp only
  cases x.ready <;> rfl

theorem entersRun_enterRunFromHello (x : HelloTaken) (s : State) : EntersRun x s (enterRunFromHello x s) := by
  rw [enterRunFromHello_eq]
  refine ⟨rfl, rfl, freeDetached_slot s, ?_, rfl, rfl, rfl, rfl, rfl, rfl, rfl, rfl, rfl, rfl, rfl, rfl⟩
  refine List.filter_congr fun i _ => ?_
  exact congrArg Option.isSome
    (vtab_at (fun i => s.iq.slots[i].bind fun e => if e.state = .detached then none else some e) i).symm

/-- Settles O28: the rows in the order of the statement, each by role, link state and what the frame carries. -/
theorem trainingFramesBringTheLinkUp : Obligations.TrainingFramesBringTheLinkUp := by
  intro h s hout hsending hret
  have listening (hstate : s.slc.state = .listen) : s.slc.state ≠ .test := by rw [hstate]; decide
  have greeting (hstate : s.slc.state = .hello) : s.slc.state ≠ .test := by rw [hstate]; decide
  have running (hstate : s.slc.state = .run) : s.slc.state ≠ .test := by rw [hstate]; decide
  have train (b : Byte) (hb : b.toNat ≤ 1) := frameGood_train hret hb
  have hello (rev cap b : Byte) (hb : b.toNat ≤ 1) := frameGood_hello hret rev cap hb
  refine ⟨fun hrole hstate hmark => ?_, fun hrole hstate => ⟨?_, fun hopen hgood => ?_, fun hopen hgood => ?_⟩,
    fun hrole hstate => ?_, fun hrole hstate hmark => ?_, fun hrole hstate => ⟨?_, fun rev cap => ⟨?_, fun hopen hcap => ?_⟩⟩,
    fun rev cap hlow hhigh hrole hstate => ?_, fun rev cap hrole hstate => ?_,
    fun rev cap hlow hhigh hstate => ⟨fun hrole => ?_, fun hrole hopen => ?_⟩, ?_⟩
  · have hexec : exec (.train h [0]) s = _ :=
      (receive_at_follower hout hsending (listening hstate) (train 0 (by decide)) hrole).trans
        (followerTakes_train_in_listen (by decide) hstate hmark)
    rw [hexec]
    refine ⟨fun hgood => ?_, fun hgood => ⟨lock (answerTrain s), ?_, rfl, ?_, rfl, rfl⟩⟩
    · have count : min 16 (s.slc.good + 1) = s.slc.good + 1 := by omega
      have answered : answerTrain s = sendTrainAck { s with slc.good := s.slc.good + 1 } :=
        congrArg (fun n => sendTrainAck { s with slc.good := n }) count
      rw [answered, if_neg]
      change ¬ 16 ≤ s.slc.good + 1
      omega
    · rw [if_pos]
      change 16 ≤ min 16 (s.slc.good + 1)
      omega
    · change min 16 (s.slc.good + 1) = 16
      omega
  · exact (receive_at_leader hout hsending (listening hstate) (train 0 (by decide)) hrole).trans
      (leaderTakes_clash_in_listen rfl hstate)
  · refine (receive_at_leader hout hsending (listening hstate) (frameGood_trainAck hret (by decide)) hrole).trans
      ((leaderTakes_trainAck_in_listen rfl hstate hopen).trans ?_)
    have count : min 16 (s.slc.good + 1) = s.slc.good + 1 := by omega
    rw [takeTrainAck_in_listen hstate, count, if_neg (by omega)]
  · refine (receive_at_leader hout hsending (listening hstate) (frameGood_trainAck hret (by decide)) hrole).trans
      ((leaderTakes_trainAck_in_listen rfl hstate hopen).trans ?_)
    have count : min 16 (s.slc.good + 1) = 16 := by omega
    rw [takeTrainAck_in_listen hstate, count, if_pos (le_refl _),
      lock_of_leader (s := { s with slc.good := 16, fe.awaitReply := none }) hrole]
  · have htest : s.slc.state ≠ .test := by rcases hstate with h | h <;> rw [h] <;> decide
    have takes {k : FrameKind} {p : List Byte} (hgood : frameGood k h p = true) :=
      receive_at_follower hout hsending htest hgood hrole
    refine ⟨fun hmark => ?_, ?_, fun rev cap => ⟨?_, fun hcap => ?_⟩⟩
    · exact (takes (train 0 (by decide))).trans (followerTakes_marked_train (by decide) hstate hmark)
    · exact (takes (train 1 (by decide))).trans (followerTakes_of_follower rfl)
    · exact (takes (hello rev cap 1 (by decide))).trans (followerTakes_of_follower rfl)
    · have bad {u : State} := followerHello_of_bad (s := u) (helloContent_of_bad (h := h) (rev := rev) (b := 0) hcap)
      refine (takes (hello rev cap 0 (by decide))).trans ?_
      rcases hstate with hstate | hstate
      · rw [followerTakes_hello_in_listen (leaderHello_not_follower rev cap) hstate, bad]
        rfl
      · rw [followerTakes_hello_in_hello (leaderHello_not_follower rev cap) hstate, bad]
  · exact (receive_at_follower hout hsending (greeting hstate) (train 0 (by decide)) hrole).trans
      (followerTakes_train_in_hello (by decide) hstate hmark)
  · exact (receive_at_leader hout hsending (greeting hstate) (train 0 (by decide)) hrole).trans
      (leaderTakes_clash_in_hello (.inl rfl) rfl hstate)
  · exact (receive_at_leader hout hsending (greeting hstate) (hello rev cap 0 (by decide)) hrole).trans
      (leaderTakes_clash_in_hello (.inr rfl) rfl hstate)
  · refine (receive_at_leader hout hsending (greeting hstate) (hello rev cap 1 (by decide)) hrole).trans ?_
    rw [leaderTakes_hello_in_hello rfl hstate hopen, leaderHello_of_bad (helloContent_of_bad hcap)]
  · refine (receive_at_follower hout hsending (listening hstate) (hello rev cap 0 (by decide)) hrole).trans ?_
    rw [followerTakes_hello_in_listen (leaderHello_not_follower rev cap) hstate,
      followerHello_of_content (helloContent_of_good hlow hhigh), lock_of_follower hrole]
  · exact (receive_at_follower hout hsending (running hstate) (hello rev cap 0 (by decide)) hrole).trans
      (followerTakes_hello_in_run (leaderHello_not_follower rev cap) hstate)
  · refine (receive_at_follower hout hsending (greeting hstate) (hello rev cap 0 (by decide)) hrole).trans ?_
    rw [followerTakes_hello_in_hello (leaderHello_not_follower rev cap) hstate,
      followerHello_of_content (helloContent_of_good hlow hhigh)]
  · refine ⟨_, (receive_at_leader hout hsending (greeting hstate) (hello rev cap 1 (by decide)) hrole).trans ?_,
      entersRun_enterRunFromHello _ _⟩
    rw [leaderTakes_hello_in_hello rfl hstate hopen, leaderHello_of_content (helloContent_of_good hlow hhigh)]
  · intro role
    have hrole : s.slc.role.code = role := roleCode_eq _
    rw [sendTrainAck_eq, sendHello_eq, hrole]
    exact ⟨rfl, rfl⟩

end Sys2Proof.Proofs.BringUp

/-! Turns, the transmit selector and the building of frames (chapter 6). -/

namespace Sys2Proof.Proofs.Turns
open Sys2Proof Sys2Proof.Machine Sys2Proof.Proofs.Rows Sys2Proof.Proofs.LinkTimers

theorem hasTurns_iff (st : LinkState) : st.hasTurns = true ↔ st = .run ∨ st = .drain := by
  cases st <;> decide

/-! Turns (R119, R120). -/

theorem nextTurn_eq (s : State) :
    nextTurn s = if s.fe.hurry = true ∨ s.fe.goBack ≠ [] ∨ nextKind s ≠ .idle then s.fe.earliest
      else max (s.fe.turnOpened + 100) s.fe.earliest := by
  simp [nextTurn, hasTraffic, Config.turnPeriod]

theorem exec_turnOpen {s : State} (h : s.inReset = false) : exec .turnOpen s = .next (turnOpen s) := exec_of_onChip h rfl

theorem exec_followerReply {s : State} (h : s.inReset = false) : exec .followerReply s = .next (followerReply s) :=
  exec_of_onChip h rfl

theorem turnOpen_of_leader {s : State} (h : s.slc.role = .leader ∧ (s.slc.state = .run ∨ s.slc.state = .drain) ∧
    s.fe.sending = none ∧ s.fe.awaitReply = none) :
    turnOpen s = sendSelected { s with
      now := max s.now (nextTurn s), fe.turnOpened := max s.now (nextTurn s), fe.hurry := false } := by
  rw [← hasTurns_iff] at h
  exact if_pos h

theorem turnOpen_of_other {s : State} (h : ¬ (s.slc.role = .leader ∧ (s.slc.state = .run ∨ s.slc.state = .drain) ∧
    s.fe.sending = none ∧ s.fe.awaitReply = none)) : turnOpen s = s := by
  rw [← hasTurns_iff] at h
  exact if_neg h

theorem followerReply_of_none {s : State} (h : s.fe.replyDue = none) : followerReply s = s := by
  rw [followerReply, h]

theorem followerReply_of_other {s : State} (h : ¬ (s.slc.role = .follower ∧
    (s.slc.state = .run ∨ s.slc.state = .drain) ∧ s.fe.sending = none)) : followerReply s = s := by
  rw [← hasTurns_iff] at h
  unfold followerReply
  split
  · rfl
  · exact if_neg h

theorem followerReply_of_due {s : State} {due : Moment} (hdue : s.fe.replyDue = some due) (hrole : s.slc.role = .follower)
    (hstate : s.slc.state = .run ∨ s.slc.state = .drain) (hsending : s.fe.sending = none) :
    followerReply s = if s.fe.replyHello then sendHelloReply { s.reach due with fe.replyDue := none }
      else sendSelected { s.reach due with fe.replyDue := none } := by
  rw [followerReply, hdue]
  exact if_pos ⟨hrole, (hasTurns_iff _).mpr hstate, hsending⟩

/-! The frame sent in a turn (R122, R131, R132). -/

theorem sendSelected_of_no_goBack {s : State} (h : s.fe.goBack = []) : sendSelected s = buildFrame (nextKind s) s := by
  rw [sendSelected, h]

theorem sendSelected_of_goBack {s : State} {q : Seq} {rest : List Seq} {f : WindowFrame} (h : s.fe.goBack = q :: rest)
    (hf : s.fe.window.find? (fun g => decide (g.seq = q)) = some f) :
    sendSelected s = if 4 ≤ f.sends then loss .retryLimit s else resendFrame f rest s := by
  simp only [sendSelected, h, hf]
  rfl

theorem seq_of_found {w : List WindowFrame} {q : Seq} {f : WindowFrame}
    (h : w.find? (fun g => decide (g.seq = q)) = some f) : f.seq = q := by
  simpa using List.find?_some h

/-- Settles O30: the leader's turn and the follower's reply, then the frame each sends. -/
theorem turnsSendTheSelectedFrame : Obligations.TurnsSendTheSelectedFrame := by
  refine ⟨fun s hout => ?_, fun s => ⟨sendSelected_of_no_goBack, fun q rest f hback hf => ⟨fun hmany => ?_,
    fun hfew => ?_⟩⟩⟩
  · intro due
    rw [exec_turnOpen hout, exec_followerReply hout]
    refine ⟨fun h => ?_, fun h => by rw [turnOpen_of_other h], fun h => by rw [followerReply_of_none h],
      fun h => by rw [followerReply_of_other h], fun reply hreply hrole hstate hsending =>
        ⟨fun hplain => ?_, fun hhello => ?_⟩⟩
    · rw [turnOpen_of_leader h, nextTurn_eq]
    · rw [followerReply_of_due hreply hrole hstate hsending, hplain]
      rfl
    · rw [followerReply_of_due hreply hrole hstate hsending, hhello, if_pos rfl, sendHelloReply, sendHello_eq]
      dsimp only [State.reach]
      rw [hrole]
      rfl
  · rw [sendSelected_of_goBack hback hf, if_pos hmany]
  · obtain rfl := seq_of_found hf
    rw [sendSelected_of_goBack hback hf, if_neg (by omega)]
    rfl

/-! The selector (R122). -/

theorem nextReq_isSome_iff (s : State) :
    (nextReq s).isSome = true ↔ ∃ t ∈ s.rt.order, s.rt.tags[t].state = .waitCredit := by
  simp [nextReq]

/-- Settles O31: the candidates in their order, each taken or passed over. -/
theorem selectorTakesTheFirstCandidate : Obligations.SelectorTakesTheFirstCandidate := by
  intro s run
  refine ⟨fun hfull => if_pos hfull, fun hroom => ?_⟩
  have room : ¬ Config.windowSize ≤ s.fe.window.length := Nat.not_le.mpr hroom
  unfold nextKind
  simp only [if_neg room, nextReq_isSome_iff, decide_eq_true_iff]
  refine ⟨fun h => if_pos h, fun hrelease => ?_⟩
  rw [hrelease, if_neg (by decide)]
  refine ⟨fun h => if_pos (by simpa using h), fun hcancel => ?_⟩
  rw [hcancel, if_neg (by decide)]
  refine ⟨fun hrun h => if_pos ⟨hrun, h⟩, fun hresult => ?_⟩
  rw [if_neg hresult]
  refine ⟨fun hrun h => if_pos ⟨hrun, h⟩, fun hlines => ?_⟩
  rw [if_neg hlines]
  refine ⟨fun h => if_pos (by simpa using h), fun hanswers => ?_⟩
  rw [hanswers, if_neg (by decide)]
  refine ⟨fun k hk => by rw [hk], fun hnone => ?_⟩
  rw [hnone]
  refine ⟨fun hrun hwait hcredit => if_pos ⟨hrun, hwait, hcredit⟩, fun hreq => ?_⟩
  dsimp only
  rw [if_neg hreq]
  exact ⟨fun hrun h => if_pos ⟨hrun, by simpa using h⟩, fun h => if_neg (by simpa using h)⟩

/-! The building of frames (R123, R130, R131). -/

theorem noteSend_of_few {held : Bool} {s : State}
    (h : (if held = true ∧ s.fe.progress = false then s.fe.stall + 1 else s.fe.stall) < 3) :
    noteSend held s = { s with
      fe.stall := if held = true ∧ s.fe.progress = false then s.fe.stall + 1 else s.fe.stall, fe.progress := false } :=
  if_neg (Nat.not_le.mpr h)

theorem noteSend_of_third {held : Bool} {s : State}
    (h : 3 ≤ (if held = true ∧ s.fe.progress = false then s.fe.stall + 1 else s.fe.stall)) :
    noteSend held s = { s with fe.stall := 0, fe.progress := false, fe.goBack := s.fe.window.map (·.seq) } :=
  if_pos h

theorem nextReq_eq_none_iff (s : State) : nextReq s = none ↔ ∀ t ∈ s.rt.order, s.rt.tags[t].state ≠ .waitCredit := by
  rw [nextReq, List.find?_eq_none]
  simp only [decide_eq_true_iff]

theorem nextReq_eq_some_iff (s : State) (t : Tag) : nextReq s = some t ↔ s.rt.tags[t].state = .waitCredit ∧
    ∃ older newer, s.rt.order = older ++ t :: newer ∧ ∀ u ∈ older, s.rt.tags[u].state ≠ .waitCredit := by
  rw [nextReq, List.find?_eq_some_iff_append]
  simp

theorem buildFrame_req {s : State} {t : Tag} (h : nextReq s = some t) : buildFrame .req s = buildReq t s := by
  rw [buildFrame, h]

theorem buildFrame_rsp {s : State} {i : Slot} {rest : List Slot} {e : SlotEntry} {a : Answer}
    (h : s.iq.answerOrder = i :: rest) (he : s.iq.slots[i] = some e) (ha : e.state = .answered a) :
    buildFrame .rsp s = pushFrame .rsp (rspPayload e a) (some i)
      { setSlot i (some { e with state := .sent a }) s with
        iq := { (setSlot i (some { e with state := .sent a }) s).iq with
          answerOrder := s.iq.answerOrder.filter (· ≠ i) } } := by
  rw [buildFrame, h]
  simp only [buildRsp, he, ha]
  rw [← h]
  rfl

theorem buildFrame_cancel {s : State} {t : Tag} {g : Gen} {rest : List (Tag × Gen)} (h : s.fe.cancelList = (t, g) :: rest) :
    buildFrame .cancel s = pushFrame .cancel [toByte t.val, g.setWidth 8] none { s with fe.cancelList := rest } := by
  rw [buildFrame, h]

theorem buildFrame_event {s : State} {r : EventRecord} {rest : List EventRecord} (h : s.eu.outbox = r :: rest) :
    buildFrame .event s = pushFrame .event (eventPayload r) none { s with eu.outbox := rest } := by
  rw [buildFrame, h]

/-- Settles O32: the sending and its stall count, then the work each kind takes. -/
theorem buildingAFrameTakesItsWork : Obligations.BuildingAFrameTakesItsWork := by
  refine ⟨⟨fun _ _ _ _ => rfl, fun held s => ⟨noteSend_of_few, noteSend_of_third⟩⟩, fun s =>
    ⟨⟨nextReq_eq_none_iff s, nextReq_eq_some_iff s⟩, fun t ht => ?_, fun i rest e a horder he ha => ?_,
      fun t g rest h => buildFrame_cancel h, fun r rest h => buildFrame_event h, rfl, rfl, rfl⟩⟩
  · rw [buildFrame_req ht]
    rfl
  · rw [buildFrame_rsp horder he ha]
    rfl

/-! The end of a frame and of a reply window (R119, R121, R126, R170). -/

theorem exec_frameSent {s : State} (h : s.inReset = false) : exec .frameSent s = .next (frameSent s) :=
  exec_of_onChip h rfl

theorem exec_replyWindowEnd {s : State} (h : s.inReset = false) : exec .replyWindowEnd s = .next (replyWindowEnd s) :=
  exec_of_onChip h rfl

theorem frameSent_of_none {s : State} (h : s.fe.sending = none) : frameSent s = s := by
  rw [frameSent, h]

/-- The chip right after the last bit of the frame `f`. -/
def sentFrame (f : Frame) (s : State) : State := { s with
  now := max s.now s.fe.sendEnd
  fe.sending := none
  fe.resend := s.fe.resend && decide (f.kind = .train ∨ f.kind = .trainAck ∨ f.kind = .hello) }

theorem isLink_eq (k : FrameKind) : k.isLink = decide (k = .train ∨ k = .trainAck ∨ k = .hello) := by
  cases k <;> rfl

theorem frameSent_of_leader {s : State} {f : Frame} (h : s.fe.sending = some f) (hrole : s.slc.role = .leader) :
    frameSent s = afterSend { sentFrame f s with fe.awaitReply := some (max s.now s.fe.sendEnd + 20) } := by
  simp only [frameSent, h, isLink_eq, reach_frame, hrole]
  rfl

theorem frameSent_of_greeted {s : State} {f : Frame} {x : HelloTaken} (h : s.fe.sending = some f)
    (hrole : s.slc.role = .follower) (hx : s.fe.helloTaken = some x) :
    frameSent s = enterRunFromHello x { sentFrame f s with fe.helloTaken := none } := by
  simp only [frameSent, h, isLink_eq, reach_frame, hrole, hx]
  rfl

theorem frameSent_of_follower {s : State} {f : Frame} (h : s.fe.sending = some f) (hrole : s.slc.role = .follower)
    (hx : s.fe.helloTaken = none) : frameSent s = afterSend (sentFrame f s) := by
  simp only [frameSent, h, isLink_eq, reach_frame, hrole, hx, sentFrame]

theorem afterSend_of_go {s : State} (hgo : s.lt.goTaken = true) (hstate : s.slc.state = .drain) :
    afterSend s = enterTest s := if_pos ⟨hgo, hstate⟩

theorem afterSend_of_no_go {s : State} (h : s.lt.goTaken = false ∨ s.slc.state ≠ .drain) : afterSend s = s :=
  if_neg fun ⟨hgo, hstate⟩ => h.elim (fun h => by rw [h] at hgo; cases hgo) (· hstate)

theorem replyWindowEnd_of_none {s : State} (h : s.fe.awaitReply = none) : replyWindowEnd s = s := by
  rw [replyWindowEnd, h]

theorem replyWindowEnd_of_turn {s : State} {due : Moment} (h : s.fe.awaitReply = some due)
    (hstate : s.slc.state = .run ∨ s.slc.state = .drain) : replyWindowEnd s = missTurn 0 (s.reach due) := by
  rcases hstate with hstate | hstate <;> simp only [replyWindowEnd, h, hstate]

theorem replyWindowEnd_of_exchange {s : State} {due : Moment} (h : s.fe.awaitReply = some due)
    (hstate : s.slc.state = .listen ∨ s.slc.state = .retrain) : replyWindowEnd s = missExchange (s.reach due) := by
  rcases hstate with hstate | hstate <;> simp only [replyWindowEnd, h, hstate]

theorem replyWindowEnd_of_rest {s : State} {due : Moment} (h : s.fe.awaitReply = some due)
    (hstate : s.slc.state = .hello ∨ s.slc.state = .disabled ∨ s.slc.state = .test ∨ s.slc.state = .holdoff) :
    replyWindowEnd s = { s.reach due with fe.awaitReply := none } := by
  rcases hstate with hstate | hstate | hstate | hstate <;> simp only [replyWindowEnd, h, hstate]

theorem missTurn_eq (gap : Nat) (s : State) :
    missTurn gap s = if 16 ≤ s.slc.missed + 1 then
        loss .turnLoss { s with
          fe.awaitReply := none, fe.earliest := s.now + gap, fe.hurry := true, slc.missed := s.slc.missed + 1 }
      else { s with
        fe.awaitReply := none, fe.earliest := s.now + gap, fe.hurry := true, slc.missed := s.slc.missed + 1 } := rfl

/-- Settles O33: the end of a frame by role, HELLO taken and TEST_GO taken; the end of a window by link state. -/
theorem replyWindowsOpenAndClose : Obligations.ReplyWindowsOpenAndClose := by
  refine ⟨fun s hout => ?_, fun s hout => ?_⟩
  · rw [exec_frameSent hout]
    refine ⟨fun h => by rw [frameSent_of_none h], fun f hf => ?_⟩
    intro after
    refine ⟨fun hrole => ⟨fun hgo => ?_, fun hgo hstate => ?_⟩, fun hrole htaken hgo => ?_, fun x hrole htaken => ?_,
      fun hrole htaken hgo hstate => ?_⟩
    · rw [frameSent_of_leader hf hrole]
      exact congrArg Host.Outcome.next (afterSend_of_no_go hgo)
    · rw [frameSent_of_leader hf hrole]
      exact congrArg Host.Outcome.next (afterSend_of_go hgo hstate)
    · rw [frameSent_of_follower hf hrole htaken]
      exact congrArg Host.Outcome.next (afterSend_of_no_go hgo)
    · rw [frameSent_of_greeted hf hrole htaken]
      exact ⟨_, rfl, BringUp.entersRun_enterRunFromHello _ _⟩
    · rw [frameSent_of_follower hf hrole htaken]
      exact congrArg Host.Outcome.next (afterSend_of_go hgo hstate)
  · rw [exec_replyWindowEnd hout]
    refine ⟨fun h => by rw [replyWindowEnd_of_none h], fun due hdue => ⟨fun hstate => ?_, fun hstate => ?_,
      fun hstate => by rw [replyWindowEnd_of_rest hdue hstate]⟩⟩
    · rw [replyWindowEnd_of_turn hdue hstate, missTurn_eq]
      refine ⟨fun hfew => ?_, fun hmany => ?_⟩
      · exact congrArg Host.Outcome.next (if_neg (Nat.not_le.mpr hfew))
      · exact congrArg Host.Outcome.next (if_pos hmany)
    · rw [replyWindowEnd_of_exchange hdue hstate]
      rfl

end Sys2Proof.Proofs.Turns

/-! Failed frames and the CRC error count (R114, R115). -/

namespace Sys2Proof.Proofs.FailedFrames
open Sys2Proof Sys2Proof.Machine Sys2Proof.Proofs.Rows Sys2Proof.Proofs.Turns

/-! The row a frame is, and a failed frame's way to the link controller. -/

theorem exec_frameCommand (k : FrameKind) (h : FrameHeader) (p : List Byte) (s : State) :
    exec (frameCommand ⟨k, h, p⟩) s = receive k h p s := by
  cases k <;> rfl

theorem exec_badFrame (raw : List Byte) (s : State) : exec (.badFrame raw) s = .next (receiveBad raw s) := rfl

theorem deaf_eq_false {s : State} (hout : s.inReset = false) (hsending : s.fe.sending = none) : deaf s = false := by
  simp [deaf, hout, hsending]

theorem receiveBad_of_test (raw : List Byte) {s : State} (hout : s.inReset = false) (hsending : s.fe.sending = none)
    (hstate : s.slc.state = .test) : receiveBad raw s = takeSymbols raw s := by
  rw [receiveBad, deaf_eq_false hout hsending, if_neg (by decide), if_pos hstate]

theorem receiveBad_of_link (raw : List Byte) {s : State} (hout : s.inReset = false) (hsending : s.fe.sending = none)
    (hstate : s.slc.state ≠ .test) : receiveBad raw s = badFrame s := by
  rw [receiveBad, deaf_eq_false hout hsending, if_neg (by decide), if_neg hstate]

/-- R114: a frame that fails its check, or arrives in TEST, is its bytes. -/
theorem receive_of_failed {k : FrameKind} {h : FrameHeader} {p : List Byte} {s : State}
    (hfail : frameGood k h p = false ∨ s.slc.state = .test) :
    receive k h p s = .next (receiveBad (wireBytes ⟨k, h, p⟩) s) := by
  unfold receive receiveBad
  by_cases hdeaf : deaf s = true
  · rw [if_pos hdeaf, if_pos hdeaf]
  · rw [if_neg hdeaf, if_neg hdeaf]
    by_cases htest : s.slc.state = .test
    · rw [if_pos htest, if_pos htest]
    · rw [if_neg htest, if_neg htest, if_pos (hfail.resolve_right htest)]

theorem frameGood_of_long_req (h : FrameHeader) {p : List Byte} (hlong : 41 < p.length) : frameGood .req h p = false := by
  have bad : payloadGood .req p = false := by
    unfold payloadGood
    cases carriedRequest p with
    | none => rfl
    | some r => simp [Nat.not_le.mpr hlong]
  simp [frameGood, bad]

/-! What a failed frame does, by link state and role. -/

/-- R115: the Frame Engine with a failed frame counted. -/
def countedEngine (s : State) : FrameEngine := { s.fe with crcErrors := min 65535 (s.fe.crcErrors + 1) }

section ByState

variable {s : State}

theorem badFrame_of_turn_follower (hstate : s.slc.state = .run ∨ s.slc.state = .drain) (hrole : s.slc.role = .follower) :
    badFrame s = { s with fe := { countedEngine s with resend := true, replyDue := none } } := by
  rcases hstate with hstate | hstate <;> simp only [badFrame, countBad, hstate, hrole] <;> rfl

theorem badFrame_of_turn_leader (hstate : s.slc.state = .run ∨ s.slc.state = .drain) (hrole : s.slc.role = .leader) :
    badFrame s = if s.fe.awaitReply.isSome then missTurn 2 { s with fe := { countedEngine s with resend := true } }
      else { s with fe := { countedEngine s with resend := true } } := by
  rcases hstate with hstate | hstate <;> simp only [badFrame, countBad, hstate, hrole] <;> rfl

theorem badFrame_of_training_follower (hstate : s.slc.state = .listen ∨ s.slc.state = .retrain)
    (hrole : s.slc.role = .follower) : badFrame s = { countBad s with slc.good := 0 } := by
  rcases hstate with hstate | hstate <;> (unfold badFrame; rw [hstate, hrole])

theorem badFrame_of_training_leader (hstate : s.slc.state = .listen ∨ s.slc.state = .retrain)
    (hrole : s.slc.role = .leader) :
    badFrame s = if s.fe.awaitReply.isSome then missExchange (countBad s) else countBad s := by
  rcases hstate with hstate | hstate <;> (unfold badFrame; rw [hstate, hrole])

theorem badFrame_of_hello_leader (hstate : s.slc.state = .hello) (hrole : s.slc.role = .leader) :
    badFrame s = { s with fe := { countedEngine s with awaitReply := none } } := by
  simp only [badFrame, countBad, hstate, hrole]
  rfl

theorem badFrame_of_hello_follower (hstate : s.slc.state = .hello) (hrole : s.slc.role = .follower) :
    badFrame s = { s with fe := countedEngine s } := by
  simp only [badFrame, countBad, hstate, hrole]
  rfl

theorem badFrame_of_down (hstate : s.slc.state = .disabled ∨ s.slc.state = .holdoff) : badFrame s = s := by
  rcases hstate with hstate | hstate <;> simp only [badFrame, hstate]

end ByState

/-- Settles O35: the rows that are failed frames, then the states and roles in the order of the statement. -/
theorem failedFrameAsksForAResend : Obligations.FailedFrameAsksForAResend := by
  refine ⟨⟨fun k h p s hfail => (exec_frameCommand k h p s).trans (receive_of_failed hfail),
    fun h p => frameGood_of_long_req h⟩, fun raw s hout hsending => ?_⟩
  intro bad
  have link (hstate : s.slc.state ≠ .test) : exec (.badFrame raw) s = .next (badFrame s) :=
    congrArg Host.Outcome.next (receiveBad_of_link raw hout hsending hstate)
  have turn (h : s.slc.state = .run ∨ s.slc.state = .drain) := link (by rcases h with h | h <;> rw [h] <;> decide)
  have training (h : s.slc.state = .listen ∨ s.slc.state = .retrain) :=
    link (by rcases h with h | h <;> rw [h] <;> decide)
  refine ⟨fun hstate hrole => ?_, fun hstate hrole hclosed => ?_, fun hstate hrole hopen => ?_, fun hstate hrole => ?_,
    fun hstate hrole hopen => ?_, fun hstate hrole hclosed => ?_, fun hstate => ⟨fun hrole => ?_, fun hrole => ?_⟩,
    fun hstate => ?_, fun hstate => ?_⟩
  · rw [turn hstate, badFrame_of_turn_follower hstate hrole]
    rfl
  · rw [turn hstate, badFrame_of_turn_leader hstate hrole, if_neg (by simp [hclosed])]
    rfl
  · intro missed
    rw [turn hstate, badFrame_of_turn_leader hstate hrole, if_pos hopen, missTurn_eq]
    refine ⟨fun hfew => congrArg Host.Outcome.next (if_neg ?_), fun hmany => congrArg Host.Outcome.next (if_pos ?_)⟩
    · exact Nat.not_le.mpr (Nat.add_lt_add_right hfew 1)
    · exact Nat.add_le_add_right hmany 1
  · rw [training hstate, badFrame_of_training_follower hstate hrole]
    rfl
  · rw [training hstate, badFrame_of_training_leader hstate hrole, if_pos hopen]
    rfl
  · rw [training hstate, badFrame_of_training_leader hstate hrole, if_neg (by simp [hclosed])]
    rfl
  · rw [link (by rw [hstate]; decide), badFrame_of_hello_leader hstate hrole]
    rfl
  · rw [link (by rw [hstate]; decide), badFrame_of_hello_follower hstate hrole]
    rfl
  · rw [link (by rcases hstate with h | h <;> rw [h] <;> decide), badFrame_of_down hstate]
  · exact congrArg Host.Outcome.next (receiveBad_of_test raw hout hsending hstate)

/-! The CRC error count (R115). -/

theorem loss_crcErrors (r : HoldoffReason) (s : State) : (loss r s).fe.crcErrors = s.fe.crcErrors := by
  rw [LinkLoss.loss_eq]
  simp [(LinkLoss.beforeSelection_link r s).2]

theorem missTurn_crcErrors (gap : Nat) (s : State) : (missTurn gap s).fe.crcErrors = s.fe.crcErrors := by
  rw [missTurn_eq]
  split
  · exact loss_crcErrors _ _
  · rfl

theorem badFrame_crcErrors {s : State} (hstate : s.slc.state = .listen ∨ s.slc.state = .hello ∨ s.slc.state = .retrain ∨
    s.slc.state = .run ∨ s.slc.state = .drain) : (badFrame s).fe.crcErrors = min 65535 (s.fe.crcErrors + 1) := by
  have cases : (s.slc.state = .run ∨ s.slc.state = .drain) ∨ (s.slc.state = .listen ∨ s.slc.state = .retrain) ∨
      s.slc.state = .hello := by tauto
  rcases cases with hstate | hstate | hstate <;> cases hrole : s.slc.role
  · rw [badFrame_of_turn_leader hstate hrole]
    split
    · exact missTurn_crcErrors _ _
    · rfl
  · rw [badFrame_of_turn_follower hstate hrole]
    rfl
  · rw [badFrame_of_training_leader hstate hrole]
    split <;> rfl
  · rw [badFrame_of_training_follower hstate hrole]
    rfl
  · rw [badFrame_of_hello_leader hstate hrole]
    rfl
  · rw [badFrame_of_hello_follower hstate hrole]
    rfl

theorem exec_crcErrorsClear (low : Bool) (b : Byte) {s : State} (h : portReady s) :
    exec (.crcErrorsClear low b) s =
      .next (setPointer (if low then 0x0C#8 else 0x0B#8) { beginWrite s with fe.crcErrors := 0 }) := by
  cases low with
  | true => exact exec_of_portWrite (off := 0x0B#8) (b := b) h rfl
  | false => exact exec_of_portWrite (off := 0x0A#8) (b := b) h rfl

theorem rstnRelease_crcErrors (x : Straps) (pins : LineMask) {s : State} (h : s.inReset = true) :
    (rstnRelease x pins s).fe.crcErrors = 0 := by
  unfold rstnRelease
  dsimp only
  rw [if_pos h]
  split
  · simp [State.cleared, FrameEngine.reset]
  · rfl

/-- Settles O34: the count by link state, then what clears it and what leaves it. -/
theorem crcErrorsCountFailedFrames : Obligations.CrcErrorsCountFailedFrames := by
  refine ⟨fun raw s hout hsending => ?_, fun low b s hport => exec_crcErrorsClear low b hport,
    fun x pins s h => ⟨_, rfl, rstnRelease_crcErrors x pins h⟩,
    fun b s hport => ⟨_, RequestRows.exec_softReset b hport, by simp⟩, loss_crcErrors⟩
  intro counted
  have count (hstate : s.slc.state = .listen ∨ s.slc.state = .hello ∨ s.slc.state = .retrain ∨ s.slc.state = .run ∨
      s.slc.state = .drain) : counted := by
    have htest : s.slc.state ≠ .test := by rcases hstate with h | h | h | h | h <;> rw [h] <;> decide
    exact ⟨badFrame s, congrArg Host.Outcome.next (receiveBad_of_link raw hout hsending htest), badFrame_crcErrors hstate⟩
  refine ⟨fun h => count (by tauto), fun h _ => count (by tauto), fun h _ _ => count (by tauto), fun h => ?_, fun h => ?_⟩
  · have htest : s.slc.state ≠ .test := by rcases h with h | h <;> rw [h] <;> decide
    rw [exec_badFrame, receiveBad_of_link raw hout hsending htest, badFrame_of_down h]
  · exact ⟨_, congrArg Host.Outcome.next (receiveBad_of_test raw hout hsending h), by simp⟩

end Sys2Proof.Proofs.FailedFrames

/-! The taking of a good frame (R127 to R129). -/

namespace Sys2Proof.Proofs.GoodFrames
open Sys2Proof Sys2Proof.Machine Sys2Proof.Laws.RequestInv Sys2Proof.Proofs.Delivery Sys2Proof.Proofs.FailedFrames

/-! Entries freed with their credits (R134). -/

theorem freeAll_slots (is : List Slot) (s : State) (j : Slot) :
    (is.foldl (fun s i => freeWithCredit i s) s).iq.slots[j] = if j ∈ is then none else s.iq.slots[j] := by
  induction is generalizing s with
  | nil => simp
  | cons i is ih =>
    have one : (freeWithCredit i s).iq.slots[j] = if i = j then none else s.iq.slots[j] := vput_at _ _ _ _
    rw [List.foldl_cons, ih, one]
    by_cases hij : i = j
    · simp [hij]
    · simp [hij, Ne.symm hij]

theorem freeAll_retCount (is : List Slot) (s : State) :
    (is.foldl (fun s i => freeWithCredit i s) s).fe.retCount = is.foldl (fun n _ => (n + 1) % 9) s.fe.retCount := by
  induction is generalizing s with
  | nil => rfl
  | cons i is ih => rw [List.foldl_cons, ih]; rfl

/-! The header (R109, R128, R131, R133). -/

theorem takeAck_of_stranger {ack : Seq} {s : State} (h : ∀ f ∈ s.fe.window, f.seq ≠ ack) : takeAck ack s = s := by
  have none : s.fe.window.findIdx? (fun f => decide (f.seq = ack)) = none := by
    simpa [List.findIdx?_eq_none_iff] using h
  rw [takeAck, none]

theorem findIdx?_of_split {older newer : List WindowFrame} {f : WindowFrame} (h : ∀ g ∈ older, g.seq ≠ f.seq) :
    (older ++ f :: newer).findIdx? (fun g => decide (g.seq = f.seq)) = some older.length := by
  have none : older.findIdx? (fun g => decide (g.seq = f.seq)) = none := by
    simpa [List.findIdx?_eq_none_iff] using h
  simp [List.findIdx?_append, none, List.findIdx?_cons]

/-- The chip with the frames an ack releases out of the window, their entries not yet freed. -/
def acknowledged (newer : List WindowFrame) (s : State) : State := { s with
  fe.window := newer
  fe.goBack := s.fe.goBack.filter fun q => newer.any fun g => decide (g.seq = q)
  fe.progress := true
  fe.stall := 0 }

theorem takeAck_of_split {s : State} {older newer : List WindowFrame} {f : WindowFrame}
    (hwindow : s.fe.window = older ++ f :: newer) (h : ∀ g ∈ older, g.seq ≠ f.seq) :
    takeAck f.seq s =
      ((older ++ [f]).filterMap (·.slot)).foldl (fun s i => freeWithCredit i s) (acknowledged newer s) := by
  have hdrop : (older ++ f :: newer).drop (older.length + 1) = newer := by simp
  have htake : (older ++ f :: newer).take (older.length + 1) = older ++ [f] := by simp [List.take_append]
  unfold takeAck
  rw [hwindow, findIdx?_of_split h]
  dsimp only
  rw [hdrop, htake]
  rfl

theorem takeHeader_of_resend {h : FrameHeader} {s : State} (hresend : h.resend = true) :
    takeHeader h s = goBack (takeReady h.hostReady (takeReturn h.ret (takeAck h.ack s))) := if_pos hresend

theorem takeHeader_of_plain {h : FrameHeader} {s : State} (hplain : h.resend = false) :
    takeHeader h s = takeReady h.hostReady (takeReturn h.ret (takeAck h.ack s)) := if_neg (by simp [hplain])

theorem takeReady_of_same {ready : Bool} {s : State} (h : s.slc.peerReady = ready) : takeReady ready s = s := if_pos h

theorem takeReady_of_change {ready : Bool} {s : State} (h : s.slc.peerReady ≠ ready) :
    takeReady ready s =
      raiseLocal (if ready then .peerHostReady else .peerHostGone) 0 0 { s with slc.peerReady := ready } := if_neg h

/-- Settles O36: the header's steps, the ack outside and inside the window, the credits and HOST_READY. -/
theorem headerOfAGoodFrameIsTaken : Obligations.HeaderOfAGoodFrameIsTaken := by
  refine ⟨fun h s => ⟨takeHeader_of_plain, takeHeader_of_resend⟩, fun ack s => takeAck_of_stranger,
    fun s older newer f hwindow hfirst => ?_, fun _ _ => rfl, fun s => ⟨takeReady_of_same rfl, fun h => ?_, fun h => ?_⟩⟩
  · intro t
    have ht : t = _ := takeAck_of_split hwindow hfirst
    have hfe := congrArg State.fe (freeAll_fold ((older ++ [f]).filterMap (·.slot)) (acknowledged newer s))
    rw [← ht] at hfe
    refine ⟨?_, ?_, ?_, ?_, ?_, fun i hi => ?_, fun i hi => ?_, ?_⟩
    iterate 4 rw [hfe]; rfl
    · rw [ht]; exact freeAll_retCount _ _
    · rw [ht]; exact (freeAll_slots _ _ i).trans (if_pos hi)
    · rw [ht]; exact (freeAll_slots _ _ i).trans (if_neg hi)
    · simp [t]
  · exact takeReady_of_change (by rw [h]; decide)
  · exact takeReady_of_change (by rw [h]; decide)

/-! A frame in its turn (R118 to R121, R127, R129). -/

theorem takeFrame_of_link {k : FrameKind} {h : FrameHeader} {p : List Byte} {s : State} (hk : k.isLink = true) :
    takeFrame k h p s = .next (takeReady h.hostReady s) := if_pos hk

theorem takeFrame_of_plain {k : FrameKind} {h : FrameHeader} {p : List Byte} {s : State} (hk : k.isLink = false)
    (hgo : ∀ f ∈ s.fe.window, f.kind ≠ .testGo) :
    takeFrame k h p s = if k.sequenced then takeSequenced k h.seq p (takeHeader h s) else .next (takeHeader h s) := by
  have hnone : (goInWindow s && !goInWindow (takeHeader h s)) = false := by simp [goInWindow_eq_false hgo]
  unfold takeFrame
  dsimp only
  rw [hk, hnone]
  exact thenDo_id _

theorem takeSequenced_of_expected {k : FrameKind} {seq : Seq} {p : List Byte} {s : State}
    (h : (seq - s.fe.expected).toNat = 0) :
    takeSequenced k seq p s = deliver k p { s with fe.expected := s.fe.expected + 1 } := by
  rw [takeSequenced, h]
  rfl

theorem takeSequenced_of_ahead {k : FrameKind} {seq : Seq} {p : List Byte} {s : State}
    (hlow : 1 ≤ (seq - s.fe.expected).toNat) (hhigh : (seq - s.fe.expected).toNat ≤ 3) :
    takeSequenced k seq p s = .next { s with fe.resend := true } := by
  unfold takeSequenced
  generalize (seq - s.fe.expected).toNat = n at hlow hhigh
  interval_cases n <;> rfl

theorem takeSequenced_of_behind {k : FrameKind} {seq : Seq} {p : List Byte} {s : State}
    (h : 4 ≤ (seq - s.fe.expected).toNat) : takeSequenced k seq p s = .next s := by
  unfold takeSequenced
  generalize (seq - s.fe.expected).toNat = n at h
  match n, h with
  | n + 4, _ => rfl

/-- R119, R121, R102, R120: the chip with a turn answered, or a reply owed. -/
theorem receive_in_turn {k : FrameKind} {h : FrameHeader} {p : List Byte} {s s0 : State} (hout : s.inReset = false)
    (hsending : s.fe.sending = none) (hstate : s.slc.state = .run ∨ s.slc.state = .drain)
    (hgood : frameGood k h p = true) (hk : k.isLink = false)
    (hturn : (s.slc.role = .leader ∧ s.fe.awaitReply.isSome = true ∧ s0 = { s with
        slc.missed := 0, fe.awaitReply := none, fe.earliest := s.now + 2, fe.hurry := decide (k ≠ .idle) || h.resend }) ∨
      (s.slc.role = .follower ∧ s0 = { s with
        slc.silence := some (s.now + 2000), fe.replyDue := some (s.now + 2), fe.replyHello := false })) :
    receive k h p s = takeFrame k h p s0 := by
  have htest : s.slc.state ≠ .test := by rcases hstate with h | h <;> rw [h] <;> decide
  have hrole : frameRole k p = none := by simp [frameRole, hk]
  rw [receive_of_good hout hsending htest hgood]
  rcases hturn with ⟨hleader, hopen, rfl⟩ | ⟨hfollower, rfl⟩
  · rw [hleader]
    exact leaderTakes_in_turn h p hstate (by simp [hrole]) hopen
  · rw [hfollower]
    refine (followerTakes_in_turn h p hstate (by simp [hrole])).trans ?_
    cases k <;> first | rfl | cases hk

theorem leaderTakes_of_leader {k : FrameKind} {h : FrameHeader} {p : List Byte} {s : State}
    (hstate : s.slc.state = .run ∨ s.slc.state = .drain) (hrole : frameRole k p = some .leader) :
    leaderTakes k h p s = .next s := by
  rcases hstate with hstate | hstate <;> simp [leaderTakes, hstate, hrole]

theorem leaderTakes_of_closed {k : FrameKind} {h : FrameHeader} {p : List Byte} {s : State}
    (hstate : s.slc.state = .run ∨ s.slc.state = .drain) (hclosed : s.fe.awaitReply = none) :
    leaderTakes k h p s = .next s := by
  rcases hstate with hstate | hstate <;> simp [leaderTakes, hstate, hclosed]

/-- R109, R119: to a leader in its window a follower's frame of the link controller answers the turn. -/
theorem leaderTakes_link {k : FrameKind} {h : FrameHeader} {p : List Byte} {s : State} (hk : k.isLink = true)
    (hstate : s.slc.state = .run ∨ s.slc.state = .drain) (hrole : frameRole k p = some .follower)
    (hopen : s.fe.awaitReply.isSome = true) :
    leaderTakes k h p s = .next (takeReady h.hostReady { s with
      slc.missed := 0, fe.awaitReply := none, fe.earliest := s.now + 2, fe.hurry := true }) := by
  rw [leaderTakes_in_turn h p hstate (by simp [hrole]) hopen, takeFrame_of_link hk]
  cases k <;> first | rfl | cases hk

theorem followerTakes_train (h : FrameHeader) (p : List Byte) {s : State}
    (hstate : s.slc.state = .run ∨ s.slc.state = .drain) (hrole : frameRole .train p ≠ some .follower) :
    followerTakes .train h p s = .next (takeReady h.hostReady s) := followerTakes_in_turn h p hstate hrole

theorem followerTakes_trainAck (h : FrameHeader) (p : List Byte) {s : State}
    (hstate : s.slc.state = .run ∨ s.slc.state = .drain) (hrole : frameRole .trainAck p ≠ some .follower) :
    followerTakes .trainAck h p s =
      .next (takeReady h.hostReady { s with slc.silence := some (s.now + 2000) }) :=
  followerTakes_in_turn h p hstate hrole

theorem followerTakes_hello (h : FrameHeader) (p : List Byte) {s : State}
    (hstate : s.slc.state = .run ∨ s.slc.state = .drain) (hrole : frameRole .hello p ≠ some .follower) :
    followerTakes .hello h p s = .next (takeReady h.hostReady { s with
      slc.silence := some (s.now + 2000), fe.replyDue := some (s.now + 2)
      fe.replyHello := decide (s.slc.state = .run) }) := by
  refine (followerTakes_in_turn h p hstate hrole).trans ?_
  rw [followerTurn, takeFrame_of_link rfl]
  · rfl
  · decide
  · decide

/-- Settles O37: the frames of the link controller by role and mark, then the others by their kind and seq. -/
theorem goodFramesAreTakenInOrder : Obligations.GoodFramesAreTakenInOrder := by
  refine ⟨fun h rev cap s hout hsending hret hstate => ?_, fun k h p s s0 hout hsending hstate hgood htrain hack hhello
    hgo hturn => ?_⟩
  · have htest : s.slc.state ≠ .test := by rcases hstate with h | h <;> rw [h] <;> decide
    have train (b : Byte) (hb : b.toNat ≤ 1) := BringUp.frameGood_train hret hb
    have trainAck (b : Byte) (hb : b.toNat ≤ 1) := BringUp.frameGood_trainAck hret hb
    have hello (b : Byte) (hb : b.toNat ≤ 1) := BringUp.frameGood_hello hret rev cap hb
    refine ⟨fun hrole => ?_, fun hrole => ⟨fun hopen c hc => ?_, fun c hc => ?_, fun k p hclosed hgood => ?_⟩⟩
    · have takes {k : FrameKind} {p : List Byte} (hgood : frameGood k h p = true) :=
        BringUp.receive_at_follower hout hsending htest hgood hrole
      refine ⟨(takes (train 0 (by decide))).trans (followerTakes_train h _ hstate (by decide)),
        (takes (trainAck 0 (by decide))).trans (followerTakes_trainAck h _ hstate (by decide)),
        (takes (hello 0 (by decide))).trans
          (followerTakes_hello h _ hstate (BringUp.leaderHello_not_follower rev cap)), fun c hc => ?_⟩
      simp only [List.mem_cons, List.not_mem_nil, or_false] at hc
      rcases hc with rfl | rfl | rfl
      · exact (takes (train 1 (by decide))).trans (BringUp.followerTakes_of_follower rfl)
      · exact (takes (trainAck 1 (by decide))).trans (BringUp.followerTakes_of_follower rfl)
      · exact (takes (hello 1 (by decide))).trans (BringUp.followerTakes_of_follower rfl)
    · simp only [List.mem_cons, List.not_mem_nil, or_false] at hc
      have takes {k : FrameKind} {p : List Byte} (hgood : frameGood k h p = true) :=
        BringUp.receive_at_leader hout hsending htest hgood hrole
      rcases hc with rfl | rfl | rfl
      · exact (takes (train 1 (by decide))).trans (leaderTakes_link rfl hstate rfl hopen)
      · exact (takes (trainAck 1 (by decide))).trans (leaderTakes_link rfl hstate rfl hopen)
      · exact (takes (hello 1 (by decide))).trans (leaderTakes_link rfl hstate rfl hopen)
    · simp only [List.mem_cons, List.not_mem_nil, or_false] at hc
      have takes {k : FrameKind} {p : List Byte} (hgood : frameGood k h p = true) :=
        BringUp.receive_at_leader hout hsending htest hgood hrole
      rcases hc with rfl | rfl | rfl
      · exact (takes (train 0 (by decide))).trans (leaderTakes_of_leader hstate rfl)
      · exact (takes (trainAck 0 (by decide))).trans (leaderTakes_of_leader hstate rfl)
      · exact (takes (hello 0 (by decide))).trans (leaderTakes_of_leader hstate rfl)
    · rw [exec_frameCommand, BringUp.receive_at_leader hout hsending htest hgood hrole,
        leaderTakes_of_closed hstate hclosed]
  · intro taken ahead
    have hk : k.isLink = false := by cases k <;> first | rfl | contradiction
    have hgo0 : ∀ f ∈ s0.fe.window, f.kind ≠ .testGo := by rcases hturn with ⟨-, -, rfl⟩ | ⟨-, rfl⟩ <;> exact hgo
    have hexpected : (takeHeader h s0).fe.expected = s.fe.expected := by
      rcases hturn with ⟨-, -, rfl⟩ | ⟨-, rfl⟩ <;> simp
    have hexec : exec (frameCommand ⟨k, h, p⟩) s =
        if k.sequenced then takeSequenced k h.seq p taken else .next taken := by
      rw [exec_frameCommand, receive_in_turn hout hsending hstate hgood hk hturn, takeFrame_of_plain hk hgo0]
    have hsequenced (hidle : k ≠ .idle) : k.sequenced = true := by cases k <;> first | rfl | contradiction
    have hdistance : (h.seq - taken.fe.expected).toNat = ahead := by rw [hexpected]
    rw [hexec]
    refine ⟨fun hidle => if_neg (by rw [hidle]; decide), fun hidle hzero => ?_, fun hidle hlow hhigh => ?_,
      fun hidle hbehind => ?_⟩ <;> rw [if_pos (hsequenced hidle)]
    · rw [takeSequenced_of_expected (hdistance.trans hzero), hexpected]
    · exact takeSequenced_of_ahead (by rwa [hdistance]) (by rwa [hdistance])
    · exact takeSequenced_of_behind (by rwa [hdistance])

end Sys2Proof.Proofs.GoodFrames

/-! The wire: a good frame's bytes are received as that frame (R111 to R114). -/

namespace Sys2Proof.Proofs.Wire
open Sys2Proof Sys2Proof.Machine

/-! The four header bytes (R111). -/

/-- The first header byte: kind, RETRAIN mark, HOST_READY and RESEND. -/
def firstByte (k : FrameKind) (mark ready resend : Bool) : Byte :=
  toByte (k.code * 16) ||| (flagByte (k.hasMark && mark) <<< 2) ||| (flagByte ready <<< 1) ||| flagByte resend

theorem firstByte_kind (k : FrameKind) (mark ready resend : Bool) :
    FrameKind.ofCode ((firstByte k mark ready resend).toNat / 16) = some k := by
  cases k <;> revert mark ready resend <;> decide

theorem firstByte_flags (k : FrameKind) (mark ready resend : Bool) :
    (k.hasMark && (firstByte k mark ready resend).getLsbD 2) = (k.hasMark && mark) ∧
    (firstByte k mark ready resend).getLsbD 1 = ready ∧ (firstByte k mark ready resend).getLsbD 0 = resend := by
  cases k <;> revert mark ready resend <;> decide

/-- The second header byte: the sequence numbers. -/
def secondByte (seq ack : Seq) : Byte := (seq.setWidth 8 <<< 4) ||| ack.setWidth 8

theorem secondByte_seq (seq ack : Seq) : (secondByte seq ack).extractLsb' 4 3 = seq := by
  revert seq ack
  decide

theorem secondByte_ack (seq ack : Seq) : (secondByte seq ack).extractLsb' 0 3 = ack := by
  revert seq ack
  decide

theorem toNat_toByte_of_le {n : Nat} (h : n ≤ 48) : (toByte n).toNat = n := by
  rw [toByte, BitVec.toNat_ofNat]
  omega

theorem crc_halves (c : BitVec 16) : c.extractLsb' 8 8 ++ c.extractLsb' 0 8 = c := by
  ext i hi
  rw [BitVec.getElem_append]
  by_cases h : i < 8
  · simp [h, BitVec.getLsbD_eq_getElem hi]
  · have back : 8 + (i - 8) = i := by omega
    simp [h, back, BitVec.getLsbD_eq_getElem hi]

/-! Reception. -/

theorem afterStart_of_preamble (rest : List Byte) :
    afterStart 0 (0x55#8 :: 0x55#8 :: 0x55#8 :: 0x55#8 :: 0xD7#8 :: rest) = some rest := by
  simp [afterStart]

theorem headerBytes_eq (f : Frame) : headerBytes f =
    [firstByte f.kind f.header.retrain f.header.hostReady f.header.resend, secondByte f.header.seq f.header.ack,
      f.header.ret, toByte f.payload.length] := rfl

/-- The header read back from its bytes. -/
theorem header_of_bytes {f : Frame} (hmark : f.header.retrain = true → f.kind.hasMark = true) :
    (⟨f.kind.hasMark && (firstByte f.kind f.header.retrain f.header.hostReady f.header.resend).getLsbD 2,
      (firstByte f.kind f.header.retrain f.header.hostReady f.header.resend).getLsbD 1,
      (firstByte f.kind f.header.retrain f.header.hostReady f.header.resend).getLsbD 0,
      (secondByte f.header.seq f.header.ack).extractLsb' 4 3, (secondByte f.header.seq f.header.ack).extractLsb' 0 3,
      f.header.ret⟩ : FrameHeader) = f.header := by
  obtain ⟨hretrain, hready, hresend⟩ := firstByte_flags f.kind f.header.retrain f.header.hostReady f.header.resend
  have kept : (f.kind.hasMark && f.header.retrain) = f.header.retrain := by
    cases hr : f.header.retrain with
    | false => simp
    | true => simp [hmark hr]
  rw [hretrain, hready, hresend, secondByte_seq, secondByte_ack, kept]

theorem checkFrame_of_good {f : Frame} (hgood : frameGood f.kind f.header f.payload = true)
    (hmark : f.header.retrain = true → f.kind.hasMark = true) :
    checkFrame (headerBytes f ++ f.payload ++ [(crc16 (headerBytes f ++ f.payload)).extractLsb' 0 8,
      (crc16 (headerBytes f ++ f.payload)).extractLsb' 8 8]) = some f := by
  have hlength : f.payload.length ≤ 48 := by
    simp only [frameGood, Bool.and_eq_true, decide_eq_true_eq] at hgood
    exact hgood.1.2
  have hcount := toNat_toByte_of_le hlength
  rw [headerBytes_eq]
  simp only [List.cons_append, List.nil_append, checkFrame, firstByte_kind, hcount, List.drop_left, List.take_left,
    header_of_bytes hmark]
  rw [if_pos ⟨trivial, (crc_halves _).symm, hgood⟩]

/-- Settles O38: the start found behind the preamble, the check passed, the frame's row. -/
theorem sentFramesAreReceivedAsTheyAre : Obligations.SentFramesAreReceivedAsTheyAre := by
  intro f hgood hmark
  have start : afterStart 0 (wireBytes f) = some (headerBytes f ++ f.payload ++
      [(crc16 (headerBytes f ++ f.payload)).extractLsb' 0 8, (crc16 (headerBytes f ++ f.payload)).extractLsb' 8 8]) :=
    afterStart_of_preamble _
  rw [receiveWire, start]
  dsimp only
  rw [checkFrame_of_good hgood hmark]

end Sys2Proof.Proofs.Wire

/-! Delivered REQ, RSP, CANCEL and RELEASE_ALL frames (chapter 7). -/

namespace Sys2Proof.Proofs.FarRequests
open Sys2Proof Sys2Proof.Machine Sys2Proof.Laws.RequestInv Sys2Proof.Proofs.Rows Sys2Proof.Proofs.Answers
open Sys2Proof.Proofs.Requests Sys2Proof.Proofs.Delivery

/-! What a delivered frame has left as it was. -/

theorem deliveredAt_blocks {k : FrameKind} {h : FrameHeader} {p : List Byte} {s s1 : State} (hd : DeliveredAt k h p s s1) :
    s1.hp = s.hp ∧ s1.da = s.da := by
  obtain ⟨-, -, -, -, -, -, -, s0, hturn, rfl⟩ := hd
  rcases hturn with ⟨-, -, rfl⟩ | ⟨-, rfl⟩ <;> simp

/-! The request a REQ carries (R117). -/

theorem kindOfByte_code (k : ReqKind) : ReqKind.ofByte k.code = some k := by
  cases k <;> rfl

theorem kindOfByte_eq_none_iff (b : Byte) : ReqKind.ofByte b = none ↔ ∀ k : ReqKind, k.code ≠ b := by
  constructor
  · rintro hnone k rfl
    rw [kindOfByte_code] at hnone
    cases hnone
  · intro h
    cases hk : ReqKind.ofByte b with
    | none => rfl
    | some k => exact absurd (code_of_kindOfByte hk).symm (h k)

theorem carriedRequest_eq_none_iff (p : List Byte) :
    carriedRequest p = none ↔ ∀ k : ReqKind, k.code ≠ p.getD 2 0 := by
  rw [← kindOfByte_eq_none_iff, carriedRequest]
  cases ReqKind.ofByte (p.getD 2 0) <;> simp

theorem carriedRequest_of_kind {p : List Byte} {k : ReqKind} (h : k.code = p.getD 2 0) : carriedRequest p =
    some ⟨k, .far, p.getD 4 0, p.getD 5 0, p.getD 6 0, p.getD 7 0, p.getD 8 0, p.getD 3 0, p.drop 9⟩ := by
  rw [carriedRequest, ← h, kindOfByte_code]

/-! A REQ takes an entry (R138). -/

theorem freeSlot_of_none {s : State} (h : ∀ i : Slot, s.iq.slots[i].isSome = true) : freeSlot s = none := by
  rw [freeSlot, List.find?_eq_none]
  intro i _
  simpa [Option.isSome_iff_ne_none] using h i

theorem freeSlot_of_lowest {s : State} {i : Slot} (hfree : s.iq.slots[i] = none)
    (hlow : ∀ j : Slot, j < i → s.iq.slots[j].isSome = true) : freeSlot s = some i := by
  refine find?_finRange_eq_some_iff.mpr ⟨?_, fun j hj => ?_⟩
  · rw [hfree]; rfl
  · simpa [Option.isNone_eq_false_iff] using hlow j hj

/-- R138, R142: the chip with a REQ's entry taken in WAITING. -/
def entryTaken (i : Slot) (p : List Byte) (r : Request) (s : State) : State := { s with
  iq.slots := vput s.iq.slots i (some ⟨p.getD 0 0, p.getD 1 0, r, .waiting (s.now + max 1 r.deadline.toNat * 1000)⟩)
  iq.arrival := s.iq.arrival ++ [i] }

theorem takeReq_of_full {p : List Byte} {s : State} (h : freeSlot s = none) :
    takeReq p s = .fault .reqWithoutRoom := by
  rw [takeReq, h]

theorem takeReq_of_room {p : List Byte} {r : Request} {i : Slot} {s : State} (hslot : freeSlot s = some i)
    (hr : carriedRequest p = some r) : takeReq p s = .next (handleReq i r (entryTaken i p r s)) := by
  rw [takeReq, hslot, hr]
  rfl

/-! The checks and the dispatch (R140, R141). -/

section Dispatch

variable {i : Slot} {r : Request} {s : State}

theorem checked_iff (k : ReqKind) :
    k.checked = true ↔ k = .write ∨ k = .read ∨ k = .busRecover ∨ k = .leaseTake ∨ k = .leaseDrop := by
  cases k <;> decide

theorem isQueued_iff (k : ReqKind) :
    k.isQueued = true ↔ k = .write ∨ k = .read ∨ k = .busRecover ∨ k = .leaseTake := by
  cases k <;> decide

theorem handleReq_of_not_ready (hkind : r.kind ≠ .ping) (hready : s.hp.hostReady = false) :
    handleReq i r s = answerSlot i (bare .notReady) s := if_pos ⟨hkind, hready⟩

/-- Past HOST_READY, the policy decides next. -/
theorem handleReq_of_ready (hready : r.kind = .ping ∨ s.hp.hostReady = true) :
    handleReq i r s = if r.kind.checked ∧ policyAllows s.da r = false then answerSlot i (bare .denied) s
      else if r.kind = .testStart ∨ r.valid = false then answerSlot i (bare .denied) s
      else if r.kind.isQueued then select { s with da.remoteList := s.da.remoteList ++ [i] }
      else runRemote i r s :=
  if_neg fun ⟨hkind, hoff⟩ => hready.elim hkind fun hon => by rw [hon] at hoff; cases hoff

theorem handleReq_of_refused (hready : s.hp.hostReady = true) (hchecked : r.kind.checked = true)
    (hpolicy : policyAllows s.da r = false) : handleReq i r s = answerSlot i (bare .denied) s :=
  (handleReq_of_ready (.inr hready)).trans (if_pos ⟨hchecked, hpolicy⟩)

/-- Past the policy, the field checks decide. -/
theorem handleReq_of_allowed (hready : r.kind = .ping ∨ s.hp.hostReady = true)
    (hpolicy : r.kind.checked = true → policyAllows s.da r = true) :
    handleReq i r s = if r.kind = .testStart ∨ r.valid = false then answerSlot i (bare .denied) s
      else if r.kind.isQueued then select { s with da.remoteList := s.da.remoteList ++ [i] }
      else runRemote i r s :=
  (handleReq_of_ready hready).trans (if_neg fun ⟨hchecked, hoff⟩ => by rw [hpolicy hchecked] at hoff; cases hoff)

theorem handleReq_of_queued (hready : s.hp.hostReady = true)
    (hpolicy : r.kind.checked = true → policyAllows s.da r = true) (hvalid : r.valid = true)
    (hkind : r.kind = .write ∨ r.kind = .read ∨ r.kind = .busRecover ∨ r.kind = .leaseTake) :
    handleReq i r s = select { s with da.remoteList := s.da.remoteList ++ [i] } := by
  have htest : r.kind ≠ .testStart := by rcases hkind with h | h | h | h <;> rw [h] <;> decide
  rw [handleReq_of_allowed (.inr hready) hpolicy, if_neg (by simp [htest, hvalid]), if_pos ((isQueued_iff _).mpr hkind)]

theorem handleReq_of_run (hready : r.kind = .ping ∨ s.hp.hostReady = true)
    (hpolicy : r.kind.checked = true → policyAllows s.da r = true) (hvalid : r.valid = true)
    (htest : r.kind ≠ .testStart) (hkind : r.kind.isQueued = false) : handleReq i r s = runRemote i r s := by
  rw [handleReq_of_allowed hready hpolicy, if_neg (by simp [htest, hvalid]), if_neg (by simp [hkind])]

theorem handleReq_of_ping (hkind : r.kind = .ping) : handleReq i r s = answerSlot i (pingAnswer s) s := by
  have hvalid : r.valid = true := by simp [Request.valid, hkind]
  have unchecked : r.kind.checked = true → policyAllows s.da r = true := fun h => by rw [hkind] at h; cases h
  rw [handleReq_of_run (.inl hkind) unchecked hvalid (by rw [hkind]; decide) (by rw [hkind]; rfl)]
  simp only [runRemote, hkind]

theorem runRemote_of_line (hkind : r.kind = .lineSet ∨ r.kind = .lineSample ∨ r.kind = .lineConfig ∨
    r.kind = .lineClaim ∨ r.kind = .lineRelease) :
    runRemote i r s = answerSlot i (runLine .remoteHost r s).1 (runLine .remoteHost r s).2 := by
  rcases hkind with h | h | h | h | h <;> simp only [runRemote, h]

theorem runRemote_of_leaseDrop (hkind : r.kind = .leaseDrop) :
    runRemote i r s = dropLease .remoteHost (fun st => answerSlot i (bare st)) s := by
  simp only [runRemote, hkind]

end Dispatch

/-- Settles O39: the entry's answer, the request read, and the checks of R140 in their order. -/
theorem deliveredReqIsCheckedAndDispatched : Obligations.DeliveredReqIsCheckedAndDispatched := by
  refine ⟨fun i a s e due he hstate => answerSlot_of_waiting a he hstate, fun p => ⟨carriedRequest_eq_none_iff p,
    fun k => carriedRequest_of_kind⟩, fun h p s s1 r hd hr => ⟨fun hfull => ?_, fun i hfree hlow => ?_⟩⟩
  · exact (receive_of_deliveredAt hd).trans (takeReq_of_full (freeSlot_of_none hfull))
  · intro t checked
    obtain ⟨hhp, hda⟩ := deliveredAt_blocks hd
    have hexec : exec (.req h p) s = .next (handleReq i r t) :=
      (receive_of_deliveredAt hd).trans (takeReq_of_room (freeSlot_of_lowest hfree hlow) hr)
    have hthp : t.hp = s.hp := hhp
    have htda : t.da = s.da := hda
    rw [hexec, ← hthp, ← htda]
    refine ⟨fun hkind hoff => ?_, fun hkind => ?_, fun hready => ⟨fun hchecked hdenied => ?_, fun hallowed =>
      ⟨fun hbad _ => ?_, fun hvalid => ⟨fun hkind => ?_, fun hkind => ?_, fun hkind => ?_⟩⟩⟩⟩
    · rw [handleReq_of_not_ready hkind hoff]
      rfl
    · rw [handleReq_of_ping hkind]
      rfl
    · rw [handleReq_of_refused hready ((checked_iff _).mpr hchecked) hdenied]
      rfl
    · rw [handleReq_of_allowed (.inr hready) (fun h => hallowed ((checked_iff _).mp h)), if_pos hbad]
      rfl
    · rw [handleReq_of_queued hready (fun h => hallowed ((checked_iff _).mp h)) hvalid hkind]
    · have htest : r.kind ≠ .testStart := by rcases hkind with h | h | h | h | h <;> rw [h] <;> decide
      have hqueued : r.kind.isQueued = false := by rcases hkind with h | h | h | h | h <;> rw [h] <;> rfl
      rw [handleReq_of_run (.inr hready) (fun h => hallowed ((checked_iff _).mp h)) hvalid htest hqueued,
        runRemote_of_line hkind]
    · rw [handleReq_of_run (.inr hready) (fun h => hallowed ((checked_iff _).mp h)) hvalid (by rw [hkind]; decide)
        (by rw [hkind]; rfl), runRemote_of_leaseDrop hkind]
      refine ⟨fun hnone => ?_, fun due hlocal => ?_, fun due hremote => ?_⟩
      · rw [RequestRows.dropLease_of_none _ hnone]
        rfl
      · rw [RequestRows.dropLease_of_other _ hlocal (by simp)]
        rfl
      · rw [RequestRows.dropLease_of_held _ hremote rfl]
        rfl

/-! A delivered RSP (R144). -/

theorem tagOfByte_of_val {b : Byte} {t : Tag} (h : b.toNat = t.val) : tagOfByte b = some t := by
  simp [tagOfByte, h]

theorem val_of_tagOfByte {b : Byte} {t : Tag} (h : tagOfByte b = some t) : b.toNat = t.val := by
  unfold tagOfByte at h
  split at h
  · cases h; rfl
  · cases h

theorem awaits_iff (e : TagEntry) (gen : Byte) :
    awaits e gen = true ↔ (e.state = .inFlight ∨ e.state = .cancelSent) ∧ e.gen.toNat = gen.toNat := by
  have hgen : e.gen.setWidth 8 = gen ↔ e.gen.toNat = gen.toNat := by
    rw [BitVec.toNat_eq, BitVec.toNat_setWidth_of_le (by decide)]
  rw [awaits, Bool.and_eq_true, Bool.or_eq_true, decide_eq_true_iff, decide_eq_true_iff, decide_eq_true_iff, hgen]

theorem statusOfByte_code (st : Status) : Status.ofByte st.code = some st := by
  cases st <;> rfl

theorem carriedAnswer_of_status {p : List Byte} {st : Status} (h : st.code = p.getD 2 0) :
    carriedAnswer p = ⟨st, (p.getD 3 0).toNat, p.getD 4 0 ++ p.getD 5 0, p.drop 6⟩ := by
  rw [carriedAnswer, ← h, statusOfByte_code, Option.getD_some]

theorem takeRsp_of_awaited {p : List Byte} {t : Tag} {s : State} (ht : (p.getD 0 0).toNat = t.val)
    (h : awaits s.rt.tags[t] (p.getD 1 0) = true) : takeRsp p s = completeTag t (carriedAnswer p) s := by
  rw [takeRsp, tagOfByte_of_val ht]
  exact if_pos h

theorem takeRsp_of_unawaited {p : List Byte} {s : State}
    (h : ∀ t : Tag, (p.getD 0 0).toNat = t.val → awaits s.rt.tags[t] (p.getD 1 0) ≠ true) : takeRsp p s = s := by
  unfold takeRsp
  split
  next t ht => exact if_neg (h t (val_of_tagOfByte ht))
  next => rfl

/-! A delivered CANCEL, and the deadline of an entry (R142, R146). -/

/-- Entry `i` has a tag and a generation. -/
def entryNamed (s : State) (tag gen : Byte) (i : Slot) : Prop :=
  ∃ e, s.iq.slots[i] = some e ∧ e.tag = tag ∧ e.gen = gen

theorem cancelTarget_eq (tag gen : Byte) (s : State) [DecidablePred (entryNamed s tag gen)] :
    cancelTarget tag gen s = s.iq.arrival.reverse.find? fun i => decide (entryNamed s tag gen i) := by
  unfold cancelTarget
  congr 1
  funext i
  rw [Bool.eq_iff_iff, decide_eq_true_iff, entryNamed]
  cases s.iq.slots[i] <;> simp

theorem cancelTarget_of_none {tag gen : Byte} {s : State} (h : ∀ i ∈ s.iq.arrival, ¬ entryNamed s tag gen i) :
    cancelTarget tag gen s = none := by
  classical
  rw [cancelTarget_eq, List.find?_eq_none]
  intro i hi
  simpa using h i (List.mem_reverse.mp hi)

theorem cancelTarget_of_newest {tag gen : Byte} {s : State} {i : Slot} {older newer : List Slot}
    (harrival : s.iq.arrival = older ++ i :: newer) (hnewer : ∀ j ∈ newer, ¬ entryNamed s tag gen j)
    (hi : entryNamed s tag gen i) : cancelTarget tag gen s = some i := by
  classical
  have skipped : newer.reverse.find? (fun j => decide (entryNamed s tag gen j)) = none :=
    List.find?_eq_none.mpr fun j hj => by simpa using hnewer j (List.mem_reverse.mp hj)
  rw [cancelTarget_eq, harrival, List.reverse_append, List.reverse_cons, List.append_assoc, List.find?_append, skipped]
  simp [hi]

theorem slotDue_of_waiting {s : State} {i : Slot} {e : SlotEntry} {due : Moment} (he : s.iq.slots[i] = some e)
    (hstate : e.state = .waiting due) : slotDue s i = some due := by
  obtain ⟨tag, gen, req, state⟩ := e
  dsimp only at hstate
  subst hstate
  rw [slotDue, he]

theorem slotDue_of_other {s : State} {i : Slot}
    (h : ∀ (e : SlotEntry) (due : Moment), s.iq.slots[i] = some e → e.state ≠ .waiting due) : slotDue s i = none := by
  unfold slotDue
  split
  next due he => exact absurd rfl (h _ due he)
  next => rfl

theorem withdrawSlot_of_waiting {s : State} {i : Slot} {e : SlotEntry} {due : Moment} (st : Status)
    (he : s.iq.slots[i] = some e) (hstate : e.state = .waiting due) :
    withdrawSlot i st s = { s with
      da.remoteList := s.da.remoteList.filter (· ≠ i)
      iq.slots := vput s.iq.slots i (some { e with state := .answered ⟨st, 0, 0, []⟩ })
      iq.answerOrder := s.iq.answerOrder ++ [i] } :=
  answerSlot_of_waiting (s := { s with da.remoteList := s.da.remoteList.filter (· ≠ i) }) (bare st) he hstate

theorem takeCancel_of_none {p : List Byte} {s : State} (h : cancelTarget (p.getD 0 0) (p.getD 1 0) s = none) :
    takeCancel p s = s := by
  rw [takeCancel, h]

theorem takeCancel_of_target {p : List Byte} {s : State} {i : Slot}
    (h : cancelTarget (p.getD 0 0) (p.getD 1 0) s = some i) :
    takeCancel p s = if (slotDue s i).isSome then withdrawSlot i .cancelled s else s := by
  rw [takeCancel, h]

theorem exec_remoteDeadlineExpiry (i : Slot) {s : State} (h : s.inReset = false) :
    exec (.remoteDeadlineExpiry i) s = .next (remoteDeadlineExpiry i s) := exec_of_onChip h rfl

/-! A delivered RELEASE_ALL (R50, R91, R148). -/

theorem dropWaiting_eq (s : State) : dropWaiting s =
    ((List.finRange 8).filter fun i => (slotDue s i).isSome).foldl (fun s i => freeWithCredit i s)
      { s with da.remoteList := [] } := rfl

theorem dropWaiting_slot (s : State) (i : Slot) : (dropWaiting s).iq.slots[i] = match s.iq.slots[i] with
    | some ⟨_, _, _, .waiting _⟩ => none
    | other => other := by
  rw [dropWaiting_eq, GoodFrames.freeAll_slots]
  simp only [List.mem_filter, List.mem_finRange, true_and]
  unfold slotDue
  rcases s.iq.slots[i] with _ | ⟨tag, gen, req, state⟩
  · rfl
  · cases state <;> rfl

theorem endLease_remote_lease (s : State) : (endLease .remoteHost s).da = { s.da with
    lease := match s.da.lease with
      | some ⟨.remoteHost, _⟩ => none
      | other => other } := by
  unfold endLease
  rcases hlease : s.da.lease with _ | ⟨holder, due⟩
  · exact congrArg (fun l => { s.da with lease := l }) hlease
  · cases holder
    · exact congrArg (fun l => { s.da with lease := l }) hlease
    · rfl

theorem releaseOwned_lb_congr {s u : State} (o : Origin) (m : LineMask) (hlb : u.lb = s.lb) (hslc : u.slc = s.slc)
    (hlt : u.lt = s.lt) : (releaseOwned o m u).lb = (releaseOwned o m s).lb := by
  have held (r : LineRecord) : heldLevel u r = heldLevel s r := LinkLoss.heldLevel_congr hslc hlt (by rw [hlb]) r
  simp only [releaseOwned, mapLines, held, hlb]

/-- The chip before the selection that ends a RELEASE_ALL. -/
def released (s : State) : State := releaseOwned .remoteHost allLines (endLease .remoteHost (dropWaiting s))

theorem released_slot (s : State) (i : Slot) : (released s).iq.slots[i] = match s.iq.slots[i] with
    | some ⟨_, _, _, .waiting _⟩ => none
    | other => other := by
  have hiq : (released s).iq = (dropWaiting s).iq := by simp [released]
  rw [hiq]
  exact dropWaiting_slot s i

theorem dropWaiting_fe (s : State) : (dropWaiting s).fe = { s.fe with
    retCount := ((List.finRange 8).filter fun i => (slotDue s i).isSome).foldl (fun n _ => (n + 1) % 9) s.fe.retCount } := by
  have hcount := GoodFrames.freeAll_retCount ((List.finRange 8).filter fun i => (slotDue s i).isSome)
    { s with da.remoteList := [] }
  rw [dropWaiting_eq, freeAll_fold, hcount]

theorem released_da (s : State) : (released s).da = { s.da with
    remoteList := []
    lease := match s.da.lease with
      | some ⟨.remoteHost, _⟩ => none
      | other => other } := by
  have hda : (released s).da = (endLease .remoteHost (dropWaiting s)).da := by simp [released]
  have hdrop : (dropWaiting s).da = { s.da with remoteList := [] } := by
    rw [dropWaiting_eq, freeAll_fold]
  rw [hda, endLease_remote_lease, hdrop]

/-- Settles O40: an RSP by the tag it names, a CANCEL by its newest entry, an entry's deadline, and a RELEASE_ALL. -/
theorem answersCancelsAndReleasesActOnTheirEntry : Obligations.AnswersCancelsAndReleasesActOnTheirEntry := by
  refine ⟨⟨fun h p s s1 hd => ⟨fun t st ht hstate hgen hst => ?_, fun hnone => ?_⟩, fun h p s s1 hd => ?_,
    fun i s hout => ?_⟩, fun h p s s1 hd => ⟨released s1, receive_of_deliveredAt hd, released_slot s1, ?_, ?_, released_da s1,
      ?_, ?_⟩⟩
  · have hexec : exec (.rsp h p) s = .next (takeRsp p s1) := receive_of_deliveredAt hd
    rw [hexec, takeRsp_of_awaited ht ((awaits_iff _ _).mpr ⟨hstate, hgen⟩), carriedAnswer_of_status hst]
  · have hexec : exec (.rsp h p) s = .next (takeRsp p s1) := receive_of_deliveredAt hd
    rw [hexec, takeRsp_of_unawaited fun t ht hawaits => hnone t ⟨ht, (awaits_iff _ _).mp hawaits⟩]
  · intro named
    have hexec : exec (.cancelFrame h p) s = .next (takeCancel p s1) := receive_of_deliveredAt hd
    rw [hexec]
    refine ⟨fun hnone => ?_, fun i older newer e harrival hnewer hi he => ?_⟩
    · rw [takeCancel_of_none (cancelTarget_of_none hnone)]
    · rw [takeCancel_of_target (cancelTarget_of_newest harrival hnewer hi)]
      refine ⟨fun due hstate => ?_, fun hother => ?_⟩
      · rw [slotDue_of_waiting he hstate, withdrawSlot_of_waiting .cancelled he hstate]
        rfl
      · have hdue : slotDue s1 i = none := slotDue_of_other fun e' due he' => by
          rw [he] at he'
          cases he'
          exact hother due
        rw [hdue]
        rfl
  · rw [exec_remoteDeadlineExpiry i hout]
    refine ⟨fun e due he hstate => ?_, fun hother => ?_⟩
    · rw [remoteDeadlineExpiry, slotDue_of_waiting he hstate]
      exact congrArg Host.Outcome.next (withdrawSlot_of_waiting (s := s.reach due) .timeout he hstate)
    · rw [remoteDeadlineExpiry, slotDue_of_other hother]
  · have hfe : (released s1).fe = (dropWaiting s1).fe := by simp [released]
    rw [hfe, dropWaiting_fe]
  · have hfe : (released s1).fe = (dropWaiting s1).fe := by simp [released]
    rw [hfe, dropWaiting_fe]
  · exact releaseOwned_lb_congr _ _ (by simp) (by simp) (by simp)
  · simp [released]

end Sys2Proof.Proofs.FarRequests

/-! The Event Queue, the Remote Outbox and ALERT (chapter 8). -/

namespace Sys2Proof.Proofs.Events
open Sys2Proof Sys2Proof.Machine Sys2Proof.Proofs.RemoteLines Sys2Proof.Proofs.Delivery

/-! An insertion's steps in their order (R155, R158). -/

theorem any_sameEvent_iff (q : List EventRecord) (r : EventRecord) : q.any (sameEvent · r) = true ↔
    ∃ x ∈ q, x.kind = r.kind ∧ x.source = r.source ∧ x.detail = r.detail := by
  simp [sameEvent, and_assoc]

theorem any_isOverflow_iff (q : List EventRecord) : q.any isOverflow = true ↔ ∃ x ∈ q, x.kind = .overflow := by
  simp [isOverflow]

theorem coalesce_eq (q : List EventRecord) (r : EventRecord) : coalesce q r =
    q.map fun x => if x.kind = r.kind ∧ x.source = r.source ∧ x.detail = r.detail then
      { x with count := min 255 (x.count + r.count), arg := r.arg } else x :=
  List.map_congr_left fun x _ => if_congr (by simp [sameEvent, and_assoc]) rfl rfl

theorem countOverflow_eq (q : List EventRecord) (n : Nat) : countOverflow q n =
    q.map fun x => if x.kind = .overflow then { x with count := min 255 (x.count + n) } else x :=
  List.map_congr_left fun x _ => if_congr (by simp [isOverflow]) rfl rfl

section
variable {cap : Nat} {q : List EventRecord} {r : EventRecord}

theorem insertEvent_of_same (h : ∃ x ∈ q, x.kind = r.kind ∧ x.source = r.source ∧ x.detail = r.detail) :
    insertEvent cap q r = coalesce q r :=
  if_pos ((any_sameEvent_iff q r).mpr h)

theorem insertEvent_of_new (h : ∀ x ∈ q, ¬ (x.kind = r.kind ∧ x.source = r.source ∧ x.detail = r.detail)) :
    insertEvent cap q r = if q.any isOverflow then countOverflow q r.count
      else if q.length + 1 < cap then q ++ [r] else q ++ [overflowRecord .localHost r.count] :=
  if_neg (by rw [any_sameEvent_iff]; rintro ⟨x, hx, hsame⟩; exact h x hx hsame)

theorem insertEvent_of_overflow (h : ∀ x ∈ q, ¬ (x.kind = r.kind ∧ x.source = r.source ∧ x.detail = r.detail))
    (ho : ∃ x ∈ q, x.kind = .overflow) : insertEvent cap q r = countOverflow q r.count :=
  (insertEvent_of_new h).trans (if_pos ((any_isOverflow_iff q).mpr ho))

theorem not_any_isOverflow (ho : ∀ x ∈ q, x.kind ≠ .overflow) : ¬ q.any isOverflow = true := by
  rw [any_isOverflow_iff]
  rintro ⟨x, hx, hkind⟩
  exact ho x hx hkind

theorem insertEvent_of_room (h : ∀ x ∈ q, ¬ (x.kind = r.kind ∧ x.source = r.source ∧ x.detail = r.detail))
    (ho : ∀ x ∈ q, x.kind ≠ .overflow) (hroom : q.length + 1 < cap) : insertEvent cap q r = q ++ [r] := by
  rw [insertEvent_of_new h, if_neg (not_any_isOverflow ho), if_pos hroom]

theorem insertEvent_of_full (h : ∀ x ∈ q, ¬ (x.kind = r.kind ∧ x.source = r.source ∧ x.detail = r.detail))
    (ho : ∀ x ∈ q, x.kind ≠ .overflow) (hfull : cap ≤ q.length + 1) :
    insertEvent cap q r = q ++ [⟨.overflow, .localHost, 0, 0, min 255 r.count⟩] := by
  rw [insertEvent_of_new h, if_neg (not_any_isOverflow ho), if_neg (by omega)]
  rfl

/-! A record carried by an EVENT frame (R160). -/

theorem insertCarried_of_placed (h : r.kind ≠ .overflow ∨ ∃ x ∈ q, x.kind = .overflow) :
    insertCarried q r = insertEvent 16 q r := by
  refine if_neg fun ⟨hkind, _, hnone⟩ => ?_
  rcases h with h | h
  · exact h hkind
  · exact hnone ((any_isOverflow_iff q).mpr h)

theorem insertCarried_of_overflow (hkind : r.kind = .overflow) (ho : ∀ x ∈ q, x.kind ≠ .overflow) :
    insertCarried q r = q ++ [⟨.overflow, .remoteHost, 0, 0, min 255 r.count⟩] := by
  refine if_pos ⟨hkind, ?_, not_any_isOverflow ho⟩
  rw [any_sameEvent_iff]
  rintro ⟨x, hx, hsame, -⟩
  exact ho x hx (hsame.trans hkind)
end

theorem eventOfByte_code (k : EventKind) : EventKind.ofByte k.code = some k := by
  cases k <;> rfl

theorem eventOfByte_eq_none {b : Byte} (h : ∀ k : EventKind, k.code ≠ b) : EventKind.ofByte b = none := by
  simpa [EventKind.ofByte] using fun k _ => h k

theorem takeEvent_of_unknown {p : List Byte} (s : State) (h : ∀ k : EventKind, k.code ≠ p.getD 0 0) : takeEvent p s = s := by
  rw [takeEvent, eventOfByte_eq_none h]

theorem takeEvent_of_kind {p : List Byte} {k : EventKind} (s : State) (h : k.code = p.getD 0 0) :
    takeEvent p s = { s with
      eu.eventQueue := insertCarried s.eu.eventQueue ⟨k, .remoteHost, p.getD 2 0, p.getD 3 0, max 1 (p.getD 4 0).toNat⟩ } := by
  rw [takeEvent, ← h, eventOfByte_code]

theorem exec_event {h : FrameHeader} {p : List Byte} {s s1 : State} (hd : DeliveredAt .event h p s s1) :
    exec (.event h p) s = .next (takeEvent p s1) :=
  receive_of_deliveredAt hd

/-- A carried count, 0 standing for 1, is within 255. -/
theorem min_carriedCount (b : Byte) : min 255 (max 1 b.toNat) = max 1 b.toNat := by
  have := b.isLt
  omega

/-! Events raised by the chip itself (R154), and ALERT (R164). -/

theorem raiseRemote_of_up {s : State} (k : EventKind) (detail arg : Byte)
    (h : s.slc.state = .run ∨ s.slc.state = .drain ∨ s.slc.state = .test ∨ s.slc.state = .retrain) :
    raiseRemote k detail arg s =
      { s with eu.outbox := insertEvent 8 s.eu.outbox ⟨k, .localHost, detail, arg, 1⟩ } :=
  if_pos ((isUp_iff _).mpr h)

theorem raiseRemote_of_down {s : State} (k : EventKind) (detail arg : Byte)
    (h : s.slc.state = .disabled ∨ s.slc.state = .listen ∨ s.slc.state = .hello ∨ s.slc.state = .holdoff) :
    raiseRemote k detail arg s = s := by
  refine if_neg ?_
  rcases h with h | h | h | h <;> rw [h] <;> decide

theorem alertLow_iff (s : State) : alertLow s = true ↔ s.inReset = false ∧
    ((s.eu.eventQueue ≠ [] ∧ s.hp.alertEq = true) ∨ (s.rt.cq ≠ [] ∧ s.hp.alertCq = true)) := by
  simp [alertLow]

/-- Settles O41: an insertion by its four steps, an event raised, an EVENT delivered, ALERT. -/
theorem eventsAreQueuedAndAlerted : Obligations.EventsAreQueuedAndAlerted := by
  refine ⟨fun cap q r => ⟨fun h => ?_, fun h => ⟨fun ho => ?_, fun ho => ⟨?_, ?_⟩⟩⟩, fun k detail arg s => ⟨rfl, ?_, ?_⟩,
    fun h p s s1 hd => ⟨fun hunknown => ?_, fun k hk => ⟨fun hplaced => ?_, fun hkind ho => ?_⟩⟩, alertLow_iff⟩
  · exact (insertEvent_of_same h).trans (coalesce_eq q r)
  · exact (insertEvent_of_overflow h ho).trans (countOverflow_eq q r.count)
  · exact insertEvent_of_room h ho
  · exact insertEvent_of_full h ho
  · exact raiseRemote_of_up k detail arg
  · exact raiseRemote_of_down k detail arg
  · rw [exec_event hd, takeEvent_of_unknown s1 hunknown]
  · rw [exec_event hd, takeEvent_of_kind s1 hk, insertCarried_of_placed hplaced]
  · rw [exec_event hd, takeEvent_of_kind s1 hk, insertCarried_of_overflow (by exact hkind) ho, min_carriedCount]

end Sys2Proof.Proofs.Events

/-! The test parameters and a near TEST_START (chapter 9). -/

namespace Sys2Proof.Proofs.TestStart
open Sys2Proof Sys2Proof.Machine Sys2Proof.Laws.RequestInv Sys2Proof.Proofs.Rows Sys2Proof.Proofs.Accepted
open Sys2Proof.Proofs.Requests Sys2Proof.Proofs.RequestRows

/-! The five bytes of a test's parameters (R117, R182). -/

theorem patternOfByte_eq_some_iff (b : Byte) (x : TestPattern) :
    TestPattern.ofByte b = some x ↔ b.toNat = if x = .prbs then 0 else 1 := by
  unfold TestPattern.ofByte
  split <;> cases x <;> simp_all

theorem styleOfByte_eq_some_iff (b : Byte) (x : FlagStyle) :
    FlagStyle.ofByte b = some x ↔ b.toNat = if x = .live then 0 else 1 := by
  unfold FlagStyle.ofByte
  split <;> cases x <;> simp_all

theorem sideOfByte_eq_some_iff (b : Byte) (x : Side) : Side.ofByte b = some x ↔ b.toNat = if x = .near then 0 else 1 := by
  have hzero : b = 0 ↔ b.toNat = 0 := by bv_omega
  have hone : b = 1 ↔ b.toNat = 1 := by bv_omega
  simp only [Side.ofByte, hzero, hone]
  split
  · cases x <;> simp [*]
  · split <;> cases x <;> simp [*]

/-- The parameters by what their five bytes name. -/
theorem testParams_eq_some_iff (p : List Byte) (q : TestParams) : testParams p = some q ↔
    TestPattern.ofByte (p.getD 2 0) = some q.pattern ∧
    Side.ofByte (p.getD 3 0) = some (if q.near then .near else .far) ∧
    FlagStyle.ofByte (p.getD 4 0) = some q.style ∧
    q.duration = nat16 (p.getD 0 0) (p.getD 1 0) ∧ 1 ≤ q.duration ∧ q.duration ≤ 60000 := by
  obtain ⟨duration, pattern, near, style⟩ := q
  unfold testParams
  dsimp only
  constructor
  · intro h
    split at h
    next pattern' side style' hpattern hside hstyle =>
      split at h
      next hrange =>
        cases h
        refine ⟨hpattern, ?_, hstyle, rfl, hrange⟩
        rw [hside]
        cases side <;> rfl
      next => cases h
    next => cases h
  · rintro ⟨hpattern, hside, hstyle, rfl, hrange⟩
    rw [hpattern, hside, hstyle]
    dsimp only
    rw [if_pos hrange]
    cases near <;> rfl

theorem testParams_iff (p : List Byte) (q : TestParams) : testParams p = some q ↔ TestBytes p q := by
  rw [testParams_eq_some_iff, patternOfByte_eq_some_iff, sideOfByte_eq_some_iff, styleOfByte_eq_some_iff, TestBytes, nat16,
    Nat.mul_comm _ 256]
  cases q.near <;> simp <;> tauto

/-! A TEST_START accepted (R167). -/

theorem submitNear_testStart {t : Tag} {r : Request} {s : State} (h : r.kind = .testStart) :
    submitNear t r s = startTest t (acceptTag t r .queued s) := by
  simp only [submitNear, h]

theorem startTest_of_idle {t : Tag} {s : State} {q : TestParams} (hstate : s.slc.state = .run) (hphase : s.lt.phase = .idle)
    (hq : testParams s.rt.tags[t].req.body = some q) : startTest t s =
      { s with
        rt.tags := vput s.rt.tags t { s.rt.tags[t] with state := .testing, due := none }
        lt := { s.lt with
          phase := .enterPending, owner := true, generator := q.near, duration := q.duration, pattern := q.pattern,
          style := q.style, ownerTag := some (t, s.rt.tags[t].gen), readyTaken := false, readyBuilt := false,
          goTaken := false } } := by
  unfold startTest
  dsimp only
  rw [hstate, hphase, hq]
  rfl

theorem startTest_of_busy {t : Tag} {s : State} (h : (s.slc.state = .run ∧ s.lt.phase ≠ .idle) ∨ s.slc.state = .drain ∨
    s.slc.state = .test ∨ s.slc.state = .retrain) : startTest t s = completeTag t ⟨.busy, 0, 0, []⟩ s := by
  unfold startTest
  rcases h with ⟨h, hphase⟩ | h | h | h <;> rw [h]
  · dsimp only
    split
    next hidle _ => exact absurd hidle hphase
    next => rfl
  all_goals rfl

theorem startTest_of_down {t : Tag} {s : State} (h : s.slc.state = .disabled ∨ s.slc.state = .listen ∨
    s.slc.state = .hello ∨ s.slc.state = .holdoff) : startTest t s = completeTag t ⟨.linkDown, 0, 0, []⟩ s := by
  unfold startTest
  rcases h with h | h | h | h <;> rw [h] <;> rfl

theorem exec_testStart (b : Byte) {s : State} {r : Request} {t : Tag} (hport : portReady s)
    (hr : stagedRequest s.hp.staging = some r) (hkind : r.kind = .testStart) (ht : freeTag s = some t) :
    exec (.testStart b) s = .next (setPointer 0x21#8 (startTest t (acceptTag t r .queued (beginWrite s)))) := by
  have hside : r.side = .near := by
    cases hs : r.side with
    | near => rfl
    | far => exact absurd hkind (staged_far hr hs)
  have row := exec_submit_near (k := .testStart) b hport hr hside ht
  rwa [submitNear_testStart hkind] at row

/-- Settles O42: the parameters by their bytes, then the row's TEST_START in each link state. -/
theorem testStartIsTakenOrRefused : Obligations.TestStartIsTakenOrRefused := by
  refine ⟨testParams_iff, fun b s r q t hport hr hkind hq ht => ?_⟩
  intro s1
  rw [exec_testStart b hport hr hkind ht]
  refine ⟨fun hstate hphase => ?_, fun h => ?_, fun h => ?_⟩
  · have hself : s1.rt.tags[t] = ⟨.queued, s.rt.tags[t].gen + 1, r, acceptDue s.now r⟩ := vput_get_self _ _ _
    rw [startTest_of_idle (s := s1) hstate hphase (by rw [hself]; exact hq), hself]
    have htags : vput s1.rt.tags t ⟨.testing, s.rt.tags[t].gen + 1, r, none⟩ =
        vput s.rt.tags t ⟨.testing, s.rt.tags[t].gen + 1, r, none⟩ := vput_vput _ _ _ _
    rw [htags]
    rfl
  · rw [startTest_of_busy (s := acceptTag t r .queued (beginWrite s)) h]
  · rw [startTest_of_down (s := acceptTag t r .queued (beginWrite s)) h]

end Sys2Proof.Proofs.TestStart

/-! The handshake of a link test (chapter 9). -/

namespace Sys2Proof.Proofs.Handshake
open Sys2Proof Sys2Proof.Machine Sys2Proof.Proofs.Rows Sys2Proof.Proofs.Delivery Sys2Proof.Proofs.TestStart

/-! A drained chip, and the handshake frame it has to send (R122, R169). -/

theorem freeSlots_eq_eight_iff (s : State) : freeSlots s = 8 ↔ ∀ i : Slot, s.iq.slots[i] = none := by
  have hlength : (List.finRange 8).length = 8 := List.length_finRange
  rw [freeSlots]
  conv_lhs => rhs; rw [← hlength]
  rw [List.length_filter_eq_length_iff]
  simp [-Fin.getElem_fin]

theorem drained_iff (s : State) : drained s = true ↔
    (∀ t : Tag, s.rt.tags[t].state ≠ .inFlight ∧ s.rt.tags[t].state ≠ .cancelSent) ∧
    (∀ i : Slot, s.iq.slots[i] = none) ∧ s.fe.window = [] := by
  rw [← freeSlots_eq_eight_iff]
  simp [drained, and_assoc, -Fin.getElem_fin]

theorem handshake_of_enterPending {s : State} (hstate : s.slc.state = .run) (hphase : s.lt.phase = .enterPending) :
    handshake s = some .testEnter := by
  rw [handshake, hstate, hphase]

theorem handshake_of_draining {s : State} (hstate : s.slc.state = .drain) (hphase : s.lt.phase = .draining) :
    handshake s = if s.lt.owner then
        if drained s ∧ s.lt.readyTaken ∧ s.lt.drainDue.isSome then some .testGo else none
      else if drained s ∧ s.lt.readyBuilt = false then some .testReady else none := by
  rw [handshake, hstate, hphase]

theorem handshake_cases (s : State) :
    (s.slc.state = .run ∧ s.lt.phase = .enterPending) ∨ (s.slc.state = .drain ∧ s.lt.phase = .draining) ∨
      handshake s = none := by
  unfold handshake
  split
  next hstate hphase => exact .inl ⟨hstate, hphase⟩
  next hstate hphase => exact .inr (.inl ⟨hstate, hphase⟩)
  next => exact .inr (.inr rfl)

theorem handshake_eq_testEnter_iff (s : State) :
    handshake s = some .testEnter ↔ s.slc.state = .run ∧ s.lt.phase = .enterPending := by
  refine ⟨fun h => ?_, fun ⟨hstate, hphase⟩ => handshake_of_enterPending hstate hphase⟩
  rcases handshake_cases s with hrun | ⟨hstate, hphase⟩ | hnone
  · exact hrun
  · rw [handshake_of_draining hstate hphase] at h
    split_ifs at h <;> cases h
  · rw [hnone] at h
    cases h

theorem handshake_eq_testReady_iff (s : State) : handshake s = some .testReady ↔
    s.slc.state = .drain ∧ s.lt.phase = .draining ∧ s.lt.owner = false ∧ drained s = true ∧ s.lt.readyBuilt = false := by
  constructor
  · intro h
    rcases handshake_cases s with ⟨hstate, hphase⟩ | ⟨hstate, hphase⟩ | hnone
    · rw [handshake_of_enterPending hstate hphase] at h
      cases h
    · rw [handshake_of_draining hstate hphase] at h
      split_ifs at h with howner hgo hready
      · cases h
      · exact ⟨hstate, hphase, by simpa using howner, hready⟩
    · rw [hnone] at h
      cases h
  · rintro ⟨hstate, hphase, howner, hready⟩
    rw [handshake_of_draining hstate hphase, if_neg (by simp [howner]), if_pos hready]

theorem handshake_eq_testGo_iff (s : State) : handshake s = some .testGo ↔
    s.slc.state = .drain ∧ s.lt.phase = .draining ∧ s.lt.owner = true ∧ drained s = true ∧ s.lt.readyTaken = true ∧
    s.lt.drainDue.isSome = true := by
  constructor
  · intro h
    rcases handshake_cases s with ⟨hstate, hphase⟩ | ⟨hstate, hphase⟩ | hnone
    · rw [handshake_of_enterPending hstate hphase] at h
      cases h
    · rw [handshake_of_draining hstate hphase] at h
      split_ifs at h with howner hgo hready
      · exact ⟨hstate, hphase, howner, hgo⟩
      · cases h
    · rw [hnone] at h
      cases h
  · rintro ⟨hstate, hphase, howner, hgo⟩
    rw [handshake_of_draining hstate hphase, if_pos howner, if_pos hgo]

theorem enterPayload_eq (t : LinkTester) : enterPayload t =
    [BitVec.ofNat 8 (t.duration / 256), BitVec.ofNat 8 t.duration, if t.pattern = .prbs then 0 else 1,
      if t.generator then 0 else 1, if t.style = .live then 0 else 1] := by
  unfold enterPayload
  cases t.pattern <;> cases t.generator <;> cases t.style <;> rfl

/-! The handshake frames delivered (R168, R169). -/

section
variable {k : FrameKind} {h : FrameHeader} {p : List Byte} {s s1 : State}

theorem deliveredAt_test (hd : DeliveredAt k h p s s1) :
    s1.lt = s.lt ∧ s1.slc.role = s.slc.role ∧ s1.slc.state = s.slc.state ∧ s1.now = s.now := by
  obtain ⟨-, -, -, -, -, -, -, s0, hturn, rfl⟩ := hd
  rcases hturn with ⟨-, -, rfl⟩ | ⟨-, rfl⟩ <;> simp

theorem exec_testEnter (hd : DeliveredAt .testEnter h p s s1) : exec (.testEnter h p) s = .next (takeTestEnter p s1) :=
  receive_of_deliveredAt hd

theorem exec_testReady (hd : DeliveredAt .testReady h p s s1) : exec (.testReady h p) s = .next (takeTestReady s1) :=
  receive_of_deliveredAt hd

theorem exec_testGo (hd : DeliveredAt .testGo h p s s1) : exec (.testGo h p) s = .next (takeTestGo s1) :=
  receive_of_deliveredAt hd
end

section
variable {p : List Byte} {q : TestParams} {s : State}

theorem takeTestEnter_of_bad (hq : testParams p = none) : takeTestEnter p s = s := by
  rw [takeTestEnter, hq]

theorem takeTestEnter_of_idle (hq : testParams p = some q) (hphase : s.lt.phase = .idle) :
    takeTestEnter p s = becomeNonOwner q s := by
  rw [takeTestEnter, hq, hphase]

theorem takeTestEnter_of_own (hq : testParams p = some q) (hphase : s.lt.phase = .enterPending ∨ s.lt.phase = .draining) :
    takeTestEnter p s = if s.lt.owner = true ∧ s.slc.role = .follower then
      becomeNonOwner q (completeOwner ⟨.busy, 0, 0, []⟩ s) else s := by
  rcases hphase with hphase | hphase <;> rw [takeTestEnter, hq, hphase] <;> rfl

theorem takeTestEnter_of_later (hq : testParams p = some q)
    (hphase : s.lt.phase = .awaitResult ∨ s.lt.phase = .resultOut) : takeTestEnter p s = s := by
  rcases hphase with hphase | hphase <;> rw [takeTestEnter, hq, hphase]
end

theorem drainLimit_of_none {s : State} (h : s.lt.drainDue = none) : drainLimit s = s := by
  rw [drainLimit, h]

theorem drainLimit_of_due {s : State} {due : Moment} (h : s.lt.drainDue = some due) : drainLimit s =
    returnToRun (if s.lt.owner then completeOwner ⟨.drainTimeout, 0, 0, []⟩ (s.reach due) else s.reach due) := by
  rw [drainLimit, h]
  rfl

theorem exec_drainLimit {s : State} (h : s.inReset = false) : exec .drainLimit s = .next (drainLimit s) :=
  exec_of_onChip h rfl

/-- Settles O43: the candidates and their building, the three frames delivered, the drain limit. -/
theorem handshakeDrainsTheLink : Obligations.HandshakeDrainsTheLink := by
  refine ⟨testParams_iff, fun s => ⟨drained_iff s, handshake_eq_testEnter_iff s, handshake_eq_testReady_iff s,
    handshake_eq_testGo_iff s, ?_, rfl, rfl⟩, fun h p s s1 hd => ?_, fun h p s s1 hd => ?_, fun h p s s1 hd => ?_,
    fun s hout => ?_⟩
  · rw [← enterPayload_eq]
    rfl
  · obtain ⟨hlt, hrole, -, hnow⟩ := deliveredAt_test hd
    intro joined
    have hjoined (q : TestParams) (u : State) (hu : u.now = s1.now) : becomeNonOwner q u = joined q u := by
      simp only [joined, ← hnow, ← hu]
      rfl
    rw [exec_testEnter hd, ← hlt, ← hrole]
    refine ⟨fun hq => by rw [takeTestEnter_of_bad hq], fun q hq => ⟨fun hphase => ?_, fun hphase => ⟨fun hkept => ?_,
      fun howner hfollower => ?_⟩, fun hphase => by rw [takeTestEnter_of_later hq hphase]⟩⟩
    · rw [takeTestEnter_of_idle hq hphase, hjoined q s1 rfl]
    · rw [takeTestEnter_of_own hq hphase, if_neg]
      rcases hkept with hkept | hkept <;> simp [hkept]
    · rw [takeTestEnter_of_own hq hphase, if_pos ⟨howner, hfollower⟩, hjoined q _ (by simp)]
  · rw [exec_testReady hd, ← (deliveredAt_test hd).1]
    refine ⟨fun hphase howner => ?_, fun hkept => ?_⟩
    · rw [takeTestReady, if_pos ⟨hphase, howner⟩]
    · rw [takeTestReady, if_neg]
      rcases hkept with hkept | hkept <;> simp [hkept]
  · rw [exec_testGo hd, ← (deliveredAt_test hd).1]
    refine ⟨fun hphase howner => ?_, fun hkept => ?_⟩
    · rw [takeTestGo, if_pos ⟨hphase, by simp [howner]⟩]
    · rw [takeTestGo, if_neg]
      rcases hkept with hkept | hkept <;> simp [hkept]
  · intro back
    rw [exec_drainLimit hout]
    refine ⟨fun hdue => by rw [drainLimit_of_none hdue], fun due hdue => ⟨fun howner => ?_, fun howner => ?_⟩⟩
    · rw [drainLimit_of_due hdue, if_pos howner]
      rfl
    · rw [drainLimit_of_due hdue, if_neg (by simp [howner])]
      rfl

end Sys2Proof.Proofs.Handshake

/-! The entry to TEST and the end of a test on each chip (chapter 9). -/

namespace Sys2Proof.Proofs.TestSpan
open Sys2Proof Sys2Proof.Machine Sys2Proof.Proofs.Rows Sys2Proof.Proofs.Delivery Sys2Proof.Proofs.FailedFrames
open Sys2Proof.Proofs.GoodFrames Sys2Proof.Proofs.Handshake

/-! The ack that takes TEST_GO out of the owner's window (R170). -/

theorem goInWindow_eq_true {s : State} (h : ∃ f ∈ s.fe.window, f.kind = .testGo) : goInWindow s = true := by
  simpa [goInWindow] using h

theorem takeFrame_of_acknowledged_go {k : FrameKind} {h : FrameHeader} {p : List Byte} {s : State} (hk : k.isLink = false)
    (hgo : ∃ f ∈ s.fe.window, f.kind = .testGo) (hleft : ∀ f ∈ (takeHeader h s).fe.window, f.kind ≠ .testGo) :
    takeFrame k h p s = thenDo goAcknowledged
      (if k.sequenced then takeSequenced k h.seq p (takeHeader h s) else .next (takeHeader h s)) := by
  have left : (goInWindow s && !goInWindow (takeHeader h s)) = true := by
    rw [goInWindow_eq_true hgo, goInWindow_eq_false hleft]
    rfl
  unfold takeFrame
  dsimp only
  rw [hk, left]
  rfl

theorem sequenced_iff_of_not_link {k : FrameKind} (hk : k.isLink = false) : k.sequenced = true ↔ k ≠ .idle := by
  cases k <;> first | decide | cases hk

theorem goAcknowledged_of_other {s : State} (h : s.lt.phase ≠ .draining ∨ s.lt.owner = false) : goAcknowledged s = s := by
  refine if_neg ?_
  rcases h with h | h <;> simp [h]

theorem goAcknowledged_of_owner {s : State} (hphase : s.lt.phase = .draining) (howner : s.lt.owner = true) :
    goAcknowledged s = if freeSlots s = 8 then enterTest s
      else returnToRun (completeOwner ⟨.drainTimeout, 0, 0, []⟩ s) := if_pos ⟨hphase, howner⟩

/-! The lines' test marks, cleared at both ends of a test (R88). -/

/-- The line records with their test marks cleared. -/
def unmarkedLines (s : State) : Vector LineRecord 12 := vtab fun l => { s.lb.lines[l] with flagErr := false }

theorem unmarkedLines_line (s : State) (l : LineNo) : (unmarkedLines s)[l] = { s.lb.lines[l] with flagErr := false } := by
  simp [unmarkedLines]

/-- Settles O44: the frame that takes TEST_GO out of the window, then the owner's three cases and the entry itself. -/
theorem acknowledgedGoEntersTheTest : Obligations.AcknowledgedGoEntersTheTest := by
  refine ⟨fun k h p s s0 hout hsending hstate hgood htrain hack hhello hturn hgo hleft => ?_,
    fun s => ⟨goAcknowledged_of_other, fun hphase howner => ⟨fun hempty => ?_, fun hheld => ?_⟩⟩,
    fun s => ⟨unmarkedLines s, unmarkedLines_line s, rfl⟩⟩
  · have hk : k.isLink = false := by cases k <;> first | rfl | contradiction
    have hgo0 : ∃ f ∈ s0.fe.window, f.kind = .testGo := by rcases hturn with ⟨-, -, rfl⟩ | ⟨-, rfl⟩ <;> exact hgo
    rw [exec_frameCommand, receive_in_turn hout hsending hstate hgood hk hturn,
      takeFrame_of_acknowledged_go hk hgo0 hleft]
    simp only [sequenced_iff_of_not_link hk, ite_not]
    generalize (if k = .idle then Host.Outcome.next (takeHeader h s0) else takeSequenced k h.seq p (takeHeader h s0)) = o
    cases o <;> rfl
  · rw [goAcknowledged_of_owner hphase howner, if_pos ((freeSlots_eq_eight_iff s).mpr hempty)]
  · obtain ⟨i, hi⟩ := hheld
    rw [goAcknowledged_of_owner hphase howner, if_neg fun height => hi ((freeSlots_eq_eight_iff s).mp height i)]

/-! The timers of a test, and a write to TEST_STOP (R171, R173). -/

section
variable {s : State}

theorem exec_patternStart (h : s.inReset = false) : exec .patternStart s = .next (patternStart s) := exec_of_onChip h rfl

theorem exec_testDuration (h : s.inReset = false) : exec .testDuration s = .next (testDuration s) := exec_of_onChip h rfl

theorem exec_checkerDuration (h : s.inReset = false) : exec .checkerDuration s = .next (checkerDuration s) :=
  exec_of_onChip h rfl

theorem exec_patternLost (h : s.inReset = false) : exec .patternLost s = .next (patternLost s) := exec_of_onChip h rfl

theorem exec_testStop (b : Byte) (h : portReady s) :
    exec (.testStop b) s = .next (setPointer 0x27#8 (testStop (beginWrite s))) :=
  exec_of_portWrite (off := 0x26#8) (b := b) h rfl

theorem patternStart_of_none (h : s.lt.patternDue = none) : patternStart s = s := by
  rw [patternStart, h]

theorem testDuration_of_none (h : s.lt.durationDue = none) : testDuration s = s := by
  rw [testDuration, h]

theorem checkerDuration_of_none (h : s.lt.durationDue = none) : checkerDuration s = s := by
  rw [checkerDuration, h]

theorem patternLost_of_none (h : s.lt.lostDue = none) : patternLost s = s := by
  rw [patternLost, h]

variable {due : Moment}

theorem patternStart_of_due (h : s.lt.patternDue = some due) (hg : generating s = true) :
    patternStart s = { s.reach due with lt.genStart := some (max s.now due), lt.patternDue := none } := by
  rw [patternStart, h]
  exact if_pos hg

theorem testDuration_of_due (h : s.lt.durationDue = some due) :
    testDuration s = if generating s then leaveTest .duration (s.reach due) else s := by
  rw [testDuration, h]

theorem checkerDuration_of_due (h : s.lt.durationDue = some due) : checkerDuration s =
    if checking s then { s.reach due with lt.durationDone := true, lt.durationDue := none } else s := by
  rw [checkerDuration, h]

theorem patternLost_of_due (h : s.lt.lostDue = some due) (hc : checking s = true) : patternLost s =
    leaveTest (if durationOver s.lt (max s.now due) then .duration else .patternLost) (s.reach due) := by
  rw [patternLost, h]
  exact if_pos hc
end

theorem durationOver_iff (t : LinkTester) (at_ : Moment) : durationOver t at_ = true ↔
    t.durationDone = true ∨ ∃ d, t.durationDue = some d ∧ d ≤ at_ := by
  unfold durationOver
  cases t.durationDue <;> simp

/-- Settles O45: leaving TEST, the generator's and the checker's timers, the stopped timers, TEST_STOP. -/
theorem testEndsOnEachChip : Obligations.TestEndsOnEachChip := by
  refine ⟨fun r s => ⟨unmarkedLines s, unmarkedLines_line s, rfl⟩,
    fun s hout hstate hphase => ⟨fun hgen => ?_, fun hgen => ?_⟩, fun s hout => ?_,
    fun b s hport => ⟨fun hstate hphase hgen => ?_, fun hstate hphase hgen => ?_, fun hstate => ?_⟩⟩
  · have hg : generating s = true := by simp [generating, hstate, hphase, hgen]
    have hc : checking s = false := by simp [checking, hgen]
    rw [exec_patternStart hout, exec_testDuration hout, exec_checkerDuration hout]
    refine ⟨fun due hdue => by rw [patternStart_of_due hdue hg], fun due hdue => ⟨?_, ?_⟩⟩
    · rw [testDuration_of_due hdue, if_pos hg]
    · rw [checkerDuration_of_due hdue, if_neg (by simp [hc])]
  · have hg : generating s = false := by simp [generating, hgen]
    have hc : checking s = true := by simp [checking, hstate, hphase, hgen]
    rw [exec_testDuration hout, exec_checkerDuration hout, exec_patternLost hout]
    refine ⟨fun due hdue => ⟨?_, ?_⟩, fun due hdue => ⟨fun hover => ?_, fun hnot hdur => ?_⟩⟩
    · rw [testDuration_of_due hdue, if_neg (by simp [hg])]
    · rw [checkerDuration_of_due hdue, if_pos hc]
    · rw [patternLost_of_due hdue hc, if_pos ((durationOver_iff _ _).mpr hover)]
    · rw [patternLost_of_due hdue hc, if_neg]
      rw [durationOver_iff]
      rintro (hdone | ⟨d, hd, hle⟩)
      · simp [hnot] at hdone
      · exact Nat.not_le.mpr (hdur d hd) hle
  · rw [exec_patternStart hout, exec_testDuration hout, exec_checkerDuration hout, exec_patternLost hout]
    exact ⟨fun h => by rw [patternStart_of_none h],
      fun h => ⟨by rw [testDuration_of_none h], by rw [checkerDuration_of_none h]⟩, fun h => by rw [patternLost_of_none h]⟩
  · rw [exec_testStop b hport, testStop, if_pos (by simp [generating, hstate, hphase, hgen])]
  · rw [exec_testStop b hport, testStop, if_neg (by simp [generating, hgen]),
      if_pos (by simp [checking, hstate, hphase, hgen])]
  · rw [exec_testStop b hport, testStop, if_neg (by simp [generating, hstate]), if_neg (by simp [checking, hstate])]

end Sys2Proof.Proofs.TestSpan

/-! What a checker does with a symbol (chapter 9). -/

namespace Sys2Proof.Proofs.Symbols
open Sys2Proof Sys2Proof.Machine Sys2Proof.Proofs.Rows

theorem checking_iff (s : State) :
    checking s = true ↔ s.slc.state = .test ∧ s.lt.phase = .running ∧ s.lt.generator = false := by
  simp [checking, and_assoc]

theorem exec_patternSymbol (d : Byte) (stop : Bool) {s : State} (h : s.inReset = false) :
    exec (.patternSymbol d stop) s = .next (takeSymbol d stop s) := exec_of_onChip h rfl

/-- The moment at which a symbol is taken: 1 microsecond or more after the last. -/
def symbolTime (s : State) : Moment :=
  match s.lt.lastSymbol with
  | some last => max s.now (last + 1)
  | none => s.now

/-- The Link Tester with a symbol noted: the pattern-lost limit starts again. -/
def noted (s : State) : LinkTester :=
  { s.lt with lastSymbol := some (symbolTime s), lostDue := some (symbolTime s + 1000) }

/-- A symbol counted, its errors brought to the TEST_FLAG lines. -/
def counted (n : Nat) (shift : BitVec 15) (s : State) : State :=
  let s1 : State := { s with now := symbolTime s, lt := { countSymbol n (symbolTime s) (noted s) with shift := shift } }
  if n = 0 then s1 else flagError s1

section
variable {d : Byte} {stop : Bool} {s : State}

theorem takeSymbol_of_other (h : ¬ checking s = true) : takeSymbol d stop s = s := if_pos h

theorem takeSymbol_of_first (hc : checking s = true) (hp : s.lt.pattern = .prbs) (h : s.lt.seeded = 0) :
    takeSymbol d stop s =
      { s with now := symbolTime s, lt := { noted s with seeded := 1, shift := seedBits 8 s.lt.shift d } } := by
  unfold takeSymbol noted symbolTime
  rw [if_neg (by simp [hc])]
  cases s.lt.lastSymbol <;> simp only [State.reach, hp, h, if_pos] <;> rfl

theorem takeSymbol_of_second (hc : checking s = true) (hp : s.lt.pattern = .prbs) (h : s.lt.seeded = 1) :
    takeSymbol d stop s =
      { s with now := symbolTime s, lt := { noted s with seeded := 2, shift := prbsStep (seedBits 7 s.lt.shift d) } } := by
  unfold takeSymbol noted symbolTime
  rw [if_neg (by simp [hc])]
  cases s.lt.lastSymbol <;> simp only [State.reach, hp, h] <;> rfl

theorem takeSymbol_of_alternating (hc : checking s = true) (hp : s.lt.pattern = .alternating) :
    takeSymbol d stop s = counted (wrongBits 0x55#8 d stop) s.lt.shift s := by
  unfold takeSymbol counted noted symbolTime
  rw [if_neg (by simp [hc])]
  cases s.lt.lastSymbol <;> simp only [State.reach, hp] <;> rfl

theorem takeSymbol_of_seeded (hc : checking s = true) (hp : s.lt.pattern = .prbs) (h : 2 ≤ s.lt.seeded) :
    takeSymbol d stop s = counted (wrongBits (prbsByte s.lt.shift) d stop) (prbsAdvance 8 s.lt.shift) s := by
  have hfirst : s.lt.seeded ≠ 0 := by omega
  have hsecond : s.lt.seeded ≠ 1 := by omega
  unfold takeSymbol counted noted symbolTime
  rw [if_neg (by simp [hc])]
  cases s.lt.lastSymbol <;> simp only [State.reach, hp, if_neg hfirst, if_neg hsecond] <;> rfl
end

/-! A counted symbol. -/

theorem counted_now (n : Nat) (shift : BitVec 15) (s : State) : (counted n shift s).now = symbolTime s := by
  unfold counted
  dsimp only
  split <;> rfl

theorem counted_lt (n : Nat) (shift : BitVec 15) (s : State) :
    (counted n shift s).lt = { countSymbol n (symbolTime s) (noted s) with shift := shift } := by
  unfold counted
  dsimp only
  split <;> rfl

theorem counted_right (shift : BitVec 15) (s : State) : (counted 0 shift s).lb = s.lb := rfl

theorem counted_wrong {n : Nat} (shift : BitVec 15) (s : State) (h : n ≠ 0) :
    (counted n shift s).lb.pulse = some (symbolTime s + 1) ∧
    ∀ l : LineNo, (counted n shift s).lb.lines[l] =
      if s.lb.lines[l].mode = .testFlag then { s.lb.lines[l] with flagErr := true } else s.lb.lines[l] := by
  unfold counted
  dsimp only
  rw [if_neg h]
  exact ⟨rfl, fun l => mapLines_get _ _ l⟩

/-- R172: the first-error flag after a symbol, by the flag style and the newest error. -/
theorem countSymbol_eq (n : Nat) (now : Moment) (t : LinkTester) : countSymbol n now t =
    { t with
      bits := min 1099511627775 (t.bits + 9), errors := min 65535 (t.errors + n)
      lastError := if n = 0 then t.lastError else some now
      firstError := match t.style, (if n = 0 then t.lastError else some now) with
        | .latched, _ => t.firstError || decide (n ≠ 0)
        | .live, some e => decide (now ≤ e + 1000)
        | .live, none => false } := by
  unfold countSymbol
  dsimp only
  generalize (if n = 0 then t.lastError else some now) = newest
  cases t.style <;> cases newest <;> rfl

/-- Settles O46: a symbol that is nothing, one that seeds, and one that is counted. -/
theorem checkerCountsSymbols : Obligations.CheckerCountsSymbols := by
  intro d stop s hout running
  rw [exec_patternSymbol d stop hout]
  refine ⟨fun hno => by rw [takeSymbol_of_other fun hc => hno ((checking_iff s).mp hc)], fun hrun => ?_⟩
  have hc : checking s = true := (checking_iff s).mpr hrun
  intro at_
  refine ⟨fun hp h => ?_, fun hp h => ?_, fun hchecked => ?_⟩
  · rw [takeSymbol_of_first hc hp h]
    rfl
  · rw [takeSymbol_of_second hc hp h]
    rfl
  · intro expected n newest
    have htaken : takeSymbol d stop s =
        counted n (if s.lt.pattern = .alternating then s.lt.shift else prbsAdvance 8 s.lt.shift) s := by
      cases hp : s.lt.pattern with
      | alternating =>
        have hexpected : expected = 0x55#8 := if_pos hp
        simp only [n, hexpected]
        exact takeSymbol_of_alternating hc hp
      | prbs =>
        have hexpected : expected = prbsByte s.lt.shift := if_neg (by rw [hp]; decide)
        have hseeded : 2 ≤ s.lt.seeded := hchecked.resolve_left (by rw [hp]; decide)
        simp only [n, hexpected]
        exact takeSymbol_of_seeded hc hp hseeded
    refine ⟨_, rfl, ?_⟩
    rw [htaken]
    refine ⟨counted_now _ _ _, ?_, fun hright => ?_, fun hwrong => counted_wrong _ _ hwrong⟩
    · rw [counted_lt, countSymbol_eq]
      rfl
    · rw [hright]
      exact counted_right _ _

end Sys2Proof.Proofs.Symbols

/-! The pseudo-random sequence, and a checker in step with it (chapter 9). -/

namespace Sys2Proof.Proofs.Sequence
open Sys2Proof Sys2Proof.Machine Sys2Proof.Proofs.Masks Sys2Proof.Proofs.Symbols

/-! The register (R171). -/

theorem getLsbD_shiftIn_zero (r : BitVec 15) (b : Bool) : (shiftIn r b).getLsbD 0 = b := by
  cases b <;> simp [shiftIn]

theorem getLsbD_shiftIn_succ (r : BitVec 15) (b : Bool) {i : Nat} (h : i < 14) :
    (shiftIn r b).getLsbD (i + 1) = r.getLsbD i := by
  have inside : i + 1 < 15 := by omega
  have old : r.getLsbD i = r[i] := BitVec.getLsbD_eq_getElem (by omega)
  cases b <;> simp [shiftIn, inside, old]

theorem prbsAdvance_add (m n : Nat) (r : BitVec 15) : prbsAdvance (m + n) r = prbsAdvance n (prbsAdvance m r) := by
  induction m generalizing r with
  | zero => rw [Nat.zero_add]; rfl
  | succ m ih => rw [Nat.succ_add]; exact ih (prbsStep r)

theorem prbsAdvance_succ (n : Nat) (r : BitVec 15) : prbsAdvance (n + 1) r = prbsStep (prbsAdvance n r) :=
  prbsAdvance_add n 1 r

/-- The bits of a symbol are the next bits of the sequence. -/
theorem getLsbD_prbsByte (r : BitVec 15) {i : Nat} (h : i < 8) : (prbsByte r).getLsbD i = prbsBit (prbsAdvance i r) := by
  have bits := (foldl_bits fun j : Fin 8 => prbsBit (prbsAdvance j.val r)).2 ⟨i, h⟩
  rw [prbsByte, toByte, BitVec.getLsbD_ofNat, decide_eq_true h, Bool.true_and]
  exact bits

theorem generatorRegister_add (k n : Nat) : generatorRegister (k + n) = prbsAdvance (8 * n) (generatorRegister k) := by
  rw [generatorRegister, Nat.mul_add, prbsAdvance_add]
  rfl

/-! Two symbols of the sequence seed the register (R172). -/

/-- Two registers with the same `n` newest bits. -/
def AgreeOn (n : Nat) (x r : BitVec 15) : Prop := ∀ i, i < n → x.getLsbD i = r.getLsbD i

theorem AgreeOn.shiftIn {n : Nat} {x r : BitVec 15} (h : AgreeOn n x r) (hn : n ≤ 14) (b : Bool) :
    AgreeOn (n + 1) (shiftIn x b) (shiftIn r b) := by
  intro i hi
  cases i with
  | zero => rw [getLsbD_shiftIn_zero, getLsbD_shiftIn_zero]
  | succ i => rw [getLsbD_shiftIn_succ x b (by omega), getLsbD_shiftIn_succ r b (by omega), h i (by omega)]

theorem AgreeOn.eq {x r : BitVec 15} (h : AgreeOn 15 x r) : x = r := BitVec.eq_of_getLsbD_eq fun i hi => h i hi

theorem seedBits_succ {n : Nat} (x : BitVec 15) (d : Byte) (h : n < 8) :
    seedBits (n + 1) x d = shiftIn (seedBits n x d) (d.getLsbD n) := by
  interval_cases n <;> rfl

/-- Bits of the sequence shifted in bring the register into step with it, bit by bit. -/
theorem agreeOn_seedBits {m n : Nat} {x r : BitVec 15} (h : AgreeOn m x r) (hn : n ≤ 8) (hm : m + n ≤ 15) :
    AgreeOn (m + n) (seedBits n x (prbsByte r)) (prbsAdvance n r) := by
  induction n with
  | zero => exact h
  | succ n ih =>
    rw [seedBits_succ x _ (by omega), getLsbD_prbsByte r (by omega), prbsAdvance_succ]
    exact (ih (by omega) (by omega)).shiftIn (by omega) _

theorem seeded_register (x r : BitVec 15) :
    prbsStep (seedBits 7 (seedBits 8 x (prbsByte r)) (prbsByte (prbsAdvance 8 r))) = prbsAdvance 16 r := by
  have nothing : AgreeOn 0 x r := fun i hi => absurd hi (Nat.not_lt_zero i)
  have eight : AgreeOn 8 (seedBits 8 x (prbsByte r)) (prbsAdvance 8 r) :=
    agreeOn_seedBits (m := 0) (n := 8) nothing (by decide) (by decide)
  have fifteen := (agreeOn_seedBits (n := 7) eight (by decide) (by decide)).eq
  rw [fifteen, ← prbsAdvance_succ, ← prbsAdvance_add]

/-! A checker in step (R172). -/

theorem wrongBits_self (d : Byte) : wrongBits d d true = 0 := by
  simp [wrongBits]

/-- A checker that is before the `k`-th symbol of the sequence, has counted `n` and found no error; its lines are `lb`. -/
structure InStep (k n : Nat) (lb : LineBlock) (t : State) : Prop where
  checks : checking t = true
  pattern : t.lt.pattern = .prbs
  seeded : t.lt.seeded = 2
  bits : t.lt.bits = min 1099511627775 (9 * n)
  errors : t.lt.errors = 0
  firstError : t.lt.firstError = false
  lastError : t.lt.lastError = none
  shift : t.lt.shift = generatorRegister k
  lines : t.lb = lb

theorem inStep_of_two_symbols {s : State} (k : Nat) (hc : checking s = true) (hp : s.lt.pattern = .prbs)
    (hseeded : s.lt.seeded = 0) (hbits : s.lt.bits = 0) (herrors : s.lt.errors = 0) (hfirst : s.lt.firstError = false)
    (hlast : s.lt.lastError = none) :
    InStep (k + 2) 0 s.lb (takeSymbol (patternByte .prbs (k + 1)) true (takeSymbol (patternByte .prbs k) true s)) := by
  rw [takeSymbol_of_first hc hp hseeded]
  set u : State := { s with
    now := symbolTime s
    lt := { noted s with seeded := 1, shift := seedBits 8 s.lt.shift (patternByte .prbs k) } } with hu
  rw [takeSymbol_of_second (s := u) hc hp rfl]
  refine ⟨hc, hp, rfl, hbits, herrors, hfirst, hlast, ?_, rfl⟩
  rw [generatorRegister_add]
  have next : patternByte .prbs (k + 1) = prbsByte (prbsAdvance 8 (generatorRegister k)) :=
    congrArg prbsByte (generatorRegister_add k 1)
  rw [next]
  exact seeded_register s.lt.shift (generatorRegister k)

theorem inStep_takeSymbol {k n : Nat} {lb : LineBlock} {t : State} (h : InStep k n lb t) :
    InStep (k + 1) (n + 1) lb (takeSymbol (patternByte .prbs k) true t) := by
  have expected : wrongBits (prbsByte t.lt.shift) (patternByte .prbs k) true = 0 := by
    rw [h.shift]
    exact wrongBits_self _
  rw [takeSymbol_of_seeded h.checks h.pattern h.seeded.ge, expected]
  refine ⟨h.checks, h.pattern, h.seeded, ?_, ?_, ?_, h.lastError, ?_, h.lines⟩
  · have hbits := h.bits
    change min 1099511627775 (t.lt.bits + 9) = _
    omega
  · change min 65535 (t.lt.errors + 0) = 0
    rw [h.errors]
    rfl
  · have hfirst := h.firstError
    have hlast := h.lastError
    rw [counted_lt, countSymbol_eq]
    cases hstyle : t.lt.style <;> simp [noted, hfirst, hlast, hstyle]
  · rw [generatorRegister_add, ← h.shift]
    rfl

theorem inStep_of_symbols {s : State} (k n : Nat) (hc : checking s = true) (hp : s.lt.pattern = .prbs)
    (hseeded : s.lt.seeded = 0) (hbits : s.lt.bits = 0) (herrors : s.lt.errors = 0) (hfirst : s.lt.firstError = false)
    (hlast : s.lt.lastError = none) : InStep (k + (n + 2)) n s.lb
      ((List.range (n + 2)).foldl (fun u j => takeSymbol (patternByte .prbs (k + j)) true u) s) := by
  induction n with
  | zero => exact inStep_of_two_symbols k hc hp hseeded hbits herrors hfirst hlast
  | succ n ih =>
    rw [List.range_succ, List.foldl_append]
    exact inStep_takeSymbol ih

/-- Settles O47: the register's bits, the symbols' bits, and the checker by induction on the symbols after the first two. -/
theorem checkerFollowsTheGeneratorFromAnySymbol : Obligations.CheckerFollowsTheGeneratorFromAnySymbol := by
  refine ⟨fun r => ⟨rfl, rfl, fun n => ⟨?_, fun i hi => ?_⟩⟩, fun k i hi => ?_,
    fun s k n hstate hphase hgen hp hseeded hbits herrors hfirst hlast => ?_⟩
  · rw [prbsAdvance_succ]
    exact getLsbD_shiftIn_zero _ _
  · rw [prbsAdvance_succ]
    exact getLsbD_shiftIn_succ _ _ hi
  · rw [prbsAdvance_add]
    exact getLsbD_prbsByte _ hi
  · have hc : checking s = true := (checking_iff s).mpr ⟨hstate, hphase, hgen⟩
    have h := inStep_of_symbols k n hc hp hseeded hbits herrors hfirst hlast
    exact ⟨h.bits, h.errors, h.firstError, h.seeded, h.shift, h.lines⟩

end Sys2Proof.Proofs.Sequence

/-! The results of a link test, and the way back to RUN (chapter 9). -/

namespace Sys2Proof.Proofs.TestResults
open Sys2Proof Sys2Proof.Machine Sys2Proof.Proofs.Rows Sys2Proof.Proofs.Delivery Sys2Proof.Proofs.BringUp
open Sys2Proof.Proofs.FailedFrames

/-! The owner's tag (R20). -/

section
variable {a : Answer} {s : State} {t : Tag} {g : Gen}

theorem completeOwner_of_none (h : s.lt.ownerTag = none) : completeOwner a s = s := by
  rw [completeOwner, h]

theorem completeOwner_of_some (h : s.lt.ownerTag = some (t, g)) : completeOwner a s =
    if s.rt.tags[t].state = .testing ∧ s.rt.tags[t].gen = g then completeTag t a s else s := by
  rw [completeOwner, h]
end

/-! A test settled at the entry to RUN (R174, R175). -/

/-- R175: a release owed is applied. -/
def releaseApplied (s : State) : State :=
  { s with fe.releaseAll := s.fe.releaseAll || s.lt.releaseOwed, lt.releaseOwed := false }

theorem settleTest_eq (s : State) : settleTest s =
    if s.lt.phase ≠ .returning then releaseApplied s
    else match s.lt.owner, s.lt.generator with
      | true, false => endTest (raiseTestDone s.lt.endReason s.lt.errors
          (completeOwner (testAnswer s.lt) (releaseApplied s)))
      | false, false => { raiseTestDone s.lt.endReason s.lt.errors (releaseApplied s) with
          lt := { (releaseApplied s).lt with phase := .resultOut } }
      | true, true => { releaseApplied s with
          lt := { (releaseApplied s).lt with phase := .awaitResult, resultDue := some (s.now + 100000) } }
      | false, true => endTest (raiseTestDone s.lt.endReason 0 (releaseApplied s)) := by
  have applied : (if s.lt.releaseOwed then { s with fe.releaseAll := true, lt.releaseOwed := false } else s) =
      releaseApplied s := by
    unfold releaseApplied
    cases howed : s.lt.releaseOwed with
    | true => simp
    | false =>
      rw [if_neg (by decide), Bool.or_false, ← howed]
  unfold settleTest
  dsimp only
  rw [applied]
  rfl

/-! The frames of RETRAIN (R101, R103). -/

section
variable {k : FrameKind} {h : FrameHeader} {p : List Byte} {s : State}

theorem takeReady_link (ready : Bool) (s : State) : (takeReady ready s).slc.state = s.slc.state ∧
    (takeReady ready s).slc.good = s.slc.good ∧ (takeReady ready s).slc.peerCap = s.slc.peerCap ∧
    (takeReady ready s).fe = s.fe := by
  simp

theorem leaderTakes_trainAck_in_retrain (hrole : frameRole .trainAck p = some .follower)
    (hstate : s.slc.state = .retrain) (hopen : s.fe.awaitReply.isSome = true) :
    leaderTakes .trainAck h p s = .next (takeTrainAck h (takeReady h.hostReady s)) := by
  simp [leaderTakes, hstate, hrole, hopen]

theorem leaderTakes_trainAck_of_closed (hrole : frameRole .trainAck p = some .follower)
    (hstate : s.slc.state = .retrain) (hclosed : s.fe.awaitReply = none) :
    leaderTakes .trainAck h p s = .next (takeReady h.hostReady s) := by
  simp [leaderTakes, hstate, hrole, hclosed]

theorem takeTrainAck_unmarked (hstate : s.slc.state = .retrain) (hmark : h.retrain = false) :
    takeTrainAck h s = { s with slc.good := 0, fe.awaitReply := none } := by
  simp [takeTrainAck, hstate, hmark]

theorem takeTrainAck_marked (hstate : s.slc.state = .retrain) (hmark : h.retrain = true) (hgood : s.slc.good < 3) :
    takeTrainAck h s = { s with slc.good := s.slc.good + 1, fe.awaitReply := none } := by
  have few : ¬ 3 ≤ s.slc.good := by omega
  have count : min 16 (s.slc.good + 1) = s.slc.good + 1 := by omega
  simp [takeTrainAck, hstate, hmark, Config.retrainCount, Config.lockCount, count, few]

theorem takeTrainAck_fourth (hstate : s.slc.state = .retrain) (hmark : h.retrain = true) (hgood : s.slc.good = 3) :
    takeTrainAck h s = enterRunFromRetrain { s with slc.good := 4, fe.awaitReply := none } := by
  simp [takeTrainAck, hstate, hmark, Config.retrainCount, Config.lockCount, hgood]

theorem followerTakes_marked_in_retrain (hrole : frameRole .train p ≠ some .follower) (hstate : s.slc.state = .retrain)
    (hmark : h.retrain = true) : followerTakes .train h p s = .next (answerTrain (takeReady h.hostReady s)) := by
  simp [followerTakes, hrole, hstate, hmark]

theorem followerTakes_loss_in_retrain (hrole : frameRole k p ≠ some .follower) (hstate : s.slc.state = .retrain)
    (hk : (k = .train ∧ h.retrain = false) ∨ k = .hello) :
    followerTakes k h p s = .next (loss .retrainFail (takeReady h.hostReady s)) := by
  rcases hk with ⟨rfl, hmark⟩ | rfl
  · simp [followerTakes, hrole, hstate, hmark]
  · simp [followerTakes, hrole, hstate]

theorem followerTakes_other_in_retrain (hrole : frameRole k p ≠ some .follower) (hstate : s.slc.state = .retrain)
    (htrain : k ≠ .train) (hhello : k ≠ .hello) :
    followerTakes k h p s = followerTurn k h p (enterRunFromRetrain s) := by
  simp [followerTakes, hrole, hstate, htrain, hhello]

theorem startRun_eq (credits : Nat) (s : State) : startRun credits s = { s with
    slc := { s.slc with
      state := .run, missed := 0, trainDue := none, helloDue := none, helloLimit := none, retrain := none
      silence := if s.slc.role = .follower then some (s.now + 2000) else none }
    fe := { FrameEngine.reset with
      credits := credits, crcErrors := s.fe.crcErrors, runLines := true, turnOpened := s.now, earliest := s.now,
      hurry := true } } := rfl

/-- R103: any other frame of the leader is taken by the follower in RUN. -/
theorem receive_other_in_retrain (hout : s.inReset = false) (hsending : s.fe.sending = none)
    (hstate : s.slc.state = .retrain) (hrole : s.slc.role = .follower) (hgood : frameGood k h p = true)
    (htrain : k ≠ .train) (hhello : k ≠ .hello) (hack : k = .trainAck → p = [0]) :
    receive k h p s = receive k h p (enterRunFromRetrain s) := by
  have hmark : frameRole k p ≠ some .follower := by
    cases k <;> first | contradiction | (rw [hack rfl]; decide) | simp [frameRole, FrameKind.isLink]
  have entered : (enterRunFromRetrain s).slc.state = .run ∧ (enterRunFromRetrain s).slc.role = .follower ∧
      (enterRunFromRetrain s).fe.sending = none ∧ (enterRunFromRetrain s).inReset = false := by
    simp [enterRunFromRetrain, startRun_eq, hrole, hout, FrameEngine.reset]
  obtain ⟨hrun, hfollower, hquiet, hup⟩ := entered
  rw [receive_at_follower hout hsending (by rw [hstate]; decide) hgood hrole,
    receive_at_follower hup hquiet (by rw [hrun]; decide) hgood hfollower,
    followerTakes_other_in_retrain hmark hstate htrain hhello, followerTakes_in_turn h p (.inl hrun) hmark]
end

/-! A TEST_RESULT and the result limit (R174). -/

theorem endReasonOfByte_code (r : EndReason) : EndReason.ofByte r.code = some r := by
  cases r <;> rfl

theorem takeTestResult_of_other {p : List Byte} {s : State} (h : s.lt.phase ≠ .awaitResult) : takeTestResult p s = s :=
  if_pos h

theorem takeTestResult_of_awaited {p : List Byte} {s : State} {carried : EndReason} (h : s.lt.phase = .awaitResult)
    (hcarried : carried.code = p.getD 8 0) :
    let t : LinkTester := { s.lt with
      bits := nat40 p, errors := nat16 (p.getD 5 0) (p.getD 6 0), firstError := decide (p.getD 7 0 = 1)
      endReason := if s.lt.endReason = .stopped then .stopped else carried, resultDue := none }
    takeTestResult p s = endTest (raiseTestDone t.endReason t.errors (completeOwner (testAnswer t) { s with lt := t })) := by
  unfold takeTestResult
  rw [if_neg (not_not.mpr h), ← hcarried, endReasonOfByte_code]
  rfl

theorem exec_testResult {h : FrameHeader} {p : List Byte} {s s1 : State} (hd : DeliveredAt .testResult h p s s1) :
    exec (.testResult h p) s = .next (takeTestResult p s1) :=
  receive_of_deliveredAt hd

theorem exec_resultLimit {s : State} (h : s.inReset = false) : exec .resultLimit s = .next (resultLimit s) :=
  exec_of_onChip h rfl

theorem resultLimit_of_none {s : State} (h : s.lt.resultDue = none) : resultLimit s = s := by
  rw [resultLimit, h]

theorem resultLimit_of_due {s : State} {due : Moment} (h : s.lt.resultDue = some due) :
    resultLimit s = endTest (completeOwner ⟨.linkDown, 0, 0, []⟩ (s.reach due)) := by
  rw [resultLimit, h]
  rfl

/-- Settles O48: the owner's tag, the test settled by owner and generator, its result sent and taken, then the frames of
RETRAIN at the leader and the follower. -/
theorem testResultsAreSettled : Obligations.TestResultsAreSettled := by
  unfold Obligations.TestResultsAreSettled
  intro ended results done
  refine ⟨fun a s => ⟨fun t g howner hstate hgen => ?_, fun t g howner hother => ?_, completeOwner_of_none⟩, fun s => ?_,
    fun s => rfl, fun h p s s1 hd => ?_, fun s hout => ?_,
    fun h s hout hsending hret hstate hrole hopen hmark hgood => ?_, startRun_eq,
    fun h s hout hsending hret hstate => ⟨fun hrole hopen => ⟨fun hmark hgood => ?_, fun hmark => ?_⟩,
      fun hrole hclosed => ?_, fun hrole => ⟨fun hmark => ?_, fun hmark => ?_, fun rev cap => ?_,
        fun k p hgood htrain hhello hack => ?_⟩⟩⟩
  · rw [completeOwner_of_some howner, if_pos ⟨hstate, hgen⟩]
  · rw [completeOwner_of_some howner, if_neg (by tauto)]
  · intro s1
    rw [settleTest_eq]
    refine ⟨fun hphase => if_pos hphase, fun hphase => ?_⟩
    rw [if_neg (not_not.mpr hphase)]
    refine ⟨fun howner hgen => ?_, fun howner hgen => ?_, fun howner hgen => ?_, fun howner hgen => ?_⟩ <;>
      simp only [howner, hgen] <;> rfl
  · have hlt := (Handshake.deliveredAt_test hd).1
    rw [exec_testResult hd, ← hlt]
    refine ⟨fun hphase => by rw [takeTestResult_of_other hphase], fun carried hphase hcarried => ?_⟩
    rw [takeTestResult_of_awaited hphase hcarried]
    rfl
  · rw [exec_resultLimit hout]
    exact ⟨fun hdue => by rw [resultLimit_of_none hdue],
      fun due hdue => congrArg Host.Outcome.next (resultLimit_of_due hdue)⟩
  all_goals
    have htest : s.slc.state ≠ .test := by rw [hstate]; decide
    obtain ⟨hready, hcount, hcap, hfe⟩ := takeReady_link h.hostReady s
  · refine (receive_at_leader hout hsending htest (frameGood_trainAck hret (by decide)) hrole).trans ?_
    rw [leaderTakes_trainAck_in_retrain rfl hstate hopen,
      takeTrainAck_fourth (hready.trans hstate) hmark (hcount.trans hgood), enterRunFromRetrain, ← hcap]
  · refine (receive_at_leader hout hsending htest (frameGood_trainAck hret (by decide)) hrole).trans ?_
    rw [leaderTakes_trainAck_in_retrain rfl hstate hopen, takeTrainAck_marked (hready.trans hstate) hmark (by rwa [hcount]),
      hcount, hfe]
  · refine (receive_at_leader hout hsending htest (frameGood_trainAck hret (by decide)) hrole).trans ?_
    rw [leaderTakes_trainAck_in_retrain rfl hstate hopen, takeTrainAck_unmarked (hready.trans hstate) hmark, hfe]
  · exact (receive_at_leader hout hsending htest (frameGood_trainAck hret (by decide)) hrole).trans
      (leaderTakes_trainAck_of_closed rfl hstate hclosed)
  · refine (receive_at_follower hout hsending htest (frameGood_train hret (by decide)) hrole).trans ?_
    rw [followerTakes_marked_in_retrain (by decide) hstate hmark, answerTrain, hcount]
    rfl
  · exact (receive_at_follower hout hsending htest (frameGood_train hret (by decide)) hrole).trans
      (followerTakes_loss_in_retrain (by decide) hstate (.inl ⟨rfl, hmark⟩))
  · exact (receive_at_follower hout hsending htest (frameGood_hello hret rev cap (by decide)) hrole).trans
      (followerTakes_loss_in_retrain (leaderHello_not_follower rev cap) hstate (.inr rfl))
  · rw [exec_frameCommand, exec_frameCommand]
    exact receive_other_in_retrain hout hsending hstate hrole hgood htrain hhello hack

end Sys2Proof.Proofs.TestResults

/-! Writes at the host port (chapter 10). -/

namespace Sys2Proof.Proofs.PortWrites
open Sys2Proof Sys2Proof.Machine Sys2Proof.Proofs.Rows

/-! What a byte does at an offset (R177, R178). -/

/-- The offsets at which a written byte acts by itself, but for the filter entries and the staging area. -/
def writeOffsets : List Nat := [0x04, 0x05, 0x06, 0x07, 0x08, 0x09, 0x0A, 0x0B, 0x20, 0x22, 0x24, 0x25, 0x26]

theorem writeAt_of_other {off : Byte} (b : Byte) (s : State) (h : off.toNat ∉ writeOffsets) : writeAt off b s =
    if 0x10 ≤ off.toNat ∧ off.toNat ≤ 0x1F then
      if off.getLsbD 0 then writeFilter (filterNumber off) b s else writeFilterHold (filterNumber off) b s
    else if 0x40 ≤ off.toNat then writeStaging (off.toNat - 0x40) b s
    else s := by
  unfold writeAt
  split
  case h_14 => rfl
  all_goals exact absurd (by simp [writeOffsets, *]) h

theorem eq_ofNat_of_toNat {off : Byte} {n : Nat} (h : off.toNat = n) : off = BitVec.ofNat 8 n := by
  rw [← h, BitVec.ofNat_toNat, BitVec.setWidth_eq]

theorem writeAt_filterOffset (n : Fin 8) (b : Byte) (s : State) : writeAt (filterOffset n) b s = writeFilter n b s := by
  fin_cases n <;> rfl

theorem writeAt_of_filterHold {off : Byte} {n : Fin 8} (b : Byte) (s : State) (h : off.toNat = 0x10 + 2 * n.val) :
    writeAt off b s = writeFilterHold n b s := by
  rw [eq_ofNat_of_toNat h]
  fin_cases n <;> rfl

theorem writeAt_of_staging {off : Byte} {n : Fin 40} (b : Byte) (s : State) (h : off.toNat = 0x40 + n.val) :
    writeAt off b s = { s with hp.staging := vput s.hp.staging n b } := by
  have index : off.toNat - 0x40 = n.val := by omega
  rw [writeAt_of_other b s (by simp [writeOffsets]; omega), if_neg (by omega), if_pos (by omega), index]
  exact dif_pos n.isLt

theorem writeAt_of_ignored {off : Byte} (b : Byte) (s : State)
    (h : off.toNat ≤ 0x03 ∨ (0x0C ≤ off.toNat ∧ off.toNat ≤ 0x0F) ∨ off.toNat = 0x21 ∨ off.toNat = 0x23 ∨
      (0x27 ≤ off.toNat ∧ off.toNat ≤ 0x3F) ∨ 0x68 ≤ off.toNat) : writeAt off b s = s := by
  rw [writeAt_of_other b s (by simp [writeOffsets]; omega), if_neg (by omega)]
  split
  · exact dif_neg (by omega)
  · rfl

/-! BUS_SPEED and the filter entries (R43, R56, R178, R180). -/

theorem exec_busSpeed (b : Byte) {s : State} (h : portReady s) :
    exec (.busSpeed b) s = .next (setPointer 0x08#8 (writeSpeed b (beginWrite s))) :=
  exec_of_portWrite (off := 0x07#8) (b := b) h rfl

theorem writeSpeed_of_other {b : Byte} (s : State) (h : 2 ≤ b.toNat) : writeSpeed b s = s := by
  have hzero : b ≠ 0 := by bv_omega
  have hone : b ≠ 1 := by bv_omega
  rw [writeSpeed, BusSpeed.ofByte, if_neg hzero, if_neg hone]

theorem exec_filter (n : Fin 8) (b : Byte) {s : State} (h : portReady s) :
    exec (.filter n b) s = .next (setPointer (BitVec.ofNat 8 (0x12 + 2 * n.val)) (writeFilter n b (beginWrite s))) := by
  have next : filterOffset n + 1 = BitVec.ofNat 8 (0x12 + 2 * n.val) := by
    fin_cases n <;> rfl
  rw [exec_of_portWrite (off := filterOffset n) (b := b) h rfl, next, writeAt_filterOffset]

theorem first_valid (e : FilterEntry) : e.first.getLsbD 7 = e.valid := by
  cases hv : e.valid <;> simp [FilterEntry.first, flagByte, hv]

theorem lowBits_eq (b : Byte) : b.extractLsb' 0 7 = b.setWidth 7 := BitVec.eq_of_toNat_eq rfl

theorem first_address (e : FilterEntry) : e.first.setWidth 7 = e.address := by
  refine BitVec.eq_of_getLsbD_eq fun i hi => ?_
  simp [FilterEntry.first, hi]

/-- R180: the first byte of a filter entry, as held or as it stands. -/
def firstByte (n : Fin 8) (s : State) : Byte :=
  if s.hp.filterHold[n].written then s.hp.filterHold[n].byte else s.da.filter[n].first

/-! REGISTER_WRITE (R176). -/

section
variable {s : State}

theorem exec_pointer (a : BitVec 7) (p : Byte) (h : portReady s) : exec (.registerWrite (.pointer a p)) s =
    .next (if a = s.hp.addr then setPointer p (beginWrite s) else standBy s) :=
  exec_of_onPort (f := registerWrite (.pointer a p)) h rfl

theorem exec_data_of_other (b : Byte) (h : portReady s) (htaking : s.hp.taking ≠ some .writing) :
    exec (.registerWrite (.data b)) s = .next s :=
  (exec_of_onPort (f := registerWrite (.data b)) h rfl).trans (congrArg Host.Outcome.next (if_neg htaking))

theorem exec_data (b : Byte) (h : portReady s) (htaking : s.hp.taking = some .writing) :
    exec (.registerWrite (.data b)) s =
      .next (setPointer (s.hp.pointer + 1) (writeAt s.hp.pointer b (beginWrite s))) :=
  (exec_of_onPort (f := registerWrite (.data b)) h rfl).trans (congrArg Host.Outcome.next (if_pos htaking))

/-- A further byte of a write transaction at an offset with a row of its own acts as that row. -/
theorem exec_data_of_row {b off : Byte} {c : Instr} (h : portReady s) (htaking : s.hp.taking = some .writing)
    (hoff : s.hp.pointer = off) (row : exec c s = .next (onPort (portWrite off b) s)) :
    exec (.registerWrite (.data b)) s = exec c s := by
  rw [exec_data b h htaking, exec_of_portWrite h row, hoff]
end

/-- Settles O49: the transactions, the rows with a meaning of their own, REGISTER_WRITE by offset, the port that is not
ready. -/
theorem portWritesActByTheirOffset : Obligations.PortWritesActByTheirOffset := by
  refine ⟨fun d s => ⟨rfl, rfl, rfl, rfl⟩, fun b s h => ⟨?_, ?_, fun hb => ?_⟩, fun n b s h => ?_,
    fun a p s h => ⟨fun ha => ?_, fun ha => ?_⟩, fun b s h => exec_data_of_other b h, fun b s h htaking => ?_,
    fun k b low n a p w s h c hc => ?_⟩
  · rintro rfl
    exact exec_busSpeed 0 h
  · rintro rfl
    exact exec_busSpeed 1 h
  · rw [exec_busSpeed b h, writeSpeed_of_other _ hb]
  · refine ⟨FilterEntry.ofBytes (firstByte n s) b, exec_filter n b h, rfl, rfl, fun hheld => ⟨?_, ?_⟩,
      fun hheld => ⟨?_, ?_⟩⟩
    · rw [firstByte, if_pos hheld]
      rfl
    · rw [firstByte, if_pos hheld]
      exact lowBits_eq _
    · rw [firstByte, if_neg (by rw [hheld]; decide)]
      exact first_valid _
    · rw [firstByte, if_neg (by rw [hheld]; decide)]
      exact (lowBits_eq _).trans (first_address _)
  · rw [exec_pointer a p h, if_pos ha]
  · rw [exec_pointer a p h, if_neg ha]
  · intro at_
    refine ⟨fun x hx hat => ?_, fun n hat => ?_, fun n hat => ?_, fun hat => ?_, fun n hat => ?_, fun hat => ?_⟩
    · have hoff : s.hp.pointer = BitVec.ofNat 8 x.1 := eq_ofNat_of_toNat hat
      simp only [List.mem_cons, List.not_mem_nil, or_false] at hx
      rcases hx with rfl | rfl | rfl | rfl | rfl | rfl | rfl | rfl | rfl | rfl | rfl | rfl <;>
        exact exec_data_of_row h htaking hoff rfl
    · exact exec_data_of_row h htaking (eq_ofNat_of_toNat hat) rfl
    · rw [exec_data b h htaking, writeAt_of_filterHold b _ hat]
      rfl
    · rw [exec_data b h htaking, eq_ofNat_of_toNat hat]
      rfl
    · rw [exec_data b h htaking, writeAt_of_staging b _ hat]
      rfl
    · rw [exec_data b h htaking, writeAt_of_ignored b _ hat]
  · have submits : exec (submitCommand k b) s = .next (onPort (portWrite 0x20#8 b) s) := by cases k <;> rfl
    have silent (f : State → State) : Host.Outcome.next (onPort f s) = (.next s : Host.Outcome State Fault Refusal) :=
      congrArg Host.Outcome.next (onPort_of_not_ready f h)
    simp only [List.mem_cons, List.not_mem_nil, or_false] at hc
    rcases hc with rfl | rfl | rfl | rfl | rfl | rfl | rfl | rfl | rfl | rfl | rfl | rfl | rfl | rfl | rfl | rfl | rfl |
      rfl | rfl
    · exact submits.trans (silent _)
    all_goals exact silent _

end Sys2Proof.Proofs.PortWrites

/-! Reads at the host port (chapter 10). -/

namespace Sys2Proof.Proofs.PortReads
open Sys2Proof Sys2Proof.Machine Sys2Proof.Proofs.Rows Sys2Proof.Proofs.Masks Sys2Proof.Proofs.PortWrites

/-! The heads as laid out (R183, R184). -/

theorem sideCode_eq (side : Side) : side.code = if side = .near then 0 else 1 := by
  cases side <;> rfl

theorem originCode_eq (o : Origin) : o.code = if o = .localHost then 0 else 1 := by
  cases o <;> rfl

theorem completionHead_of_nil {s : State} (h : s.rt.cq = []) : completionHead s = List.replicate 40 0 := by
  rw [completionHead, h]

theorem completionHead_of_cons {s : State} {c : Completion} {rest : List Completion} (h : s.rt.cq = c :: rest) :
    completionHead s =
      [BitVec.ofNat 8 c.tag.val, c.gen.setWidth 8, c.kind.code, if c.side = .near then 0 else 1, c.answer.status.code,
        BitVec.ofNat 8 c.answer.count, c.answer.extra.extractLsb' 8 8, c.answer.extra.extractLsb' 0 8] ++
      c.answer.data.take 32 ++ List.replicate (32 - (c.answer.data.take 32).length) 0 := by
  rw [completionHead, h, ← sideCode_eq]
  unfold completionBytes
  dsimp only
  rw [List.length_append, show 40 = 8 + 32 from rfl]
  exact congrArg (fun n => _ ++ List.replicate n 0) (Nat.add_sub_add_left 8 32 _)

theorem eventHead_of_nil {s : State} (h : s.eu.eventQueue = []) : eventHead s = List.replicate 6 0 := by
  rw [eventHead, h]

theorem eventHead_of_cons {s : State} {r : EventRecord} {rest : List EventRecord} (h : s.eu.eventQueue = r :: rest) :
    eventHead s =
      [r.kind.code, if r.source = .localHost then 0 else 1, r.detail, r.arg, BitVec.ofNat 8 r.count, 0] := by
  rw [eventHead, h, ← originCode_eq]
  rfl

/-! The registers that hold several fields (R8, R178). -/

theorem hostCtrl_fields : ∀ ready cq eq off : Bool,
    let v := flagByte ready ||| (flagByte cq <<< 1) ||| (flagByte eq <<< 2) ||| (flagByte off <<< 3)
    v.getLsbD 0 = ready ∧ v.getLsbD 1 = cq ∧ v.getLsbD 2 = eq ∧ v.getLsbD 3 = off ∧ v.toNat < 16 := by
  decide

theorem second_fields : ∀ canRead canWrite : Bool,
    let v := flagByte canRead ||| (flagByte canWrite <<< 1)
    v.getLsbD 0 = canRead ∧ v.getLsbD 1 = canWrite ∧ v.toNat < 4 := by
  decide

theorem getLsbD_tagsInUse (s : State) (t : Tag) :
    (tagsInUse s).getLsbD t.val = decide (s.rt.tags[t].state ≠ .free) := by
  have step : (fun (n : Nat) (t : Tag) => if s.rt.tags[t].state = .free then n else n + 2 ^ t.val) =
      fun n t => if decide (s.rt.tags[t].state ≠ .free) = true then n + 2 ^ t.val else n := by
    funext n t
    by_cases h : s.rt.tags[t].state = .free <;> simp [h, -Fin.getElem_fin]
  rw [tagsInUse, toByte, BitVec.getLsbD_ofNat, step, (foldl_bits fun t => decide (s.rt.tags[t].state ≠ .free)).2 t,
    decide_eq_true t.isLt, Bool.true_and]

/-! What an offset reads (R178). -/

/-- The offsets that read a register of their own, but for the filter entries and the staging area. -/
def readOffsets : List Nat :=
  [0x00, 0x01, 0x02, 0x03, 0x04, 0x06, 0x07, 0x08, 0x09, 0x0C, 0x0D, 0x0E, 0x21, 0x23, 0x26]

theorem readAt_of_other {off : Byte} (s : State) (h : off.toNat ∉ readOffsets) : readAt off s =
    if 0x10 ≤ off.toNat ∧ off.toNat ≤ 0x1F then
      if off.getLsbD 0 then s.da.filter[filterNumber off].second else s.da.filter[filterNumber off].first
    else if 0x40 ≤ off.toNat ∧ off.toNat ≤ 0x67 then stagedByte s.hp.staging (off.toNat - 0x40)
    else 0 := by
  unfold readAt
  split
  case h_16 => rfl
  all_goals exact absurd (by simp [readOffsets, *]) h

theorem readAt_of_staging {off : Byte} {n : Fin 40} (s : State) (h : off.toNat = 0x40 + n.val) :
    readAt off s = s.hp.staging[n] := by
  have index : off.toNat - 0x40 = n.val := by omega
  rw [readAt_of_other s (by simp [readOffsets]; omega), if_neg (by omega), if_pos (by omega), index,
    Accepted.stagedByte_eq _ n.isLt]
  rfl

theorem readAt_of_nothing {off : Byte} (s : State)
    (h : off.toNat = 0x0F ∨ (0x27 ≤ off.toNat ∧ off.toNat ≤ 0x3F) ∨ (0x68 ≤ off.toNat ∧ off.toNat ≤ 0x7F) ∨
      (0xA8 ≤ off.toNat ∧ off.toNat ≤ 0xAF) ∨ 0xB6 ≤ off.toNat) : readAt off s = 0 := by
  rw [readAt_of_other s (by simp [readOffsets]; omega), if_neg (by omega), if_neg (by omega)]

theorem readAt_of_first {off : Byte} {n : Fin 8} (s : State) (h : off.toNat = 0x10 + 2 * n.val) :
    readAt off s = s.da.filter[n].first := by
  obtain rfl := eq_ofNat_of_toNat h
  fin_cases n <;> rfl

theorem readAt_of_second {off : Byte} {n : Fin 8} (s : State) (h : off.toNat = 0x11 + 2 * n.val) :
    readAt off s = s.da.filter[n].second := by
  obtain rfl := eq_ofNat_of_toNat h
  fin_cases n <;> rfl

/-! The byte sent (R176, R180, R183, R184). -/

section
variable {s : State}

theorem sendByte_of_completion (hlow : 0x80 ≤ s.hp.pointer.toNat) (hhigh : s.hp.pointer.toNat ≤ 0xA7) :
    sendByte s = setPointer (s.hp.pointer + 1) (readCompletion s.hp.pointer s) := by
  unfold sendByte
  dsimp only
  rw [if_neg (by omega), if_pos ⟨hlow, hhigh⟩]

theorem sendByte_of_event (hlow : 0xB0 ≤ s.hp.pointer.toNat) (hhigh : s.hp.pointer.toNat ≤ 0xB5) :
    sendByte s = setPointer (s.hp.pointer + 1) (readEvent s.hp.pointer s) := by
  unfold sendByte
  dsimp only
  rw [if_neg (by omega), if_neg (by omega), if_pos ⟨hlow, hhigh⟩]

theorem sendByte_of_crc (h : s.hp.pointer.toNat = 0x0A ∨ s.hp.pointer.toNat = 0x0B) :
    sendByte s = setPointer (s.hp.pointer + 1) (readCrc s.hp.pointer s) := by
  unfold sendByte
  dsimp only
  rw [if_pos h]

theorem sendByte_of_register (hcrc : ¬ (s.hp.pointer.toNat = 0x0A ∨ s.hp.pointer.toNat = 0x0B))
    (hcq : ¬ (0x80 ≤ s.hp.pointer.toNat ∧ s.hp.pointer.toNat ≤ 0xA7))
    (heq : ¬ (0xB0 ≤ s.hp.pointer.toNat ∧ s.hp.pointer.toNat ≤ 0xB5)) :
    sendByte s = setPointer (s.hp.pointer + 1) { s with hp.sent := readAt s.hp.pointer s } := by
  unfold sendByte
  dsimp only
  rw [if_neg hcrc, if_neg hcq, if_neg heq]

theorem readCrc_high (h : s.hp.pointer.toNat = 0x0A) : readCrc s.hp.pointer s =
    { s with hp.crcCopy := some s.fe.crcErrors, hp.sent := toByte (s.fe.crcErrors / 256) } :=
  if_pos (eq_ofNat_of_toNat h)

theorem readCrc_low (h : s.hp.pointer.toNat = 0x0B) : readCrc s.hp.pointer s =
    { s with hp.sent := toByte (s.hp.crcCopy.getD s.fe.crcErrors) } :=
  if_neg (by rw [eq_ofNat_of_toNat h]; decide)

/-! A read row (R176). -/

theorem exec_read {c : Option (BitVec 7) → Option Byte → Instr} (a : Option (BitVec 7)) (p : Option Byte) (h : portReady s)
    (hc : c ∈ ([.completionHeadRead, .eventHeadRead, .crcErrorsRead] :
      List (Option (BitVec 7) → Option Byte → Instr))) : exec (c a p) s = .next (portRead a p s) := by
  simp only [List.mem_cons, List.not_mem_nil, or_false] at hc
  rcases hc with rfl | rfl | rfl <;> exact exec_of_onPort (f := portRead a p) h rfl

/-- The chip at a byte read: only the transaction, its copies and the pointer may differ. -/
def atRead (taking : Option PortDirection) (cqCopy eqCopy : Option (List Byte)) (crcCopy : Option Nat) (pointer : Byte)
    (s : State) : State :=
  { s with hp := { s.hp with
      taking := taking, cqCopy := cqCopy, eqCopy := eqCopy, crcCopy := crcCopy, pointer := pointer } }

theorem portRead_eq_sendByte {a : Option (BitVec 7)} {p : Option Byte} {u : State}
    (h : (a = some s.hp.addr ∧ p = some u.hp.pointer ∧ u = setPointer u.hp.pointer (beginRead s)) ∨
      (a = some s.hp.addr ∧ p = none ∧ u = beginRead s) ∨ (a = none ∧ s.hp.taking = some .reading ∧ u = s)) :
    portRead a p s = sendByte u ∧ ∃ taking cqCopy eqCopy crcCopy pointer,
      u = atRead taking cqCopy eqCopy crcCopy pointer s := by
  rcases h with ⟨rfl, rfl, hu⟩ | ⟨rfl, rfl, rfl⟩ | ⟨rfl, htaking, rfl⟩
  · refine ⟨(if_pos rfl).trans (congrArg sendByte hu.symm), some .reading, none, none, none, u.hp.pointer, hu⟩
  · exact ⟨if_pos rfl, some .reading, none, none, none, s.hp.pointer, rfl⟩
  · exact ⟨if_pos htaking, u.hp.taking, u.hp.cqCopy, u.hp.eqCopy, u.hp.crcCopy, u.hp.pointer, rfl⟩
end

/-- Settles O50: the codes, the heads, the transactions of others, then the byte read by its offset. -/
theorem readsShowTheRegistersAndHeads : Obligations.ReadsShowTheRegistersAndHeads := by
  refine ⟨⟨rfl, rfl, rfl, rfl, rfl, rfl, rfl, rfl, rfl, fun _ => rfl, rfl, rfl⟩,
    fun s => ⟨completionHead_of_nil, fun c rest => completionHead_of_cons, eventHead_of_nil,
      fun r rest => eventHead_of_cons⟩,
    fun a p s h c hc => ⟨fun ha => ?_, fun htaking => ?_⟩, fun a p s u h hread => ?_⟩
  · rw [exec_read (some a) p h hc]
    exact congrArg Host.Outcome.next (if_neg ha)
  · rw [exec_read none p h hc]
    exact congrArg Host.Outcome.next (if_neg htaking)
  · obtain ⟨hsend, taking, cqCopy, eqCopy, crcCopy, pointer, hu⟩ := portRead_eq_sendByte hread
    have reads (c) (hc : c ∈ ([.completionHeadRead, .eventHeadRead, .crcErrorsRead] :
        List (Option (BitVec 7) → Option Byte → Instr))) : exec (c a p) s = .next (sendByte u) :=
      (exec_read a p h hc).trans (congrArg Host.Outcome.next hsend)
    have cqRead := reads .completionHeadRead (by simp)
    have eqRead := reads .eventHeadRead (by simp)
    have crcRead := reads .crcErrorsRead (by simp)
    clear hread hsend reads
    subst hu
    intro off n sends
    rw [cqRead, eqRead, crcRead]
    have register (hreg : n ≠ 0x0A ∧ n ≠ 0x0B ∧ ¬ (0x80 ≤ n ∧ n ≤ 0xA7) ∧ ¬ (0xB0 ≤ n ∧ n ≤ 0xB5)) :
        sendByte (atRead taking cqCopy eqCopy crcCopy pointer s) =
          sends (readAt off (atRead taking cqCopy eqCopy crcCopy pointer s)) := by
      obtain ⟨ha, hb, hcq, heq⟩ := hreg
      exact sendByte_of_register (not_or.mpr ⟨ha, hb⟩) hcq heq
    refine ⟨fun hlow hhigh => ?_, fun hlow hhigh => ?_, fun hn => ?_, fun hn => ⟨fun count hcount => ?_, fun hcount => ?_⟩,
      fun x hx hn => ?_, fun m hn => ?_, fun hn => ?_, fun hn => ?_, fun m hn => ?_, fun m hn => ?_, fun hn => ?_⟩
    · rw [sendByte_of_completion hlow hhigh]
      cases cqCopy <;> rfl
    · rw [sendByte_of_event hlow hhigh]
      cases eqCopy <;> rfl
    · rw [sendByte_of_crc (.inl hn), readCrc_high hn]
      rfl
    · obtain rfl : crcCopy = some count := hcount
      rw [sendByte_of_crc (.inr hn), readCrc_low hn]
      rfl
    · obtain rfl : crcCopy = none := hcount
      rw [sendByte_of_crc (.inr hn), readCrc_low hn]
      rfl
    · have hoff : off = BitVec.ofNat 8 x.1 := eq_ofNat_of_toNat hn
      simp only [List.mem_cons, List.not_mem_nil, or_false] at hx
      rcases hx with rfl | rfl | rfl | rfl | rfl | rfl | rfl | rfl | rfl | rfl | rfl | rfl | rfl | rfl | rfl | rfl | rfl |
        rfl <;> (rw [register (by omega), hoff]; rfl)
    · rw [register (by omega), readAt_of_staging _ hn]
      rfl
    · refine ⟨_, congrArg Host.Outcome.next (register (by omega)), ?_⟩
      rw [eq_ofNat_of_toNat hn]
      exact hostCtrl_fields _ _ _ _
    · refine ⟨_, congrArg Host.Outcome.next (register (by omega)), ?_⟩
      rw [eq_ofNat_of_toNat hn]
      exact getLsbD_tagsInUse s
    · refine ⟨_, congrArg Host.Outcome.next (register (by omega)), ?_⟩
      rw [readAt_of_first _ hn]
      exact ⟨first_valid _, first_address _⟩
    · refine ⟨_, congrArg Host.Outcome.next (register (by omega)), ?_⟩
      rw [readAt_of_second _ hn]
      exact second_fields _ _
    · rw [register (by omega), readAt_of_nothing _ hn]

end Sys2Proof.Proofs.PortReads

/-! Reset, its release and start-up, and the pair's pins (chapter 11, R191). -/

namespace Sys2Proof.Proofs.Reset
open Sys2Proof Sys2Proof.Machine Sys2Proof.Proofs.Rows

/-! The reset values of the lines (R70). -/

theorem reset_line (pins : LineMask) (l : LineNo) :
    (LineBlock.reset pins).lines[l] = LineRecord.reset l (pins.getLsbD l.val) :=
  List.getElem_ofFn (f := fun l : LineNo => LineRecord.reset l (pins.getLsbD l.val)) _

/-! RSTN or the supply going low (R187). -/

theorem rstnLow_of_short {ns : Nat} (s : State) (h : ns < 100) : rstnLow (.rstn ns) s = s := by
  have taken : resetTaken (.rstn ns) s.free = false := if_pos h
  have closed : resetOpen (.rstn ns) = false := by simp [resetOpen, h]
  unfold rstnLow
  rw [taken, closed]
  rfl

theorem rstnLow_of_long {ns : Nat} (s : State) (h : 1000 ≤ ns) : rstnLow (.rstn ns) s = heldInReset s := by
  have notShort : ¬ ns < 100 := by omega
  have taken : resetTaken (.rstn ns) s.free = true := by simp [resetTaken, notShort, h]
  have closed : resetOpen (.rstn ns) = false := by simp [resetOpen]; omega
  unfold rstnLow
  rw [taken, closed]
  rfl

theorem rstnLow_of_open {ns : Nat} (s : State) (hlow : 100 ≤ ns) (hhigh : ns < 1000) : rstnLow (.rstn ns) s =
    if resetTaken (.rstn ns) s.free then heldInReset { s with free := s.free + 1 } else { s with free := s.free + 1 } := by
  have opened : resetOpen (.rstn ns) = true := by simp [resetOpen, hlow, hhigh]
  unfold rstnLow
  rw [opened]
  rfl

/-! The release out of reset (R188, R189, section 11.4). -/

/-- The chip after its release, by the four fields that depend on how the link starts. -/
def released (state : LinkState) (trainDue : Option Moment) (sending : Option Frame) (sendEnd : Moment) (x : Straps)
    (pins : LineMask) (s : State) : State :=
  { State.cleared (strapRole x) x.spanEn (strapAddress x) pins s.now with
    free := s.free, pending := s.pending
    slc := { LinkController.reset (strapRole x) x.spanEn with state := state, trainDue := trainDue }
    fe := { FrameEngine.reset with sending := sending, sendEnd := sendEnd } }

section
variable {x : Straps} {s : State}

theorem rstnRelease_of_out (pins : LineMask) (h : s.inReset = false) : rstnRelease x pins s = s :=
  if_neg (by rw [h]; decide)

theorem rstnRelease_disabled (pins : LineMask) (h : s.inReset = true) (hspan : x.spanEn = false) :
    rstnRelease x pins s = released .disabled none none 0 x pins s := by
  unfold rstnRelease
  rw [if_pos h]
  exact if_neg (by rw [hspan]; decide)

theorem rstnRelease_listens (pins : LineMask) (h : s.inReset = true) (hspan : x.spanEn = true) :
    rstnRelease x pins s = enterListen (released .disabled none none 0 x pins s) := by
  unfold rstnRelease
  rw [if_pos h]
  exact if_pos hspan

theorem rstnRelease_follower (pins : LineMask) (h : s.inReset = true) (hspan : x.spanEn = true) (hrole : x.role = false) :
    rstnRelease x pins s = released .listen none none 0 x pins s := by
  rw [rstnRelease_listens pins h hspan]
  exact LinkTimers.enterListen_of_follower (if_neg (by rw [hrole]; decide))

theorem rstnRelease_leader (pins : LineMask) (h : s.inReset = true) (hspan : x.spanEn = true) (hrole : x.role = true) :
    rstnRelease x pins s = released .listen (some (s.now + 1000))
      (some ⟨.train, ⟨false, false, false, 0, 0, 0⟩, [0]⟩) (s.now + 12) x pins s := by
  have leader : strapRole x = .leader := if_pos hrole
  have code : (strapRole x).code = 0 := by rw [leader]; rfl
  rw [rstnRelease_listens pins h hspan, LinkTimers.enterListen_of_leader leader, LinkTimers.sendTrain_eq]
  exact congrArg (fun b => released .listen (some (s.now + 1000))
    (some ⟨.train, ⟨false, false, false, 0, 0, 0⟩, [b]⟩) (s.now + 12) x pins s) code

theorem rstnRelease_eq (pins : LineMask) (h : s.inReset = true) : ∃ state trainDue sending sendEnd,
    rstnRelease x pins s = released state trainDue sending sendEnd x pins s ∧
    (x.spanEn = false → state = .disabled ∧ trainDue = none ∧ sending = none) ∧
    (x.spanEn = true → state = .listen ∧ (x.role = false → trainDue = none ∧ sending = none) ∧
      (x.role = true → trainDue = some (s.now + 1000) ∧
        sending = some ⟨.train, ⟨false, false, false, 0, 0, 0⟩, [0]⟩ ∧ sendEnd = s.now + 12)) := by
  cases hspan : x.spanEn with
  | false => exact ⟨_, _, _, _, rstnRelease_disabled pins h hspan, fun _ => ⟨rfl, rfl, rfl⟩, nofun⟩
  | true =>
    cases hrole : x.role with
    | false => exact ⟨_, _, _, _, rstnRelease_follower pins h hspan hrole, nofun, fun _ => ⟨rfl, fun _ => ⟨rfl, rfl⟩, nofun⟩⟩
    | true =>
      exact ⟨_, _, _, _, rstnRelease_leader pins h hspan hrole, nofun, fun _ => ⟨rfl, nofun, fun _ => ⟨rfl, rfl, rfl⟩⟩⟩
end

theorem strapAddress_eq (x : Straps) :
    strapAddress x = BitVec.ofNat 7 (0x2C + (if x.addr1 then 2 else 0) + (if x.addr0 then 1 else 0)) := by
  unfold strapAddress
  cases x.addr1 <;> cases x.addr0 <;> rfl

/-! Start-up (R189). -/

theorem exec_hostPortStartUp {s : State} (h : s.inReset = false) : exec .hostPortStartUp s = .next (hostPortStartUp s) :=
  exec_of_onChip h rfl

theorem hostPortStartUp_of_none {s : State} (h : s.hp.startUp = none) : hostPortStartUp s = s := by
  rw [hostPortStartUp, h]

theorem hostPortStartUp_of_due {s : State} {due : Moment} (h : s.hp.startUp = some due) :
    hostPortStartUp s = { s.reach due with hp := { s.hp with up := true, startUp := none } } := by
  rw [hostPortStartUp, h]
  rfl

theorem onChip_in_reset (f : State → State) {s : State} (h : s.inReset = true) : onChip f s = s := by
  simp [onChip, h]

/-! The pair (R111, R171, R191). -/

theorem symbolBit_eq (b : Byte) {n : Nat} (h : n < 10) :
    symbolBit b n = if n = 0 then false else if n = 9 then true else b.getLsbD (n - 1) := by
  unfold symbolBit
  split
  · rfl
  · by_cases hstop : n = 9
    · rw [if_neg (by omega), if_pos hstop]
    · rw [if_pos (by omega), if_neg hstop]

theorem drivenByte_of_frame {s : State} {f : Frame} {k : Nat} (hout : s.inReset = false) (hsending : s.fe.sending = some f)
    (hk : s.now + (11 + f.payload.length) = s.fe.sendEnd + k) : drivenByte s = (wireBytes f)[k]? := by
  have index : s.now + frameTime f.payload.length - s.fe.sendEnd = k :=
    Nat.sub_eq_of_eq_add (hk.trans (Nat.add_comm _ _))
  unfold drivenByte
  rw [if_neg (by rw [hout]; decide), hsending]
  dsimp only
  rw [index]

theorem drivenByte_of_pattern {s : State} (hout : s.inReset = false) (hsending : s.fe.sending = none) :
    drivenByte s = s.lt.genStart.map fun start => patternByte s.lt.pattern (s.now - start) := by
  unfold drivenByte
  rw [if_neg (by rw [hout]; decide), hsending]
  rfl

theorem spanTx_of_byte {s : State} {b : Byte} {n : Nat} (hn : n < 10) (h : drivenByte s = some b) :
    spanTx n s = if n = 0 then false else if n = 9 then true else b.getLsbD (n - 1) := by
  rw [spanTx, h]
  exact symbolBit_eq b hn

theorem spanTx_of_none {s : State} (n : Nat) (h : drivenByte s = none) : spanTx n s = true := by
  rw [spanTx, h]

/-- Settles O51: held in reset, the pulse by its length, the release field by field, start-up, and the pins of the pair. -/
theorem resetHoldsAndReleaseStarts : Obligations.ResetHoldsAndReleaseStarts := by
  unfold Obligations.ResetHoldsAndReleaseStarts
  intro held
  have isHeld (s u : State) (hnow : u.now = s.now) (hpending : u.pending = s.pending) : held s (heldInReset u) := by
    refine ⟨rfl, rfl, rfl, rfl, fun _ => rfl, rfl, fun _ => rfl, fun l => ?_, rfl, rfl, rfl, rfl, rfl, hnow, hpending⟩
    rw [show (heldInReset u).lb.lines[l] = _ from reset_line 0 l]
    rfl
  refine ⟨fun s => ⟨_, rfl, isHeld s s rfl rfl⟩, fun ns s => ⟨fun h => ?_, fun h => ?_, fun hlow hhigh => ?_⟩,
    fun x pins s => ⟨fun h => ?_, fun h => ?_⟩, fun s h => ⟨fun hdue => ?_, fun due hdue => ?_⟩, fun s h => ?_,
    fun s n h hn => ⟨fun f k b hsending hk hb => ?_, fun start hsending hstart => ?_, fun hsending hstart => ?_⟩⟩
  · exact congrArg Host.Outcome.next (rstnLow_of_short s h)
  · exact ⟨_, congrArg Host.Outcome.next (rstnLow_of_long s h), isHeld s s rfl rfl⟩
  · refine ⟨_, congrArg Host.Outcome.next (rstnLow_of_open s hlow hhigh), ?_⟩
    split
    · exact ⟨rfl, .inl (isHeld s _ rfl rfl)⟩
    · exact ⟨rfl, .inr rfl⟩
  · exact congrArg Host.Outcome.next (rstnRelease_of_out pins h)
  · obtain ⟨state, trainDue, sending, sendEnd, hreleased, hdisabled, hlistens⟩ := rstnRelease_eq (x := x) pins h
    refine ⟨_, congrArg Host.Outcome.next hreleased, ?_⟩
    refine ⟨rfl, rfl, rfl, rfl, rfl, rfl, rfl, rfl, rfl, rfl, strapAddress_eq x, rfl, rfl, rfl, rfl, rfl, rfl, rfl, rfl, rfl,
      fun n => Vector.getElem_replicate n.isLt, fun n => Vector.getElem_replicate n.isLt,
      fun n => Vector.getElem_replicate n.isLt, rfl, rfl, fun i => Vector.getElem_replicate i.isLt, rfl, rfl, rfl, rfl, rfl,
      rfl, rfl, fun n => Vector.getElem_replicate n.isLt, rfl, rfl, rfl, rfl, rfl, rfl, rfl, rfl, rfl, rfl, fun l => ?_,
      rfl, rfl, rfl, rfl, rfl, rfl, rfl, rfl, rfl, rfl, rfl, rfl, rfl, hdisabled, hlistens, ?_⟩
    · intro r
      have hr : r = LineRecord.reset l (pins.getLsbD l.val) := reset_line pins l
      clear_value r
      subst hr
      exact ⟨rfl, rfl, rfl, rfl, rfl, rfl, rfl, rfl, rfl, rfl, rfl, rfl, rfl, rfl⟩
    · exact ⟨rfl, rfl, rfl, rfl, rfl, rfl, rfl, rfl, rfl, rfl, rfl, rfl, rfl, rfl, rfl, rfl, rfl, rfl, rfl, rfl,
        rfl, rfl, rfl, rfl, rfl, rfl, rfl, rfl, rfl, rfl, rfl, rfl, rfl, rfl, rfl, rfl, rfl, rfl, rfl⟩
  · rw [exec_hostPortStartUp h, hostPortStartUp_of_none hdue]
  · rw [exec_hostPortStartUp h, hostPortStartUp_of_due hdue]
  · exact congrArg Host.Outcome.next (onChip_in_reset hostPortStartUp h)
  · refine ⟨by simp [spanDe, h, hsending], spanTx_of_byte hn ?_⟩
    rw [drivenByte_of_frame h hsending hk, hb]
  · refine ⟨by simp [spanDe, h, hstart], spanTx_of_byte hn ?_⟩
    rw [drivenByte_of_pattern h hsending, hstart]
    rfl
  · refine ⟨by simp [spanDe, h, hsending, hstart], spanTx_of_none n ?_⟩
    rw [drivenByte_of_pattern h hsending, hstart]
    rfl

end Sys2Proof.Proofs.Reset
